-- ==== Sys2Proof/Word.lean ====
section
/-! DEFINITION. The words the GS-240 exchanges with its partners: link bytes, story code units and the counts that
wrap. Every other quantity of the part is a `Nat` or an `Int` in the unit its manual names (R1). -/

namespace Sys2Proof

/-- One byte of the composing link or of the exposure link (R154, R140). -/
abbrev Byte := BitVec 8

/-- One 16-bit code unit of a story (R40). -/
abbrev CodeUnit := BitVec 16

/-- A story index or an item index: an unsigned 32-bit count that wraps (R48). -/
abbrev StoryIndex := BitVec 32

/-- A line number or a page number: an unsigned 16-bit count that wraps (R61, R124). -/
abbrev Count16 := BitVec 16

/-- A galley's number (04_galleys.md, chapter opening: 0 to 3). -/
abbrev GalleyId := Fin 4

/-- A font slot's number (R18: 0..15). -/
abbrev SlotId := Fin 16

end Sys2Proof
end

