-- ==== Sys2Proof/Config.lean ====
section
/-! DEFINITION. What the manual fixes once for the part, and the one value it leaves open. -/

namespace Sys2Proof.Config

/-- The start byte of a composing link frame (R154). -/
def composingStart : Byte := 0xA5

/-- The start byte of an exposure link frame (R140). -/
def exposureStart : Byte := 0x5A

/-- The longest body of a composing link frame, in bytes (R157). -/
def maxBody : Nat := 1100

/-- The most code units a story queue holds (R43). -/
def storyCapacity : Nat := 1024

/-- The record places of the pool shared by all slots (R23). -/
def poolPlaces : Nat := 4096

/-- The most glyph records one slot holds (R23). -/
def slotRecords : Nat := 1024

/-- The most codes a rejected-code set holds (R19). -/
def rejectedCapacity : Nat := 16

/-- The most entries of an open line (R81). -/
def entryLimit : Nat := 160

/-- The most marks one base carries (R89). -/
def markLimit : Nat := 3

/-- The most records of an opportunity list (R93). -/
def opportunityLimit : Nat := 48

/-- The most line records of an output queue (R127). -/
def outputCapacity : Nat := 4

/-- The reverse allowance of the film carriage, in steps (R126). -/
def reverseAllowance : Nat := 1200

/-- Fine units to a step (R1). -/
def finePerStep : Nat := 384

/-- Fine units of one relative unit at a size of one quarter point (R1). -/
def finePerRuQp : Nat := 25

/-- The most entries a PEEK reply returns (R73). -/
def peekEntries : Nat := 40

/-- The model number of the READY notice (R164). -/
def modelNumber : Nat := 240

/-- The device revision number of the READY notice (R164). -/
def deviceRevision : Nat := 4

/-- FREE VALUE (log entry 3). R151 says that an order's failure reaches the host by an EXCEPTION notice and a UNIT_FAULT
notice 'each … by its own notice, in either order'. Whether the UNIT_FAULT notice is placed first is left open: this
constant has no body, and the step applies it to a counter of the model, `State.free`. -/
opaque unitFaultFirst : Nat → Bool

end Sys2Proof.Config
end

