-- ==== Sys2Proof/Syntax.lean ====
section
/-! DEFINITION. The commands of the GS-240: one constructor for each row of spec/opcode_table.json, with its operands.

A request row carries the target byte and the body bytes of its frame as they stood on the composing link, so that the
dispatch checks (R159) and the field checks of each owner are part of the command's meaning. A report row carries the
fields of the photo unit's report (8.2). A row that is an event of one galley or one slot carries that galley or slot;
what the galley consumes is the item at the front of its own story queue (R48). -/

namespace Sys2Proof

/-- A frame as it completed at the composing link receiver, before it is judged (R157). -/
inductive LinkFrame where
  /-- A body length of 0 or above 1,100: complete at the second length byte. -/
  | badLength
  /-- A frame collected to its check byte: kind, target, body and check as received. -/
  | whole (kind target : Byte) (body : List Byte) (check : Byte)
deriving DecidableEq, Repr

/-- What may reach the composing link receiver between the moment power is applied and the placing of READY (R175, R176).
DESIGN CHOICE (log entry 26): there is no event of the exposure link among them, for no rule says what the unit link controller does
with bytes from the photo unit in that time. -/
inductive PowerUpEvent where
  /-- A byte arrives (R154). -/
  | byte (b : Byte)
  /-- The gap timer expires (R155). -/
  | gapExpiry
  /-- A break of 100 ms or more (R156). -/
  | lineBreak
deriving DecidableEq, Repr

/-- The commands: one constructor for each row of spec/opcode_table.json, in the table's order. -/
inductive Instr where
  /-- POWER_ON (R175), with what the receiver saw before READY was placed. -/
  | powerOn (early : List PowerUpEvent)
  /-- FRAME_HELD (R158): this frame completes at the receiver. -/
  | frameHeld (f : LinkFrame)
  /-- GAP_TIMER_EXPIRY (R155). -/
  | gapTimerExpiry
  /-- BREAK_CONDITION (R156). -/
  | breakCondition
  /-- BAD_FRAME (R157): this frame, bad in its length or its check, completes. -/
  | badFrame (f : LinkFrame)
  /-- UNKNOWN (R159): a good frame of a kind that is not a request kind completes. -/
  | unknown (kind target : Byte) (body : List Byte)
  /-- TRANSMIT_START (R158). -/
  | transmitStart
  /-- STATUS (R162). -/
  | status (target : Byte) (body : List Byte)
  /-- POSITION (R78). -/
  | position (target : Byte) (body : List Byte)
  /-- SNAPSHOT (R78). -/
  | snapshot (target : Byte) (body : List Byte)
  /-- GALLEY_REPORT (R79). -/
  | galleyReport (target : Byte) (body : List Byte)
  /-- EVENT_CLEAR (R171). -/
  | eventClear (target : Byte) (body : List Byte)
  /-- EVENT_MASK (R170). -/
  | eventMask (target : Byte) (body : List Byte)
  /-- PART_RESET (R163). -/
  | partReset (target : Byte) (body : List Byte)
  /-- PART_RESET_EFFECT (R163). -/
  | partResetEffect
  /-- STORY (R44). -/
  | story (target : Byte) (body : List Byte)
  /-- PARAM (R58). -/
  | param (target : Byte) (body : List Byte)
  /-- PARAM_NOW (R59). -/
  | paramNow (target : Byte) (body : List Byte)
  /-- HALT (R66). -/
  | halt (target : Byte) (body : List Byte)
  /-- MARK_SET (R69). -/
  | markSet (target : Byte) (body : List Byte)
  /-- MARK_CLEAR (R69). -/
  | markClear (target : Byte) (body : List Byte)
  /-- GALLEY_OPEN (R57). -/
  | galleyOpen (target : Byte) (body : List Byte)
  /-- GALLEY_CLOSE_DRAIN (R76): a GALLEY CLOSE frame whose form is not DISCARD. -/
  | galleyCloseDrain (target : Byte) (body : List Byte)
  /-- GALLEY_CLOSE_DISCARD (R77): a GALLEY CLOSE frame whose form is not DRAIN. -/
  | galleyCloseDiscard (target : Byte) (body : List Byte)
  /-- RESUME (R67). -/
  | resume (target : Byte) (body : List Byte)
  /-- STEP (R68). -/
  | step (target : Byte) (body : List Byte)
  /-- RESTART (R71). -/
  | restart (target : Byte) (body : List Byte)
  /-- PEEK (R73). -/
  | peek (target : Byte) (body : List Byte)
  /-- ABANDON (R72). -/
  | abandon (target : Byte) (body : List Byte)
  /-- FLUSH (R54). -/
  | flush (target : Byte) (body : List Byte)
  /-- FONT_BEGIN (R25). -/
  | fontBegin (target : Byte) (body : List Byte)
  /-- FONT_GLYPHS (R26). -/
  | fontGlyphs (target : Byte) (body : List Byte)
  /-- FONT_KERN (R31). -/
  | fontKern (target : Byte) (body : List Byte)
  /-- FONT_END (R32). -/
  | fontEnd (target : Byte) (body : List Byte)
  /-- FONT_DROP (R34). -/
  | fontDrop (target : Byte) (body : List Byte)
  /-- FONT_QUERY (R35). -/
  | fontQuery (target : Byte) (body : List Byte)
  /-- PAGE_OPEN (R124). -/
  | pageOpen (target : Byte) (body : List Byte)
  /-- PAGE_CLOSE (R125). -/
  | pageClose (target : Byte) (body : List Byte)
  /-- UNIT_RESUME (R150). -/
  | unitResume (target : Byte) (body : List Byte)
  /-- SILENCE_TIMER_EXPIRY (R33) of a slot. -/
  | silenceTimerExpiry (slot : SlotId)
  /-- IDLE_TIMER_EXPIRY (R74) of a galley. -/
  | idleTimerExpiry (g : GalleyId)
  /-- CHAR (R84): the galley consumes the CHAR item at the front of its queue. -/
  | char (g : GalleyId)
  /-- SPACE (R92). -/
  | space (g : GalleyId)
  /-- FIXED (R92). -/
  | fixed (g : GalleyId)
  /-- PARA (R101). -/
  | para (g : GalleyId)
  /-- FONT_N (R49). -/
  | fontN (g : GalleyId)
  /-- SIZE (R50). -/
  | size (g : GalleyId)
  /-- TRACK (R50). -/
  | track (g : GalleyId)
  /-- SHIFT (R50). -/
  | shift (g : GalleyId)
  /-- DIR_LTR (R53). -/
  | dirLtr (g : GalleyId)
  /-- DIR_RTL (R53). -/
  | dirRtl (g : GalleyId)
  /-- DISC (R94). -/
  | disc (g : GalleyId)
  /-- TAG_MARK_HALT (R69). -/
  | tagMarkHalt (g : GalleyId)
  /-- QUEUE_EMPTIES (R63). -/
  | queueEmpties (g : GalleyId)
  /-- DRAIN_END (R76). -/
  | drainEnd (g : GalleyId)
  /-- SELECTION (R130). -/
  | selection
  /-- ORDER_FRAME_SENT (R148). -/
  | orderFrameSent
  /-- EXPOSURE_GAP_EXPIRY (R141). -/
  | exposureGapExpiry
  /-- EXPOSURE_FRAME_DISCARD (R141): this frame (its bytes after the start byte) completes. -/
  | exposureFrameDiscard (bytes : List Byte)
  /-- DONE_REPORT (R146). -/
  | doneReport (number : Byte)
  /-- FAULT_REPORT (R147). -/
  | faultReport (number code : Byte)
  /-- ORDER_TIMEOUT (R148). -/
  | orderTimeout
  /-- STATE_READY (R149). -/
  | stateReady
  /-- STATE_HELD (R149). -/
  | stateHeld
  /-- QUERY_TIMER_EXPIRY (R145). -/
  | queryTimerExpiry
  /-- QUERY_AFTER_RESET (R152). -/
  | queryAfterReset
  /-- BYTE_COLLECTED (R154). -/
  | byteCollected (b : Byte)
  /-- EXPOSURE_BYTE_COLLECTED (R141). -/
  | exposureByteCollected (b : Byte)
deriving DecidableEq, Repr

end Sys2Proof
end

