-- ==== Sys2Proof/Machine/State.lean ====
section
/-! DEFINITION. Every piece of state the manual gives the GS-240, as plain data, and the state right after power-on.
Lengths are `Nat` or `Int` in the unit the manual names: ru, qp, steps or fine units (R1). -/

namespace Sys2Proof.Machine

/-- No command stops the part: the manual gives every command an effect, or says that it has none. No constructor,
so nothing raises it (safe). -/
inductive Fault where
deriving DecidableEq, Repr

/-- Why a command has no meaning. -/
inductive Refusal where
  /-- Raised by `exec` alone, for a row of the table that is not modelled. Safe: the machine stops. No row is left so. -/
  | notModelled (mnemonic : String)
deriving DecidableEq, Repr

/-! ### Glyph records and font slots (The Font Store) -/

/-- How a letter joins its neighbours (R20). -/
inductive Joining where
  | none | trail | dual | link | clear
deriving DecidableEq, Repr

/-- The reading direction of a glyph record: left-to-right, right-to-left, digit, neutral, mark (R20). -/
inductive DirClass where
  | l | r | d | n | m
deriving DecidableEq, Repr

/-- A paragraph direction, or the resolved direction of an entry (R53, R105). -/
inductive Dir where
  | ltr | rtl
deriving DecidableEq, Repr

/-- A glyph image as a record names it: its number in the matrix and its advance in ru (R20). -/
structure Image where
  glyph : Nat
  advance : Nat
deriving DecidableEq, Repr

/-- Where marks attach, in ru from the glyph's origin (R20). -/
structure Anchor where
  dx : Int
  dy : Int
deriving DecidableEq, Repr

/-- A mark's offset from its base's anchor and its rise per stacked mark, in ru (R20). -/
structure MarkOffset where
  dx : Int
  dy : Int
  stack : Int
deriving DecidableEq, Repr

/-- A glyph record: every field of R20 but the check. -/
structure GlyphRecord where
  code : CodeUnit
  base : Image
  direction : DirClass
  joining : Joining
  kernClass : Fin 16
  initial : Option Image
  medial : Option Image
  final : Option Image
  mirror : Option Image
  anchor : Option Anchor
  markOffset : Option MarkOffset
deriving DecidableEq, Repr

/-- The state of a font slot (R18). -/
inductive SlotState where
  | empty | loading | provisional | valid
deriving DecidableEq, Repr

/-- The fields of a slot header that FONT BEGIN gives (R19). -/
structure Header where
  matrix : Byte
  natural : Nat
  minimum : Nat
  maximum : Nat
  missing : CodeUnit
  declared : Nat
deriving DecidableEq, Repr

/-- A slot's kern table: row of the first glyph's class, column of the second's, in ru (R19). -/
abbrev KernTable := Vector (Vector Int 16) 16

/-- A font slot (R18, R19, R33). Its records occupy as many pool places as the list is long (R23). -/
structure Slot where
  state : SlotState
  header : Option Header
  records : List GlyphRecord
  kern : KernTable
  rejected : List CodeUnit
  overflow : Bool
  silence : Bool
deriving DecidableEq, Repr

/-- The kern table of all 0 (R18). -/
def KernTable.zero : KernTable := Vector.replicate 16 (Vector.replicate 16 0)

/-- An EMPTY slot (R18, R39). -/
def Slot.empty : Slot :=
  { state := .empty, header := none, records := [], kern := KernTable.zero, rejected := [], overflow := false,
    silence := false }

/-! ### Stories (Story Streams) -/

/-- A story item as a queue holds it (R40 to R42). An operand is the unit as it was sent (R41). -/
inductive Item where
  | char (code : CodeUnit)
  | space
  | fixed
  | para
  | font (n : SlotId)
  | size (q : CodeUnit)
  | track (t : CodeUnit)
  | shift (s : CodeUnit)
  | dirLtr
  | dirRtl
  | disc (pre post noBreak : List CodeUnit)
deriving DecidableEq, Repr

/-! ### The open line (Building a Line) -/

/-- The shape a GLYPH entry is set in (R82). -/
inductive Form where
  | none | isolated | initial | medial | final
deriving DecidableEq, Repr

/-- The part an entry plays in its DISC (R82). -/
inductive DiscRole where
  | pre | post | noBreak
deriving DecidableEq, Repr

/-- An entry's DISC membership (R82): the DISC's story index and the entry's role. -/
structure DiscMember where
  number : StoryIndex
  role : DiscRole
deriving DecidableEq, Repr

/-- The fields a GLYPH entry has beyond those of every entry (R82). The advance is in fine units, the kern in ru. -/
structure GlyphPart where
  matrix : Byte
  record : GlyphRecord
  form : Form
  resolved : Bool
  advance : Nat
  kern : Int
  orphan : Bool
  substituted : Bool
  marksDropped : Bool
deriving DecidableEq, Repr

/-- The fields a MARK entry has beyond those of every entry (R82). -/
structure MarkPart where
  matrix : Byte
  record : GlyphRecord
  substituted : Bool
deriving DecidableEq, Repr

/-- An entry's kind with what that kind holds (R82). Space widths are in fine units (R8). -/
inductive EntryBody where
  | glyph (p : GlyphPart)
  | space (natural minimum maximum : Nat)
  | fixed (natural : Nat)
  | mark (p : MarkPart)
deriving DecidableEq, Repr

/-- An entry record (R82). The list of a base's marks is the run of MARK entries that follows it. -/
structure Entry where
  body : EntryBody
  code : CodeUnit
  slot : SlotId
  size : Nat
  track : Int
  shift : Int
  index : StoryIndex
  disc : Option DiscMember
deriving DecidableEq, Repr

/-- A record copy a lookup returned, with the current values of its moment, before it is settled into an entry: a
prepared text of a DISC holds these (R94 step 5), and a CHAR item settles one at once (R84). -/
structure Prepared where
  code : CodeUnit
  slot : SlotId
  matrix : Byte
  record : GlyphRecord
  substituted : Bool
  size : Nat
  track : Int
  shift : Int
  index : StoryIndex
  disc : Option DiscMember
deriving DecidableEq, Repr

/-- The kind of a break opportunity with what a DISC's record holds (R93). -/
inductive OppKind where
  | space
  | disc (number : StoryIndex) (pre post : List Prepared) (noBreak : Nat)
deriving DecidableEq, Repr

/-- A break opportunity record (R93). The place of a SPACE is the position of its entry; the place of a DISC is the
number of entries before its point. -/
structure Opp where
  place : Nat
  kind : OppKind
deriving DecidableEq, Repr

/-- The width sums of a line, in fine units (R9). -/
structure Sums where
  g : Nat
  n : Nat
  mn : Nat
  mx : Nat
  k : Nat
  tn : Nat
  tm : Nat
  tk : Nat
deriving DecidableEq, Repr

/-- All sums 0 (R9). -/
def Sums.zero : Sums := { g := 0, n := 0, mn := 0, mx := 0, k := 0, tn := 0, tm := 0, tk := 0 }

/-- A line builder (R81). A line is started exactly while `lineDepth` is present; the pending letter is the position of
the entry of unresolved form. -/
structure Builder where
  lineDepth : Option Nat
  entries : List Entry
  opps : List Opp
  pendingLetter : Option Nat
  sums : Sums
  clampMark : Bool
deriving DecidableEq, Repr

/-- The empty builder (R81). -/
def Builder.empty : Builder :=
  { lineDepth := none, entries := [], opps := [], pendingLetter := none, sums := Sums.zero, clampMark := false }

/-! ### Closed lines (Closing a Line) -/

/-- One glyph of a line as the photo unit is to expose it (R117, R118): x and y in steps. -/
structure Placement where
  matrix : Byte
  glyph : Nat
  size : Nat
  x : Nat
  y : Int
deriving DecidableEq, Repr

/-- A set of line exceptions (R121). -/
structure ExcSet where
  loose : Bool
  forced : Bool
  wide : Bool
  missing : Bool
  marks : Bool
  orphan : Bool
  clamped : Bool
  spoiled : Bool
deriving DecidableEq, Repr

/-- The empty exception set. -/
def ExcSet.none : ExcSet :=
  { loose := false, forced := false, wide := false, missing := false, marks := false, orphan := false,
    clamped := false, spoiled := false }

/-- A line record (R120). -/
structure LineRecord where
  galley : GalleyId
  number : Count16
  depth : Nat
  first : StoryIndex
  placements : List Placement
  exceptions : ExcSet
  amount : Nat
deriving DecidableEq, Repr

/-- A closed line held in its builder while the output queue is full (R61), with how many entries it was closed with
(the count GALLEY CLOSE DISCARD reports for it, R77). -/
structure HeldLine where
  record : LineRecord
  entries : Nat
deriving DecidableEq, Repr

/-! ### Galleys -/

/-- The state of a galley controller (R56). -/
inductive GalleyState where
  | off | ready | setting | starved | blocked | halted | draining | closing
deriving DecidableEq, Repr

/-- Why a galley is HALTED (R56). -/
inductive HaltCause where
  | request | mark | step | overmatter | behind | noFont
deriving DecidableEq, Repr

/-- A deferred halt cause (R56). -/
inductive Deferred where
  | mark | step
deriving DecidableEq, Repr

/-- The alignment of a galley (R57): JUSTIFY, START, END (`atEnd`) and CENTER. -/
inductive Align where
  | justify | start | atEnd | center
deriving DecidableEq, Repr

/-- A parameter set of a galley (4.3). -/
structure Params where
  measure : Nat
  xOffset : Nat
  leading : Nat
  align : Align
  direction : Dir
  hyphenation : Bool
deriving DecidableEq, Repr

/-- The parameter set that is reported as 0 (R80). -/
def Params.zero : Params :=
  { measure := 0, xOffset := 0, leading := 0, align := .justify, direction := .ltr, hyphenation := false }

/-- The kind of a stop mark (R69). -/
inductive MarkKind where
  | tag | force
deriving DecidableEq, Repr

/-- The state of a stop mark (R69). -/
inductive MarkState where
  | disarmed | armed | triggered
deriving DecidableEq, Repr

/-- A galley's stop mark (R69). -/
structure StopMark where
  kind : MarkKind
  index : StoryIndex
  state : MarkState
deriving DecidableEq, Repr

/-- A position record (R78). -/
structure PositionRecord where
  state : GalleyState
  cause : Option HaltCause
  released : Bool
  drain : Bool
  started : Bool
  pendingFlag : Bool
  fill : Nat
  itemIndex : StoryIndex
  lineNumber : Count16
  frontier : Nat
  entryCount : Nat
  carryCount : Nat
  queueLength : Nat
  slot : SlotId
  size : Nat
  track : Int
  shift : Int
deriving DecidableEq, Repr

/-- What a first-exception latch holds (R79). -/
structure ExceptionRecord where
  number : Count16
  exceptions : ExcSet
  first : StoryIndex
  amount : Nat
deriving DecidableEq, Repr

/-- One galley: its story queue (R43), controller (R56 to R80), line builder (R81) and output queue (R127). -/
structure Galley where
  state : GalleyState
  cause : Option HaltCause
  drain : Bool
  deferred : Option Deferred
  active : Params
  staged : Params
  pendingFlag : Bool
  topDepth : Nat
  lastDepth : Option Nat
  itemIndex : StoryIndex
  lineNumber : Count16
  interval : Nat
  idleTimer : Bool
  released : Bool
  mark : StopMark
  snapshot : Option PositionRecord
  latch : Option ExceptionRecord
  excCount : Nat
  slot : SlotId
  size : Nat
  track : Int
  shift : Int
  direction : Dir
  nextDirection : Option Dir
  hasEntries : Bool
  clampPending : Bool
  story : List Item
  builder : Builder
  held : Option HeldLine
  output : List LineRecord
deriving DecidableEq, Repr

/-- A galley after power-on and after PART RESET (R80, R55, R53). -/
def Galley.reset : Galley :=
  { state := .off, cause := none, drain := false, deferred := none, active := Params.zero, staged := Params.zero,
    pendingFlag := false, topDepth := 0, lastDepth := none, itemIndex := 0, lineNumber := 0, interval := 0,
    idleTimer := false, released := false, mark := { kind := .tag, index := 0, state := .disarmed }, snapshot := none,
    latch := none, excCount := 0, slot := 0, size := 0, track := 0, shift := 0, direction := .ltr,
    nextDirection := none, hasEntries := false, clampPending := false, story := [], builder := Builder.empty,
    held := none, output := [] }

/-! ### The page (The Page and the Exposure Arbiter) -/

/-- The page state (R123). -/
inductive PageState where
  | noPage | open | closing
deriving DecidableEq, Repr

/-- The page record (R123). -/
structure Page where
  state : PageState
  number : Count16
  width : Nat
  depth : Nat
  high : Nat
  lastIssued : Nat
  nextOrder : Byte
deriving DecidableEq, Repr

/-- The page record after power-on (R123). -/
def Page.powerOn : Page :=
  { state := .noPage, number := 0, width := 0, depth := 0, high := 0, lastIssued := 0, nextOrder := 0 }

/-! ### The photo unit link -/

/-- What an order asks (R142): a line of a galley, or the cut. -/
inductive OrderKind where
  | line (g : GalleyId)
  | cut
deriving DecidableEq, Repr

/-- The outstanding order (R142). -/
structure Order where
  number : Byte
  kind : OrderKind
deriving DecidableEq, Repr

/-- What ended an order badly: the unit's fault code, or the order timer (R142). -/
inductive FaultCode where
  | code (c : Byte)
  | timeout
deriving DecidableEq, Repr

/-- The last fault (R142). `cut` tells a CUT order from a LINE order. -/
structure LastFault where
  number : Byte
  cut : Bool
  fault : FaultCode
deriving DecidableEq, Repr

/-- The part's view of the photo unit (R142). -/
structure UnitView where
  known : Bool
  held : Bool
  faulted : Bool
  silent : Bool
  outstanding : Option Order
  lastFault : Option LastFault
deriving DecidableEq, Repr

/-- The unit view after power-on and PART RESET (R142). -/
def UnitView.reset : UnitView :=
  { known := false, held := false, faulted := false, silent := false, outstanding := none, lastFault := none }

/-- A link receiver: HUNT, or FRAME with the bytes collected after the start byte (R154, R141). -/
inductive Receiver where
  | hunt
  | frame (bytes : List Byte)
deriving DecidableEq, Repr

/-- A frame the part sends to the photo unit (8.2). -/
inductive ExposureFrame where
  | line (number : Byte) (depth : Nat) (placements : List Placement)
  | cut (number : Byte) (depth : Nat)
  | query
deriving DecidableEq, Repr

/-- The unit link controller (8.1 to 8.8): its receiver with the 20 ms gap measure, the frames handed to its
transmitter, the order timer (R148), the query timer (R145) and the 50 ms pause after a reset (R152). -/
structure UnitLink where
  view : UnitView
  receiver : Receiver
  gapTimer : Bool
  transmit : List ExposureFrame
  orderTimer : Bool
  queryTimer : Bool
  resetPause : Bool
deriving DecidableEq, Repr

/-- The unit link controller when READY has been placed (R152): the pause before the first QUERY runs. -/
def UnitLink.reset : UnitLink :=
  { view := UnitView.reset, receiver := .hunt, gapTimer := false, transmit := [], orderTimer := false,
    queryTimer := false, resetPause := true }

/-! ### Events and the composing link -/

/-- A pending flag's name (R167). -/
inductive Flag where
  | halted (g : GalleyId)
  | exception (g : GalleyId)
  | released (g : GalleyId)
  | closed (g : GalleyId)
  | unitHeld
  | unitFault
  | pageDone
  | fontDone
  | fontAbandoned
deriving DecidableEq, Repr

/-- The event data a set flag holds (R165, R167). -/
inductive EventData where
  | halted (cause : HaltCause)
  | exception (r : ExceptionRecord)
  | released (frontier high : Nat)
  | closed (line : Count16) (item : StoryIndex)
  | unitHeld
  | unitFault (f : LastFault)
  | pageDone (number : Count16)
  | fontDone (slot : SlotId) (valid : Bool)
  | fontAbandoned (slot : SlotId)
deriving DecidableEq, Repr

/-- The event unit (R167): the pending set in the order of R167, each set flag with its data, and the kind mask in the
order of the notice codes (true: masked). -/
structure EventUnit where
  flags : Vector (Option EventData) 21
  mask : Vector Bool 9
deriving DecidableEq, Repr

/-- The event unit after power-on and PART RESET (R174). -/
def EventUnit.reset : EventUnit :=
  { flags := Vector.replicate 21 none, mask := Vector.replicate 9 false }

/-- The result code of a reply (R160). -/
inductive Result where
  | done | full | empty | state | range | behind | lineOpen | badItem | badFrame | unknown | noPage | storeFull
deriving DecidableEq, Repr

/-- What the READY notice says of the reset (R164). -/
inductive ResetKind where
  | power | request
deriving DecidableEq, Repr

/-- A frame of the send queue (R161): a reply, a notice of an event with the flag it is for, or READY. -/
inductive TxFrame where
  | reply (kind target : Byte) (result : Result) (data : List Byte)
  | notice (flag : Flag) (data : EventData)
  | ready (kind : ResetKind)
deriving DecidableEq, Repr

/-- The composing link interface (R154 to R166). `resetPending` tells that PART RESET has been taken and its reply has
not yet been sent to its last byte (R163). -/
structure ComposingLink where
  receiver : Receiver
  gapTimer : Bool
  heldFrame : Option LinkFrame
  sendQueue : List TxFrame
  sending : Option TxFrame
  resetPending : Bool
deriving DecidableEq, Repr

/-- The interface as a reset leaves it, with its READY notice placed (R164, R166). -/
def ComposingLink.reset (kind : ResetKind) : ComposingLink :=
  { receiver := .hunt, gapTimer := false, heldFrame := none, sendQueue := [.ready kind], sending := none,
    resetPending := false }

/-! ### The whole part -/

/-- The state of the part. `selectionDue` tells that an event of R134 has called for a selection that has not been made yet.
`free` counts the free values the step has used (log entry 3) and `pending` is the queue of commands that wait, first in, first
out; both are the model's own. -/
structure State where
  link : ComposingLink
  fonts : Vector Slot 16
  galleys : Vector Galley 4
  page : Page
  selectionDue : Bool
  unit : UnitLink
  events : EventUnit
  free : Nat
  pending : List Instr
deriving DecidableEq, Repr

/-- The part right after power-on, its READY notice placed (R175): every block at its power-on values (R39, R80, R123,
R152, R166, R174). -/
def State.reset : State :=
  { link := ComposingLink.reset .power, fonts := Vector.replicate 16 Slot.empty,
    galleys := Vector.replicate 4 Galley.reset, page := Page.powerOn, selectionDue := false, unit := UnitLink.reset,
    events := EventUnit.reset, free := 0, pending := [] }

end Sys2Proof.Machine
end

