-- ==== Sys2Proof/Machine/Ops.lean ====
section
/-! DEFINITION. The shared operations: bytes and their numbers, the unit conversions, the codes of 9.7, access to
galleys, slots, page and pool, and the two links' frames as bytes. -/

namespace Sys2Proof.Machine

/-! ### Numbers and bytes (9.7, 8.2: high byte first, two's complement) -/

/-- The low byte of a number. -/
def byteOf (n : Nat) : Byte := BitVec.ofNat 8 n

/-- A signed number in one byte. -/
def signedByte (i : Int) : Byte := BitVec.ofInt 8 i

/-- An indication byte: 1 for yes and 0 for no (9.7). -/
def flagByte (b : Bool) : Byte := if b then 1 else 0

/-- A number in two bytes, high byte first. -/
def be16 (n : Nat) : List Byte := [byteOf (n / 256), byteOf n]

/-- A number in four bytes, high byte first. -/
def be32 (n : Nat) : List Byte := be16 (n / 65536) ++ be16 n

/-- A signed number in two bytes, high byte first. -/
def signed16 (i : Int) : List Byte := be16 (BitVec.ofInt 16 i).toNat

/-- The number two bytes spell. -/
def nat16 (hi lo : Byte) : Nat := hi.toNat * 256 + lo.toNat

/-- The code unit two bytes spell (9.7, story items). -/
def unit16 (hi lo : Byte) : CodeUnit := BitVec.ofNat 16 (nat16 hi lo)

/-- The number four bytes spell. -/
def nat32 (a b c d : Byte) : Nat := nat16 a b * 65536 + nat16 c d

/-- Every byte of a list summed modulo 256 (R140, R157, R22). -/
def byteSum (bs : List Byte) : Byte := bs.foldl (· + ·) 0

/-- The check byte that makes the sum of `bs` and it 0 modulo 256. -/
def checkOf (bs : List Byte) : Byte := -byteSum bs

/-- A value brought into a range: below it the least, above it the greatest (R50). -/
def clampInt (lo hi v : Int) : Int := if v < lo then lo else if hi < v then hi else v

/-! ### Units (Measures, Sizes and Widths) -/

/-- A fine-unit value in steps: the nearest, halves toward positive infinity (R12). -/
def toSteps (f : Int) : Int := (f + 192) / 384

/-- A width in ru at a size in qp, in fine units (R1). -/
def ruToFine (u q : Nat) : Nat := u * q * Config.finePerRuQp

/-- The advance of a base glyph: max(0, w + t + k) ru at its size, in fine units (R5). -/
def glyphAdvance (w : Nat) (t k : Int) (q : Nat) : Nat := ruToFine (w + t + k).toNat q

/-- A measure in fine units (R2). -/
def measureFine (p : Params) : Nat := p.measure * Config.finePerStep

/-- An exception amount: 0 where the difference is not positive, else its steps, held at 65,535 (R13). -/
def amountOf (f : Int) : Nat := if f ≤ 0 then 0 else min (toSteps f).toNat 65535

/-- Whether a depth lies above the band: less than H − 1200 (R126). -/
def aboveBand (high depth : Nat) : Bool := decide (depth + Config.reverseAllowance < high)

/-! ### Codes of 9.7 -/

def HaltCause.code : HaltCause → Nat
  | .request => 1 | .mark => 2 | .step => 3 | .overmatter => 4 | .behind => 5 | .noFont => 6

/-- A halt cause byte: 0 when absent (9.7, position record). -/
def causeByte : Option HaltCause → Byte
  | none => 0
  | some c => byteOf c.code

def GalleyState.code : GalleyState → Nat
  | .off => 0 | .ready => 1 | .setting => 2 | .starved => 3 | .blocked => 4 | .halted => 5 | .draining => 6
  | .closing => 7

def PageState.code : PageState → Nat
  | .noPage => 0 | .open => 1 | .closing => 2

def SlotState.code : SlotState → Nat
  | .empty => 0 | .loading => 1 | .provisional => 2 | .valid => 3

def Form.code : Form → Nat
  | .none => 0 | .isolated => 1 | .initial => 2 | .medial => 3 | .final => 4

def DirClass.code : DirClass → Nat
  | .l => 0 | .r => 1 | .d => 2 | .n => 3 | .m => 4

def Result.code : Result → Nat
  | .done => 0 | .full => 1 | .empty => 2 | .state => 3 | .range => 4 | .behind => 5 | .lineOpen => 6 | .badItem => 7
  | .badFrame => 8 | .unknown => 9 | .noPage => 10 | .storeFull => 11

def FaultCode.value : FaultCode → Nat
  | .code c => c.toNat
  | .timeout => 256

/-- A galley's number in a byte. -/
def galleyByte (g : GalleyId) : Byte := byteOf g.val

/-- An exception set in one byte (9.7, notice record). -/
def ExcSet.byte (x : ExcSet) : Byte :=
  byteOf (x.loose.toNat + 2 * x.forced.toNat + 4 * x.wide.toNat + 8 * x.missing.toNat + 16 * x.marks.toNat
    + 32 * x.orphan.toNat + 64 * x.clamped.toNat + 128 * x.spoiled.toNat)

/-- Whether a set of exceptions is empty (R122). -/
def ExcSet.isEmpty (x : ExcSet) : Bool := x == ExcSet.none

/-! ### Galleys, slots, page -/

/-- Galley `g`. -/
def State.galley (s : State) (g : GalleyId) : Galley := s.galleys[g]

/-- The state with galley `g` replaced. -/
def State.setGalley (s : State) (g : GalleyId) (x : Galley) : State := { s with galleys := s.galleys.set g x }

/-- Font slot `n`. -/
def State.font (s : State) (n : SlotId) : Slot := s.fonts[n]

/-- The state with font slot `n` replaced. -/
def State.setFont (s : State) (n : SlotId) (x : Slot) : State := { s with fonts := s.fonts.set n x }

/-- The value of a kern table at a row and a column (R37). -/
def KernTable.at (t : KernTable) (row col : Fin 16) : Int := t[row][col]

/-- Pool use: the places all slots occupy (R23). -/
def poolUse (fonts : Vector Slot 16) : Nat := (fonts.toList.map (fun f => f.records.length)).sum

/-- The pool places that are free (R23). -/
def poolFree (fonts : Vector Slot 16) : Nat := Config.poolPlaces - poolUse fonts

/-- The record a slot holds for a code (R23). -/
def Slot.find (f : Slot) (c : CodeUnit) : Option GlyphRecord := f.records.find? (fun r => r.code == c)

/-- Whether a slot holds a record for its missing-glyph code (R32, R35). -/
def Slot.missingHeld (f : Slot) : Bool :=
  match f.header with
  | none => false
  | some h => (f.find h.missing).isSome

/-- The length of an item in code units (3.1). -/
def Item.length : Item → Nat
  | .size _ | .track _ | .shift _ => 2
  | .disc pre post noBreak => 2 + pre.length + post.length + noBreak.length
  | _ => 1

/-- The code units a list of items stores (R43). -/
def storyUnits (q : List Item) : Nat := (q.map Item.length).sum

/-- The fill of a galley's story queue (R43). -/
def Galley.fill (x : Galley) : Nat := storyUnits x.story

/-- The free count of a galley's story queue (R43). -/
def Galley.storyFree (x : Galley) : Nat := Config.storyCapacity - x.fill

/-- Whether a line is started in the galley's builder (R81). -/
def Galley.started (x : Galley) : Bool := x.builder.lineDepth.isSome

/-- Whether the builder holds a carry without a started line (R63). -/
def Galley.hasCarry (x : Galley) : Bool := !x.started && !x.builder.entries.isEmpty

/-- The values that would transfer at the next line start: the staged set when the pending flag is set, the active set
otherwise (R60). -/
def Galley.nextParams (x : Galley) : Params := if x.pendingFlag then x.staged else x.active

/-- The depth a line started now would be fixed at (R60). -/
def Galley.nextDepth (x : Galley) : Nat :=
  match x.lastDepth with
  | none => x.topDepth
  | some d => d + x.nextParams.leading

/-- The frontier: the depth at which the next line will be set (R62). -/
def Galley.frontier (x : Galley) : Nat :=
  match x.builder.lineDepth with
  | some d => d
  | none => x.nextDepth

/-- A state in which a galley restrains unless it is released (R129). -/
def GalleyState.mayRestrain : GalleyState → Bool
  | .ready | .setting | .starved | .blocked | .halted | .draining => true
  | .off | .closing => false

/-- Whether the galley restrains the carriage (R129). -/
def Galley.restraining (x : Galley) : Bool := x.state.mayRestrain && !x.released

/-- Whether the galley consumes items of its own accord (R63). -/
def Galley.proceeding (x : Galley) : Bool := x.state == .setting || x.state == .draining

/-- The live position record (R78). A galley in OFF reports frontier 0 (R62). -/
def Galley.position (x : Galley) : PositionRecord :=
  { state := x.state, cause := x.cause, released := x.released, drain := x.drain, started := x.started,
    pendingFlag := x.pendingFlag, fill := x.fill, itemIndex := x.itemIndex, lineNumber := x.lineNumber,
    frontier := if x.state = .off then 0 else x.frontier,
    entryCount := if x.started then x.builder.entries.length else 0,
    carryCount := if x.started then 0 else x.builder.entries.length,
    queueLength := x.output.length, slot := x.slot, size := x.size, track := x.track, shift := x.shift }

/-- A position record's 22 bytes (9.7). -/
def PositionRecord.bytes (p : PositionRecord) : List Byte :=
  [byteOf p.state.code, causeByte p.cause,
    byteOf (p.released.toNat + 2 * p.drain.toNat + 4 * p.started.toNat + 8 * p.pendingFlag.toNat)]
  ++ be16 p.fill ++ be32 p.itemIndex.toNat ++ be16 p.lineNumber.toNat ++ be16 p.frontier
  ++ [byteOf p.entryCount, byteOf p.carryCount, byteOf p.queueLength, byteOf p.slot.val] ++ be16 p.size
  ++ [signedByte p.track] ++ signed16 p.shift

/-- Whether the idle timer runs after it is started afresh: the interval is not 0 (R74). -/
def Galley.timerStarted (x : Galley) : Bool := decide (x.interval ≠ 0)

/-- The galley with its idle timer retriggered, unless it is released (R61, R64). -/
def Galley.retrigger (x : Galley) : Galley := { x with idleTimer := if x.released then x.idleTimer else x.timerStarted }

/-- Whether the gate is open (R142). -/
def UnitView.gateOpen (v : UnitView) : Bool := v.known && !v.held && !v.faulted && !v.silent && v.outstanding.isNone

/-! ### Re-examination points (R134) -/

/-- What a selection reads of a galley: its output queue, its frontier, its released flag and its state (R129, R131). -/
structure Watched where
  output : List LineRecord
  frontier : Nat
  released : Bool
  state : GalleyState
deriving DecidableEq, Repr

/-- What a selection reads of a galley. -/
def Galley.watched (x : Galley) : Watched :=
  { output := x.output, frontier := x.frontier, released := x.released, state := x.state }

/-- What a selection reads of the part: the galleys, the unit view and the page state. Each change of it is an event at which
the arbiter makes a selection (R134, R142). -/
def State.watched (s : State) : List Watched × UnitView × PageState :=
  (s.galleys.toList.map Galley.watched, s.unit.view, s.page.state)

/-- The state an event leaves, `before` being the state it found: a selection is due when the event is a re-examination point,
and stays due when one was (R134). The selection itself is an event of its own, SELECTION. -/
def State.noting (before after : State) : State :=
  { after with selectionDue := before.selectionDue || decide (after.watched ≠ before.watched) }

/-! ### Frames -/

/-- A composing link frame's bytes: start, length, kind, target, body and check (9.7). -/
def composingFrame (kind target : Byte) (body : List Byte) : List Byte :=
  let rest := be16 body.length ++ [kind, target] ++ body
  Config.composingStart :: rest ++ [checkOf rest]

/-- Whether the check of a collected composing link frame is right (R157). -/
def checkGood (kind target : Byte) (body : List Byte) (check : Byte) : Bool :=
  byteSum (be16 body.length ++ [kind, target] ++ body ++ [check]) == 0

/-- A good frame of a kind, a target and a body: its check is right. -/
def goodFrame (kind target : Byte) (body : List Byte) : LinkFrame :=
  .whole kind target body (checkOf (be16 body.length ++ [kind, target] ++ body))

/-- An exposure link frame's bytes: start, length, kind, body and check (R140). -/
def exposureFrame (kind : Byte) (body : List Byte) : List Byte :=
  let rest := be16 body.length ++ [kind] ++ body
  Config.exposureStart :: rest ++ [checkOf rest]

/-- A placement's 9 bytes (8.2). -/
def Placement.bytes (p : Placement) : List Byte :=
  [p.matrix] ++ be16 p.glyph ++ be16 p.size ++ be16 p.x ++ signed16 p.y

/-- The bytes of a frame to the photo unit (8.2). -/
def ExposureFrame.bytes : ExposureFrame → List Byte
  | .line n d ps => exposureFrame 0x01 ([n] ++ be16 d ++ [byteOf ps.length] ++ (ps.map Placement.bytes).flatten)
  | .cut n d => exposureFrame 0x02 ([n] ++ be16 d)
  | .query => exposureFrame 0x03 []

/-- An exception record's bytes in a notice or a GALLEY REPORT reply (9.7). -/
def ExceptionRecord.bytes (r : ExceptionRecord) : List Byte :=
  be16 r.number.toNat ++ [r.exceptions.byte] ++ be32 r.first.toNat ++ be16 r.amount

/-- The last fault's bytes in a notice (9.7). -/
def LastFault.bytes (f : LastFault) : List Byte := [f.number, flagByte f.cut] ++ be16 f.fault.value

/-- The body of an event's notice: its code and its data (9.7, notice record). -/
def EventData.body : EventData → List Byte
  | .halted c => [0x01, byteOf c.code]
  | .exception r => 0x02 :: r.bytes
  | .released f h => 0x03 :: be16 f ++ be16 h
  | .closed l i => 0x04 :: be16 l.toNat ++ be32 i.toNat
  | .unitHeld => [0x05]
  | .unitFault f => 0x06 :: f.bytes
  | .pageDone n => 0x07 :: be16 n.toNat
  | .fontDone _ valid => [0x08, flagByte valid]
  | .fontAbandoned _ => [0x09]

/-- The target of an event's notice: the galley of a per-galley kind, the slot of a font kind, else 0xFF (R165). -/
def noticeTarget : Flag → EventData → Byte
  | .halted g, _ | .exception g, _ | .released g, _ | .closed g, _ => galleyByte g
  | _, .fontDone n _ | _, .fontAbandoned n => byteOf n.val
  | _, _ => 0xFF

/-- A send queue frame's bytes on the line (9.7). -/
def TxFrame.bytes : TxFrame → List Byte
  | .reply kind target result data => composingFrame 0x80 target ([kind, byteOf result.code] ++ data)
  | .notice flag data => composingFrame 0x81 (noticeTarget flag data) data.body
  | .ready kind =>
    composingFrame 0x81 0xFF ([0x10] ++ be16 Config.modelNumber ++ [byteOf Config.deviceRevision]
      ++ [flagByte (kind == .request)])

/-- Whether a send queue frame is a reply (R158). -/
def TxFrame.isReply : TxFrame → Bool
  | .reply _ _ _ _ => true
  | _ => false

/-- Whether no reply waits unsent in the send queue and no PART RESET is under way, so that a completed frame is taken
(R158, R163). -/
def ComposingLink.canTake (l : ComposingLink) : Bool := !l.sendQueue.any TxFrame.isReply && !l.resetPending

end Sys2Proof.Machine
end

