-- ==== Sys2Proof/Machine/Operands.lean ====
section
/-! DEFINITION. How the bytes of a request are read: its kind, target and length (R159, 9.7), its fields, the items of a
STORY body (R40 to R45) and the glyph records of a FONT GLYPHS body (R20 to R22, R26); and the photo unit's frames
(R141, 8.2). -/

namespace Sys2Proof.Machine

/-! ### Request kinds (9.7) -/

/-- The request kinds of the table in 9.7. -/
inductive ReqKind where
  | status | position | snapshot | galleyReport | eventClear | eventMask | partReset
  | story | param | halt | markSet | markClear | galleyOpen | galleyClose
  | fontBegin | fontGlyphs | fontKern | fontEnd | fontDrop | fontQuery
  | pageOpen | pageClose | unitResume
  | resume | step | paramNow | restart | peek | abandon | flush
deriving DecidableEq, Repr

/-- The request kind of a kind byte, absent when the byte is no request kind (9.7). -/
def requestKind (k : Byte) : Option ReqKind :=
  match k.toNat with
  | 0x01 => some .status
  | 0x02 => some .position
  | 0x03 => some .snapshot
  | 0x04 => some .galleyReport
  | 0x05 => some .eventClear
  | 0x06 => some .eventMask
  | 0x08 => some .partReset
  | 0x10 => some .story
  | 0x11 => some .param
  | 0x12 => some .halt
  | 0x13 => some .markSet
  | 0x14 => some .markClear
  | 0x15 => some .galleyOpen
  | 0x16 => some .galleyClose
  | 0x20 => some .fontBegin
  | 0x21 => some .fontGlyphs
  | 0x22 => some .fontKern
  | 0x23 => some .fontEnd
  | 0x24 => some .fontDrop
  | 0x25 => some .fontQuery
  | 0x30 => some .pageOpen
  | 0x31 => some .pageClose
  | 0x32 => some .unitResume
  | 0x40 => some .resume
  | 0x41 => some .step
  | 0x42 => some .paramNow
  | 0x43 => some .restart
  | 0x44 => some .peek
  | 0x45 => some .abandon
  | 0x46 => some .flush
  | _ => none

/-- The kind byte of a request kind (9.7). -/
def ReqKind.code : ReqKind → Byte
  | .status => 0x01
  | .position => 0x02
  | .snapshot => 0x03
  | .galleyReport => 0x04
  | .eventClear => 0x05
  | .eventMask => 0x06
  | .partReset => 0x08
  | .story => 0x10
  | .param => 0x11
  | .halt => 0x12
  | .markSet => 0x13
  | .markClear => 0x14
  | .galleyOpen => 0x15
  | .galleyClose => 0x16
  | .fontBegin => 0x20
  | .fontGlyphs => 0x21
  | .fontKern => 0x22
  | .fontEnd => 0x23
  | .fontDrop => 0x24
  | .fontQuery => 0x25
  | .pageOpen => 0x30
  | .pageClose => 0x31
  | .unitResume => 0x32
  | .resume => 0x40
  | .step => 0x41
  | .paramNow => 0x42
  | .restart => 0x43
  | .peek => 0x44
  | .abandon => 0x45
  | .flush => 0x46

/-- What a request kind's target names (9.7). -/
inductive Domain where
  | galley | slot | part
deriving DecidableEq, Repr

/-- The target domain of a request kind (9.7). -/
def ReqKind.domain : ReqKind → Domain
  | .status | .snapshot | .eventClear | .eventMask | .partReset | .pageOpen | .pageClose | .unitResume => .part
  | .fontBegin | .fontGlyphs | .fontKern | .fontEnd | .fontDrop | .fontQuery => .slot
  | _ => .galley

/-- Whether a target byte lies in a domain (R159 step 2). -/
def Domain.holds (d : Domain) (t : Byte) : Bool :=
  match d with
  | .galley => decide (t.toNat < 4)
  | .slot => decide (t.toNat < 16)
  | .part => t == 0xFF

/-- The body length of a kind whose fields are of fixed size; absent where the length varies (9.7). -/
def ReqKind.fixedLength : ReqKind → Option Nat
  | .story | .fontGlyphs | .fontKern | .eventClear | .restart => none
  | .eventMask => some 2
  | .param | .paramNow => some 9
  | .markSet => some 5
  | .galleyOpen => some 17
  | .fontBegin => some 8
  | .pageOpen => some 4
  | _ => some 1

/-- Whether a body has the length its kind asks (R159 step 3). -/
def ReqKind.lengthGood (k : ReqKind) (body : List Byte) : Bool :=
  match k.fixedLength with
  | none => true
  | some n => body.length == n

/-- The galley a target byte names. -/
def galleyOf (t : Byte) : GalleyId := Fin.ofNat 4 t.toNat

/-- The slot a target byte names. -/
def slotOf (t : Byte) : SlotId := Fin.ofNat 16 t.toNat

/-! ### Coded fields (9.7) -/

/-- An alignment byte (9.7). -/
def readAlign (b : Byte) : Option Align :=
  match b.toNat with
  | 0 => some .justify
  | 1 => some .start
  | 2 => some .atEnd
  | 3 => some .center
  | _ => none

/-- A direction byte (9.7). -/
def readDir (b : Byte) : Option Dir :=
  match b.toNat with
  | 0 => some .ltr
  | 1 => some .rtl
  | _ => none

/-- A hyphenation byte (9.7). -/
def readHyphenation (b : Byte) : Option Bool :=
  match b.toNat with
  | 0 => some false
  | 1 => some true
  | _ => none

/-- A mark kind byte (9.7). -/
def readMarkKind (b : Byte) : Option MarkKind :=
  match b.toNat with
  | 0 => some .tag
  | 1 => some .force
  | _ => none

/-- Six parameter fields whose coded values are known; absent where one is not (R57, R58). -/
def readParams (measure xOffset leading : Nat) (align dir hyph : Byte) : Option Params :=
  match readAlign align, readDir dir, readHyphenation hyph with
  | some a, some dir, some h =>
    some { measure := measure, xOffset := xOffset, leading := leading, align := a, direction := dir, hyphenation := h }
  | _, _, _ => none

/-- The range check of an x offset and a measure on a page of a width (R57, R58, R71). -/
def columnGood (width xOffset measure : Nat) : Bool :=
  decide (60 ≤ measure) && decide (measure ≤ 16000) && decide (xOffset + measure ≤ width)

/-- The range check of a parameter set on a page of a width (R58). -/
def Params.inRange (p : Params) (width : Nat) : Bool :=
  columnGood width p.xOffset p.measure && decide (p.leading ≤ 4800)

/-- The parameters of a PARAM or PARAM NOW body (9.7). -/
def readParamBody : List Byte → Option Params
  | [m1, m0, x1, x0, l1, l0, a, d, h] => readParams (nat16 m1 m0) (nat16 x1 x0) (nat16 l1 l0) a d h
  | _ => none

/-! ### STORY bodies (R40 to R46) -/

/-- Why a STORY body is refused with BAD_ITEM (R45). -/
inductive BadReason where
  | odd | undefined | split | count | textCode
deriving DecidableEq, Repr

/-- The reason byte (9.7). -/
def BadReason.code : BadReason → Nat
  | .odd => 1 | .undefined => 2 | .split => 3 | .count => 4 | .textCode => 5

/-- Whether a code unit is a character code, 0x0020..0xEFFF (R40). -/
def isCharCode (u : CodeUnit) : Bool := decide (0x20 ≤ u.toNat) && decide (u.toNat < 0xF000)

/-- The code units of a body, and whether a lone last byte follows them (R45). -/
def storyUnitsOf : List Byte → List CodeUnit × Bool
  | hi :: lo :: rest => let (us, odd) := storyUnitsOf rest; (unit16 hi lo :: us, odd)
  | [_] => ([], true)
  | [] => ([], false)

/-- The items of a list of code units, from an offset on, or the first refusal and its offset (R40, R45). Each item takes
at least one unit, so a fuel of the number of units is enough. -/
def readItems : Nat → Nat → List CodeUnit → Except (BadReason × Nat) (List Item)
  | 0, _, _ => .ok []
  | _ + 1, _, [] => .ok []
  | fuel + 1, off, u :: rest =>
    if u.toNat < 0x20 then readItems fuel (off + 1) rest
    else if isCharCode u then (readItems fuel (off + 1) rest).map (Item.char u :: ·)
    else
      match u.toNat with
      | 0xF000 => (readItems fuel (off + 1) rest).map (Item.space :: ·)
      | 0xF001 => (readItems fuel (off + 1) rest).map (Item.fixed :: ·)
      | 0xF002 => (readItems fuel (off + 1) rest).map (Item.para :: ·)
      | 0xF020 | 0xF021 | 0xF022 =>
        match rest with
        | [] => .error (.split, off)
        | v :: rest' =>
          let item := if u.toNat = 0xF020 then Item.size v else if u.toNat = 0xF021 then Item.track v else Item.shift v
          (readItems fuel (off + 2) rest').map (item :: ·)
      | 0xF030 => (readItems fuel (off + 1) rest).map (Item.dirLtr :: ·)
      | 0xF031 => (readItems fuel (off + 1) rest).map (Item.dirRtl :: ·)
      | 0xF040 =>
        match rest with
        | [] => .error (.split, off)
        | c :: texts =>
          let pre := c.toNat / 256 % 16
          let post := c.toNat / 16 % 16
          let nb := c.toNat % 16
          let n := pre + post + nb
          if 4 < pre ∨ 4 < post ∨ 4 < nb then .error (.count, off)
          else if !(texts.take n).all isCharCode then .error (.textCode, off)
          else if texts.length < n then .error (.split, off)
          else
            (readItems fuel (off + 2 + n) (texts.drop n)).map
              (Item.disc (texts.take pre) ((texts.drop pre).take post) ((texts.drop (pre + post)).take nb) :: ·)
      | v =>
        if 0xF010 ≤ v ∧ v ≤ 0xF01F then
          (readItems fuel (off + 1) rest).map (Item.font (Fin.ofNat 16 (v - 0xF010)) :: ·)
        else .error (.undefined, off)

/-- The items of a STORY body, or the refusal with its reason and offset (R45). -/
def readStory (body : List Byte) : Except (BadReason × Nat) (List Item) :=
  let (us, odd) := storyUnitsOf body
  match readItems us.length 0 us with
  | .error e => .error e
  | .ok items => if odd then .error (.odd, us.length) else .ok items

/-- The code units an item is sent as (3.1, R42; the high four bits of a count unit are sent as 0). -/
def Item.units : Item → List CodeUnit
  | .char c => [c]
  | .space => [0xF000]
  | .fixed => [0xF001]
  | .para => [0xF002]
  | .font n => [BitVec.ofNat 16 (0xF010 + n.val)]
  | .size q => [0xF020, q]
  | .track t => [0xF021, t]
  | .shift s => [0xF022, s]
  | .dirLtr => [0xF030]
  | .dirRtl => [0xF031]
  | .disc pre post nb =>
    [0xF040, BitVec.ofNat 16 (pre.length * 256 + post.length * 16 + nb.length)] ++ pre ++ post ++ nb

/-- Whether an item is one a queue may hold: its codes are character codes and a DISC's texts hold at most 4 each (R42). -/
def Item.wellFormed : Item → Bool
  | .char c => isCharCode c
  | .disc pre post nb =>
    decide (pre.length ≤ 4) && decide (post.length ≤ 4) && decide (nb.length ≤ 4) && pre.all isCharCode
      && post.all isCharCode && nb.all isCharCode
  | _ => true

/-! ### Glyph records (R20 to R22, 9.7) -/

/-- The length of a glyph record, from its presence byte (R22). -/
def recordLength (presence : Byte) : Nat :=
  let bit (i n : Nat) := if presence.getLsbD i then n else 0
  9 + bit 0 3 + bit 1 3 + bit 2 3 + bit 3 3 + bit 4 2 + bit 5 3

/-- The bytes of `n` records one after another, absent unless the bytes end exactly where the last ends (R26). -/
def splitRecords : Nat → List Byte → Option (List (List Byte))
  | 0, [] => some []
  | 0, _ :: _ => none
  | n + 1, bs =>
    match bs[2]? with
    | none => none
    | some presence =>
      let len := recordLength presence
      if bs.length < len then none else (splitRecords n (bs.drop len)).map (bs.take len :: ·)

/-- An optional image part, read where it is present, and the bytes after it (9.7). -/
def takeImage (present : Bool) (bs : List Byte) : Option Image × List Byte :=
  match present, bs with
  | true, g1 :: g0 :: a :: rest => (some { glyph := nat16 g1 g0, advance := a.toNat }, rest)
  | _, bs => (none, bs)

/-- An optional anchor part, read where it is present, and the bytes after it (9.7). -/
def takeAnchor (present : Bool) (bs : List Byte) : Option Anchor × List Byte :=
  match present, bs with
  | true, x :: y :: rest => (some { dx := x.toInt, dy := y.toInt }, rest)
  | _, bs => (none, bs)

/-- An optional mark offset part, read where it is present (9.7). -/
def takeMarkOffset (present : Bool) (bs : List Byte) : Option MarkOffset :=
  match present, bs with
  | true, x :: y :: h :: _ => some { dx := x.toInt, dy := y.toInt, stack := h.toInt }
  | _, _ => none

/-- A direction class code (9.7). -/
def readDirClass (n : Nat) : Option DirClass :=
  match n with
  | 0 => some .l
  | 1 => some .r
  | 2 => some .d
  | 3 => some .n
  | 4 => some .m
  | _ => none

/-- A joining class code (9.7). -/
def readJoining (n : Nat) : Option Joining :=
  match n with
  | 0 => some .none
  | 1 => some .trail
  | 2 => some .dual
  | 3 => some .link
  | 4 => some .clear
  | _ => none

/-- Whether an image, where present, has a glyph number in 0..4095 (R21). -/
def imageGood : Option Image → Bool
  | none => true
  | some i => decide (i.glyph ≤ 4095)

/-- Whether the classes and parts of a record agree and its numbers are in range (R21). -/
def GlyphRecord.contentGood (r : GlyphRecord) : Bool :=
  isCharCode r.code
  && imageGood (some r.base) && imageGood r.initial && imageGood r.medial && imageGood r.final && imageGood r.mirror
  && (r.direction == .m) == (r.joining == .clear)
  && (r.joining == .dual || (r.initial.isNone && r.medial.isNone))
  && (r.joining == .trail || r.joining == .dual || r.final.isNone)
  && (r.direction == .m) == r.markOffset.isSome
  && (r.direction != .m || r.anchor.isNone)

/-- The code of a record as it stands in its bytes (R27). -/
def recordCode : List Byte → CodeUnit
  | c1 :: c0 :: _ => unit16 c1 c0
  | _ => 0

/-- The record some bytes hold, absent where its check is wrong or it is a content error (R21, R22, R27). -/
def readRecord (bs : List Byte) : Option GlyphRecord :=
  match bs with
  | c1 :: c0 :: presence :: g1 :: g0 :: adv :: classes :: kern :: _ :: opts =>
    let (initial, opts) := takeImage (presence.getLsbD 0) opts
    let (medial, opts) := takeImage (presence.getLsbD 1) opts
    let (final, opts) := takeImage (presence.getLsbD 2) opts
    let (mirror, opts) := takeImage (presence.getLsbD 3) opts
    let (anchor, opts) := takeAnchor (presence.getLsbD 4) opts
    let markOffset := takeMarkOffset (presence.getLsbD 5) opts
    match readDirClass (classes.toNat / 16), readJoining (classes.toNat % 16) with
    | some dir, some join =>
      let r : GlyphRecord :=
        { code := unit16 c1 c0, base := { glyph := nat16 g1 g0, advance := adv.toNat }, direction := dir,
          joining := join, kernClass := Fin.ofNat 16 kern.toNat, initial := initial, medial := medial, final := final, mirror := mirror,
          anchor := anchor, markOffset := markOffset }
      if byteSum bs == 0 && decide (presence.toNat < 64) && decide (kern.toNat < 16) && r.contentGood then some r
      else none
    | _, _ => none
  | _ => none

/-! ### Frames from the photo unit (8.1, 8.2) -/

/-- A report of the photo unit (8.5). -/
inductive Report where
  | done (number : Byte)
  | fault (number code : Byte)
  | ready
  | held
deriving DecidableEq, Repr

/-- The report a frame's bytes after the start byte carry; absent where the frame is discarded: a wrong check, a kind that
is not DONE, FAULT or STATE, a length that is not the kind's, or a STATE value that is neither READY nor HELD (R141). -/
def readReport (bs : List Byte) : Option Report :=
  if byteSum bs ≠ 0 then none
  else
    match bs with
    | [l1, l0, k, a, _] =>
      if nat16 l1 l0 = 1 then
        if k = 0x41 then some (.done a)
        else if k = 0x43 then (if a = 0x00 then some .ready else if a = 0x01 then some .held else none)
        else none
      else none
    | [l1, l0, k, a, b, _] => if nat16 l1 l0 = 2 ∧ k = 0x42 then some (.fault a b) else none
    | _ => none

/-- Whether the exposure receiver has collected a whole frame: length, kind, body and check (R141). -/
def exposureComplete (bs : List Byte) : Bool :=
  match bs with
  | l1 :: l0 :: _ => bs.length == 2 + 1 + nat16 l1 l0 + 1
  | _ => false

/-- What the composing receiver has, once a byte has been collected: a completed frame, or nothing yet (R154, R157). -/
def composingComplete (bs : List Byte) : Option LinkFrame :=
  match bs with
  | [l1, l0] => if nat16 l1 l0 = 0 ∨ Config.maxBody < nat16 l1 l0 then some .badLength else none
  | l1 :: l0 :: k :: t :: rest =>
    if rest.length = nat16 l1 l0 + 1 then some (.whole k t rest.dropLast (rest.getLastD 0)) else none
  | _ => none

end Sys2Proof.Machine
end

