-- ==== Sys2Proof/Machine/Flags.lean ====
section
/-! DEFINITION. The event unit's flags (Events and Notices): the order of the pending set, raising, notices, clearing and
the mask; the level conditions read from the unit view (R151, R172). -/

namespace Sys2Proof.Machine

/-- A flag's place in the pending set (R167): four for each galley in turn, then the five of the part. -/
def Flag.place : Flag → Fin 21
  | .halted g => ⟨4 * g.val, by omega⟩
  | .exception g => ⟨4 * g.val + 1, by omega⟩
  | .released g => ⟨4 * g.val + 2, by omega⟩
  | .closed g => ⟨4 * g.val + 3, by omega⟩
  | .unitHeld => 16
  | .unitFault => 17
  | .pageDone => 18
  | .fontDone => 19
  | .fontAbandoned => 20

/-- A flag's kind, as its place in the kind mask: the notice code less 1 (R167, R170). -/
def Flag.kind : Flag → Fin 9
  | .halted _ => 0
  | .exception _ => 1
  | .released _ => 2
  | .closed _ => 3
  | .unitHeld => 4
  | .unitFault => 5
  | .pageDone => 6
  | .fontDone => 7
  | .fontAbandoned => 8

/-- The four flags of a galley, in the order of R167. -/
def galleyFlags (g : GalleyId) : List Flag := [.halted g, .exception g, .released g, .closed g]

/-- The 21 flags in the order of the pending set (R167). -/
def allFlags : List Flag :=
  galleyFlags 0 ++ galleyFlags 1 ++ galleyFlags 2 ++ galleyFlags 3
    ++ [.unitHeld, .unitFault, .pageDone, .fontDone, .fontAbandoned]

/-- The data of a flag, absent while it is clear (R167). -/
def EventUnit.flag (e : EventUnit) (f : Flag) : Option EventData := e.flags[f.place]

/-- The event unit with a flag set with data, or cleared (R167). -/
def EventUnit.setFlag (e : EventUnit) (f : Flag) (d : Option EventData) : EventUnit :=
  { e with flags := e.flags.set f.place d }

/-- Whether a flag's kind is masked (R170). -/
def EventUnit.masked (e : EventUnit) (f : Flag) : Bool := e.mask[f.kind]

/-- The pending set as one number: bit n for the flag at place n (9.7, STATUS record). -/
def EventUnit.pendingBits (e : EventUnit) : Nat :=
  (e.flags.toList.zipIdx.map (fun p => if p.1.isSome then 2 ^ p.2 else 0)).sum

/-- The pending set's three bytes (9.7). -/
def EventUnit.pendingBytes (e : EventUnit) : List Byte := byteOf (e.pendingBits / 65536) :: be16 e.pendingBits

/-- The mask's two bytes, as EVENT MASK's reply and STATUS report them (R170, 9.7). DESIGN CHOICE (log entry 24): their upper seven
bits, to which R170 gives no value, are 0. -/
def EventUnit.maskBytes (e : EventUnit) : List Byte :=
  be16 (e.mask.toList.zipIdx.map (fun p => if p.1 then 2 ^ p.2 else 0)).sum

/-- Whether a send queue frame is a waiting notice of a flag (R161). -/
def TxFrame.isNoticeOf (f : Flag) : TxFrame → Bool
  | .notice f' _ => f' == f
  | _ => false

/-- The send queue with a notice placed: in the place of a waiting notice of the same flag where there is one, at the back
otherwise (R161, R169). -/
def placeNotice (f : Flag) (d : EventData) : List TxFrame → List TxFrame
  | [] => [.notice f d]
  | x :: rest => if x.isNoticeOf f then .notice f d :: rest else x :: placeNotice f d rest

/-- The state with a notice of a flag placed in the send queue (R168, R169). -/
def State.notify (s : State) (f : Flag) (d : EventData) : State :=
  { s with link := { s.link with sendQueue := placeNotice f d s.link.sendQueue } }

/-- A raise (R168): a clear flag becomes set with the data, and is notified when its kind is unmasked; a set flag absorbs
the raise. -/
def State.raise (s : State) (f : Flag) (d : EventData) : State :=
  match s.events.flag f with
  | some _ => s
  | none =>
    let s' := { s with events := s.events.setFlag f (some d) }
    if s.events.masked f then s' else s'.notify f d

/-- Raises in order. -/
def State.raiseAll (s : State) : List (Flag × EventData) → State
  | [] => s
  | (f, d) :: rest => (s.raise f d).raiseAll rest

/-- The data with which a level flag whose condition holds is raised, read from the unit view; absent for a pulse kind and
for a level kind whose condition does not hold (R151, R172). -/
def State.levelData (s : State) : Flag → Option EventData
  | .unitHeld => if s.unit.view.held then some .unitHeld else none
  | .unitFault => if s.unit.view.faulted || s.unit.view.silent then s.unit.view.lastFault.map .unitFault else none
  | _ => none

/-- One named flag cleared (R171): a set flag becomes clear, and a level flag whose condition holds is raised again. -/
def State.clearFlag (s : State) (f : Flag) : State :=
  match s.events.flag f with
  | none => s
  | some _ =>
    let s' := { s with events := s.events.setFlag f none }
    match s.levelData f with
    | none => s'
    | some d => s'.raise f d

/-- The flag a name of two bytes names: a notice code, then a galley or 0xFF (R171). -/
def readFlagName (code who : Byte) : Option Flag :=
  match code.toNat with
  | 1 => if who.toNat < 4 then some (.halted (galleyOf who)) else none
  | 2 => if who.toNat < 4 then some (.exception (galleyOf who)) else none
  | 3 => if who.toNat < 4 then some (.released (galleyOf who)) else none
  | 4 => if who.toNat < 4 then some (.closed (galleyOf who)) else none
  | 5 => if who = 0xFF then some .unitHeld else none
  | 6 => if who = 0xFF then some .unitFault else none
  | 7 => if who = 0xFF then some .pageDone else none
  | 8 => if who = 0xFF then some .fontDone else none
  | 9 => if who = 0xFF then some .fontAbandoned else none
  | _ => none

/-- The flags an EVENT CLEAR body names, absent where one of its names is bad or its length is odd (R171). -/
def readFlagNames : List Byte → Option (List Flag)
  | [] => some []
  | [_] => none
  | code :: who :: rest =>
    match readFlagName code who, readFlagNames rest with
    | some f, some fs => some (f :: fs)
    | _, _ => none

/-- Every named flag cleared, in the order of the pending set (R171). -/
def State.clearFlags (s : State) (names : List Flag) : State :=
  (allFlags.filter (fun f => names.contains f)).foldl State.clearFlag s

/-- The mask a body of two bytes gives: the low nine bits (R170). -/
def readMask (hi lo : Byte) : Vector Bool 9 :=
  Vector.ofFn (fun (i : Fin 9) => (nat16 hi lo).testBit i.val)

/-- One flag's notice at an unmasking: placed when its kind goes from masked to unmasked and it is set (R170). -/
def State.unmaskNotice (old : Vector Bool 9) (s : State) (f : Flag) : State :=
  match s.events.flag f with
  | none => s
  | some d => if old[f.kind] && !s.events.masked f then s.notify f d else s

/-- The whole kind mask replaced (R170). -/
def State.setMask (s : State) (m : Vector Bool 9) : State :=
  allFlags.foldl (State.unmaskNotice s.events.mask) { s with events := { s.events with mask := m } }

end Sys2Proof.Machine
end

