-- ==== Sys2Proof/Machine/Shaping.lean ====
section
/-! DEFINITION. The entries of an open line (5.1 to 5.6, 1.2 to 1.5): making an entry, joined forms, marks and orphans,
kerning, advances and the width sums. -/

namespace Sys2Proof.Machine

/-! ### Reading an entry -/

def Entry.isMark (e : Entry) : Bool := match e.body with | .mark _ => true | _ => false
def Entry.isSpace (e : Entry) : Bool := match e.body with | .space _ _ _ => true | _ => false
def Entry.isFixed (e : Entry) : Bool := match e.body with | .fixed _ => true | _ => false
def Entry.isGlyph (e : Entry) : Bool := match e.body with | .glyph _ => true | _ => false

/-- A GLYPH or FIXED entry: what a line must hold one of for a break to be tried (R96, R99). -/
def Entry.isCore (e : Entry) : Bool := e.isGlyph || e.isFixed

/-- The joining class of a GLYPH entry: an orphan counts as NONE (R82, R90). -/
def GlyphPart.joining (p : GlyphPart) : Joining := if p.orphan then .none else p.record.joining

/-- The direction class of an entry (R82): N for SPACE, FIXED and an orphan. -/
def Entry.direction (e : Entry) : DirClass :=
  match e.body with
  | .glyph p => if p.orphan then .n else p.record.direction
  | .mark p => p.record.direction
  | _ => .n

/-- The fine-unit width an entry adds to G: a GLYPH's or a FIXED's advance (R9, R7). -/
def Entry.coreWidth (e : Entry) : Nat :=
  match e.body with
  | .glyph p => p.advance
  | .fixed n => n
  | _ => 0

/-- The number of marks that stand at the end of a list: the marks of its last base (R82). -/
def trailingMarks (es : List Entry) : Nat := (es.reverse.takeWhile Entry.isMark).length

/-- Whether the last base of a list is a GLYPH: what a mark attaches to (R88). -/
def endsInGlyph (es : List Entry) : Bool :=
  match es.reverse.dropWhile Entry.isMark with
  | e :: _ => e.isGlyph
  | [] => false

/-- A reversed list with its first base changed by `f` where that base is a GLYPH, marks passed over. -/
def modifyHeadGlyph (f : Entry → GlyphPart → GlyphPart) : List Entry → List Entry
  | [] => []
  | e :: rest =>
    match e.body with
    | .mark _ => e :: modifyHeadGlyph f rest
    | .glyph p => { e with body := .glyph (f e p) } :: rest
    | _ => e :: rest

/-- A list with its last base changed by `f` where that base is a GLYPH. -/
def modifyLastGlyph (f : Entry → GlyphPart → GlyphPart) (es : List Entry) : List Entry :=
  (modifyHeadGlyph f es.reverse).reverse

/-! ### Joined forms (R85 to R87) -/

/-- The image a record gives for a form: the base glyph for ISOLATED, NONE and a form it lacks (R86, R85). -/
def GlyphRecord.image (r : GlyphRecord) (f : Form) : Image :=
  match f with
  | .initial => r.initial.getD r.base
  | .medial => r.medial.getD r.base
  | .final => r.final.getD r.base
  | _ => r.base

/-- The form sought from the links back and forward (R86). -/
def formSought (back forward : Bool) : Form :=
  match back, forward with
  | true, true => .medial
  | true, false => .final
  | false, true => .initial
  | false, false => .isolated

/-- The form set where a form is sought, with the fallbacks of R86. -/
def GlyphRecord.formSet (r : GlyphRecord) (f : Form) : Form :=
  match f with
  | .medial => if r.medial.isSome then .medial else if r.final.isSome then .final else .isolated
  | .initial => if r.initial.isSome then .initial else .isolated
  | .final => if r.final.isSome then .final else .isolated
  | f => f

/-- Whether a letter links back, given its own class and its prev's (R85). -/
def linksBack (own prev : Joining) : Bool := (own == .trail || own == .dual) && (prev == .dual || prev == .link)

/-- Whether a letter links forward, given its own class and its next's; an unknown next gives no link yet (R85, R87). -/
def linksForward (own : Joining) (next : Option Joining) : Bool :=
  own == .dual && (next == some .dual || next == some .trail || next == some .link)

/-- The joining class of the next entry, marks passed over: NONE across a space or a fixed space; at the list's end, unknown
in an open list and NONE in a closed line (R85). -/
def nextJoining (isOpen : Bool) : List Entry → Option Joining
  | [] => if isOpen then none else some .none
  | e :: rest =>
    match e.body with
    | .mark _ => nextJoining isOpen rest
    | .glyph p => some p.joining
    | _ => some .none

/-- A GLYPH's fields with its advance by R5, at its entry's size and track. -/
def GlyphPart.remeasure (p : GlyphPart) (e : Entry) : GlyphPart :=
  { p with advance := glyphAdvance (p.record.image p.form).advance e.track p.kern e.size }

/-- A GLYPH set in the form its neighbours give it, and its advance recomputed (R85 to R87, R6). -/
def shapeGlyph (prev : Joining) (next : Option Joining) (e : Entry) (p : GlyphPart) : GlyphPart :=
  let letter := p.joining == .trail || p.joining == .dual
  let form := if letter then p.record.formSet (formSought (linksBack p.joining prev) (linksForward p.joining next)) else .none
  let resolved := !(p.joining == .dual && next == none)
  { p with form := form, resolved := resolved }.remeasure e

/-- A list of entries with every letter's form set, `prev` being the joining class before it (R85: the edge at the head of
the list counts as none). -/
def shapeFrom (isOpen : Bool) (prev : Joining) : List Entry → List Entry
  | [] => []
  | e :: rest =>
    match e.body with
    | .mark _ => e :: shapeFrom isOpen prev rest
    | .glyph p => { e with body := .glyph (shapeGlyph prev (nextJoining isOpen rest) e p) } :: shapeFrom isOpen p.joining rest
    | _ => e :: shapeFrom isOpen .none rest

/-- A list of entries shaped: an open list keeps its last DUAL letter pending, a closed line resolves it (R87). The links
follow from joining classes alone (R85), so shaping the whole list changes no letter whose neighbours are as they were. -/
def shape (isOpen : Bool) (es : List Entry) : List Entry := shapeFrom isOpen .none es

/-- The position of the letter of unresolved form (R81, R87). -/
def pendingOf (es : List Entry) : Option Nat :=
  es.findIdx? (fun e => match e.body with | .glyph p => !p.resolved | _ => false)

/-! ### Kerning (R91, R37) -/

/-- The kern of a GLYPH entry with a GLYPH that follows it: the table of the follower's slot at the two classes, 0 when either
class is 0 (R37), and 0 unless both have one slot and one size (R91). -/
def kernOf (fonts : Vector Slot 16) (e : Entry) (p : GlyphPart) (follower : Entry) (q : GlyphPart) : Int :=
  if e.slot = follower.slot ∧ e.size = follower.size then
    if p.record.kernClass = 0 ∨ q.record.kernClass = 0 then 0
    else (fonts[follower.slot]).kern.at p.record.kernClass q.record.kernClass
  else 0

/-- A list with its last base's kern set for the entry that is to follow it: with a GLYPH the pair's, otherwise 0. -/
def kernWith (fonts : Vector Slot 16) (es : List Entry) (follower : Option Entry) : List Entry :=
  modifyLastGlyph (fun e p =>
    { p with kern :=
        match follower with
        | none => 0
        | some b => match b.body with | .glyph q => kernOf fonts e p b q | _ => 0 }) es

/-! ### Making entries (R84, R88 to R92) -/

/-- The entry a prepared copy becomes, of a body (R3). -/
def Prepared.entry (p : Prepared) (body : EntryBody) : Entry :=
  { body := body, code := p.code, slot := p.slot, size := p.size, track := p.track, shift := p.shift, index := p.index,
    disc := p.disc }

/-- The GLYPH fields a prepared copy starts with; an orphan is a mark set as a base (R90). -/
def Prepared.glyph (p : Prepared) (orphan : Bool) : GlyphPart :=
  { matrix := p.matrix, record := p.record, form := .none, resolved := true, advance := 0, kern := 0, orphan := orphan,
    substituted := p.substituted, marksDropped := false }

/-- A list with an entry added at its end, the last base's kern set with it (R91). -/
def addBase (fonts : Vector Slot 16) (es : List Entry) (e : Entry) : List Entry := kernWith fonts es (some e) ++ [e]

/-- Whether a prepared copy attaches as a mark at the end of a list (R88). -/
def Prepared.attaches (p : Prepared) (es : List Entry) : Bool := p.record.direction == .m && endsInGlyph es

/-- Whether a prepared copy is a mark that is dropped: its base already carries 3 (R89). -/
def Prepared.dropped (p : Prepared) (es : List Entry) : Bool :=
  p.attaches es && decide (Config.markLimit ≤ trailingMarks es)

/-- A list with a prepared copy settled at its end: as a mark on the last base, dropped from a base of 3 marks, set as an
orphan where there is no base, or as a GLYPH (R84 step 4, R88 to R90). The list is not yet shaped. -/
def enterPrepared (fonts : Vector Slot 16) (es : List Entry) (p : Prepared) : List Entry :=
  if p.dropped es then modifyLastGlyph (fun _ q => { q with marksDropped := true }) es
  else if p.attaches es then
    es ++ [p.entry (.mark { matrix := p.matrix, record := p.record, substituted := p.substituted })]
  else addBase fonts es (p.entry (.glyph (p.glyph (p.record.direction == .m))))

/-- Prepared copies settled one after another (R94 step 4, R98). -/
def enterAll (fonts : Vector Slot 16) (es : List Entry) (ps : List Prepared) : List Entry :=
  ps.foldl (enterPrepared fonts) es

/-- Two lists joined, the last base of the first kerned with the first entry of the second (R98 step 6). -/
def joinEntries (fonts : Vector Slot 16) (head rest : List Entry) : List Entry := kernWith fonts head rest.head? ++ rest

/-! ### Width sums (R9, R10) -/

/-- The natural, minimum and maximum widths of a SPACE entry; 0 for another entry. -/
def Entry.spaceWidths (e : Entry) : Nat × Nat × Nat :=
  match e.body with
  | .space n m x => (n, m, x)
  | _ => (0, 0, 0)

/-- The trailing run: the SPACE entries after the last base that is not a SPACE (R9). -/
def trailingSpaces (es : List Entry) : List Entry := (es.reverse.takeWhile Entry.isSpace).reverse

/-- A list without its trailing run (R100 step 3). -/
def dropTrailingSpaces (es : List Entry) : List Entry := (es.reverse.dropWhile Entry.isSpace).reverse

/-- The width sums of a list of entries (R9). -/
def sumsOf (es : List Entry) : Sums :=
  let sp := es.filter Entry.isSpace
  let tr := trailingSpaces es
  { g := (es.map Entry.coreWidth).sum,
    n := (sp.map (fun e => e.spaceWidths.1)).sum, mn := (sp.map (fun e => e.spaceWidths.2.1)).sum,
    mx := (sp.map (fun e => e.spaceWidths.2.2)).sum, k := sp.length,
    tn := (tr.map (fun e => e.spaceWidths.1)).sum, tm := (tr.map (fun e => e.spaceWidths.2.1)).sum, tk := tr.length }

/-- The fit width for an alignment (R95). -/
def fitWidth (a : Align) (s : Sums) : Nat := if a = .justify then s.g + s.mn - s.tm else s.g + s.n - s.tn

/-! ### The builder -/

/-- The builder with a new entry list: shaped as an open list, its sums and its pending letter those of the list, and its
opportunity list emptied where no entry is left (R81, R10). -/
def Builder.withEntries (b : Builder) (es : List Entry) : Builder :=
  let shaped := shape true es
  { b with
    entries := shaped
    sums := sumsOf shaped
    pendingLetter := pendingOf shaped
    opps := if shaped.isEmpty then [] else b.opps }

/-- The builder with a prepared copy settled at the end of its list (R84 step 4). -/
def Builder.enter (fonts : Vector Slot 16) (b : Builder) (p : Prepared) : Builder :=
  b.withEntries (enterPrepared fonts b.entries p)

/-- An opportunity list with a record joined at its end; when it holds 48, its earliest leaves first (R93). -/
def pushOpp (opps : List Opp) (o : Opp) : List Opp :=
  (if opps.length < Config.opportunityLimit then opps else opps.tail) ++ [o]

/-- The builder with a SPACE entry and its opportunity added (R92). -/
def Builder.addSpace (fonts : Vector Slot 16) (b : Builder) (e : Entry) : Builder :=
  { b with opps := pushOpp b.opps { place := b.entries.length, kind := .space } }.withEntries (addBase fonts b.entries e)

/-- The builder with a FIXED entry added (R92). -/
def Builder.addFixed (fonts : Vector Slot 16) (b : Builder) (e : Entry) : Builder :=
  b.withEntries (addBase fonts b.entries e)

end Sys2Proof.Machine
end

