-- ==== Sys2Proof/Machine/Breaking.lean ====
section
/-! DEFINITION. Where a line breaks (5.8 to 5.10): the line and the carry that each opportunity would give, the trial close,
and the forced split. -/

namespace Sys2Proof.Machine

/-- What taking a break gives: the closed line's entries, the carry's entries, and the opportunity records that move with
the carry (R97 to R99). -/
structure Break where
  line : List Entry
  carry : List Entry
  opps : List Opp
deriving DecidableEq, Repr

/-- The entries of a closed line: the last base's kern 0, and every letter's form settled with the line's end (R100 steps 1
and 2, R98 step 5). -/
def sealLine (fonts : Vector Slot 16) (es : List Entry) : List Entry := shape false (kernWith fonts es none)

/-- Opportunity records moved with a carry that begins at position `start`, `shift` entries being put before it. A place that
lies before `start` becomes the place behind those entries. -/
def moveOpps (start shift : Nat) (opps : List Opp) : List Opp :=
  opps.map (fun o => { o with place := o.place - start + shift })

/-- Whether a record's place lies after a point that has `point` entries before it: a SPACE's entry stands behind the point, a
DISC's own point behind it (R98 step 4, R99). -/
def Opp.liesAfter (point : Nat) (o : Opp) : Bool :=
  match o.kind with
  | .space => decide (point ≤ o.place)
  | .disc _ _ _ _ => decide (point < o.place)

/-- Taking a SPACE opportunity whose entry stands at position `i`: the whole run of spaces around it is dropped (R97).
`later` are the records after it in the opportunity list. R97 tells what becomes of records before and after the run; of a
DISC it leaves two cases open (DESIGN CHOICE, log entry 12): one whose point lies within the run, between two of its SPACE
entries, is discarded with the run, and one whose point stands directly behind the run moves with the carry. -/
def breakAtSpace (fonts : Vector Slot 16) (es : List Entry) (i : Nat) (later : List Opp) : Break :=
  let after := (es.drop i).dropWhile Entry.isSpace
  { line := sealLine fonts (dropTrailingSpaces (es.take i))
    carry := shape true after
    opps :=
      let start := es.length - after.length
      moveOpps start 0 (later.filter (fun o => decide (start ≤ o.place))) }

/-- Whether an entry is a no-break entry of the DISC of a story index (R98 step 1). -/
def Entry.isNoBreakOf (number : StoryIndex) (e : Entry) : Bool :=
  e.disc == some { number := number, role := .noBreak }

/-- Taking a DISC opportunity whose point has `place` entries before it (R98). Marks stay with their bases: those of a
removed base leave with it, and those that stand after the point but belong to the base before it stay with that base
(R89). A record after the point moves with the carry, behind the post-break text where only such marks stood before it (step 4). -/
def breakAtDisc (fonts : Vector Slot 16) (es : List Entry) (place : Nat) (number : StoryIndex) (pre post : List Prepared)
    (noBreak : Nat) (later : List Opp) : Break :=
  let before := es.take place
  let removed := ((es.drop place).take noBreak).takeWhile (Entry.isNoBreakOf number)
  let rest := es.drop (place + removed.length)
  let strays := rest.takeWhile Entry.isMark
  let after := rest.dropWhile Entry.isMark
  let kept := if removed.any Entry.isGlyph then before else before ++ strays
  let head := enterAll fonts [] post
  { line := sealLine fonts (enterAll fonts (kernWith fonts kept none) pre)
    carry := shape true (joinEntries fonts head after)
    opps := moveOpps (es.length - after.length) head.length (later.filter (Opp.liesAfter place)) }

/-- Taking an opportunity, `later` being the records after it in the list. -/
def breakAt (fonts : Vector Slot 16) (es : List Entry) (o : Opp) (later : List Opp) : Break :=
  match o.kind with
  | .space => breakAtSpace fonts es o.place later
  | .disc number pre post noBreak => breakAtDisc fonts es o.place number pre post noBreak later

/-- Whether a tried opportunity fits: its line holds a GLYPH or FIXED entry, its line and its carry (with `incoming` entries
to come, R103) hold at most 160 entries, and its line's fit width does not exceed the measure (R96). -/
def Break.fits (b : Break) (p : Params) (incoming : Nat) : Bool :=
  b.line.any Entry.isCore && decide (b.line.length ≤ Config.entryLimit)
    && decide (b.carry.length + incoming ≤ Config.entryLimit)
    && decide (fitWidth p.align (sumsOf b.line) ≤ measureFine p)

/-- The trial close (R96): the break at the latest opportunity of the list that fits. -/
def trialClose (fonts : Vector Slot 16) (es : List Entry) (p : Params) (incoming : Nat) : List Opp → Option Break
  | [] => none
  | o :: later =>
    match trialClose fonts es p incoming later with
    | some b => some b
    | none =>
      let b := breakAt fonts es o later
      if b.fits p incoming then some b else none

/-- The position of the logically last GLYPH or FIXED entry of a list (R99). -/
def lastCore (es : List Entry) : Option Nat :=
  match es.reverse.findIdx? Entry.isCore with
  | some j => some (es.length - 1 - j)
  | none => none

/-- How a line closes when no opportunity is chosen (R99). -/
inductive Forced where
  /-- Split before its last GLYPH or FIXED entry: exception FORCED. -/
  | split (b : Break)
  /-- Closed whole: a split would leave it empty: exception WIDE. -/
  | whole
  /-- Closed whole as an empty line: it holds no GLYPH or FIXED entry. -/
  | empty
deriving DecidableEq, Repr

/-- The forced point of a line (R99). A record whose place lies at or before the split point is discarded. -/
def forcedClose (fonts : Vector Slot 16) (es : List Entry) (opps : List Opp) : Forced :=
  match lastCore es with
  | none => .empty
  | some i =>
    if (es.take i).any Entry.isCore then
      .split
        { line := sealLine fonts (es.take i)
          carry := shape true (es.drop i)
          opps := moveOpps i 0 (opps.filter (Opp.liesAfter i)) }
    else .whole

end Sys2Proof.Machine
end

