-- ==== Sys2Proof/Machine/LineClose.lean ====
section
/-! DEFINITION. Closing a line (chapter 6): direction resolution, visual order, mirroring, justification, placement and the
line record with its exceptions. -/

namespace Sys2Proof.Machine

/-- A closed line as the line builder hands it over (R100 step 5), with the one value from outside it, the width of the open
page (R119). -/
structure ClosedLine where
  entries : List Entry
  direction : Dir
  last : Bool
  params : Params
  depth : Nat
  exceptions : ExcSet
  pageWidth : Nat
deriving DecidableEq, Repr

/-- A base entry with its marks in the order they attached (R109). -/
structure Cluster where
  base : Entry
  marks : List Entry
deriving DecidableEq, Repr

/-- Entries grouped into bases with their marks; the marks that stand before the first base are returned beside. -/
def clusterFrom : List Entry → List Entry × List Cluster
  | [] => ([], [])
  | e :: rest =>
    let (ms, cs) := clusterFrom rest
    if e.isMark then (e :: ms, cs) else ([], { base := e, marks := ms } :: cs)

/-- The bases of a line in logical order, each with its marks (R105, R109). -/
def clusters (es : List Entry) : List Cluster := (clusterFrom es).2

/-! ### Direction (R105, R106) -/

/-- The direction a strong direction class resolves to; absent for a neutral (R105). -/
def DirClass.strong : DirClass → Option Dir
  | .l | .d => some .ltr
  | .r => some .rtl
  | _ => none

/-- The first strong direction of a list, or the paragraph direction where it has none (R106). -/
def firstStrong (para : Dir) : List Cluster → Dir
  | [] => para
  | c :: rest => match c.base.direction.strong with | some d => d | none => firstStrong para rest

/-- Base entries with their resolved directions, `before` being the nearest strong direction before them: a neutral between
two neighbours that agree takes theirs, otherwise the paragraph direction (R105, R106). -/
def resolveFrom (para before : Dir) : List Cluster → List (Dir × Cluster)
  | [] => []
  | c :: rest =>
    match c.base.direction.strong with
    | some d => (d, c) :: resolveFrom para d rest
    | none =>
      let after := firstStrong para rest
      (if before = after then before else para, c) :: resolveFrom para before rest

/-- The resolved direction of every base entry of a line (R105, R106). -/
def resolve (para : Dir) (cs : List Cluster) : List (Dir × Cluster) := resolveFrom para para cs

/-! ### Visual order (R107 to R109) -/

/-- The runs of a list: maximal sequences of one resolved direction (R107). -/
def runsOf : List (Dir × Cluster) → List (List (Dir × Cluster))
  | [] => []
  | x :: rest =>
    match runsOf rest with
    | [] => [[x]]
    | [] :: rs => [x] :: rs
    | (y :: ys) :: rs => if x.1 = y.1 then (x :: y :: ys) :: rs else [x] :: (y :: ys) :: rs

/-- A run in its order on the film: reversed when it is resolved R (R107, R108). -/
def visualRun (run : List (Dir × Cluster)) : List (Dir × Cluster) :=
  match run with
  | [] => []
  | x :: _ => if x.1 = .rtl then run.reverse else run

/-- The visual order of a line: the runs in logical order in an LTR paragraph and in the reverse of it in an RTL paragraph,
each run in its own order (R107, R108). -/
def visualOrder (para : Dir) (xs : List (Dir × Cluster)) : List (Dir × Cluster) :=
  let runs := (runsOf xs).map visualRun
  match para with
  | .ltr => runs.flatten
  | .rtl => runs.reverse.flatten

/-! ### Mirroring (R110) -/

/-- The image a base is set with at close: its mirror when it has resolved R and its record holds one, otherwise the image of
its form (R110). -/
def closeImage (d : Dir) (p : GlyphPart) : Image :=
  match d, p.record.mirror with
  | .rtl, some m => m
  | _, _ => p.record.image p.form

/-- A GLYPH's advance at close, after mirroring (R110, R5). -/
def closeAdvance (d : Dir) (e : Entry) (p : GlyphPart) : Nat := glyphAdvance (closeImage d p).advance e.track p.kern e.size

/-! ### Widths and the starting offset (R111 to R116) -/

/-- The width of a base other than a SPACE after mirroring: what it adds to G (R111). -/
def closeCore (x : Dir × Cluster) : Nat :=
  match x.2.base.body with
  | .glyph p => closeAdvance x.1 x.2.base p
  | .fixed n => n
  | _ => 0

/-- The three widths of each SPACE entry in an order (R111). -/
def spaceList (xs : List (Dir × Cluster)) : List (Nat × Nat × Nat) :=
  (xs.filter (fun x => x.2.base.isSpace)).map (fun x => x.2.base.spaceWidths)

/-- Minimum widths plus equal shares of a slack, the first `extra` spaces from the left taking one fine unit more (R112). -/
def shareOut (share : Nat) : Nat → List (Nat × Nat × Nat) → List Nat
  | _, [] => []
  | 0, w :: ws => (w.2.1 + share) :: shareOut share 0 ws
  | extra + 1, w :: ws => (w.2.1 + share + 1) :: shareOut share extra ws

/-- A line's set widths (of its spaces in visual order), its total width W, its starting offset, and whether it is LOOSE. -/
structure Setting where
  spaces : List Nat
  width : Nat
  offset : Nat
  loose : Bool
deriving DecidableEq, Repr

/-- The offset of a line of width `w` set from its START edge in a measure (R111). -/
def startOffset (d : Dir) (m w : Nat) : Nat := match d with | .ltr => 0 | .rtl => m - w

/-- The offset of a line no wider than its measure set by its alignment (R115). -/
def alignOffset (a : Align) (d : Dir) (m w : Nat) : Nat :=
  match a with
  | .justify | .start => startOffset d m w
  | .atEnd => (match d with | .ltr => m - w | .rtl => 0)
  | .center => (m - w) / 2

/-- A justified setting: minimum widths plus shares of E = M − G − Mn (R112). -/
def justified (g mn m : Nat) (ws : List (Nat × Nat × Nat)) : List Nat :=
  let slack := m - g - mn
  shareOut (slack / ws.length) (slack % ws.length) ws

/-- Whether any space is set wider than its maximum (R112). -/
def anyLoose (ws : List (Nat × Nat × Nat)) (set : List Nat) : Bool :=
  (ws.zip set).any (fun p => decide (p.1.2.2 < p.2))

/-- The set widths, total width and starting offset of a line (R112 to R116). -/
def settle (a : Align) (d : Dir) (last : Bool) (m g : Nat) (ws : List (Nat × Nat × Nat)) : Setting :=
  let nats := ws.map (fun w => w.1)
  let mins := ws.map (fun w => w.2.1)
  let n := nats.sum
  let mn := mins.sum
  if a = .justify then
    if last && decide (g + n ≤ m) then
      { spaces := nats, width := g + n, offset := startOffset d m (g + n), loose := false }
    else if g + mn ≤ m then
      if ws.isEmpty then { spaces := [], width := g, offset := startOffset d m g, loose := !last && decide (g < m) }
      else
        let set := justified g mn m ws
        { spaces := set, width := m, offset := 0, loose := !last && anyLoose ws set }
    else { spaces := mins, width := g + mn, offset := 0, loose := false }
  else if g + n ≤ m then { spaces := nats, width := g + n, offset := alignOffset a d m (g + n), loose := false }
  else { spaces := nats, width := g + n, offset := 0, loose := false }

/-- The greatest amount by which a space's set width exceeds its maximum width (R121). -/
def looseExcess (ws : List (Nat × Nat × Nat)) (set : List Nat) : Int :=
  (ws.zip set).foldl (fun acc p => max acc ((p.2 : Int) - p.1.2.2)) 0

/-! ### Placement (R117 to R119, R15 to R17) -/

/-- A base's anchor: its record's, or (half its advance in ru as set, 0) (R15). -/
def anchorOf (d : Dir) (p : GlyphPart) : Anchor :=
  match p.record.anchor with
  | some a => a
  | none => { dx := ((closeImage d p).advance / 2 : Nat), dy := 0 }

/-- A placement with its x before the page test: x in steps, which may lie off the page (R119). -/
structure RawPlacement where
  matrix : Byte
  glyph : Nat
  size : Nat
  x : Int
  y : Int
deriving DecidableEq, Repr

/-- The placement of the `n`th mark of a base that stands at `xFine` (R118, R15, R16). -/
def placeMark (xOffset xFine : Nat) (base : Entry) (a : Anchor) (n : Nat) (e : Entry) (q : MarkPart) : RawPlacement :=
  let off := q.record.markOffset.getD { dx := 0, dy := 0, stack := 0 }
  { matrix := q.matrix, glyph := q.record.base.glyph, size := e.size,
    x := xOffset + toSteps (xFine + a.dx * base.size * 25 + off.dx * e.size * 25),
    y := base.shift + toSteps ((a.dy * base.size + (off.dy + n * off.stack) * e.size) * 25) }

/-- The placements of a base's marks, the next being the `n`th (R118). -/
def placeMarks (xOffset xFine : Nat) (base : Entry) (a : Anchor) : Nat → List Entry → List RawPlacement
  | _, [] => []
  | n, e :: rest =>
    match e.body with
    | .mark q => placeMark xOffset xFine base a n e q :: placeMarks xOffset xFine base a (n + 1) rest
    | _ => placeMarks xOffset xFine base a n rest

/-- The walk of the visual order from a position, with the set widths of the spaces still to come (R117). -/
def walk (xOffset : Nat) : Nat → List Nat → List (Dir × Cluster) → List RawPlacement
  | _, _, [] => []
  | x, set, (d, c) :: rest =>
    match c.base.body with
    | .glyph p =>
      { matrix := p.matrix, glyph := (closeImage d p).glyph, size := c.base.size, x := xOffset + toSteps x,
        y := c.base.shift } :: placeMarks xOffset x c.base (anchorOf d p) 0 c.marks
        ++ walk xOffset (x + closeAdvance d c.base p) set rest
    | .fixed n => walk xOffset (x + n) set rest
    | .space _ _ _ => walk xOffset (x + set.headD 0) set.tail rest
    | .mark _ => walk xOffset x set rest

/-- Whether a placement stands on the page (R119, R14). -/
def RawPlacement.onPage (width : Nat) (p : RawPlacement) : Bool := decide (0 ≤ p.x) && decide (p.x ≤ (width : Int))

/-- A placement on the page as a line record holds it. -/
def RawPlacement.toPlacement (p : RawPlacement) : Placement :=
  { matrix := p.matrix, glyph := p.glyph, size := p.size, x := p.x.toNat, y := p.y }

/-! ### The line record (R104, R120 to R122) -/

/-- The exceptions the entries of a line bear (R83). -/
def bearsExceptions (es : List Entry) (x : ExcSet) : ExcSet :=
  let glyphHas (f : GlyphPart → Bool) : Bool := es.any (fun e => match e.body with | .glyph p => f p | _ => false)
  let markSubst := es.any (fun e => match e.body with | .mark p => p.substituted | _ => false)
  { x with
    missing := x.missing || glyphHas GlyphPart.substituted || markSubst
    marks := x.marks || glyphHas GlyphPart.marksDropped
    orphan := x.orphan || glyphHas GlyphPart.orphan }

/-- The exceptions and the amount of a line from its setting and its placements (R112, R114, R116, R119, R121). -/
def closeExceptions (l : ClosedLine) (m : Nat) (st : Setting) (offPage : Bool) : ExcSet :=
  let tooWide := decide (m < st.width)
  { l.exceptions with
    loose := st.loose
    wide := l.exceptions.wide || (tooWide && !l.exceptions.forced) || offPage }

/-- The amount of a line (R121). -/
def closeAmount (x : ExcSet) (m : Nat) (st : Setting) (ws : List (Nat × Nat × Nat)) : Nat :=
  if x.forced || x.wide then amountOf ((st.width : Int) - m)
  else if x.loose then amountOf (looseExcess ws st.spaces)
  else 0

/-- Line close (R104): the line record of a closed line of a galley, under a line number. -/
def closeRecord (g : GalleyId) (number : Count16) (l : ClosedLine) : LineRecord :=
  let visual := visualOrder l.direction (resolve l.direction (clusters l.entries))
  let ws := spaceList visual
  let m := measureFine l.params
  let st := settle l.params.align l.direction l.last m (visual.map closeCore).sum ws
  let raw := walk l.params.xOffset st.offset st.spaces visual
  let x := closeExceptions l m st (raw.any (fun p => !p.onPage l.pageWidth))
  { galley := g, number := number, depth := l.depth, first := (l.entries.head?.map Entry.index).getD 0,
    placements := (raw.filter (RawPlacement.onPage l.pageWidth)).map RawPlacement.toPlacement,
    exceptions := x, amount := closeAmount x m st ws }

end Sys2Proof.Machine
end

