-- ==== Sys2Proof/Machine/Galley.lean ====
section
/-! DEFINITION. The galley controller at work on its own line (4.4 to 4.7, 5.2, 5.8 to 5.10): line start, line close, the
chain of closes and starts, the consumption of each item, and how a galley proceeds. A galley's work is a function of its
own state and of what it reads from the part; the events it raises are gathered in order. -/

namespace Sys2Proof.Machine

/-- What a galley reads from the rest of the part: its own number, the font store (R36), and the page's width and depth. -/
structure Ctx where
  id : GalleyId
  fonts : Vector Slot 16
  pageWidth : Nat
  pageDepth : Nat
  /-- Whether the work is done within a STEP (R68). -/
  stepping : Bool
deriving DecidableEq, Repr

/-- A galley within one event: its state, the events raised so far, whether it has stopped (HALTED or BLOCKED), and how many
items it has consumed. -/
structure Run where
  gal : Galley
  events : List (Flag × EventData)
  stopped : Bool
  consumed : Nat
deriving DecidableEq, Repr

/-- A galley at the beginning of an event. -/
def Run.start (x : Galley) : Run := { gal := x, events := [], stopped := false, consumed := 0 }

/-- The run with an event raised (R168). -/
def Run.emit (r : Run) (f : Flag) (d : EventData) : Run := { r with events := r.events ++ [(f, d)] }

/-- Entry to HALTED with a cause, which raises HALTED; a deferred halt cause clears (R65, R66). -/
def Run.halt (c : Ctx) (r : Run) (cause : HaltCause) : Run :=
  { r with
    gal := { r.gal with state := .halted, cause := some cause, deferred := none }
    stopped := true }.emit (.halted c.id) (.halted cause)

/-- A line with exceptions given to its galley: an empty latch takes its record and raises EXCEPTION, otherwise the count
rises, up to 255 (R79, R122). -/
def Run.giveException (c : Ctx) (r : Run) (l : LineRecord) : Run :=
  if l.exceptions.isEmpty then r
  else
    match r.gal.latch with
    | none =>
      let e : ExceptionRecord := { number := l.number, exceptions := l.exceptions, first := l.first, amount := l.amount }
      { r with gal := { r.gal with latch := some e } }.emit (.exception c.id) (.exception e)
    | some _ => { r with gal := { r.gal with excCount := min (r.gal.excCount + 1) 255 } }

/-! ### Line start and line close (R60, R61, R100) -/

/-- A line start (R60): absent when the depth exceeds the page depth (overmatter, nothing takes effect). Otherwise a pending
staged set transfers, the depth is fixed, and a pending clamp passes to the line, unless PARA starts it on a builder that
holds no entries (`byPara`, R51). -/
def startLine (c : Ctx) (x : Galley) (byPara : Bool) : Option Galley :=
  let d := x.nextDepth
  if c.pageDepth < d then none
  else
    let keepClamp := byPara && x.builder.entries.isEmpty
    some { x with
      active := x.nextParams
      pendingFlag := false
      clampPending := x.clampPending && keepClamp
      builder := { x.builder with lineDepth := some d, clampMark := x.clampPending && !keepClamp } }

/-- Whether a triggered FORCE mark acts at a close that leaves these entries in the builder (R70). DESIGN CHOICE (log entry 11):
where a DISC that entered nothing is itself the break taken, its post-break text goes into the carry, and the mark waits for the
close after which none of its entries is left, as R70's text says, while R70's table names the first close. -/
def StopMark.acts (k : StopMark) (left : List Entry) : Bool :=
  k.kind == .force && k.state == .triggered && !left.any (fun e => e.index == k.index)

/-- The galley at a line close, before its record goes anywhere: the line takes its number, the depth advances, the builder
keeps the carry, and the idle timer is retriggered (R61, R100 step 6). -/
def Galley.afterClose (x : Galley) (carry : List Entry) (opps : List Opp) : Galley :=
  { x with
    lineNumber := x.lineNumber + 1
    lastDepth := some (x.builder.lineDepth.getD x.nextDepth)
    builder := { Builder.empty with opps := opps }.withEntries carry }.retrigger

/-- The close of the started line of a galley (R100, R61, R70, R122), as `entries`, with FORCED or WIDE from R99, as a
paragraph last line or not, leaving a carry and its opportunity records. -/
def closeLine (c : Ctx) (r : Run) (entries : List Entry) (forced wide last : Bool) (carry : List Entry) (opps : List Opp) :
    Run :=
  let x := r.gal
  let body := dropTrailingSpaces (sealLine c.fonts entries)
  let y := x.afterClose carry opps
  let acts := x.mark.acts y.builder.entries
  let y := if acts then { y with mark := { y.mark with state := .disarmed } } else y
  if body.isEmpty then
    let r := { r with gal := { y with clampPending := y.clampPending || x.builder.clampMark } }
    if acts then r.halt c .mark else r
  else
    let l : ClosedLine :=
      { entries := body, direction := x.direction, last := last, params := x.active, depth := x.builder.lineDepth.getD x.nextDepth,
        exceptions := bearsExceptions body
          { ExcSet.none with forced := forced, wide := wide, clamped := x.builder.clampMark },
        pageWidth := c.pageWidth }
    let record := closeRecord c.id x.lineNumber l
    let r := { r with gal := y }.giveException c record
    if r.gal.output.length < Config.outputCapacity then
      let r := { r with gal := { r.gal with output := r.gal.output ++ [record] } }
      if acts then r.halt c .mark else r
    else
      let deferred := if acts then some .mark else if c.stepping then some .step else none
      { r with
        gal := { r.gal with
          held := some { record := record, entries := body.length }
          state := .blocked, cause := none, deferred := deferred }
        stopped := true }

/-- The close of a line that has no room: at the latest opportunity that fits (R96), else at a forced point (R99). `incoming`
entries are to join the carry (R103). -/
def closeFull (c : Ctx) (r : Run) (incoming : Nat) : Run :=
  let b := r.gal.builder
  match trialClose c.fonts b.entries r.gal.active incoming b.opps with
  | some k => closeLine c r k.line false false false k.carry k.opps
  | none =>
    match forcedClose c.fonts b.entries b.opps with
    | .split k => closeLine c r k.line true false false k.carry k.opps
    | .whole => closeLine c r b.entries false true false [] []
    | .empty => closeLine c r b.entries false false false [] []

/-- Whether the line stands: none is started, or its fit width does not exceed the measure (R95). -/
def Galley.fits (x : Galley) : Bool :=
  !x.started || decide (fitWidth x.active.align x.builder.sums ≤ measureFine x.active)

/-- The fit test and the chain of closes and starts it causes (R95, R102). Every close that leaves a carry gives a record to
the output queue, which holds at most 4, or makes the galley BLOCKED; so a chain makes at most 5 closes. -/
def fitChain (c : Ctx) : Nat → Run → Run
  | 0, r => r
  | n + 1, r =>
    if r.stopped || r.gal.fits then r
    else
      let r := closeFull c r 0
      if r.stopped || r.gal.builder.entries.isEmpty then r
      else
        match startLine c r.gal false with
        | none => r.halt c .overmatter
        | some x => fitChain c n { r with gal := x }

/-- The chain's fuel: one more than the closes it can make. -/
def chainFuel : Nat := Config.outputCapacity + 2

/-- A carry without a started line attempts its line start, and the fit test follows it (R60, R63 step 2, R95, R102). -/
def startCarry (c : Ctx) (r : Run) : Run :=
  if r.stopped || !r.gal.hasCarry then r
  else
    match startLine c r.gal false with
    | none => r.halt c .overmatter
    | some x => fitChain c chainFuel { r with gal := x }

/-! ### Consuming an item (R48, R84, R92, R94, R101, R49 to R53) -/

/-- A stop mark after the item of its index has been consumed: FORCE is triggered (R70), TAG, which only a STEP passes, is
disarmed (R69). -/
def StopMark.afterItem (k : StopMark) (i : StoryIndex) : StopMark :=
  if k.state = .armed ∧ k.index = i then
    match k.kind with
    | .force => { k with state := .triggered }
    | .tag => { k with state := .disarmed }
  else k

/-- The galley with its front item gone and its item index increased (R48). -/
def Galley.take (x : Galley) : Galley :=
  { x with story := x.story.tail, itemIndex := x.itemIndex + 1, mark := x.mark.afterItem x.itemIndex }

/-- The run with its galley's front item consumed, the galley having become `x` otherwise. -/
def Run.take (r : Run) (x : Galley) : Run := { r with gal := x.take, consumed := r.consumed + 1 }

/-- A lookup of a code in a slot: the record copy, the matrix number, and whether it is substituted; absent when the slot is
not VALID (R36). -/
def lookup (fonts : Vector Slot 16) (n : SlotId) (code : CodeUnit) : Option (GlyphRecord × Byte × Bool) :=
  let f := fonts[n]
  match f.state, f.header with
  | .valid, some h =>
    match f.find code with
    | some r => some (r, h.matrix, false)
    | none =>
      match f.find h.missing with
      | some r => some (r, h.matrix, true)
      | none => none
  | _, _ => none

/-- The header a SPACE or FIXED lookup finds; absent when the slot is not VALID (R36). -/
def lookupHeader (fonts : Vector Slot 16) (n : SlotId) : Option Header :=
  let f := fonts[n]
  match f.state with
  | .valid => f.header
  | _ => none

/-- A found copy with the galley's current values (R3). -/
def Galley.prepare (x : Galley) (code : CodeUnit) (disc : Option DiscMember) (hit : GlyphRecord × Byte × Bool) : Prepared :=
  { code := code, slot := x.slot, matrix := hit.2.1, record := hit.1, substituted := hit.2.2, size := x.size,
    track := x.track, shift := x.shift, index := x.itemIndex, disc := disc }

/-- The copies of a DISC text, absent when its slot is not VALID (R52). -/
def Galley.prepareText (c : Ctx) (x : Galley) (role : DiscRole) : List CodeUnit → Option (List Prepared)
  | [] => some []
  | u :: us =>
    match lookup c.fonts x.slot u, x.prepareText c role us with
    | some hit, some ps => some (x.prepare u (some { number := x.itemIndex, role := role }) hit :: ps)
    | _, _ => none

/-- The galley with a line started: as it is when one is, otherwise after a line start (R84 step 2). -/
def needLine (c : Ctx) (x : Galley) (byPara : Bool) : Option Galley := if x.started then some x else startLine c x byPara

/-- The entry limit (R103): the line is closed first when `n` more entries would bring it above 160. The second part tells
whether it was. -/
def limitClose (c : Ctx) (r : Run) (n : Nat) : Run × Bool :=
  if Config.entryLimit < r.gal.builder.entries.length + n then (closeFull c r n, true) else (r, false)

/-- The end of an item's course: the fit test, or, after a limit close, the line start of the carry with the item's entries
(R84 step 5, R102, R103). -/
def endCourse (c : Ctx) (r : Run) (limited : Bool) : Run := if limited then startCarry c r else fitChain c chainFuel r

/-- The course of a CHAR item (R84). -/
def consumeChar (c : Ctx) (r : Run) (code : CodeUnit) : Run :=
  match lookup c.fonts r.gal.slot code with
  | none => r.halt c .noFont
  | some hit =>
    match needLine c r.gal false with
    | none => r.halt c .overmatter
    | some x =>
      let n := if (x.prepare code none hit).dropped x.builder.entries then 0 else 1
      let (r, limited) := limitClose c { r with gal := x } n
      let x := r.gal
      let p := x.prepare code none hit
      let made := !p.dropped x.builder.entries
      endCourse c
        (r.take { x with builder := x.builder.enter c.fonts p, hasEntries := x.hasEntries || made })
        limited

/-- The entry a SPACE or FIXED item makes (R92, R3). -/
def Galley.plainEntry (x : Galley) (code : CodeUnit) (body : EntryBody) : Entry :=
  { body := body, code := code, slot := x.slot, size := x.size, track := x.track, shift := x.shift, index := x.itemIndex,
    disc := none }

/-- The body of a SPACE entry at a size, from a slot header (R8). -/
def Header.spaceBody (h : Header) (q : Nat) : EntryBody :=
  .space (ruToFine h.natural q) (ruToFine h.minimum q) (ruToFine h.maximum q)

/-- The body of a FIXED entry at a size, from a slot header (R8). -/
def Header.fixedBody (h : Header) (q : Nat) : EntryBody := .fixed (ruToFine h.natural q)

/-- The course of a SPACE item (R84, R92). -/
def consumeSpace (c : Ctx) (r : Run) : Run :=
  match lookupHeader c.fonts r.gal.slot with
  | none => r.halt c .noFont
  | some h =>
    match needLine c r.gal false with
    | none => r.halt c .overmatter
    | some x =>
      let (r, limited) := limitClose c { r with gal := x } 1
      let x := r.gal
      let e := x.plainEntry 0xF000 (h.spaceBody x.size)
      endCourse c (r.take { x with builder := x.builder.addSpace c.fonts e, hasEntries := true }) limited

/-- The course of a FIXED item (R84, R92). -/
def consumeFixed (c : Ctx) (r : Run) : Run :=
  match lookupHeader c.fonts r.gal.slot with
  | none => r.halt c .noFont
  | some h =>
    match needLine c r.gal false with
    | none => r.halt c .overmatter
    | some x =>
      let (r, limited) := limitClose c { r with gal := x } 1
      let x := r.gal
      let e := x.plainEntry 0xF001 (h.fixedBody x.size)
      endCourse c (r.take { x with builder := x.builder.addFixed c.fonts e, hasEntries := true }) limited

/-- The course of a PARA item (R101): the started line closes as a paragraph last line, and the direction state changes
(R53). -/
def consumePara (c : Ctx) (r : Run) : Run :=
  match needLine c r.gal true with
  | none => r.halt c .overmatter
  | some x =>
    let r := closeLine c (r.take x) x.builder.entries false false true [] []
    let y := r.gal
    { r with
      gal := { y with
        direction := y.nextDirection.getD y.active.direction
        nextDirection := none
        hasEntries := false } }

/-- The course of a DISC item (R94). -/
def consumeDisc (c : Ctx) (r : Run) (pre post noBreak : List CodeUnit) : Run :=
  let x := r.gal
  match lookupHeader c.fonts x.slot, x.prepareText c .pre pre, x.prepareText c .post post,
      x.prepareText c .noBreak noBreak with
  | some _, some pre, some post, some texts =>
    match (if noBreak.isEmpty then some x else needLine c x false) with
    | none => r.halt c .overmatter
    | some x =>
      let (r, limited) := limitClose c { r with gal := x } texts.length
      let x := r.gal
      let place := x.builder.entries.length
      let entered := texts.foldl (Builder.enter c.fonts) x.builder
      let made := entered.entries.length - place
      let opp : Opp := { place := place, kind := .disc x.itemIndex pre post made }
      let builder :=
        if x.active.hyphenation && decide (0 < place) then { entered with opps := pushOpp entered.opps opp } else entered
      let r := r.take { x with builder := builder, hasEntries := x.hasEntries || decide (0 < made) }
      if limited || decide (0 < made) then endCourse c r limited else r
  | _, _, _, _ => r.halt c .noFont

/-- A consumed SIZE, TRACK or SHIFT whose operand was clamped gives CLAMPED to the started line, or sets the clamp-pending
flag (R51). -/
def Galley.clamped (x : Galley) (was : Bool) : Galley :=
  if was then
    if x.started then { x with builder := { x.builder with clampMark := true } } else { x with clampPending := true }
  else x

/-- A SIZE item consumed (R50). -/
def Galley.setSize (x : Galley) (q : CodeUnit) : Galley :=
  let v := clampInt 16 576 q.toNat
  { x with size := v.toNat }.clamped (v != q.toNat)

/-- A TRACK item consumed (R50). -/
def Galley.setTrack (x : Galley) (t : CodeUnit) : Galley :=
  let v := clampInt (-32) 31 t.toInt
  { x with track := v }.clamped (v != t.toInt)

/-- A SHIFT item consumed (R50). -/
def Galley.setShift (x : Galley) (s : CodeUnit) : Galley :=
  let v := clampInt (-1200) 1200 s.toInt
  { x with shift := v }.clamped (v != s.toInt)

/-- A direction item consumed (R53). -/
def Galley.setDirection (x : Galley) (d : Dir) : Galley :=
  if x.hasEntries then { x with nextDirection := some d } else { x with direction := d }

/-- The consumption of the item at the front of the story queue, with every line close and line start it causes (R48). -/
def consumeItem (c : Ctx) (r : Run) : Run :=
  match r.gal.story with
  | [] => r
  | .char u :: _ => consumeChar c r u
  | .space :: _ => consumeSpace c r
  | .fixed :: _ => consumeFixed c r
  | .para :: _ => consumePara c r
  | .font n :: _ => r.take { r.gal with slot := n }
  | .size q :: _ => r.take (r.gal.setSize q)
  | .track t :: _ => r.take (r.gal.setTrack t)
  | .shift s :: _ => r.take (r.gal.setShift s)
  | .dirLtr :: _ => r.take (r.gal.setDirection .ltr)
  | .dirRtl :: _ => r.take (r.gal.setDirection .rtl)
  | .disc pre post noBreak :: _ => consumeDisc c r pre post noBreak

/-! ### Proceeding and closing (R63, R76, R77) -/

/-- A CLOSING galley whose output queue is empty goes OFF, raises CLOSED and stops its idle timer (R77). DESIGN CHOICE (log entry
23): its pending flag, which R77 neither keeps nor clears, stays as it stood. -/
def Run.offWhenEmpty (c : Ctx) (r : Run) : Run :=
  if r.gal.state = .closing ∧ r.gal.output = [] then
    { r with gal := { r.gal with state := .off, idleTimer := false } }.emit (.closed c.id)
      (.closed r.gal.lineNumber r.gal.itemIndex)
  else r

/-- Entry to CLOSING: the stop mark is disarmed and the drain flag clears; with an empty output queue the galley goes OFF at
once (R77). -/
def Run.enterClosing (c : Ctx) (r : Run) : Run :=
  { r with
    gal := { r.gal with
      state := .closing, cause := none, deferred := none, drain := false, mark := { r.gal.mark with state := .disarmed } }
    stopped := true }.offWhenEmpty c

/-- The end of a drain (R76): a started line closes as a paragraph last line; then the galley goes CLOSING, unless that close
stopped it. -/
def endDrain (c : Ctx) (r : Run) : Run :=
  let r := if r.gal.started then closeLine c r r.gal.builder.entries false false true [] [] else r
  if r.stopped then r else r.enterClosing c

/-- Whether an armed TAG mark names the front item (R69). -/
def Galley.tagNames (x : Galley) : Bool :=
  x.mark.kind == .tag && x.mark.state == .armed && x.mark.index == x.itemIndex

/-- What a proceeding galley that holds neither a closed line nor a carry does next (R63 steps 3 to 5). -/
def proceedQueue (c : Ctx) (r : Run) : Run :=
  if r.gal.story.isEmpty then
    if r.gal.state = .draining then endDrain c r
    else { r with gal := { r.gal with state := if r.gal.started then .starved else .ready } }
  else if r.gal.tagNames then
    { r with gal := { r.gal with mark := { r.gal.mark with state := .disarmed } } }.halt c .mark
  else consumeItem c r

/-- The steps of a SETTING or DRAINING galley up to and including the first consumption, or up to its leaving those states
(R63). -/
def proceed (c : Ctx) (r : Run) : Run :=
  if !r.gal.proceeding then r
  else if r.gal.held.isSome then { r with gal := { r.gal with state := .blocked }, stopped := true }
  else
    let r := startCarry c r
    if r.stopped then r else proceedQueue c r

/-- The galley brought to SETTING, or to DRAINING when its drain flag is set, and proceeding (R61, R67). -/
def Run.goOn (c : Ctx) (r : Run) : Run :=
  proceed c
    { r with gal := { r.gal with state := if r.gal.drain then .draining else .setting, cause := none, deferred := none } }

/-- What a galley does once the head of its output queue has left (R61, R135, R136): a held closed line joins the queue, and
the galley goes on according to its state; a CLOSING galley whose queue is empty goes OFF. -/
def afterHeadLeaves (c : Ctx) (r : Run) : Run :=
  match r.gal.held with
  | none => r.offWhenEmpty c
  | some h =>
    let r := { r with gal := { r.gal with held := none, output := r.gal.output ++ [h.record] } }
    if r.gal.state = .blocked then
      match r.gal.deferred with
      | some .mark => r.halt c .mark
      | some .step => r.halt c .step
      | none => r.goOn c
    else r

/-- The head of a galley's output queue retires (R135). -/
def retireHead (c : Ctx) (x : Galley) : Run := afterHeadLeaves c (Run.start { x with output := x.output.tail })

/-- The head of a galley's output queue is spoiled: SPOILED is added to it and it is given to its galley, which counts this as
a retirement (R136). -/
def spoilHead (c : Ctx) (x : Galley) : Run :=
  let r := Run.start { x with output := x.output.tail }
  match x.output with
  | [] => afterHeadLeaves c r
  | l :: _ => afterHeadLeaves c (r.giveException c { l with exceptions := { l.exceptions with spoiled := true } })

/-- One STEP of a halted galley that holds no closed line and has story (R68). -/
def stepGalley (c : Ctx) (x : Galley) : Run :=
  let r := startCarry c (Run.start x)
  let r := if r.stopped then r else consumeItem c r
  if r.stopped then r else r.halt c .step

/-! ### Reaching the state of the part -/

/-- What galley `g` reads from the part. -/
def State.ctx (s : State) (g : GalleyId) (stepping : Bool) : Ctx :=
  { id := g, fonts := s.fonts, pageWidth := s.page.width, pageDepth := s.page.depth, stepping := stepping }

/-- The state after a galley's work: its new state, and the events it raised (R168). -/
def State.commit (s : State) (g : GalleyId) (r : Run) : State := (s.setGalley g r.gal).raiseAll r.events

end Sys2Proof.Machine
end

