-- ==== Sys2Proof/Machine/GalleyRequests.lean ====
section
/-! DEFINITION. The galley requests (Story Streams 3.3 and 3.6, Galleys 4.2 to 4.11): each request's checks in their order, its
effect and its reply. -/

namespace Sys2Proof.Machine

/-- An owner's answer to a request: the state it leaves, the result code and the reply's data (R160). -/
structure Answer where
  state : State
  result : Result
  data : List Byte
deriving DecidableEq, Repr

/-- A refusal: no state changes and the data is empty (R159, R160). -/
def State.refuse (s : State) (r : Result) : Answer := { state := s, result := r, data := [] }

/-- An acceptance: result DONE with its data (R160). -/
def State.accept (s : State) (data : List Byte) : Answer := { state := s, result := .done, data := data }

/-! ### Stories (R44 to R47, R54, R64) -/

/-- The un-release test of an arrival (R64 step 2, R75). -/
def unreleaseTest (c : Ctx) (high : Nat) (r : Run) : Run :=
  let x := r.gal
  if !x.released then r
  else if aboveBand high x.frontier then (if x.state = .halted then r else r.halt c .behind)
  else if x.state = .halted ∧ x.cause = some .behind then r
  else { r with gal := { x with released := false, idleTimer := x.timerStarted } }

/-- An arrival of story with its items already stored, `units` being what it stored (R64). -/
def arrival (c : Ctx) (high units : Nat) (x : Galley) : Run :=
  let r := unreleaseTest c high (Run.start x.retrigger)
  if 0 < units ∧ (r.gal.state = .ready ∨ r.gal.state = .starved) then
    proceed c { r with gal := { r.gal with state := .setting } }
  else r

/-- STORY (R44 to R47). The free count of the reply is read as the event leaves it (R159). -/
def handleStory (s : State) (target : Byte) (body : List Byte) : Answer :=
  let g := galleyOf target
  let x := s.galley g
  if x.state = .off ∨ x.state = .closing then s.refuse .state
  else
    match readStory body with
    | .error (why, offset) => { state := s, result := .badItem, data := byteOf why.code :: be16 offset }
    | .ok items =>
      let n := storyUnits items
      if x.storyFree < n then { state := s, result := .full, data := be16 x.storyFree }
      else
        let r := arrival (s.ctx g false) s.page.high n { x with story := x.story ++ items }
        (s.commit g r).accept (be16 n ++ be16 items.length ++ be16 r.gal.storyFree)

/-- FLUSH (R54). -/
def handleFlush (s : State) (target : Byte) (_body : List Byte) : Answer :=
  let g := galleyOf target
  let x := s.galley g
  if x.state ≠ .halted then s.refuse .state
  else (s.setGalley g { x with story := [] }).accept (be16 x.fill ++ be16 x.story.length)

/-! ### Opening and parameters (R57 to R59) -/

/-- A galley as an accepted GALLEY OPEN sets it up (R57). -/
def Galley.opened (x : Galley) (p : Params) (top interval : Nat) (slot : SlotId) (size : Nat) (track : Int) : Galley :=
  { x with
    state := .ready, cause := none, drain := false, deferred := none, active := p, pendingFlag := false
    topDepth := top, lastDepth := none, itemIndex := 0, lineNumber := 0, interval := interval
    idleTimer := decide (interval ≠ 0), released := false, mark := { x.mark with state := .disarmed }
    snapshot := none, latch := none, excCount := 0, slot := slot, size := size, track := track, shift := 0
    direction := p.direction, nextDirection := none, hasEntries := false, clampPending := false
    story := [], builder := Builder.empty, held := none, output := [] }

/-- GALLEY OPEN (R57). -/
def handleGalleyOpen (s : State) (target : Byte) (body : List Byte) : Answer :=
  let g := galleyOf target
  let x := s.galley g
  if s.page.state ≠ .open then s.refuse .noPage
  else if x.state ≠ .off then s.refuse .state
  else
    match body with
    | [t1, t0, x1, x0, m1, m0, l1, l0, al, dir, hyph, i1, i0, font, q1, q0, tr] =>
      match readParams (nat16 m1 m0) (nat16 x1 x0) (nat16 l1 l0) al dir hyph with
      | none => s.refuse .range
      | some p =>
        let top := nat16 t1 t0
        let interval := nat16 i1 i0
        let size := nat16 q1 q0
        let track := tr.toInt
        if p.inRange s.page.width && decide (top < s.page.depth) && decide (font.toNat < 16) && decide (16 ≤ size)
            && decide (size ≤ 576) && decide (-32 ≤ track) && decide (track ≤ 31) && decide (interval ≤ 255) then
          if aboveBand s.page.high top then s.refuse .behind
          else (s.setGalley g (x.opened p top interval (slotOf font) size track)).accept []
        else s.refuse .range
    | _ => s.refuse .range

/-- Whether a change would leave a restraining galley's frontier above the band (R58, R59, R72). -/
def refusedBehind (s : State) (before after : Galley) : Bool := before.restraining && aboveBand s.page.high after.frontier

/-- PARAM (R58). -/
def handleParam (s : State) (target : Byte) (body : List Byte) : Answer :=
  let g := galleyOf target
  let x := s.galley g
  if x.state = .off then s.refuse .state
  else
    match readParamBody body with
    | none => s.refuse .range
    | some p =>
      if !p.inRange s.page.width then s.refuse .range
      else
        let y := { x with staged := p, pendingFlag := true }
        if refusedBehind s x y then s.refuse .behind else (s.setGalley g y).accept []

/-- PARAM NOW (R59). -/
def handleParamNow (s : State) (target : Byte) (body : List Byte) : Answer :=
  let g := galleyOf target
  let x := s.galley g
  if x.state ≠ .halted then s.refuse .state
  else if x.started then s.refuse .lineOpen
  else
    match readParamBody body with
    | none => s.refuse .range
    | some p =>
      if !p.inRange s.page.width then s.refuse .range
      else
        let y := { x with active := p, pendingFlag := false }
        if refusedBehind s x y then s.refuse .behind else (s.setGalley g y).accept []

/-! ### Halting, resuming, stepping, stop marks (R66 to R70) -/

/-- HALT (R66). -/
def handleHalt (s : State) (target : Byte) (_body : List Byte) : Answer :=
  let g := galleyOf target
  let x := s.galley g
  if x.state = .off ∨ x.state = .closing ∨ x.state = .halted then s.refuse .state
  else (s.commit g ((Run.start x).halt (s.ctx g false) .request)).accept []

/-- RESUME (R67). DEDUCED (log entry 22): a galley whose drain ends within the RESUME event with an empty output queue is OFF at its
end (R77), so the reply carries OFF, which R67's list of states lacks. -/
def handleResume (s : State) (target : Byte) (_body : List Byte) : Answer :=
  let g := galleyOf target
  let x := s.galley g
  if x.state ≠ .halted then s.refuse .state
  else if x.released && aboveBand s.page.high x.frontier then s.refuse .behind
  else
    let r := (Run.start { x with released := false, idleTimer := x.timerStarted }).goOn (s.ctx g false)
    (s.commit g r).accept [byteOf r.gal.state.code, causeByte r.gal.cause]

/-- STEP (R68). -/
def handleStep (s : State) (target : Byte) (_body : List Byte) : Answer :=
  let g := galleyOf target
  let x := s.galley g
  if x.state ≠ .halted then s.refuse .state
  else if x.held.isSome then s.refuse .full
  else if x.story.isEmpty then s.refuse .empty
  else
    let r := stepGalley (s.ctx g true) x
    (s.commit g r).accept [byteOf r.gal.state.code, causeByte r.gal.cause, byteOf r.consumed]

/-- MARK SET (R69). -/
def handleMarkSet (s : State) (target : Byte) (body : List Byte) : Answer :=
  let g := galleyOf target
  let x := s.galley g
  if x.state = .off ∨ x.state = .closing then s.refuse .state
  else
    match body with
    | [k, a, b, c, d] =>
      match readMarkKind k with
      | none => s.refuse .range
      | some kind =>
        if nat32 a b c d < x.itemIndex.toNat then s.refuse .range
        else
          let mark : StopMark := { kind := kind, index := BitVec.ofNat 32 (nat32 a b c d), state := .armed }
          (s.setGalley g { x with mark := mark }).accept []
    | _ => s.refuse .range

/-- MARK CLEAR (R69). -/
def handleMarkClear (s : State) (target : Byte) (_body : List Byte) : Answer :=
  let g := galleyOf target
  let x := s.galley g
  if x.state = .off then s.refuse .state
  else (s.setGalley g { x with mark := { x.mark with state := .disarmed } }).accept []

/-! ### Requests of a halted galley (R71 to R73) -/

/-- The x offset and measure a RESTART body gives after its top depth, where it gives them (R71, 9.7). -/
def readRestart : List Byte → Option (Nat × Option (Nat × Nat))
  | [t1, t0] => some (nat16 t1 t0, none)
  | [t1, t0, x1, x0, m1, m0] => some (nat16 t1 t0, some (nat16 x1 x0, nat16 m1 m0))
  | _ => none

/-- Whether a top depth lies above a line of the galley's output queue, or above a closed line it holds (R128). -/
def Galley.topAboveQueued (x : Galley) (top : Nat) : Bool :=
  x.output.any (fun l => decide (top < l.depth)) ||
    (match x.held with | some h => decide (top < h.record.depth) | none => false)

/-- A galley after an accepted RESTART (R71). -/
def Galley.restarted (x : Galley) (top : Nat) (column : Option (Nat × Nat)) : Galley :=
  let y :=
    match column with
    | none => x
    | some (xOffset, measure) =>
      { x with staged := { x.nextParams with xOffset := xOffset, measure := measure }, pendingFlag := true }
  { y with
    topDepth := top
    lastDepth := none
    released := false
    idleTimer := y.timerStarted
    cause := if y.cause = some .behind then some .request else y.cause }

/-- RESTART (R71, R128). -/
def handleRestart (s : State) (target : Byte) (body : List Byte) : Answer :=
  let g := galleyOf target
  let x := s.galley g
  if x.state ≠ .halted then s.refuse .state
  else if s.page.state ≠ .open then s.refuse .noPage
  else if x.started then s.refuse .lineOpen
  else
    match readRestart body with
    | none => s.refuse .range
    | some (top, column) =>
      let columnOk := match column with | none => true | some (xo, m) => columnGood s.page.width xo m
      if s.page.depth ≤ top ∨ !columnOk then s.refuse .range
      else if aboveBand s.page.high top || x.topAboveQueued top then s.refuse .behind
      else (s.setGalley g (x.restarted top column)).accept []

/-- ABANDON (R72). -/
def handleAbandon (s : State) (target : Byte) (_body : List Byte) : Answer :=
  let g := galleyOf target
  let x := s.galley g
  let y := { x with builder := Builder.empty }
  if x.state ≠ .halted then s.refuse .state
  else if x.started && refusedBehind s x y then s.refuse .behind
  else (s.setGalley g y).accept [byteOf x.builder.entries.length]

/-- A PEEK entry's kind byte (9.7). -/
def Entry.kindByte (e : Entry) : Byte :=
  match e.body with
  | .glyph _ => 0
  | .space _ _ _ => 1
  | .fixed _ => 2
  | .mark _ => 3

/-- A PEEK entry's 21 bytes (9.7). Only the pending letter is not resolved (R82); an entry without a kern reports 0 (R92). -/
def Entry.peekBytes (e : Entry) : List Byte :=
  let (form, resolved, advance, kern) : Form × Bool × Nat × Int :=
    match e.body with
    | .glyph p => (p.form, p.resolved, p.advance, p.kern)
    | .space n _ _ => (.none, true, n, 0)
    | .fixed n => (.none, true, n, 0)
    | .mark _ => (.none, true, 0, 0)
  [e.kindByte] ++ be16 e.code.toNat ++ [byteOf e.slot.val] ++ be16 e.size
    ++ [byteOf form.code, byteOf (resolved.toNat + 2 * e.disc.isSome.toNat)] ++ be32 advance
    ++ [signedByte kern, signedByte e.track] ++ signed16 e.shift ++ [byteOf e.direction.code] ++ be32 e.index.toNat

/-- PEEK (R73). -/
def handlePeek (s : State) (target : Byte) (body : List Byte) : Answer :=
  let es := (s.galley (galleyOf target)).builder.entries
  let offset := (body.headD 0).toNat
  if (s.galley (galleyOf target)).state ≠ .halted then s.refuse .state
  else if es.length < offset then s.refuse .range
  else
    let shown := (es.drop offset).take Config.peekEntries
    s.accept ([byteOf es.length, byteOf shown.length] ++ (shown.map Entry.peekBytes).flatten)

/-! ### Closing a galley (R76, R77) -/

/-- GALLEY CLOSE DRAIN on a galley that may be closed (R76). -/
def drainGalley (s : State) (g : GalleyId) : Answer :=
  let x := s.galley g
  if x.state = .off ∨ x.state = .closing ∨ x.drain then s.refuse .state
  else
    let y := { x with drain := true }
    let r :=
      if x.state = .ready ∨ x.state = .setting ∨ x.state = .starved then
        proceed (s.ctx g false) (Run.start { y with state := .draining })
      else Run.start y
    (s.commit g r).accept []

/-- A galley after an accepted GALLEY CLOSE DISCARD, up to its going CLOSING (R77 steps 1 to 4). -/
def Galley.discarded (x : Galley) : Galley := { x with story := [], builder := Builder.empty, held := none }

/-- GALLEY CLOSE DISCARD on a galley that may be closed (R77). The entries dropped are those of the builder and those of a
held closed line. -/
def discardGalley (s : State) (g : GalleyId) : Answer :=
  let x := s.galley g
  if x.state = .off ∨ x.state = .closing then s.refuse .state
  else
    let r := (Run.start x.discarded).enterClosing (s.ctx g false)
    let entries := x.builder.entries.length + (match x.held with | some h => h.entries | none => 0)
    (s.commit g r).accept (be16 x.fill ++ be16 entries)

/-- GALLEY CLOSE (R76, R77): DRAIN 0, DISCARD 1, any other form RANGE. -/
def handleGalleyClose (s : State) (target : Byte) (body : List Byte) : Answer :=
  match (body.headD 0).toNat with
  | 0 => drainGalley s (galleyOf target)
  | 1 => discardGalley s (galleyOf target)
  | _ => s.refuse .range

/-! ### Reading a galley (R78, R79) -/

/-- POSITION (R78). -/
def handlePosition (s : State) (target : Byte) (_body : List Byte) : Answer :=
  let g := galleyOf target
  let x := s.galley g
  match x.snapshot with
  | some p => (s.setGalley g { x with snapshot := none }).accept (1 :: p.bytes)
  | none => s.accept (0 :: x.position.bytes)

/-- Whether a SNAPSHOT set names a galley it will latch: named, and holding no latch (R78). -/
def State.latches (s : State) (set : Byte) (g : GalleyId) : Bool :=
  set.getLsbD g.val && (s.galley g).snapshot.isNone

/-- One galley's part of a SNAPSHOT (R78). -/
def State.latch (set : Byte) (s : State) (g : GalleyId) : State :=
  if s.latches set g then s.setGalley g { s.galley g with snapshot := some (s.galley g).position } else s

/-- SNAPSHOT (R78). The high four bits of the set are not examined. -/
def handleSnapshot (s : State) (_target : Byte) (body : List Byte) : Answer :=
  let set := body.headD 0
  let bit (g : GalleyId) : Nat := if s.latches set g then 2 ^ g.val else 0
  ([0, 1, 2, 3].foldl (State.latch set) s).accept [byteOf (bit 0 + bit 1 + bit 2 + bit 3)]

/-- GALLEY REPORT (R79). The latch fields are 0 when the latch is empty (9.7). -/
def handleGalleyReport (s : State) (target : Byte) (_body : List Byte) : Answer :=
  let g := galleyOf target
  let x := s.galley g
  let data :=
    match x.latch with
    | some r => 1 :: r.bytes
    | none => 0 :: List.replicate 9 0
  (s.setGalley g { x with latch := none, excCount := 0 }).accept (data ++ [byteOf x.excCount])

/-! ### The galley's own events (R63, R69, R74, R76) -/

/-- A galley's own event: it proceeds (R63), which may make a selection due (R134). -/
def galleyProceeds (s : State) (g : GalleyId) : State :=
  s.noting (s.commit g (proceed (s.ctx g false) (Run.start (s.galley g))))

/-- The galley's next own event, when it is proceeding and its front item is one that `want` accepts; a galley that is to
halt for a TAG mark does not consume (R63). -/
def consumeEvent (s : State) (g : GalleyId) (want : Item → Bool) : State :=
  let x := s.galley g
  match x.story with
  | [] => s
  | item :: _ =>
    if x.proceeding && !x.tagNames && want item then galleyProceeds s g else s

/-- TAG_MARK_HALT (R69): a proceeding galley reaches the item its armed TAG mark names. -/
def tagMarkHalt (s : State) (g : GalleyId) : State :=
  let x := s.galley g
  if x.proceeding && x.tagNames && !x.story.isEmpty then galleyProceeds s g else s

/-- QUEUE_EMPTIES (R63 step 4). -/
def queueEmpties (s : State) (g : GalleyId) : State :=
  let x := s.galley g
  if x.state = .setting ∧ x.story = [] then galleyProceeds s g else s

/-- DRAIN_END (R63 step 5, R76). -/
def drainEnd (s : State) (g : GalleyId) : State :=
  let x := s.galley g
  if x.state = .draining ∧ x.story = [] then galleyProceeds s g else s

/-- The idle timer's expiry (R74). -/
def idleExpiry (s : State) (g : GalleyId) : State :=
  let x := s.galley g
  if x.idleTimer then
    s.noting ((s.setGalley g { x with idleTimer := false, released := true }).raise (.released g)
      (.released x.frontier s.page.high))
  else s

end Sys2Proof.Machine
end

