-- ==== Sys2Proof/Machine/FontStore.lean ====
section
/-! DEFINITION. The font store's requests and its silence timer (The Font Store 2.4, 2.5, 2.7). -/

namespace Sys2Proof.Machine

/-- FONT BEGIN (R25). -/
def handleFontBegin (s : State) (target : Byte) (body : List Byte) : Answer :=
  let n := slotOf target
  match body with
  | [matrix, nat, mini, maxi, m1, m0, d1, d0] =>
    let missing := unit16 m1 m0
    let declared := nat16 d1 d0
    if decide (mini.toNat ≤ nat.toNat) && decide (nat.toNat ≤ maxi.toNat) && isCharCode missing && decide (1 ≤ declared)
        && decide (declared ≤ 1024) then
      let h : Header :=
        { matrix := matrix, natural := nat.toNat, minimum := mini.toNat, maximum := maxi.toNat, missing := missing,
          declared := declared }
      let t := s.setFont n { Slot.empty with state := .loading, header := some h, silence := true }
      t.accept (be16 (s.font n).records.length ++ be16 (poolFree t.fonts))
    else s.refuse .range
  | _ => s.refuse .range

/-- A frame's examination as it goes (R26 to R30): the slot, the pool places free, the counts stored and rejected, the first
rejected position, and the position that met the full store (0: none). -/
structure Examination where
  slot : Slot
  free : Nat
  stored : Nat
  rejected : Nat
  firstRejected : Nat
  full : Nat
deriving DecidableEq, Repr

/-- A code's joining the rejected set (R27). -/
def Slot.reject (f : Slot) (c : CodeUnit) : Slot :=
  if f.rejected.contains c then f
  else if f.rejected.length < Config.rejectedCapacity then { f with rejected := f.rejected ++ [c] }
  else { f with overflow := true }

/-- A code's leaving the rejected set: its healing (R28). -/
def Slot.heal (f : Slot) (c : CodeUnit) : Slot := { f with rejected := f.rejected.filter (fun x => x != c) }

/-- A record put in the place of the one its slot holds for the code (R28). -/
def replaceRecord (r : GlyphRecord) (rs : List GlyphRecord) : List GlyphRecord :=
  rs.map (fun x => if x.code = r.code then r else x)

/-- One record's examination, at its position in the frame; nothing after a full store (R27 to R29). -/
def examine (e : Examination) (position : Nat) (bytes : List Byte) : Examination :=
  if e.full ≠ 0 then e
  else
    match readRecord bytes with
    | none =>
      { e with
        slot := e.slot.reject (recordCode bytes)
        rejected := e.rejected + 1
        firstRejected := if e.firstRejected = 0 then position else e.firstRejected }
    | some r =>
      if (e.slot.find r.code).isSome then
        { e with
          slot := { e.slot with records := replaceRecord r e.slot.records }.heal r.code
          stored := e.stored + 1 }
      else if 0 < e.free ∧ e.slot.records.length < Config.slotRecords then
        { e with
          slot := { e.slot with records := e.slot.records ++ [r] }.heal r.code
          free := e.free - 1
          stored := e.stored + 1 }
      else { e with full := position }

/-- The records of a frame examined in their order, the first at a position (R26). -/
def examineAll (e : Examination) : Nat → List (List Byte) → Examination
  | _, [] => e
  | position, b :: bs => examineAll (examine e position b) (position + 1) bs

/-- FONT GLYPHS (R24, R26 to R30, R33). -/
def handleFontGlyphs (s : State) (target : Byte) (body : List Byte) : Answer :=
  let n := slotOf target
  let f := s.font n
  if f.state ≠ .loading then s.refuse .state
  else
    let f := { f with silence := true }
    let t := s.setFont n f
    match body with
    | [] => t.refuse .range
    | count :: bytes =>
      if count.toNat < 1 ∨ 32 < count.toNat then t.refuse .range
      else
        match splitRecords count.toNat bytes with
        | none => t.refuse .range
        | some records =>
          let e := examineAll
            { slot := f, free := poolFree s.fonts, stored := 0, rejected := 0, firstRejected := 0, full := 0 } 1 records
          let u := s.setFont n e.slot
          { state := u
            result := if e.full = 0 then .done else .storeFull
            data := [byteOf e.stored, byteOf e.rejected, byteOf e.firstRejected, byteOf e.full]
              ++ be16 e.slot.records.length ++ be16 (poolFree u.fonts) }

/-- One kern row from 16 bytes (R31). -/
def kernRow (bytes : List Byte) : Vector Int 16 := Vector.ofFn (fun (i : Fin 16) => (bytes[i.val]?.getD 0).toInt)

/-- Whole rows written to a kern table from a row on (R31). -/
def writeRows (t : KernTable) (row : Nat) (bytes : List Byte) : Nat → KernTable
  | 0 => t
  | c + 1 => writeRows (t.setIfInBounds row (kernRow (bytes.take 16))) (row + 1) (bytes.drop 16) c

/-- Whether a byte is a kern value in −32..+31 (R31). -/
def kernGood (b : Byte) : Bool := decide (-32 ≤ b.toInt) && decide (b.toInt ≤ 31)

/-- FONT KERN (R24, R31, R33). -/
def handleFontKern (s : State) (target : Byte) (body : List Byte) : Answer :=
  let n := slotOf target
  let f := s.font n
  if f.state ≠ .loading then s.refuse .state
  else
    let f := { f with silence := true }
    match body with
    | row :: count :: values =>
      if row.toNat < 16 ∧ 1 ≤ count.toNat ∧ count.toNat ≤ 16 ∧ row.toNat + count.toNat ≤ 16
          ∧ values.length = count.toNat * 16 ∧ values.all kernGood then
        (s.setFont n { f with kern := writeRows f.kern row.toNat values count.toNat }).accept []
      else (s.setFont n f).refuse .range
    | _ => (s.setFont n f).refuse .range

/-- Whether a load meets the three conditions of FONT END (R32). -/
def Slot.loadGood (f : Slot) : Bool :=
  (match f.header with | some h => f.records.length == h.declared | none => false)
    && f.rejected.isEmpty && !f.overflow && f.missingHeld

/-- The declared glyph count of a slot, 0 without a header (R35). -/
def Slot.declared (f : Slot) : Nat := match f.header with | some h => h.declared | none => 0

/-- FONT END (R24, R32). -/
def handleFontEnd (s : State) (target : Byte) (_body : List Byte) : Answer :=
  let n := slotOf target
  let f := s.font n
  if f.state ≠ .loading then s.refuse .state
  else
    let good := f.loadGood
    let t := s.setFont n { f with state := if good then .valid else .provisional, silence := false }
    (t.raise .fontDone (.fontDone n good)).accept
      ([flagByte good] ++ be16 f.records.length ++ be16 f.declared
        ++ [byteOf f.rejected.length, flagByte f.overflow, flagByte f.missingHeld])

/-- FONT DROP (R34). -/
def handleFontDrop (s : State) (target : Byte) (_body : List Byte) : Answer :=
  let n := slotOf target
  let t := s.setFont n Slot.empty
  t.accept (be16 (s.font n).records.length ++ be16 (poolFree t.fonts))

/-- FONT QUERY (R35, 9.7). -/
def handleFontQuery (s : State) (target : Byte) (_body : List Byte) : Answer :=
  let f := s.font (slotOf target)
  let header :=
    match f.header with
    | some h => [h.matrix, byteOf h.natural, byteOf h.minimum, byteOf h.maximum] ++ be16 h.missing.toNat ++ be16 h.declared
    | none => List.replicate 8 0
  let codes := (f.rejected.map (fun c => be16 c.toNat)).flatten
  s.accept
    ([byteOf f.state.code] ++ header ++ ((f.kern.toList.map Vector.toList).flatten.map signedByte)
      ++ be16 f.records.length ++ [flagByte f.missingHeld, byteOf f.rejected.length]
      ++ codes ++ List.replicate (32 - codes.length) 0 ++ [flagByte f.overflow] ++ be16 (poolUse s.fonts))

/-- The silence timer's expiry (R33). -/
def silenceExpiry (s : State) (n : SlotId) : State :=
  let f := s.font n
  if f.silence then
    (s.setFont n { f with state := .provisional, silence := false }).raise .fontAbandoned (.fontAbandoned n)
  else s

/-- A slot at PART RESET: a LOADING slot becomes PROVISIONAL and its silence timer stops (R39). -/
def Slot.partReset (f : Slot) : Slot :=
  if f.state = .loading then { f with state := .provisional, silence := false } else f

end Sys2Proof.Machine
end

