-- ==== Sys2Proof/Machine/Arbiter.lean ====
section
/-! DEFINITION. The page record and the exposure arbiter (The Page and the Exposure Arbiter): PAGE OPEN, PAGE CLOSE, the
selection, the issue of a line order and of the cut. -/

namespace Sys2Proof.Machine

/-- The galleys in the order of their numbers. -/
def allGalleys : List GalleyId := [0, 1, 2, 3]

/-- Whether all four galleys are OFF (R125). -/
def State.allOff (s : State) : Bool := allGalleys.all (fun g => (s.galley g).state == .off)

/-- PAGE OPEN (R124). -/
def handlePageOpen (s : State) (_target : Byte) (body : List Byte) : Answer :=
  if s.page.state ≠ .noPage then s.refuse .state
  else
    match body with
    | [w1, w0, d1, d0] =>
      let width := nat16 w1 w0
      let depth := nat16 d1 d0
      if 1200 ≤ width ∧ width ≤ 14400 ∧ 600 ≤ depth ∧ depth ≤ 30000 then
        let number := s.page.number + 1
        { s with
          page := { s.page with
            state := .open, number := number, width := width, depth := depth, high := 0, lastIssued := 0 } }.accept
          (be16 number.toNat)
      else s.refuse .range
    | _ => s.refuse .range

/-- PAGE CLOSE (R125). The page state changes, so a selection is due, which issues the cut when the gate is open then (R134,
R137). -/
def handlePageClose (s : State) (_target : Byte) (_body : List Byte) : Answer :=
  if s.page.state = .open ∧ s.allOff then
    { s with page := { s.page with state := .closing } }.accept (be16 s.page.number.toNat)
  else s.refuse .state

/-- The candidate among galleys: the head of least depth, the lowest number on a tie (R131). -/
def candidateOf (s : State) : List GalleyId → Option (GalleyId × LineRecord)
  | [] => none
  | g :: rest =>
    match (s.galley g).output, candidateOf s rest with
    | [], c => c
    | l :: _, none => some (g, l)
    | l :: _, some (g', l') => if l.depth ≤ l'.depth then some (g, l) else some (g', l')

/-- The candidate of a selection (R131). -/
def State.candidate (s : State) : Option (GalleyId × LineRecord) := candidateOf s allGalleys

/-- Whether no restraining galley with an empty output queue has its frontier less than d − 1200 (R132). -/
def State.unrestrained (s : State) (d : Nat) : Bool :=
  allGalleys.all (fun g =>
    let x := s.galley g
    !(x.restraining && x.output.isEmpty && decide (x.frontier + Config.reverseAllowance < d)))

/-- The issue depth of a line of depth `d`: its own, or the top of the band for a late line (R133). -/
def issueDepth (high d : Nat) : Nat := max d (high - Config.reverseAllowance)

/-- An order handed to the unit link controller: it is recorded as outstanding, and its frame is sent (R143, R144). Its timer
starts when the last byte of the frame has been sent (R148). -/
def UnitLink.send (u : UnitLink) (o : Order) (f : ExposureFrame) : UnitLink :=
  { u with view := { u.view with outstanding := some o }, orderTimer := false, transmit := u.transmit ++ [f] }

/-- The issue of the head of galley `g` as a line order (R133, R143). -/
def State.issueLine (s : State) (g : GalleyId) (l : LineRecord) : State :=
  let e := issueDepth s.page.high l.depth
  { s with
    page := { s.page with high := max s.page.high e, lastIssued := e, nextOrder := s.page.nextOrder + 1 }
    unit := s.unit.send { number := s.page.nextOrder, kind := .line g } (.line s.page.nextOrder e l.placements) }

/-- The issue of the cut (R137, R144). -/
def State.issueCut (s : State) : State :=
  { s with
    page := { s.page with high := s.page.depth, lastIssued := s.page.depth, nextOrder := s.page.nextOrder + 1 }
    unit := s.unit.send { number := s.page.nextOrder, kind := .cut } (.cut s.page.nextOrder s.page.depth) }

/-- A selection (R130 to R133, R137): through an open gate it issues the cut of a CLOSING page, or the candidate of an OPEN
page where no restraining galley makes it wait. -/
def State.select (s : State) : State :=
  if !s.unit.view.gateOpen then s
  else
    match s.page.state with
    | .noPage => s
    | .closing => s.issueCut
    | .open =>
      match s.candidate with
      | none => s
      | some (g, l) => if s.unrestrained l.depth then s.issueLine g l else s

/-- The selection as an event: it is made on the state as it stands, and none is due until the next re-examination point
(R134). -/
def State.selectDue (s : State) : State := { s.select with selectionDue := false }

end Sys2Proof.Machine
end

