-- ==== Sys2Proof/Machine/PhotoUnit.lean ====
section
/-! DEFINITION. The unit link controller (The Photo Unit Link): the receiver, the reports, the order and query timers and
UNIT RESUME. -/

namespace Sys2Proof.Machine

/-- Whether a frame to the unit is a QUERY. -/
def ExposureFrame.isQuery : ExposureFrame → Bool
  | .query => true
  | _ => false

/-- The controller with a QUERY handed to its transmitter and the query timer started (R145). -/
def UnitLink.query (u : UnitLink) : UnitLink := { u with transmit := u.transmit ++ [.query], queryTimer := true }

/-- The unit asked for its state by UNIT RESUME: QUERY at once (R145, R150), but within the pause after a reset only when the pause
ends (R177). -/
def UnitLink.ask (u : UnitLink) : UnitLink := if u.resetPause then u else u.query

/-- Whether an order ended by its timer (R148). -/
def FaultCode.isTimeout : FaultCode → Bool
  | .timeout => true
  | .code _ => false

/-- The last byte of a LINE or CUT frame has been sent. The frames before it have been sent whole, in their order (R140). The
outstanding order's frame is the last LINE or CUT handed over; when it is this one, the order timer starts (R148). -/
def State.frameSent (s : State) : State :=
  match s.unit.transmit.dropWhile ExposureFrame.isQuery with
  | [] => s
  | _ :: rest =>
    { s with unit := { s.unit with
        transmit := rest
        orderTimer := s.unit.orderTimer || (s.unit.view.outstanding.isSome && rest.all ExposureFrame.isQuery) } }

/-- The unit link controller with its outstanding order ended: the order timer stops, and no order is outstanding (R146 to
R148). What the transmitter has begun to send it completes (R140). -/
def UnitLink.ended (u : UnitLink) : UnitLink :=
  { u with view := { u.view with outstanding := none }, orderTimer := false }

/-- The page's cut completed (R138). -/
def State.pageDone (s : State) : State :=
  { s with page := { s.page with state := .noPage } }.raise .pageDone (.pageDone s.page.number)

/-- A DONE report (R146, R135, R138). -/
def State.takeDone (s : State) (n : Byte) : State :=
  match s.unit.view.outstanding with
  | none => s
  | some o =>
    if o.number = n then
      let t := { s with unit := s.unit.ended }
      s.noting
        (match o.kind with
        | .line g => t.commit g (retireHead (t.ctx g false) (t.galley g))
        | .cut => t.pageDone)
    else s

/-- The spoiling of the line of an ended order; a cut leaves the page CLOSING (R136, R138). -/
def State.spoil (s : State) (k : OrderKind) : State :=
  match k with
  | .line g => s.commit g (spoilHead (s.ctx g false) (s.galley g))
  | .cut => s

/-- The end of the outstanding order in failure (R147, R148): the view becomes faulted or silent with its last fault, the line is
spoiled, and UNIT_FAULT is raised. Whether the UNIT_FAULT notice is placed before or after the line's own is open (R151):
a free value decides. DESIGN CHOICE (log entry 3): it stands before or after all the notices the spoiling raises for its galley,
EXCEPTION, HALTED and CLOSED, never between two of them. -/
def State.failOrder (s : State) (o : Order) (fault : FaultCode) : State :=
  let lf : LastFault := { number := o.number, cut := o.kind == .cut, fault := fault }
  let u := s.unit.ended
  let t :=
    { s with
      unit := { u with
        view := { u.view with
          faulted := u.view.faulted || !fault.isTimeout
          silent := u.view.silent || fault.isTimeout
          lastFault := some lf } }
      free := s.free + 1 }
  s.noting
    (if Config.unitFaultFirst s.free then (t.raise .unitFault (.unitFault lf)).spoil o.kind
    else (t.spoil o.kind).raise .unitFault (.unitFault lf))

/-- A FAULT report (R147). -/
def State.takeFault (s : State) (n code : Byte) : State :=
  match s.unit.view.outstanding with
  | none => s
  | some o => if o.number = n then s.failOrder o (.code code) else s

/-- The order timer's expiry (R148). -/
def State.orderExpiry (s : State) : State :=
  match s.unit.view.outstanding with
  | none => s
  | some o => if s.unit.orderTimer then s.failOrder o .timeout else s

/-- A STATE READY report (R149). -/
def State.takeReady (s : State) : State :=
  s.noting
    { s with unit := { s.unit with view := { s.unit.view with known := true, held := false }, queryTimer := false } }

/-- A STATE HELD report (R149, R151). -/
def State.takeHeld (s : State) : State :=
  s.noting
    ({ s with
      unit := { s.unit with view := { s.unit.view with known := true, held := true }, queryTimer := false } }.raise
      .unitHeld .unitHeld)

/-- A report taken (R146 to R149). -/
def State.takeReport (s : State) : Report → State
  | .done n => s.takeDone n
  | .fault n c => s.takeFault n c
  | .ready => s.takeReady
  | .held => s.takeHeld

/-- The query timer's expiry with known still no: QUERY is sent again (R145). With known yes, which a STATE report taken in the
pause after a reset leaves when the QUERY that follows goes unanswered, the manual gives no effect: the timer is then over, and no
QUERY is sent (DESIGN CHOICE, log entry 21). -/
def State.queryExpiry (s : State) : State :=
  if s.unit.queryTimer then
    if s.unit.view.known then { s with unit := { s.unit with queryTimer := false } } else { s with unit := s.unit.query }
  else s

/-- The end of the pause after a reset: the first QUERY (R152, R177). It is sent whatever the view holds, as R152 words it. A STATE
READY taken within the pause can have made the unit known and let an order be issued, while whose answer R145 says no QUERY is
sent: the manual leaves that case open, and the model follows R152 (DESIGN CHOICE, log entry 21). -/
def State.pauseEnds (s : State) : State :=
  if s.unit.resetPause then { s with unit := { s.unit with resetPause := false }.query } else s

/-- UNIT RESUME (R150). It sends QUERY in its own event. Accepted within the pause after a reset, which takes a STATE READY, an order
and its failure within 50 ms, it leaves its QUERY to the pause's end, for the first QUERY comes only after the pause (R177). That the
one QUERY of the pause's end serves for both is DEDUCED (log entry 21). -/
def handleUnitResume (s : State) (_target : Byte) (_body : List Byte) : Answer :=
  let v := s.unit.view
  if v.faulted || v.silent then
    { s with
      unit := { s.unit with
        view := { v with faulted := false, silent := false, lastFault := none, known := false } }.ask }.accept []
  else s.refuse .state

/-- The exposure receiver in HUNT, its gap measure stopped (R141). -/
def State.exposureHunt (s : State) : State := { s with unit := { s.unit with receiver := .hunt, gapTimer := false } }

/-- A frame from the photo unit that has completed: taken as a report, or discarded without effect (R141). -/
def State.exposureFrameDone (s : State) (bytes : List Byte) : State :=
  match readReport bytes with
  | none => s.exposureHunt
  | some r => s.exposureHunt.takeReport r

/-- A byte at the exposure receiver (R141). -/
def State.exposureByte (s : State) (b : Byte) : State :=
  match s.unit.receiver with
  | .hunt =>
    if b = Config.exposureStart then { s with unit := { s.unit with receiver := .frame [], gapTimer := true } } else s
  | .frame bs =>
    let bs := bs ++ [b]
    if exposureComplete bs then s.exposureFrameDone bs
    else { s with unit := { s.unit with receiver := .frame bs, gapTimer := true } }

/-- The gap of more than 20 ms inside a frame from the photo unit (R141). -/
def State.exposureGap (s : State) : State := if s.unit.gapTimer then s.exposureHunt else s

end Sys2Proof.Machine
end

