-- ==== Sys2Proof/Machine/Link.lean ====
section
/-! DEFINITION. The composing link interface (The Composing Link): receiving, taking and holding frames, dispatch, replies,
the transmitter, STATUS, the event unit's requests, PART RESET and power-on. -/

namespace Sys2Proof.Machine

/-! ### STATUS and the event unit's requests -/

/-- The unit view's bytes in the STATUS record (9.7, bytes 11 to 20). -/
def UnitView.statusBytes (v : UnitView) : List Byte :=
  let flags := byteOf (v.known.toNat + 2 * v.held.toNat + 4 * v.faulted.toNat + 8 * v.silent.toNat)
  let order :=
    match v.outstanding with
    | none => [0, 0, 0, 0xFF]
    | some { number := n, kind := .line g } => [1, n, 0, galleyByte g]
    | some { number := n, kind := .cut } => [1, n, 1, 0xFF]
  let fault :=
    match v.lastFault with
    | none => [0, 0, 0, 0, 0]
    | some f => [1, f.number, flagByte f.cut] ++ be16 f.fault.value
  flags :: order ++ fault

/-- The STATUS record (R162, 9.7). -/
def State.statusRecord (s : State) : List Byte :=
  [byteOf s.page.state.code] ++ be16 s.page.number.toNat ++ be16 s.page.width ++ be16 s.page.depth ++ be16 s.page.high
    ++ be16 s.page.lastIssued ++ s.unit.view.statusBytes
    ++ (s.galleys.toList.map (fun x => [byteOf x.state.code, causeByte x.cause])).flatten
    ++ s.fonts.toList.map (fun f => byteOf f.state.code) ++ be16 (poolUse s.fonts)
    ++ s.events.pendingBytes ++ s.events.maskBytes

/-- STATUS (R162). -/
def handleStatus (s : State) (_target : Byte) (_body : List Byte) : Answer := s.accept s.statusRecord

/-- EVENT CLEAR (R171). DEDUCED (log entry 25): the limit of 21 names counts the names as the body lists them, a repeated one each
time it stands there. -/
def handleEventClear (s : State) (_target : Byte) (body : List Byte) : Answer :=
  match readFlagNames body with
  | none => s.refuse .range
  | some names =>
    if names.isEmpty ∨ 21 < names.length then s.refuse .range
    else
      let t := s.clearFlags names
      t.accept t.events.pendingBytes

/-- EVENT MASK (R170). -/
def handleEventMask (s : State) (_target : Byte) (body : List Byte) : Answer :=
  match body with
  | [hi, lo] =>
    let t := s.setMask (readMask hi lo)
    t.accept t.events.maskBytes
  | _ => s.refuse .range

/-- PART RESET (R163): its reply is placed as any reply is; the reset takes effect when that reply's last byte has been sent. -/
def handlePartReset (s : State) (_target : Byte) (_body : List Byte) : Answer :=
  { s with link := { s.link with resetPending := true } }.accept []

/-! ### Dispatch and replies (R157 to R161) -/

/-- The owner's handling of a request (R159 step 4). -/
def handle (k : ReqKind) (s : State) (target : Byte) (body : List Byte) : Answer :=
  match k with
  | .status => handleStatus s target body
  | .position => handlePosition s target body
  | .snapshot => handleSnapshot s target body
  | .galleyReport => handleGalleyReport s target body
  | .eventClear => handleEventClear s target body
  | .eventMask => handleEventMask s target body
  | .partReset => handlePartReset s target body
  | .story => handleStory s target body
  | .param => handleParam s target body
  | .halt => handleHalt s target body
  | .markSet => handleMarkSet s target body
  | .markClear => handleMarkClear s target body
  | .galleyOpen => handleGalleyOpen s target body
  | .galleyClose => handleGalleyClose s target body
  | .fontBegin => handleFontBegin s target body
  | .fontGlyphs => handleFontGlyphs s target body
  | .fontKern => handleFontKern s target body
  | .fontEnd => handleFontEnd s target body
  | .fontDrop => handleFontDrop s target body
  | .fontQuery => handleFontQuery s target body
  | .pageOpen => handlePageOpen s target body
  | .pageClose => handlePageClose s target body
  | .unitResume => handleUnitResume s target body
  | .resume => handleResume s target body
  | .step => handleStep s target body
  | .paramNow => handleParamNow s target body
  | .restart => handleRestart s target body
  | .peek => handlePeek s target body
  | .abandon => handleAbandon s target body
  | .flush => handleFlush s target body

/-- The dispatch of a good frame (R159): its kind, its target, its length, then its owner. -/
def dispatch (s : State) (kind target : Byte) (body : List Byte) : Answer :=
  match requestKind kind with
  | none => s.refuse .unknown
  | some k =>
    if !k.domain.holds target then s.refuse .range
    else if !k.lengthGood body then s.refuse .range
    else handle k s target body

/-- The state an answer leaves with its reply placed: behind what stood in the send queue before the event, ahead of the notices
the event placed (R161). `queued` is how many frames stood there. -/
def Answer.place (a : Answer) (queued : Nat) (kind target : Byte) : State :=
  let q := a.state.link.sendQueue
  { a.state with
    link := { a.state.link with
      sendQueue := q.take queued ++ .reply kind target a.result a.data :: q.drop queued } }

/-- A completed frame taken: judged, dispatched when it is good, and answered by one reply (R157 to R160). What it changes may make
a selection due (R134). -/
def State.takeFrame (s : State) (f : LinkFrame) : State :=
  let queued := s.link.sendQueue.length
  s.noting
    (match f with
    | .badLength => (s.refuse .badFrame).place queued 0x00 0xFF
    | .whole kind target body check =>
      if checkGood kind target body check then (dispatch s kind target body).place queued kind target
      else (s.refuse .badFrame).place queued kind target)

/-- The link with a completed frame that is not taken: held, or discarded when a frame is held already (R158). -/
def ComposingLink.hold (l : ComposingLink) (f : LinkFrame) : ComposingLink :=
  { l with heldFrame := some (l.heldFrame.getD f) }

/-- The receiver in HUNT, its gap timer stopped (R154, R155). -/
def ComposingLink.hunt (l : ComposingLink) : ComposingLink := { l with receiver := .hunt, gapTimer := false }

/-- A frame completes at the receiver, which returns to HUNT: it is taken when no reply waits unsent, otherwise held or discarded
(R154, R158, R163). -/
def State.completeFrame (s : State) (f : LinkFrame) : State :=
  let t := { s with link := s.link.hunt }
  if s.link.canTake then t.takeFrame f else { t with link := t.link.hold f }

/-- A byte at the receiver: what the link becomes, and the frame the byte completes (R154, R155, R157). -/
def ComposingLink.collect (l : ComposingLink) (b : Byte) : ComposingLink × Option LinkFrame :=
  match l.receiver with
  | .hunt =>
    if b = Config.composingStart then ({ l with receiver := .frame [], gapTimer := true }, none) else (l, none)
  | .frame bs =>
    let bs := bs ++ [b]
    match composingComplete bs with
    | some f => (l.hunt, some f)
    | none => ({ l with receiver := .frame bs, gapTimer := true }, none)

/-- A byte at the composing link receiver (R154). -/
def State.linkByte (s : State) (b : Byte) : State :=
  match s.link.collect b with
  | (l, none) => { s with link := l }
  | (l, some f) => { s with link := l }.completeFrame f

/-- The gap timer's expiry (R155). -/
def ComposingLink.gapExpiry (l : ComposingLink) : ComposingLink := if l.gapTimer then l.hunt else l

/-- A held frame taken, when it may be (R158). -/
def State.takeHeldFrame (s : State) : State :=
  match s.link.heldFrame with
  | none => s
  | some f => if s.link.canTake then { s with link := { s.link with heldFrame := none } }.takeFrame f else s

/-- Whether the frame being sent is the reply of PART RESET (R163). -/
def ComposingLink.sendingReset (l : ComposingLink) : Bool :=
  l.resetPending &&
    (match l.sending with
     | some (.reply kind _ .done _) => kind == ReqKind.partReset.code
     | _ => false)

/-- The first byte of the next frame of the send queue is sent; a frame held behind a waiting reply is then taken (R158, R161).
With an empty send queue there is nothing to send, and the reply of PART RESET is followed by the reset, not by a frame
(R163). -/
def State.transmit (s : State) : State :=
  if s.link.sendingReset then s
  else
    match s.link.sendQueue with
    | [] => s
    | f :: rest => { s with link := { s.link with sending := some f, sendQueue := rest } }.takeHeldFrame

/-! ### Resets (R163, R164, R175, R176) -/

/-- The page record at PART RESET: the page number and the next order number are kept (R123, R139). -/
def Page.partReset (p : Page) : Page := { Page.powerOn with number := p.number, nextOrder := p.nextOrder }

/-- Every block at its PART RESET values, and READY with kind REQUEST placed (R163, R39, R80, R139, R152, R174). No selection is
due: with the gate closed and no page one would find nothing (R134, R139). -/
def State.partReset (s : State) : State :=
  { s with
    link := ComposingLink.reset .request
    fonts := s.fonts.map Slot.partReset
    galleys := Vector.replicate 4 Galley.reset
    page := s.page.partReset
    selectionDue := false
    unit := UnitLink.reset
    events := EventUnit.reset }

/-- The reset takes effect: the last byte of the PART RESET reply has been sent (R163). -/
def State.resetEffect (s : State) : State := if s.link.sendingReset then s.partReset else s

/-- What reaches the receiver before READY is placed: a frame that completes is held, and a further one discarded (R176). -/
def ComposingLink.early (l : ComposingLink) : PowerUpEvent → ComposingLink
  | .byte b =>
    match l.collect b with
    | (l', none) => l'
    | (l', some f) => l'.hold f
  | .gapExpiry => l.gapExpiry
  | .lineBreak => l.hunt

/-- Power applied, every block at its power-on values, READY placed, and a frame held meanwhile taken behind it (R175, R176).
The commands that wait and the counter of free values are the model's own and stay. DESIGN CHOICE (log entry 26): nothing of what
the photo unit sends before READY is collected, so the exposure receiver is in HUNT when READY is placed. -/
def State.powerOn (s : State) (early : List PowerUpEvent) : State :=
  let l := early.foldl ComposingLink.early { ComposingLink.reset .power with sendQueue := [] }
  { State.reset with
    link := { l with sendQueue := [.ready .power] }
    free := s.free
    pending := s.pending }.takeHeldFrame

end Sys2Proof.Machine
end

