-- ==== Sys2Proof/Machine/Commands.lean ====
section
/-! DEFINITION. The meaning of every command, one definition for each row of the table, over the shared operations of the blocks.
A request row is the completion of that request's frame at the composing link receiver: it is taken when no reply waits, and held or
discarded otherwise (R158; log entry 1). A row that is an event of the part happens only where its condition holds; elsewhere it
changes nothing (log entry 2). -/

namespace Sys2Proof.Machine

/-! ### The composing link (R154 to R166, R175, R176) -/

/-- POWER_ON (R175, R176). -/
def execPowerOn (early : List PowerUpEvent) (s : State) : Host.Outcome State Fault Refusal := .next (s.powerOn early)

/-- FRAME_HELD (R158): a frame completes at the receiver. -/
def execFrameHeld (f : LinkFrame) (s : State) : Host.Outcome State Fault Refusal := .next (s.completeFrame f)

/-- GAP_TIMER_EXPIRY (R155). -/
def execGapTimerExpiry (s : State) : Host.Outcome State Fault Refusal := .next { s with link := s.link.gapExpiry }

/-- BREAK_CONDITION (R156): the partial frame is discarded and nothing else changes. -/
def execBreakCondition (s : State) : Host.Outcome State Fault Refusal := .next { s with link := s.link.hunt }

/-- BAD_FRAME (R157): a bad frame completes and, when it is taken, is answered with BAD_FRAME. -/
def execBadFrame (f : LinkFrame) (s : State) : Host.Outcome State Fault Refusal := .next (s.completeFrame f)

/-- UNKNOWN (R159 step 1): a good frame of a kind that is no request kind completes. -/
def execUnknown (kind target : Byte) (body : List Byte) (s : State) : Host.Outcome State Fault Refusal :=
  .next (s.completeFrame (goodFrame kind target body))

/-- TRANSMIT_START (R158, R161). -/
def execTransmitStart (s : State) : Host.Outcome State Fault Refusal := .next s.transmit

/-! ### Requests of the part and of the galleys -/

/-- STATUS (R162): its frame completes at the receiver, and is taken by `handleStatus` or held (R158, R159). -/
def execStatus (target : Byte) (body : List Byte) (s : State) : Host.Outcome State Fault Refusal :=
  .next (s.completeFrame (goodFrame ReqKind.status.code target body))

/-- POSITION (R78): its frame completes at the receiver, and is taken by `handlePosition` or held (R158, R159). -/
def execPosition (target : Byte) (body : List Byte) (s : State) : Host.Outcome State Fault Refusal :=
  .next (s.completeFrame (goodFrame ReqKind.position.code target body))

/-- SNAPSHOT (R78): its frame completes at the receiver, and is taken by `handleSnapshot` or held (R158, R159). -/
def execSnapshot (target : Byte) (body : List Byte) (s : State) : Host.Outcome State Fault Refusal :=
  .next (s.completeFrame (goodFrame ReqKind.snapshot.code target body))

/-- GALLEY REPORT (R79): its frame completes at the receiver, and is taken by `handleGalleyReport` or held (R158, R159). -/
def execGalleyReport (target : Byte) (body : List Byte) (s : State) : Host.Outcome State Fault Refusal :=
  .next (s.completeFrame (goodFrame ReqKind.galleyReport.code target body))

/-- EVENT CLEAR (R171): its frame completes at the receiver, and is taken by `handleEventClear` or held (R158, R159). -/
def execEventClear (target : Byte) (body : List Byte) (s : State) : Host.Outcome State Fault Refusal :=
  .next (s.completeFrame (goodFrame ReqKind.eventClear.code target body))

/-- EVENT MASK (R170): its frame completes at the receiver, and is taken by `handleEventMask` or held (R158, R159). -/
def execEventMask (target : Byte) (body : List Byte) (s : State) : Host.Outcome State Fault Refusal :=
  .next (s.completeFrame (goodFrame ReqKind.eventMask.code target body))

/-- PART RESET (R163): its frame completes at the receiver, and is taken by `handlePartReset` or held (R158, R159). -/
def execPartReset (target : Byte) (body : List Byte) (s : State) : Host.Outcome State Fault Refusal :=
  .next (s.completeFrame (goodFrame ReqKind.partReset.code target body))

/-- PART_RESET_EFFECT (R163). -/
def execPartResetEffect (s : State) : Host.Outcome State Fault Refusal := .next s.resetEffect

/-- STORY (R44 to R47, R64): its frame completes at the receiver, and is taken by `handleStory` or held (R158, R159). -/
def execStory (target : Byte) (body : List Byte) (s : State) : Host.Outcome State Fault Refusal :=
  .next (s.completeFrame (goodFrame ReqKind.story.code target body))

/-- PARAM (R58): its frame completes at the receiver, and is taken by `handleParam` or held (R158, R159). -/
def execParam (target : Byte) (body : List Byte) (s : State) : Host.Outcome State Fault Refusal :=
  .next (s.completeFrame (goodFrame ReqKind.param.code target body))

/-- PARAM NOW (R59): its frame completes at the receiver, and is taken by `handleParamNow` or held (R158, R159). -/
def execParamNow (target : Byte) (body : List Byte) (s : State) : Host.Outcome State Fault Refusal :=
  .next (s.completeFrame (goodFrame ReqKind.paramNow.code target body))

/-- HALT (R66): its frame completes at the receiver, and is taken by `handleHalt` or held (R158, R159). -/
def execHalt (target : Byte) (body : List Byte) (s : State) : Host.Outcome State Fault Refusal :=
  .next (s.completeFrame (goodFrame ReqKind.halt.code target body))

/-- MARK SET (R69): its frame completes at the receiver, and is taken by `handleMarkSet` or held (R158, R159). -/
def execMarkSet (target : Byte) (body : List Byte) (s : State) : Host.Outcome State Fault Refusal :=
  .next (s.completeFrame (goodFrame ReqKind.markSet.code target body))

/-- MARK CLEAR (R69): its frame completes at the receiver, and is taken by `handleMarkClear` or held (R158, R159). -/
def execMarkClear (target : Byte) (body : List Byte) (s : State) : Host.Outcome State Fault Refusal :=
  .next (s.completeFrame (goodFrame ReqKind.markClear.code target body))

/-- GALLEY OPEN (R57): its frame completes at the receiver, and is taken by `handleGalleyOpen` or held (R158, R159). -/
def execGalleyOpen (target : Byte) (body : List Byte) (s : State) : Host.Outcome State Fault Refusal :=
  .next (s.completeFrame (goodFrame ReqKind.galleyOpen.code target body))

/-- GALLEY CLOSE with form DRAIN (R76): its frame completes at the receiver, and is taken by `handleGalleyClose` or held (R158, R159). -/
def execGalleyCloseDrain (target : Byte) (body : List Byte) (s : State) : Host.Outcome State Fault Refusal :=
  .next (s.completeFrame (goodFrame ReqKind.galleyClose.code target body))

/-- GALLEY CLOSE with form DISCARD (R77): its frame completes at the receiver, and is taken by `handleGalleyClose` or held (R158, R159). -/
def execGalleyCloseDiscard (target : Byte) (body : List Byte) (s : State) : Host.Outcome State Fault Refusal :=
  .next (s.completeFrame (goodFrame ReqKind.galleyClose.code target body))

/-- RESUME (R67): its frame completes at the receiver, and is taken by `handleResume` or held (R158, R159). -/
def execResume (target : Byte) (body : List Byte) (s : State) : Host.Outcome State Fault Refusal :=
  .next (s.completeFrame (goodFrame ReqKind.resume.code target body))

/-- STEP (R68): its frame completes at the receiver, and is taken by `handleStep` or held (R158, R159). -/
def execStep (target : Byte) (body : List Byte) (s : State) : Host.Outcome State Fault Refusal :=
  .next (s.completeFrame (goodFrame ReqKind.step.code target body))

/-- RESTART (R71, R128): its frame completes at the receiver, and is taken by `handleRestart` or held (R158, R159). -/
def execRestart (target : Byte) (body : List Byte) (s : State) : Host.Outcome State Fault Refusal :=
  .next (s.completeFrame (goodFrame ReqKind.restart.code target body))

/-- PEEK (R73): its frame completes at the receiver, and is taken by `handlePeek` or held (R158, R159). -/
def execPeek (target : Byte) (body : List Byte) (s : State) : Host.Outcome State Fault Refusal :=
  .next (s.completeFrame (goodFrame ReqKind.peek.code target body))

/-- ABANDON (R72): its frame completes at the receiver, and is taken by `handleAbandon` or held (R158, R159). -/
def execAbandon (target : Byte) (body : List Byte) (s : State) : Host.Outcome State Fault Refusal :=
  .next (s.completeFrame (goodFrame ReqKind.abandon.code target body))

/-- FLUSH (R54): its frame completes at the receiver, and is taken by `handleFlush` or held (R158, R159). -/
def execFlush (target : Byte) (body : List Byte) (s : State) : Host.Outcome State Fault Refusal :=
  .next (s.completeFrame (goodFrame ReqKind.flush.code target body))

/-! ### Font requests (R24 to R35) -/

/-- FONT BEGIN (R25): its frame completes at the receiver, and is taken by `handleFontBegin` or held (R158, R159). -/
def execFontBegin (target : Byte) (body : List Byte) (s : State) : Host.Outcome State Fault Refusal :=
  .next (s.completeFrame (goodFrame ReqKind.fontBegin.code target body))

/-- FONT GLYPHS (R26 to R30): its frame completes at the receiver, and is taken by `handleFontGlyphs` or held (R158, R159). -/
def execFontGlyphs (target : Byte) (body : List Byte) (s : State) : Host.Outcome State Fault Refusal :=
  .next (s.completeFrame (goodFrame ReqKind.fontGlyphs.code target body))

/-- FONT KERN (R31): its frame completes at the receiver, and is taken by `handleFontKern` or held (R158, R159). -/
def execFontKern (target : Byte) (body : List Byte) (s : State) : Host.Outcome State Fault Refusal :=
  .next (s.completeFrame (goodFrame ReqKind.fontKern.code target body))

/-- FONT END (R32): its frame completes at the receiver, and is taken by `handleFontEnd` or held (R158, R159). -/
def execFontEnd (target : Byte) (body : List Byte) (s : State) : Host.Outcome State Fault Refusal :=
  .next (s.completeFrame (goodFrame ReqKind.fontEnd.code target body))

/-- FONT DROP (R34): its frame completes at the receiver, and is taken by `handleFontDrop` or held (R158, R159). -/
def execFontDrop (target : Byte) (body : List Byte) (s : State) : Host.Outcome State Fault Refusal :=
  .next (s.completeFrame (goodFrame ReqKind.fontDrop.code target body))

/-- FONT QUERY (R35): its frame completes at the receiver, and is taken by `handleFontQuery` or held (R158, R159). -/
def execFontQuery (target : Byte) (body : List Byte) (s : State) : Host.Outcome State Fault Refusal :=
  .next (s.completeFrame (goodFrame ReqKind.fontQuery.code target body))

/-! ### Page and unit requests (R124, R125, R150) -/

/-- PAGE OPEN (R124): its frame completes at the receiver, and is taken by `handlePageOpen` or held (R158, R159). -/
def execPageOpen (target : Byte) (body : List Byte) (s : State) : Host.Outcome State Fault Refusal :=
  .next (s.completeFrame (goodFrame ReqKind.pageOpen.code target body))

/-- PAGE CLOSE (R125): its frame completes at the receiver, and is taken by `handlePageClose` or held (R158, R159). -/
def execPageClose (target : Byte) (body : List Byte) (s : State) : Host.Outcome State Fault Refusal :=
  .next (s.completeFrame (goodFrame ReqKind.pageClose.code target body))

/-- UNIT RESUME (R150): its frame completes at the receiver, and is taken by `handleUnitResume` or held (R158, R159). -/
def execUnitResume (target : Byte) (body : List Byte) (s : State) : Host.Outcome State Fault Refusal :=
  .next (s.completeFrame (goodFrame ReqKind.unitResume.code target body))

/-! ### Timers of slots and galleys -/

/-- SILENCE_TIMER_EXPIRY (R33). -/
def execSilenceTimerExpiry (slot : SlotId) (s : State) : Host.Outcome State Fault Refusal := .next (silenceExpiry s slot)

/-- IDLE_TIMER_EXPIRY (R74). -/
def execIdleTimerExpiry (g : GalleyId) (s : State) : Host.Outcome State Fault Refusal := .next (idleExpiry s g)

/-! ### Consumption (R48): a proceeding galley consumes the item at the front of its queue -/

/-- CHAR (R84). -/
def execChar (g : GalleyId) (s : State) : Host.Outcome State Fault Refusal :=
  .next (consumeEvent s g (fun i => match i with | .char _ => true | _ => false))

/-- SPACE (R84, R92). -/
def execSpace (g : GalleyId) (s : State) : Host.Outcome State Fault Refusal :=
  .next (consumeEvent s g (fun i => match i with | .space => true | _ => false))

/-- FIXED (R84, R92). -/
def execFixed (g : GalleyId) (s : State) : Host.Outcome State Fault Refusal :=
  .next (consumeEvent s g (fun i => match i with | .fixed => true | _ => false))

/-- PARA (R101). -/
def execPara (g : GalleyId) (s : State) : Host.Outcome State Fault Refusal :=
  .next (consumeEvent s g (fun i => match i with | .para => true | _ => false))

/-- FONT_N (R49). -/
def execFontN (g : GalleyId) (s : State) : Host.Outcome State Fault Refusal :=
  .next (consumeEvent s g (fun i => match i with | .font _ => true | _ => false))

/-- SIZE (R50). -/
def execSize (g : GalleyId) (s : State) : Host.Outcome State Fault Refusal :=
  .next (consumeEvent s g (fun i => match i with | .size _ => true | _ => false))

/-- TRACK (R50). -/
def execTrack (g : GalleyId) (s : State) : Host.Outcome State Fault Refusal :=
  .next (consumeEvent s g (fun i => match i with | .track _ => true | _ => false))

/-- SHIFT (R50). -/
def execShift (g : GalleyId) (s : State) : Host.Outcome State Fault Refusal :=
  .next (consumeEvent s g (fun i => match i with | .shift _ => true | _ => false))

/-- DIR_LTR (R53). -/
def execDirLtr (g : GalleyId) (s : State) : Host.Outcome State Fault Refusal :=
  .next (consumeEvent s g (fun i => match i with | .dirLtr => true | _ => false))

/-- DIR_RTL (R53). -/
def execDirRtl (g : GalleyId) (s : State) : Host.Outcome State Fault Refusal :=
  .next (consumeEvent s g (fun i => match i with | .dirRtl => true | _ => false))

/-- DISC (R94). -/
def execDisc (g : GalleyId) (s : State) : Host.Outcome State Fault Refusal :=
  .next (consumeEvent s g (fun i => match i with | .disc _ _ _ => true | _ => false))

/-! ### The galley's other events -/

/-- TAG_MARK_HALT (R69). -/
def execTagMarkHalt (g : GalleyId) (s : State) : Host.Outcome State Fault Refusal := .next (tagMarkHalt s g)

/-- QUEUE_EMPTIES (R63 step 4). -/
def execQueueEmpties (g : GalleyId) (s : State) : Host.Outcome State Fault Refusal := .next (queueEmpties s g)

/-- DRAIN_END (R63 step 5, R76). -/
def execDrainEnd (g : GalleyId) (s : State) : Host.Outcome State Fault Refusal := .next (drainEnd s g)

/-! ### The arbiter and the photo unit link (R130 to R152) -/

/-- SELECTION (R130 to R134, R137). -/
def execSelection (s : State) : Host.Outcome State Fault Refusal := .next s.selectDue

/-- ORDER_FRAME_SENT (R148): the last byte of the order's frame has been sent. -/
def execOrderFrameSent (s : State) : Host.Outcome State Fault Refusal := .next s.frameSent

/-- EXPOSURE_GAP_EXPIRY (R141). -/
def execExposureGapExpiry (s : State) : Host.Outcome State Fault Refusal := .next s.exposureGap

/-- EXPOSURE_FRAME_DISCARD (R141): a frame of these bytes after the start byte completes. -/
def execExposureFrameDiscard (bytes : List Byte) (s : State) : Host.Outcome State Fault Refusal :=
  .next (s.exposureFrameDone bytes)

/-- DONE_REPORT (R146): the report's frame completes and is taken. -/
def execDoneReport (number : Byte) (s : State) : Host.Outcome State Fault Refusal := .next (s.exposureHunt.takeDone number)

/-- FAULT_REPORT (R147): the report's frame completes and is taken. -/
def execFaultReport (number code : Byte) (s : State) : Host.Outcome State Fault Refusal :=
  .next (s.exposureHunt.takeFault number code)

/-- ORDER_TIMEOUT (R148). -/
def execOrderTimeout (s : State) : Host.Outcome State Fault Refusal := .next s.orderExpiry

/-- STATE_READY (R149): the report's frame completes and is taken. -/
def execStateReady (s : State) : Host.Outcome State Fault Refusal := .next s.exposureHunt.takeReady

/-- STATE_HELD (R149): the report's frame completes and is taken. -/
def execStateHeld (s : State) : Host.Outcome State Fault Refusal := .next s.exposureHunt.takeHeld

/-- QUERY_TIMER_EXPIRY (R145). -/
def execQueryTimerExpiry (s : State) : Host.Outcome State Fault Refusal := .next s.queryExpiry

/-- QUERY_AFTER_RESET (R152, R177). -/
def execQueryAfterReset (s : State) : Host.Outcome State Fault Refusal := .next s.pauseEnds

/-! ### Bytes on the two links -/

/-- BYTE_COLLECTED (R154). -/
def execByteCollected (b : Byte) (s : State) : Host.Outcome State Fault Refusal := .next (s.linkByte b)

/-- EXPOSURE_BYTE_COLLECTED (R141). -/
def execExposureByteCollected (b : Byte) (s : State) : Host.Outcome State Fault Refusal := .next (s.exposureByte b)

end Sys2Proof.Machine
end

