-- ==== Sys2Proof/Machine/Dispatch.lean ====
section
/-! DEFINITION. One arm for each command of the table: one direct call of its meaning. -/

namespace Sys2Proof.Machine

def exec (i : Instr) (s : State) : Host.Outcome State Fault Refusal :=
  match i with
  | .powerOn early => Sys2Proof.Machine.execPowerOn early s
  | .frameHeld f => Sys2Proof.Machine.execFrameHeld f s
  | .gapTimerExpiry => Sys2Proof.Machine.execGapTimerExpiry s
  | .breakCondition => Sys2Proof.Machine.execBreakCondition s
  | .badFrame f => Sys2Proof.Machine.execBadFrame f s
  | .unknown kind target body => Sys2Proof.Machine.execUnknown kind target body s
  | .transmitStart => Sys2Proof.Machine.execTransmitStart s
  | .status target body => Sys2Proof.Machine.execStatus target body s
  | .position target body => Sys2Proof.Machine.execPosition target body s
  | .snapshot target body => Sys2Proof.Machine.execSnapshot target body s
  | .galleyReport target body => Sys2Proof.Machine.execGalleyReport target body s
  | .eventClear target body => Sys2Proof.Machine.execEventClear target body s
  | .eventMask target body => Sys2Proof.Machine.execEventMask target body s
  | .partReset target body => Sys2Proof.Machine.execPartReset target body s
  | .partResetEffect => Sys2Proof.Machine.execPartResetEffect s
  | .story target body => Sys2Proof.Machine.execStory target body s
  | .param target body => Sys2Proof.Machine.execParam target body s
  | .paramNow target body => Sys2Proof.Machine.execParamNow target body s
  | .halt target body => Sys2Proof.Machine.execHalt target body s
  | .markSet target body => Sys2Proof.Machine.execMarkSet target body s
  | .markClear target body => Sys2Proof.Machine.execMarkClear target body s
  | .galleyOpen target body => Sys2Proof.Machine.execGalleyOpen target body s
  | .galleyCloseDrain target body => Sys2Proof.Machine.execGalleyCloseDrain target body s
  | .galleyCloseDiscard target body => Sys2Proof.Machine.execGalleyCloseDiscard target body s
  | .resume target body => Sys2Proof.Machine.execResume target body s
  | .step target body => Sys2Proof.Machine.execStep target body s
  | .restart target body => Sys2Proof.Machine.execRestart target body s
  | .peek target body => Sys2Proof.Machine.execPeek target body s
  | .abandon target body => Sys2Proof.Machine.execAbandon target body s
  | .flush target body => Sys2Proof.Machine.execFlush target body s
  | .fontBegin target body => Sys2Proof.Machine.execFontBegin target body s
  | .fontGlyphs target body => Sys2Proof.Machine.execFontGlyphs target body s
  | .fontKern target body => Sys2Proof.Machine.execFontKern target body s
  | .fontEnd target body => Sys2Proof.Machine.execFontEnd target body s
  | .fontDrop target body => Sys2Proof.Machine.execFontDrop target body s
  | .fontQuery target body => Sys2Proof.Machine.execFontQuery target body s
  | .pageOpen target body => Sys2Proof.Machine.execPageOpen target body s
  | .pageClose target body => Sys2Proof.Machine.execPageClose target body s
  | .unitResume target body => Sys2Proof.Machine.execUnitResume target body s
  | .silenceTimerExpiry slot => Sys2Proof.Machine.execSilenceTimerExpiry slot s
  | .idleTimerExpiry g => Sys2Proof.Machine.execIdleTimerExpiry g s
  | .char g => Sys2Proof.Machine.execChar g s
  | .space g => Sys2Proof.Machine.execSpace g s
  | .fixed g => Sys2Proof.Machine.execFixed g s
  | .para g => Sys2Proof.Machine.execPara g s
  | .fontN g => Sys2Proof.Machine.execFontN g s
  | .size g => Sys2Proof.Machine.execSize g s
  | .track g => Sys2Proof.Machine.execTrack g s
  | .shift g => Sys2Proof.Machine.execShift g s
  | .dirLtr g => Sys2Proof.Machine.execDirLtr g s
  | .dirRtl g => Sys2Proof.Machine.execDirRtl g s
  | .disc g => Sys2Proof.Machine.execDisc g s
  | .tagMarkHalt g => Sys2Proof.Machine.execTagMarkHalt g s
  | .queueEmpties g => Sys2Proof.Machine.execQueueEmpties g s
  | .drainEnd g => Sys2Proof.Machine.execDrainEnd g s
  | .selection => Sys2Proof.Machine.execSelection s
  | .orderFrameSent => Sys2Proof.Machine.execOrderFrameSent s
  | .exposureGapExpiry => Sys2Proof.Machine.execExposureGapExpiry s
  | .exposureFrameDiscard bytes => Sys2Proof.Machine.execExposureFrameDiscard bytes s
  | .doneReport number => Sys2Proof.Machine.execDoneReport number s
  | .faultReport number code => Sys2Proof.Machine.execFaultReport number code s
  | .orderTimeout => Sys2Proof.Machine.execOrderTimeout s
  | .stateReady => Sys2Proof.Machine.execStateReady s
  | .stateHeld => Sys2Proof.Machine.execStateHeld s
  | .queryTimerExpiry => Sys2Proof.Machine.execQueryTimerExpiry s
  | .queryAfterReset => Sys2Proof.Machine.execQueryAfterReset s
  | .byteCollected b => Sys2Proof.Machine.execByteCollected b s
  | .exposureByteCollected b => Sys2Proof.Machine.execExposureByteCollected b s

end Sys2Proof.Machine
end

