-- ==== Sys2Proof/Safety.lean ====
section
/-! DEFINITION. The laws the manual states of the part ('the law of …'), and the tables of states it gives, as predicates on one state:
what every state that the part reaches satisfies. -/

namespace Sys2Proof.Machine

/-! ### Font slots (R18, R19, R23, R33) -/

/-- R18 and R19 of one slot: what each state holds, and the sizes of the record list and of the rejected-code set. The silence timer
runs exactly while the slot is LOADING (R33). -/
def Slot.Law (f : Slot) : Prop :=
  (f.state = .empty → f = Slot.empty) ∧
  (f.state ≠ .empty → f.header.isSome = true) ∧
  (f.state = .valid → f.loadGood = true) ∧
  (f.silence = true ↔ f.state = .loading) ∧
  f.records.length ≤ Config.slotRecords ∧ (f.records.map GlyphRecord.code).Nodup ∧
  (∀ r ∈ f.records, r.contentGood = true) ∧
  f.rejected.length ≤ Config.rejectedCapacity ∧ f.rejected.Nodup

/-- The law of the font store: every slot's, and pool use of at most 4,096 places (R23). -/
def State.FontLaw (s : State) : Prop := (∀ n, (s.font n).Law) ∧ poolUse s.fonts ≤ Config.poolPlaces

/-! ### Galleys (R56, R77, R79, R81, R127, R128) -/

/-- R56: a halt cause is present in HALTED and absent elsewhere, a deferred one only in BLOCKED, and a galley HALTED with cause BEHIND
is released. -/
def Galley.HaltLaw (x : Galley) : Prop :=
  (x.cause.isSome = true ↔ x.state = .halted) ∧ (x.deferred.isSome = true → x.state = .blocked) ∧
  (x.cause = some .behind → x.released = true)

/-- What each state of a galley holds: the table of R56, and R77 of CLOSING and OFF. -/
def Galley.StateLaw (x : Galley) : Prop :=
  (x.state = .ready → x.story = [] ∧ x.started = false ∧ x.builder.entries = []) ∧
  (x.state = .starved → x.story = [] ∧ x.started = true) ∧
  (x.state = .blocked → x.held.isSome = true) ∧
  (x.held.isSome = true → x.state = .blocked ∨ x.state = .halted) ∧
  (x.state = .off ∨ x.state = .closing → x.story = [] ∧ x.started = false ∧ x.builder.entries = []) ∧
  (x.state = .off → x.output = []) ∧ (x.state = .closing → x.output ≠ [])

/-- The law of the latch (R79). -/
def Galley.LatchLaw (x : Galley) : Prop := x.excCount ≤ 255 ∧ (x.latch = none → x.excCount = 0)

/-- The lines of a galley that are closed and not yet exposed: its queue, then the closed line it holds. -/
def Galley.closedLines (x : Galley) : List LineRecord := x.output ++ (x.held.map HeldLine.record).toList

/-- The law of the output queue (R127), with R128: a galley's next line lies no higher than a line it has closed. -/
def Galley.QueueLaw (x : Galley) : Prop :=
  x.output.length ≤ Config.outputCapacity ∧
  (x.closedLines.map LineRecord.depth).Pairwise (· ≤ ·) ∧
  ∀ l ∈ x.closedLines, l.depth ≤ x.lastDepth.getD x.topDepth ∧ ∀ d ∈ x.builder.lineDepth, l.depth ≤ d

/-- R6, R9, R10, R81, R85 to R87 and R93 of the line builder: its letters stand in the forms their neighbours give, with the
advances of those forms; its sums are those of its entries, its pending letter is the letter of unresolved form, and its
opportunity list holds at most 48 records and none without an entry. -/
def Galley.BuilderLaw (x : Galley) : Prop :=
  x.builder.entries = shape true x.builder.entries ∧ x.builder.sums = sumsOf x.builder.entries ∧
  x.builder.pendingLetter = pendingOf x.builder.entries ∧
  x.builder.opps.length ≤ Config.opportunityLimit ∧ (x.builder.entries = [] → x.builder.opps = [])

/-- R95 and R102: a started line stands, for the fit test follows every change of it. -/
def Galley.FitLaw (x : Galley) : Prop :=
  x.started = true → fitWidth x.active.align x.builder.sums ≤ x.active.measure * Config.finePerStep

/-- The law of the story queue (R43) and the ranges of the current values (R3, R50, R57). -/
def Galley.ValueLaw (x : Galley) : Prop :=
  x.fill ≤ Config.storyCapacity ∧
  (x.state ≠ .off →
    16 ≤ x.size ∧ x.size ≤ 576 ∧ -32 ≤ x.track ∧ x.track ≤ 31 ∧ -1200 ≤ x.shift ∧ x.shift ≤ 1200)

/-- The idle timer runs only where R74 lets it. -/
def Galley.TimerLaw (x : Galley) : Prop :=
  x.idleTimer = true → x.interval ≠ 0 ∧ x.state ≠ .off ∧ x.released = false

/-! ### The page and the photo unit (R123, R126, R129, R142, R177) -/

/-- R123: on a page that is not OPEN every galley is OFF. -/
def State.PageLaw (s : State) : Prop := s.page.state ≠ .open → ∀ g, (s.galley g).state = .off

/-- What the outstanding order says of the part (R133, R137, R142): a line order's line is at the head of its galley's queue, a cut is
outstanding only while the page is CLOSING, and neither while the unit is faulted or silent. -/
def State.OrderLaw (s : State) : Prop :=
  match s.unit.view.outstanding with
  | none => s.unit.orderTimer = false
  | some o =>
    (match o.kind with
     | .line g => (s.galley g).output ≠ []
     | .cut => s.page.state = .closing) ∧
    s.unit.view.known = true ∧ s.unit.view.faulted = false ∧ s.unit.view.silent = false

/-- R142 of the unit view: faulted and silent are not set together, and a last fault is held exactly while one of them is. -/
def UnitView.Law (v : UnitView) : Prop :=
  ¬(v.faulted = true ∧ v.silent = true) ∧ (v.lastFault.isSome = true ↔ v.faulted = true ∨ v.silent = true)

/-- R177: no QUERY comes before the end of the pause after a reset. Until then none waits with the transmitter, and the query timer
does not run. -/
def UnitLink.QueryLaw (u : UnitLink) : Prop :=
  u.resetPause = true → ExposureFrame.query ∉ u.transmit ∧ u.queryTimer = false

/-- The law of restraint (R129): while a page is OPEN or CLOSING, every restraining galley has frontier ≥ H − 1200. -/
def State.RestraintLaw (s : State) : Prop :=
  s.page.state ≠ .noPage → ∀ g, (s.galley g).restraining = true →
    s.page.high ≤ (s.galley g).frontier + Config.reverseAllowance

/-- H lies on the page, and so does every line that is closed or started (R60, R126, R137). -/
def State.DepthLaw (s : State) : Prop :=
  s.page.high ≤ s.page.depth ∧ s.page.lastIssued ≤ s.page.high ∧
  ∀ g, (∀ l ∈ (s.galley g).closedLines, l.depth ≤ s.page.depth) ∧
    ∀ d ∈ (s.galley g).builder.lineDepth, d ≤ s.page.depth

/-- R134: where no selection is due, a selection would issue nothing. -/
def State.DueLaw (s : State) : Prop := s.selectionDue = false → s.select = s

/-! ### The composing link (R158, R161) -/

/-- R158 and R161: at most one reply waits unsent, at most one notice of each flag waits, and a frame is held only while a completed
frame may not be taken. -/
def ComposingLink.Law (l : ComposingLink) : Prop :=
  (l.sendQueue.filter TxFrame.isReply).length ≤ 1 ∧
  (∀ f, (l.sendQueue.filter (TxFrame.isNoticeOf f)).length ≤ 1) ∧
  (l.heldFrame.isSome = true → l.canTake = false)

/-! ### The event unit (R167) -/

/-- Whether event data is of a flag's kind (R165, R167). -/
def Flag.holds : Flag → EventData → Bool
  | .halted _, .halted _ | .exception _, .exception _ | .released _, .released _ _ | .closed _, .closed _ _
  | .unitHeld, .unitHeld | .unitFault, .unitFault _ | .pageDone, .pageDone _ | .fontDone, .fontDone _ _
  | .fontAbandoned, .fontAbandoned _ => true
  | _, _ => false

/-- Every set flag holds data of its own kind, and so does every notice that waits (R167, R168). -/
def State.EventLaw (s : State) : Prop :=
  (∀ f d, s.events.flag f = some d → f.holds d = true) ∧
  ∀ f d, TxFrame.notice f d ∈ s.link.sendQueue → f.holds d = true

/-! ### The whole part -/

/-- All the laws of one galley. -/
def Galley.Law (x : Galley) : Prop :=
  x.HaltLaw ∧ x.StateLaw ∧ x.LatchLaw ∧ x.QueueLaw ∧ x.BuilderLaw ∧ x.FitLaw ∧ x.ValueLaw ∧ x.TimerLaw

/-- All the laws of the part. -/
def State.Good (s : State) : Prop :=
  s.FontLaw ∧ (∀ g, (s.galley g).Law) ∧ s.PageLaw ∧ s.OrderLaw ∧ s.unit.view.Law ∧ s.unit.QueryLaw ∧ s.RestraintLaw ∧
  s.DepthLaw ∧ s.DueLaw ∧ s.link.Law ∧ s.EventLaw

end Sys2Proof.Machine
end

