-- ==== Sys2Proof/WellFormed.lean ====
section
/-! DEFINITION. Which operands a command may carry: a request's body is one its frame can have, and a row of the table that names an
event of a kind carries operands of that kind. `exec` gives a meaning to every term, well-formed or not. -/

namespace Sys2Proof

open Sys2Proof.Machine

/-- A body a good frame can have: 1 to 1,100 bytes (R157). -/
def bodyGood (body : List Byte) : Bool := decide (1 ≤ body.length) && decide (body.length ≤ Config.maxBody)

/-- A frame the receiver can complete: a length out of range, or a body of 1 to 1,100 bytes (R157). -/
def LinkFrame.possible : LinkFrame → Bool
  | .badLength => true
  | .whole _ _ body _ => bodyGood body

/-- A frame that is answered with BAD_FRAME: a length out of range, or a wrong check (R157). -/
def LinkFrame.isBad : LinkFrame → Bool
  | .badLength => true
  | .whole kind target body check => !checkGood kind target body check

/-- Whether a command's operands are ones its row can have. -/
def Instr.wellFormed : Instr → Bool
  | .powerOn _ => true
  | .frameHeld f => f.possible
  | .gapTimerExpiry => true
  | .breakCondition => true
  | .badFrame f => f.possible && f.isBad
  | .unknown kind _ body => bodyGood body && (requestKind kind).isNone
  | .transmitStart => true
  | .status _ body => bodyGood body
  | .position _ body => bodyGood body
  | .snapshot _ body => bodyGood body
  | .galleyReport _ body => bodyGood body
  | .eventClear _ body => bodyGood body
  | .eventMask _ body => bodyGood body
  | .partReset _ body => bodyGood body
  | .partResetEffect => true
  | .story _ body => bodyGood body
  | .param _ body => bodyGood body
  | .paramNow _ body => bodyGood body
  | .halt _ body => bodyGood body
  | .markSet _ body => bodyGood body
  | .markClear _ body => bodyGood body
  | .galleyOpen _ body => bodyGood body
  | .galleyCloseDrain _ body => bodyGood body && body.head? != some 1
  | .galleyCloseDiscard _ body => bodyGood body && body.head? != some 0
  | .resume _ body => bodyGood body
  | .step _ body => bodyGood body
  | .restart _ body => bodyGood body
  | .peek _ body => bodyGood body
  | .abandon _ body => bodyGood body
  | .flush _ body => bodyGood body
  | .fontBegin _ body => bodyGood body
  | .fontGlyphs _ body => bodyGood body
  | .fontKern _ body => bodyGood body
  | .fontEnd _ body => bodyGood body
  | .fontDrop _ body => bodyGood body
  | .fontQuery _ body => bodyGood body
  | .pageOpen _ body => bodyGood body
  | .pageClose _ body => bodyGood body
  | .unitResume _ body => bodyGood body
  | .silenceTimerExpiry _ => true
  | .idleTimerExpiry _ => true
  | .char _ => true
  | .space _ => true
  | .fixed _ => true
  | .para _ => true
  | .fontN _ => true
  | .size _ => true
  | .track _ => true
  | .shift _ => true
  | .dirLtr _ => true
  | .dirRtl _ => true
  | .disc _ => true
  | .tagMarkHalt _ => true
  | .queueEmpties _ => true
  | .drainEnd _ => true
  | .selection => true
  | .orderFrameSent => true
  | .exposureGapExpiry => true
  | .exposureFrameDiscard bytes => exposureComplete bytes && (readReport bytes).isNone
  | .doneReport _ => true
  | .faultReport _ _ => true
  | .orderTimeout => true
  | .stateReady => true
  | .stateHeld => true
  | .queryTimerExpiry => true
  | .queryAfterReset => true
  | .byteCollected _ => true
  | .exposureByteCollected _ => true

end Sys2Proof
end

