-- ==== Sys2Proof/Vocabulary.lean ====
section
/-! DEFINITION. The words the statements use: how the host writes each body (9.7), how a taken request is answered, and the situations
in which a galley's next item is consumed. Nothing here is used by the machine. -/

namespace Sys2Proof.Machine

/-! ### Bodies as the host writes them (9.7) -/

/-- An alignment's byte (9.7). -/
def Align.byte : Align → Byte
  | .justify => 0 | .start => 1 | .atEnd => 2 | .center => 3

/-- A direction's byte (9.7). -/
def Dir.byte : Dir → Byte
  | .ltr => 0 | .rtl => 1

/-- A mark kind's byte (9.7). -/
def MarkKind.byte : MarkKind → Byte
  | .tag => 0 | .force => 1

/-- The alignment, direction and hyphenation bytes of a parameter set (9.7). -/
def Params.codedBytes (p : Params) : List Byte := [p.align.byte, p.direction.byte, flagByte p.hyphenation]

/-- The body of a PARAM or PARAM NOW (9.7). -/
def Params.body (p : Params) : List Byte := be16 p.measure ++ be16 p.xOffset ++ be16 p.leading ++ p.codedBytes

/-- The ranges of R57 and R58 for a parameter set on a page of a width. -/
abbrev Params.Good (p : Params) (pageWidth : Nat) : Prop :=
  60 ≤ p.measure ∧ p.measure ≤ 16000 ∧ p.leading ≤ 4800 ∧ p.xOffset + p.measure ≤ pageWidth ∧ pageWidth ≤ 14400

/-- The fields of GALLEY OPEN (R57). -/
structure Opening where
  top : Nat
  params : Params
  interval : Nat
  slot : SlotId
  size : Nat
  track : Int
deriving DecidableEq, Repr

/-- The body of a GALLEY OPEN (9.7). -/
def Opening.body (o : Opening) : List Byte :=
  be16 o.top ++ be16 o.params.xOffset ++ be16 o.params.measure ++ be16 o.params.leading ++ o.params.codedBytes
    ++ be16 o.interval ++ [byteOf o.slot.val] ++ be16 o.size ++ [signedByte o.track]

/-- The ranges of R57 for the fields of GALLEY OPEN on a page. -/
abbrev Opening.Good (o : Opening) (p : Page) : Prop :=
  o.params.Good p.width ∧ o.top < p.depth ∧ p.depth ≤ 30000 ∧ o.interval ≤ 255 ∧ 16 ≤ o.size ∧ o.size ≤ 576 ∧
    -32 ≤ o.track ∧ o.track ≤ 31

/-- Code units as bytes, the high byte of each first (9.7). -/
def unitBytes (us : List CodeUnit) : List Byte := (us.map (fun u => be16 u.toNat)).flatten

/-- The body of a STORY frame of some items (3.1, 9.7). -/
def storyBody (items : List Item) : List Byte := unitBytes (items.map Item.units).flatten

/-- What may begin at an item's beginning of a good body: a code unit below 0x0020, which is dropped, or an item (R45). -/
inductive Piece where
  | dropped (u : CodeUnit)
  | item (i : Item)
deriving DecidableEq, Repr

/-- A piece's code units. -/
def Piece.units : Piece → List CodeUnit
  | .dropped u => [u]
  | .item i => i.units

/-- The item a piece is, if it is one. -/
def Piece.item? : Piece → Option Item
  | .dropped _ => none
  | .item i => some i

/-- A dropped unit lies below 0x0020, and an item is well formed (R40 to R42, R45). -/
def Piece.good : Piece → Bool
  | .dropped u => decide (u.toNat < 0x20)
  | .item i => i.wellFormed

/-- The code units of a succession of pieces. -/
def pieceUnits (ps : List Piece) : List CodeUnit := (ps.map Piece.units).flatten

/-- The items of a succession of pieces, in their order. -/
def pieceItems (ps : List Piece) : List Item := ps.filterMap Piece.item?

/-- The number of codes the texts of a DISC's count unit hold together (R42). -/
def discCodes (c : CodeUnit) : Nat := c.toNat / 256 % 16 + c.toNat / 16 % 16 + c.toNat % 16

/-- Whether each count of a DISC's count unit is 4 or less (R42). -/
abbrev discCountsGood (c : CodeUnit) : Prop := c.toNat / 256 % 16 ≤ 4 ∧ c.toNat / 16 % 16 ≤ 4 ∧ c.toNat % 16 ≤ 4

/-- Whether the code units from an item's beginning on are refused there with a reason (the table of R45). ODD is met behind the last
whole item, at no item's beginning. -/
def BadReason.MetAt (why : BadReason) (us : List CodeUnit) : Prop :=
  match why with
  | .undefined => ∃ u rest, us = u :: rest ∧ 0xF000 ≤ u.toNat ∧
      u.toNat ∉ [0xF000, 0xF001, 0xF002, 0xF020, 0xF021, 0xF022, 0xF030, 0xF031, 0xF040] ∧
      ¬(0xF010 ≤ u.toNat ∧ u.toNat ≤ 0xF01F)
  | .split => us = [0xF020] ∨ us = [0xF021] ∨ us = [0xF022] ∨ us = [0xF040] ∨
      ∃ c texts, us = 0xF040 :: c :: texts ∧ discCountsGood c ∧ texts.length < discCodes c ∧
        ∀ u ∈ texts, isCharCode u = true
  | .count => ∃ c texts, us = 0xF040 :: c :: texts ∧ ¬discCountsGood c
  | .textCode => ∃ c texts, us = 0xF040 :: c :: texts ∧ discCountsGood c ∧
      ∃ u ∈ texts.take (discCodes c), isCharCode u = false
  | .odd => False

/-- A flag's name in EVENT CLEAR: its notice code, then its galley or 0xFF (R171). -/
def Flag.name (f : Flag) : List Byte :=
  [byteOf (f.kind.val + 1),
    match f with
    | .halted g | .exception g | .released g | .closed g => galleyByte g
    | _ => 0xFF]

/-- A header's bytes in FONT BEGIN (9.7). -/
def Header.body (h : Header) : List Byte :=
  [h.matrix, byteOf h.natural, byteOf h.minimum, byteOf h.maximum] ++ be16 h.missing.toNat ++ be16 h.declared

/-- The ranges of R19 and R25 for a header. -/
abbrev Header.Good (h : Header) : Prop :=
  h.minimum ≤ h.natural ∧ h.natural ≤ h.maximum ∧ h.maximum ≤ 255 ∧ isCharCode h.missing = true ∧ 1 ≤ h.declared ∧
    h.declared ≤ 1024

/-- A joining class's code in a glyph record (9.7). -/
def Joining.code : Joining → Nat
  | .none => 0 | .trail => 1 | .dual => 2 | .link => 3 | .clear => 4

/-- An optional image part's bytes (9.7). -/
def imageBytes : Option Image → List Byte
  | none => []
  | some i => be16 i.glyph ++ [byteOf i.advance]

/-- The presence byte of a record (9.7). -/
def GlyphRecord.presence (r : GlyphRecord) : Byte :=
  byteOf (r.initial.isSome.toNat + 2 * r.medial.isSome.toNat + 4 * r.final.isSome.toNat + 8 * r.mirror.isSome.toNat
    + 16 * r.anchor.isSome.toNat + 32 * r.markOffset.isSome.toNat)

/-- A record's optional parts as bytes, in their order (9.7). -/
def GlyphRecord.optionalBytes (r : GlyphRecord) : List Byte :=
  imageBytes r.initial ++ imageBytes r.medial ++ imageBytes r.final ++ imageBytes r.mirror
    ++ (match r.anchor with | none => [] | some a => [signedByte a.dx, signedByte a.dy])
    ++ (match r.markOffset with | none => [] | some o => [signedByte o.dx, signedByte o.dy, signedByte o.stack])

/-- A record's bytes (9.7), its check making their sum 0. -/
def GlyphRecord.bytes (r : GlyphRecord) : List Byte :=
  let head := be16 r.code.toNat ++ [r.presence] ++ be16 r.base.glyph
    ++ [byteOf r.base.advance, byteOf (16 * r.direction.code + r.joining.code), byteOf r.kernClass.val]
  head ++ [checkOf (head ++ r.optionalBytes)] ++ r.optionalBytes

/-- Whether a signed field lies in −128..+127 (R20). -/
abbrev signedGood (i : Int) : Prop := -128 ≤ i ∧ i ≤ 127

/-- The ranges of R20 for the numbers of a record that `GlyphRecord.contentGood` does not judge. -/
abbrev GlyphRecord.Ranges (r : GlyphRecord) : Prop :=
  r.base.advance ≤ 255 ∧ (∀ i ∈ [r.initial, r.medial, r.final, r.mirror], ∀ m ∈ i, m.advance ≤ 255) ∧
    (∀ a ∈ r.anchor, signedGood a.dx ∧ signedGood a.dy) ∧
    ∀ o ∈ r.markOffset, signedGood o.dx ∧ signedGood o.dy ∧ signedGood o.stack

/-! ### Answers -/

/-- The state with a taken frame's reply placed at the back of the send queue, the receiver in HUNT (R154, R158, R161). A notice raised
in the same event is raised on this state, and so follows the reply. -/
def State.answer (s : State) (kind target : Byte) (result : Result) (data : List Byte) : State :=
  { s with
    link := { s.link with
      receiver := .hunt
      gapTimer := false
      sendQueue := s.link.sendQueue ++ [.reply kind target result data] } }

/-! ### Galleys -/

/-- A galley that consumes the front item of its queue at its next event: it proceeds, and it holds no closed line and no carry (R63), and
no armed TAG mark names the item (R69). -/
abbrev Galley.ReadyToConsume (x : Galley) : Prop :=
  (x.state = .setting ∨ x.state = .draining) ∧ x.held = none ∧ x.hasCarry = false ∧
    ¬(x.mark.kind = .tag ∧ x.mark.state = .armed ∧ x.mark.index = x.itemIndex)

/-- The galley past its front item, `rest` being the items after it: the item index is one more, an armed FORCE mark that named the item is
triggered (R70), and an armed TAG mark that named it, which only a STEP passes, is disarmed (R48, R69). -/
def Galley.past (x : Galley) (rest : List Item) : Galley :=
  { x with
    story := rest
    itemIndex := x.itemIndex + 1
    mark :=
      if x.mark.state = .armed ∧ x.mark.index = x.itemIndex then
        { x.mark with state := if x.mark.kind = .force then .triggered else .disarmed }
      else x.mark }

/-- The galley with a line started: as it is where one is, otherwise after the line start of R60, which passes a pending clamp to the line
(R51). -/
def Galley.withLine (x : Galley) : Galley :=
  if x.started then x
  else
    { x with
      active := x.nextParams
      pendingFlag := false
      clampPending := false
      builder := { x.builder with lineDepth := some x.nextDepth, clampMark := x.clampPending } }

/-- Whether the item at the front finds a started line, or starts one on a page of this depth (R60). -/
abbrev Galley.LineStands (x : Galley) (pageDepth : Nat) : Prop := x.started = true ∨ x.nextDepth ≤ pageDepth

/-- CLAMPED given for an operand outside its range: to the started line, otherwise to the galley's clamp-pending flag (R51). -/
def Galley.noteClamp (x : Galley) (outside : Bool) : Galley :=
  if outside = false then x
  else if x.started then { x with builder := { x.builder with clampMark := true } }
  else { x with clampPending := true }

/-- A direction item's effect (R53). -/
def Galley.steered (x : Galley) (d : Dir) : Galley :=
  if x.hasEntries then { x with nextDirection := some d } else { x with direction := d }

/-- The builder's fit width does not exceed the active measure (R95). -/
abbrev Galley.FitsWith (x : Galley) (b : Builder) : Prop := fitWidth x.active.align b.sums ≤ x.active.measure * 384

/-- The galley halted with a cause; a deferred halt cause clears (R65, R66). -/
def Galley.haltedWith (x : Galley) (c : HaltCause) : Galley := { x with state := .halted, cause := some c, deferred := none }

/-- The idle timer started afresh: it runs unless the interval is 0 (R74). -/
def Galley.timerAfresh (x : Galley) : Galley := { x with idleTimer := decide (x.interval ≠ 0) }

/-- The idle timer retriggered: a released galley's stays as it is (R61, R64). -/
def Galley.timerRetriggered (x : Galley) : Galley := if x.released then x else x.timerAfresh

/-- The galley at OFF, reached from CLOSING (R77). -/
def Galley.atOff (x : Galley) : Galley := { x with state := .off, idleTimer := false }

/-- The galley at CLOSING (R77). -/
def Galley.atClosing (x : Galley) : Galley :=
  { x with state := .closing, cause := none, deferred := none, drain := false, mark := { x.mark with state := .disarmed } }

/-- The record of a galley's started line closed at depth `d` as a paragraph last line (R100, R101, R120). -/
def Galley.lastLine (x : Galley) (fonts : Vector Slot 16) (g : GalleyId) (pageWidth d : Nat) : LineRecord :=
  let body := dropTrailingSpaces (sealLine fonts x.builder.entries)
  closeRecord g x.lineNumber
    { entries := body, direction := x.direction, last := true, params := x.active, depth := d,
      exceptions := bearsExceptions body { ExcSet.none with clamped := x.builder.clampMark }, pageWidth := pageWidth }

/-- The exception record of a line (R79). -/
def LineRecord.exception (l : LineRecord) : ExceptionRecord :=
  { number := l.number, exceptions := l.exceptions, first := l.first, amount := l.amount }

/-- The galley past the close of a line at depth `d` that leaves no carry: the line number and the last line depth advance, the builder is
empty, and the idle timer is retriggered (R61). -/
def Galley.lineDone (x : Galley) (d : Nat) : Galley :=
  { x with lineNumber := x.lineNumber + 1, lastDepth := some d, builder := Builder.empty }.timerRetriggered

/-- The galley at the start of a paragraph: the direction state is the direction item's seen inside the last one, otherwise the default of the
active set (R53). -/
def Galley.paragraph (x : Galley) : Galley :=
  { x with direction := x.nextDirection.getD x.active.direction, nextDirection := none, hasEntries := false }

/-- Whether the mark halts the galley at the close a PARA item makes: a FORCE mark triggered before, or by the item itself (R70). -/
abbrev Galley.ForceDue (x : Galley) : Prop :=
  x.mark.kind = .force ∧ (x.mark.state = .triggered ∨ (x.mark.state = .armed ∧ x.mark.index = x.itemIndex))

/-- The record of glyph `u` that slot `f` gives a lookup, with whether it is the missing-glyph record (R36). -/
abbrev Slot.Finds (f : Slot) (u : CodeUnit) (h : Header) (r : GlyphRecord) (substituted : Bool) : Prop :=
  f.state = .valid ∧ f.header = some h ∧
    ((substituted = false ∧ f.find u = some r) ∨
      (substituted = true ∧ f.find u = none ∧ f.find h.missing = some r))

/-! ### Closing a line (R61, R100 to R103, R122) -/

/-- The record of a galley's started line closed at depth `d` within its paragraph, as these entries, with FORCED or WIDE from R99
(R100, R120). -/
def Galley.brokenLine (x : Galley) (fonts : Vector Slot 16) (g : GalleyId) (pageWidth d : Nat) (entries : List Entry)
    (forced wide : Bool) : LineRecord :=
  let body := dropTrailingSpaces (sealLine fonts entries)
  closeRecord g x.lineNumber
    { entries := body, direction := x.direction, last := false, params := x.active, depth := d,
      exceptions := bearsExceptions body
        { ExcSet.none with forced := forced, wide := wide, clamped := x.builder.clampMark },
      pageWidth := pageWidth }

/-- The galley past the close of a line at depth `d` at a break: the builder holds the carry with its records, without a started line
(R61, R97 to R100). -/
def Galley.brokenAt (x : Galley) (d : Nat) (k : Break) : Galley :=
  { x with
    lineNumber := x.lineNumber + 1
    lastDepth := some d
    builder := { Builder.empty with opps := k.opps }.withEntries k.carry }.timerRetriggered

/-- The galley with a line given to it: a line with exceptions is latched or counted (R79, R122). -/
def Galley.given (x : Galley) (l : LineRecord) : Galley :=
  if l.exceptions = ExcSet.none then x
  else if x.latch = none then { x with latch := some l.exception }
  else { x with excCount := min (x.excCount + 1) 255 }

/-- EXCEPTION raised where a line given to galley `x` fills its empty latch (R79). -/
def State.raiseGiven (s : State) (g : GalleyId) (x : Galley) (l : LineRecord) : State :=
  if l.exceptions ≠ ExcSet.none ∧ x.latch = none then s.raise (.exception g) (.exception l.exception) else s

/-- The break at which a line of these entries and records closes, with `incoming` entries to come: the one the trial close chooses, or
the forced split, with exception FORCED (R96, R99, R103). -/
abbrev ClosesAt (fonts : Vector Slot 16) (b : Builder) (p : Params) (incoming : Nat) (k : Break) (forced : Bool) : Prop :=
  (trialClose fonts b.entries p incoming b.opps = some k ∧ forced = false) ∨
    (trialClose fonts b.entries p incoming b.opps = none ∧ forcedClose fonts b.entries b.opps = .split k ∧ forced = true)

/-! ### Entries and their neighbours (R82 to R91) -/

/-- An entry without what its neighbours give it: form, resolved, advance and kern (R85 to R87, R91). -/
def Entry.bare (e : Entry) : Entry :=
  match e.body with
  | .glyph p => { e with body := .glyph { p with form := .none, resolved := true, advance := 0, kern := 0 } }
  | _ => e

/-- The joining class an entry shows its neighbours: NONE for a SPACE, a FIXED and an orphan (R85, R90). -/
def Entry.joiningClass (e : Entry) : Joining :=
  match e.body with
  | .glyph p => if p.orphan then .none else p.record.joining
  | _ => .none

/-- The class of the nearest entry before position `i`, marks passed over; NONE at the head of the list (R85). -/
def prevClass (es : List Entry) (i : Nat) : Joining :=
  match (es.take i).reverse.find? (fun e => !e.isMark) with
  | some e => e.joiningClass
  | none => .none

/-- The class of the nearest entry after position `i`, marks passed over; at the end of an open list there is none yet, at a closed line's
end it is NONE (R85, R87). -/
def nextClass (isOpen : Bool) (es : List Entry) (i : Nat) : Option Joining :=
  match (es.drop (i + 1)).find? (fun e => !e.isMark) with
  | some e => some e.joiningClass
  | none => if isOpen then none else some .none

/-- The form a letter of a class is set in, by its neighbours' classes and the forms its record holds (the tables of R85 and R86). -/
def formFor (r : GlyphRecord) (own prev : Joining) (next : Option Joining) : Form :=
  let back := decide (prev = .dual ∨ prev = .link)
  let forward := decide (own = .dual ∧ (next = some .dual ∨ next = some .trail ∨ next = some .link))
  if own ≠ .trail ∧ own ≠ .dual then .none
  else if back ∧ forward ∧ r.medial.isSome then .medial
  else if back ∧ r.final.isSome then .final
  else if ¬back ∧ forward ∧ r.initial.isSome then .initial
  else .isolated

/-! ### Widths of a closed line (R111, R117) -/

/-- What a base entry adds to the position of the walk, a SPACE adding the width it is set at (R117). -/
def walkWidth (set : Nat) (x : Dir × Cluster) : Nat :=
  match x.2.base.body with
  | .glyph p => closeAdvance x.1 x.2.base p
  | .fixed n => n
  | .space _ _ _ => set
  | .mark _ => 0

/-- What a succession of base entries adds to the position of the walk, with the set widths of its spaces in order (R117). -/
def walkSum : List Nat → List (Dir × Cluster) → Nat
  | _, [] => 0
  | set, x :: rest => walkWidth (set.headD 0) x + walkSum (if x.2.base.isSpace then set.tail else set) rest

/-! ### The photo unit -/

/-- The unit link with its outstanding order ended: its timer stops, and no order is outstanding (R146 to R148). -/
def UnitLink.without (u : UnitLink) : UnitLink :=
  { u with view := { u.view with outstanding := none }, orderTimer := false }

/-- The unit link's receiver past a whole frame (R141). -/
def UnitLink.hunting (u : UnitLink) : UnitLink := { u with receiver := .hunt, gapTimer := false }

end Sys2Proof.Machine
end

