-- ==== Sys2Proof/Certificates/Slice0/Obligations.lean ====
section
/-! DEFINITION. The statements for the provers, from the manual's numbered rules. Each equation names the whole state after the command, so
what it does not name is unchanged. -/

open Sys2Proof Sys2Proof.Machine

/-! ### Steps and the command queue -/

/-- The model's own step and command queue (log entries 2 and 15): the front command runs on the state with the rest of the queue; with no
command waiting, a selection that is due is made (R134), and otherwise the part idles. No command adds, drops or reorders the commands that
wait, POWER_ON included. -/
def Obligations.StepRunsTheFrontCommand : Prop :=
  (∀ (s : State) (c : Instr) (rest : List Instr),
    s.pending = c :: rest → step s = exec c { s with pending := rest }) ∧
  (∀ s : State, s.pending = [] → s.selectionDue = true → step s = exec .selection s) ∧
  (∀ s : State, s.pending = [] → s.selectionDue = false → step s = .next s) ∧
  ∀ (c : Instr) (s t : State), exec c s = .next t → t.pending = s.pending

/-! ### The composing link -/

/-- R154 and the frame of 9.7: the bytes of a good frame, collected one by one from HUNT, are that frame's completion, and nothing else
happens on the way. With it every request row is what its bytes are. -/
def Obligations.ReceiverCollectsAFrame : Prop :=
  ∀ (s : State) (kind target : Byte) (body : List Byte),
    s.link.receiver = .hunt → 1 ≤ body.length → body.length ≤ 1100 →
    (composingFrame kind target body).foldl
        (fun (o : Host.Outcome State Fault Refusal) b =>
          match o with
          | .next u => exec (.byteCollected b) u
          | stop => stop)
        (.next s)
      = exec (.frameHeld (goodFrame kind target body)) s

/-- R154 and R141, one byte: in HUNT a start byte begins a frame and another byte is dropped; inside a frame that the byte does not
complete, the byte joins it and the gap is measured afresh. On the composing link the second length byte completes a frame whose length is
out of range (R157). On the exposure link the byte that completes a frame is that frame's row: with a right check and a kind, a length and a
value of the table of 8.2 it is the report, otherwise the discarded frame (R140, R146 to R149). -/
def Obligations.BytesAtTheReceivers : Prop :=
  (∀ (s : State) (b : Byte), s.link.receiver = .hunt →
    exec (.byteCollected b) s
      = .next (if b = 0xA5 then { s with link := { s.link with receiver := .frame [], gapTimer := true } } else s)) ∧
  (∀ (s : State) (bs : List Byte) (b : Byte), s.link.receiver = .frame bs →
    (bs = [] ∨ ∃ l1 l0 rest, bs ++ [b] = l1 :: l0 :: rest ∧ 1 ≤ l1.toNat * 256 + l0.toNat ∧
      l1.toNat * 256 + l0.toNat ≤ 1100 ∧ rest.length < 3 + (l1.toNat * 256 + l0.toNat)) →
    exec (.byteCollected b) s
      = .next { s with link := { s.link with receiver := .frame (bs ++ [b]), gapTimer := true } }) ∧
  (∀ (s : State) (l1 l0 : Byte), s.link.receiver = .frame [l1] →
    (l1.toNat * 256 + l0.toNat = 0 ∨ 1100 < l1.toNat * 256 + l0.toNat) →
    exec (.byteCollected l0) s = exec (.badFrame .badLength) s) ∧
  (∀ (s : State) (b : Byte), s.unit.receiver = .hunt →
    exec (.exposureByteCollected b) s
      = .next (if b = 0x5A then { s with unit := { s.unit with receiver := .frame [], gapTimer := true } } else s)) ∧
  (∀ (s : State) (bs : List Byte) (b : Byte), s.unit.receiver = .frame bs →
    (bs = [] ∨ ∃ l1 l0 rest, bs ++ [b] = l1 :: l0 :: rest ∧ rest.length < 2 + (l1.toNat * 256 + l0.toNat)) →
    exec (.exposureByteCollected b) s
      = .next { s with unit := { s.unit with receiver := .frame (bs ++ [b]), gapTimer := true } }) ∧
  (∀ (s : State) (bs : List Byte) (b l1 l0 : Byte) (rest : List Byte), s.unit.receiver = .frame bs →
    bs ++ [b] = l1 :: l0 :: rest → rest.length = 2 + (l1.toNat * 256 + l0.toNat) →
    exec (.exposureByteCollected b) s = exec (.exposureFrameDiscard (bs ++ [b])) s) ∧
  ∀ (s : State) (n code : Byte),
    exec (.exposureFrameDiscard [0, 1, 0x41, n, checkOf [0, 1, 0x41, n]]) s = exec (.doneReport n) s ∧
    exec (.exposureFrameDiscard [0, 2, 0x42, n, code, checkOf [0, 2, 0x42, n, code]]) s = exec (.faultReport n code) s ∧
    exec (.exposureFrameDiscard [0, 1, 0x43, 0x00, checkOf [0, 1, 0x43, 0x00]]) s = exec .stateReady s ∧
    exec (.exposureFrameDiscard [0, 1, 0x43, 0x01, checkOf [0, 1, 0x43, 0x01]]) s = exec .stateHeld s

/-- R155, R156 and R141: a gap expiry, a break, and a frame from the photo unit that is discarded (a wrong check, an unknown kind, a wrong
length or a bad STATE value) return the receiver to HUNT and change nothing else. -/
def Obligations.PartialFramesAreDiscarded : Prop :=
  (∀ s : State, s.link.gapTimer = true →
    exec .gapTimerExpiry s = .next { s with link := { s.link with receiver := .hunt, gapTimer := false } }) ∧
  (∀ s : State, exec .breakCondition s = .next { s with link := { s.link with receiver := .hunt, gapTimer := false } }) ∧
  (∀ s : State, s.unit.gapTimer = true →
    exec .exposureGapExpiry s = .next { s with unit := { s.unit with receiver := .hunt, gapTimer := false } }) ∧
  ∀ (s : State) (l1 l0 k : Byte) (body : List Byte) (check : Byte),
    body.length = l1.toNat * 256 + l0.toNat →
    (byteSum (l1 :: l0 :: k :: (body ++ [check])) ≠ 0 ∨
      ¬((k = 0x41 ∧ body.length = 1) ∨ (k = 0x42 ∧ body.length = 2) ∨ (k = 0x43 ∧ (body = [0x00] ∨ body = [0x01])))) →
    exec (.exposureFrameDiscard (l1 :: l0 :: k :: (body ++ [check]))) s
      = .next { s with unit := { s.unit with receiver := .hunt, gapTimer := false } }

/-- R158: a frame that completes while a reply waits unsent, or while PART RESET awaits the end of its reply (R163), is held; when a frame
is held already, the further one is discarded and the held one is not disturbed. -/
def Obligations.FrameHeldBehindAReply : Prop :=
  ∀ (s : State) (f : LinkFrame),
    ((∃ k t r d, TxFrame.reply k t r d ∈ s.link.sendQueue) ∨ s.link.resetPending = true) →
    exec (.frameHeld f) s
      = .next { s with
          link := { s.link with
            receiver := .hunt
            gapTimer := false
            heldFrame := match s.link.heldFrame with | none => some f | some h => some h } }

/-- R157 and R159 step 1: a length out of range and a wrong check are answered with BAD_FRAME, an unknown kind with UNKNOWN; neither reaches
an owner. -/
def Obligations.BadAndUnknownFramesReachNoOwner : Prop :=
  (∀ s : State, s.link.canTake = true →
    exec (.badFrame .badLength) s = .next (s.answer 0x00 0xFF .badFrame [])) ∧
  (∀ (s : State) (kind target : Byte) (body : List Byte) (check : Byte), s.link.canTake = true →
    byteSum (be16 body.length ++ [kind, target] ++ body ++ [check]) ≠ 0 →
    exec (.badFrame (.whole kind target body check)) s = .next (s.answer kind target .badFrame [])) ∧
  ∀ (s : State) (kind target : Byte) (body : List Byte), s.link.canTake = true → (∀ k : ReqKind, k.code ≠ kind) →
    exec (.unknown kind target body) s = .next (s.answer kind target .unknown [])

/-- R159 steps 2 and 3: a target outside the kind's domain, or a body of another length than a kind of fixed size has, is answered with
RANGE and changes no state. -/
def Obligations.MisaddressedRequestsChangeNothing : Prop :=
  ∀ (s : State) (k : ReqKind) (target : Byte) (body : List Byte), s.link.canTake = true →
    ((k.domain = .galley ∧ 4 ≤ target.toNat) ∨ (k.domain = .slot ∧ 16 ≤ target.toNat) ∨
      (k.domain = .part ∧ target ≠ 0xFF) ∨ ∃ n, k.fixedLength = some n ∧ body.length ≠ n) →
    exec (.frameHeld (goodFrame k.code target body)) s = .next (s.answer k.code target .range [])

/-- R158, R161, R163: the first byte of the next frame is sent; with no frame held, with a reply still waiting, and while PART RESET is
under way, that is all. A frame held behind the only waiting reply, good or bad, is taken when that reply's first byte is sent, exactly as
when it completes, but that a frame the receiver is in the middle of goes on. While the PART RESET reply is being sent, no further frame is
(log entry 2). -/
def Obligations.TransmitStartTakesTheHeldFrame : Prop :=
  (∀ (s : State) (f : TxFrame) (rest : List TxFrame), s.link.sendQueue = f :: rest → s.link.resetPending = false →
    (s.link.heldFrame = none ∨ ∃ x ∈ rest, x.isReply = true) →
    exec .transmitStart s = .next { s with link := { s.link with sending := some f, sendQueue := rest } }) ∧
  (∀ (s : State) (f : TxFrame) (rest : List TxFrame) (h : LinkFrame),
    s.link.sendQueue = f :: rest → s.link.resetPending = false → (∀ x ∈ rest, x.isReply = false) →
    s.link.heldFrame = some h →
    ∃ t : State,
      exec (.frameHeld h) { s with link := { s.link with sending := some f, sendQueue := rest, heldFrame := none } } = .next t ∧
      exec .transmitStart s
        = .next { t with link := { t.link with receiver := s.link.receiver, gapTimer := s.link.gapTimer } }) ∧
  (∀ (s : State) (f : TxFrame) (rest : List TxFrame), s.link.sendQueue = f :: rest → s.link.resetPending = true →
    (∀ target data, s.link.sending ≠ some (.reply 0x08 target .done data)) →
    exec .transmitStart s = .next { s with link := { s.link with sending := some f, sendQueue := rest } }) ∧
  (∀ (s : State) (target : Byte) (data : List Byte), s.link.resetPending = true →
    s.link.sending = some (.reply 0x08 target .done data) → exec .transmitStart s = .next s) ∧
  ∀ s : State, s.link.sendQueue = [] → exec .transmitStart s = .next s

/-- R162: STATUS is answered with the record of 52 bytes and changes nothing; the bytes of the page, the unit view, the galleys, the slots,
the pool, the pending flags and the kind mask stand where 9.7 puts them. -/
def Obligations.StatusReportsTheStateOfOneMoment : Prop :=
  ∀ (s : State) (b : Byte), s.link.canTake = true →
    ∃ r : List Byte, exec (.status 0xFF [b]) s = .next (s.answer 0x01 0xFF .done r) ∧ r.length = 52 ∧
      r.take 11 = [byteOf s.page.state.code] ++ be16 s.page.number.toNat ++ be16 s.page.width ++ be16 s.page.depth
        ++ be16 s.page.high ++ be16 s.page.lastIssued ∧
      (∃ b ∈ r[11]?, b.toNat < 16 ∧ b.getLsbD 0 = s.unit.view.known ∧ b.getLsbD 1 = s.unit.view.held ∧
        b.getLsbD 2 = s.unit.view.faulted ∧ b.getLsbD 3 = s.unit.view.silent) ∧
      (r.drop 12).take 4 =
        (match s.unit.view.outstanding with
        | none => [0, 0, 0, 0xFF]
        | some o => match o.kind with | .line g => [1, o.number, 0, galleyByte g] | .cut => [1, o.number, 1, 0xFF]) ∧
      (r.drop 16).take 5 =
        (match s.unit.view.lastFault with
        | none => [0, 0, 0, 0, 0]
        | some f =>
          [1, f.number, flagByte f.cut] ++ match f.fault with | .code c => [0, c] | .timeout => [1, 0]) ∧
      (∀ g : GalleyId, r[21 + 2 * g.val]? = some (byteOf (s.galley g).state.code) ∧
        r[22 + 2 * g.val]? = some (causeByte (s.galley g).cause)) ∧
      (∀ n : SlotId, r[29 + n.val]? = some (byteOf (s.font n).state.code)) ∧
      (r.drop 45).take 2 = be16 (poolUse s.fonts) ∧
      (∀ f ∈ allFlags, ∃ b ∈ r[49 - f.place.val / 8]?, b.getLsbD (f.place.val % 8) = (s.events.flag f).isSome) ∧
      ∀ i : Fin 9, ∃ b ∈ r[51 - i.val / 8]?, b.getLsbD (i.val % 8) = s.events.mask[i]

/-- R163: PART RESET is answered with DONE and waits for the end of that reply; the reset then gives every block its PART RESET values,
places READY with kind REQUEST alone in the send queue, and raises no event (R39, R80, R123, R139, R142, R152, R166, R174). Of the values
named by `Galley.reset` and `UnitLink.reset`, the idle interval 0, the mark kind TAG and its index 0 are the model's choice (log entry 15),
and the stopped query timer is read by inference (log entry 13). That no selection is due then is the model's (log entry 4). -/
def Obligations.PartResetTakesEffectAfterItsReply : Prop :=
  (∀ (s : State) (b : Byte), s.link.canTake = true →
    exec (.partReset 0xFF [b]) s
      = .next ({ s with link := { s.link with resetPending := true } }.answer 0x08 0xFF .done [])) ∧
  ∀ s : State, s.link.resetPending = true → s.link.sending = some (.reply 0x08 0xFF .done []) →
    ∃ t : State, exec .partResetEffect s = .next t ∧
      t.link = { receiver := .hunt, gapTimer := false, heldFrame := none, sendQueue := [.ready .request],
                 sending := none, resetPending := false } ∧
      (∀ n, t.font n =
        if (s.font n).state = .loading then { s.font n with state := .provisional, silence := false } else s.font n) ∧
      (∀ g, t.galley g = Galley.reset) ∧
      t.page = { state := .noPage, number := s.page.number, width := 0, depth := 0, high := 0, lastIssued := 0,
                 nextOrder := s.page.nextOrder } ∧
      t.unit = UnitLink.reset ∧ (∀ f, t.events.flag f = none ∧ t.events.masked f = false) ∧
      t.selectionDue = false ∧ t.free = s.free ∧ t.pending = s.pending

/-- R175, R176: power-on gives every block its power-on values with READY placed, and a good frame collected meanwhile is taken behind
READY. That the model's own fields stay, and that nothing of the photo unit's is collected meanwhile, are its choices (log entries 15 and
26). -/
def Obligations.PowerOnAnswersAFrameBehindReady : Prop :=
  (∀ s : State, exec (.powerOn []) s = .next { State.reset with free := s.free, pending := s.pending }) ∧
  ∀ (s : State) (kind target : Byte) (body : List Byte), 1 ≤ body.length → body.length ≤ 1100 →
    exec (.powerOn ((composingFrame kind target body).map PowerUpEvent.byte)) s
      = exec (.frameHeld (goodFrame kind target body)) { State.reset with free := s.free, pending := s.pending }

/-- The values the manual gives for power-on, with READY placed (R18, R39, R53, R55, R80, R81, R123, R142, R152, R164, R174). -/
def Obligations.ResetValuesAreTheManuals : Prop :=
  State.reset.link.receiver = .hunt ∧ State.reset.link.gapTimer = false ∧ State.reset.link.heldFrame = none ∧
  State.reset.link.sendQueue = [.ready .power] ∧
  (∀ n, (State.reset.font n).state = .empty ∧ (State.reset.font n).records = [] ∧
    (State.reset.font n).header = none ∧ (∀ a b, (State.reset.font n).kern.at a b = 0) ∧
    (State.reset.font n).silence = false ∧
    (State.reset.font n).rejected = [] ∧ (State.reset.font n).overflow = false) ∧
  (∀ g, (State.reset.galley g).state = .off ∧ (State.reset.galley g).cause = none ∧
    (State.reset.galley g).deferred = none ∧ (State.reset.galley g).drain = false ∧
    (State.reset.galley g).released = false ∧ (State.reset.galley g).pendingFlag = false ∧
    (State.reset.galley g).lastDepth = none ∧ (State.reset.galley g).itemIndex = 0 ∧
    (State.reset.galley g).lineNumber = 0 ∧ (State.reset.galley g).idleTimer = false ∧
    (State.reset.galley g).mark.state = .disarmed ∧ (State.reset.galley g).snapshot = none ∧
    (State.reset.galley g).latch = none ∧ (State.reset.galley g).excCount = 0 ∧ (State.reset.galley g).story = [] ∧
    (State.reset.galley g).direction = .ltr ∧ (State.reset.galley g).nextDirection = none ∧
    (State.reset.galley g).hasEntries = false ∧ (State.reset.galley g).clampPending = false ∧
    (State.reset.galley g).slot.val = 0 ∧ (State.reset.galley g).size = 0 ∧ (State.reset.galley g).track = 0 ∧
    (State.reset.galley g).shift = 0 ∧ (State.reset.galley g).builder.lineDepth = none ∧
    (State.reset.galley g).builder.entries = [] ∧ (State.reset.galley g).builder.opps = [] ∧
    (State.reset.galley g).builder.pendingLetter = none ∧ (State.reset.galley g).builder.clampMark = false ∧
    (State.reset.galley g).held = none ∧ (State.reset.galley g).output = []) ∧
  State.reset.page = { state := .noPage, number := 0, width := 0, depth := 0, high := 0, lastIssued := 0, nextOrder := 0 } ∧
  State.reset.unit.view = { known := false, held := false, faulted := false, silent := false, outstanding := none,
                            lastFault := none } ∧
  State.reset.unit.receiver = .hunt ∧ State.reset.unit.gapTimer = false ∧ State.reset.unit.orderTimer = false ∧
  State.reset.unit.resetPause = true ∧ State.reset.unit.transmit = [] ∧
  ∀ f, State.reset.events.flag f = none ∧ State.reset.events.masked f = false

/-! ### Events (R167 to R174) -/

/-- R168 and R169: a raise sets a clear flag with its data and places a notice when its kind is unmasked, in the place of a waiting notice
of the same flag or at the back of the queue; a raise into a set flag changes nothing. -/
def Obligations.RaiseSetsTheFlagAndNotifies : Prop :=
  (∀ (s : State) (f : Flag) (d e : EventData), s.events.flag f = some e → s.raise f d = s) ∧
  (∀ (s : State) (f : Flag) (d : EventData), s.events.flag f = none →
    (s.raise f d).events.flag f = some d ∧ (∀ f', f' ≠ f → (s.raise f d).events.flag f' = s.events.flag f') ∧
    (s.raise f d).events.mask = s.events.mask ∧
    (s.events.masked f = true → (s.raise f d).link = s.link) ∧
    (s.events.masked f = false → (∀ e, TxFrame.notice f e ∉ s.link.sendQueue) →
      (s.raise f d).link = { s.link with sendQueue := s.link.sendQueue ++ [.notice f d] }) ∧
    (s.events.masked f = false → ∀ q1 e q2, s.link.sendQueue = q1 ++ .notice f e :: q2 → (∀ e', TxFrame.notice f e' ∉ q1) →
      (s.raise f d).link = { s.link with sendQueue := q1 ++ .notice f d :: q2 }) ∧
    (s.raise f d).fonts = s.fonts ∧ (s.raise f d).galleys = s.galleys ∧ (s.raise f d).page = s.page ∧
    (s.raise f d).unit = s.unit ∧ (s.raise f d).selectionDue = s.selectionDue ∧ (s.raise f d).free = s.free ∧ (s.raise f d).pending = s.pending)

/-- R171, R172: EVENT CLEAR clears each named flag; a level flag whose condition holds comes back with data read from the unit view. Every
other flag, the mask and every other block stay, and the reply is placed. The names are counted as the body lists them (log entry 25). -/
def Obligations.EventClearClearsTheNamedFlags : Prop :=
  ∀ (s : State) (names : List Flag), s.link.canTake = true → 1 ≤ names.length → names.length ≤ 21 →
    ∃ t : State, exec (.eventClear 0xFF (names.map Flag.name).flatten) s = .next t ∧
      (∀ f, t.events.flag f =
        if f ∈ names then
          if (s.events.flag f).isSome then
            match f with
            | .unitHeld => if s.unit.view.held then some .unitHeld else none
            | .unitFault =>
              if s.unit.view.faulted || s.unit.view.silent then s.unit.view.lastFault.map EventData.unitFault else none
            | _ => none
          else none
        else s.events.flag f) ∧
      t.events.mask = s.events.mask ∧ TxFrame.reply 0x05 0xFF .done t.events.pendingBytes ∈ t.link.sendQueue ∧
      ((s.unit.view.held = false ∧ s.unit.view.faulted = false ∧ s.unit.view.silent = false) →
        t.link = (s.answer 0x05 0xFF .done t.events.pendingBytes).link) ∧
      t.fonts = s.fonts ∧ t.galleys = s.galleys ∧ t.page = s.page ∧ t.unit = s.unit ∧ t.selectionDue = s.selectionDue ∧ t.free = s.free ∧
      t.pending = s.pending

/-- R170: EVENT MASK replaces the whole mask, keeps every flag, and places a notice with the held data for each set flag of a kind that goes
from masked to unmasked. That the reply's upper seven bits are 0 is the model's choice (log entry 24). -/
def Obligations.EventMaskReplacesTheMask : Prop :=
  ∀ (s : State) (hi lo : Byte), s.link.canTake = true →
    ∃ t : State, exec (.eventMask 0xFF [hi, lo]) s = .next t ∧
      (∀ f : Flag, t.events.masked f = (hi.toNat * 256 + lo.toNat).testBit f.kind.val) ∧
      (∀ f, t.events.flag f = s.events.flag f) ∧
      TxFrame.reply 0x06 0xFF .done (be16 ((hi.toNat * 256 + lo.toNat) % 512)) ∈ t.link.sendQueue ∧
      (∀ f d, s.events.flag f = some d → s.events.masked f = true → t.events.masked f = false →
        TxFrame.notice f d ∈ t.link.sendQueue) ∧
      ((∀ f, s.events.flag f = none ∨ s.events.masked f = false ∨ t.events.masked f = true) →
        t.link = (s.answer 0x06 0xFF .done (be16 ((hi.toNat * 256 + lo.toNat) % 512))).link) ∧
      t.fonts = s.fonts ∧ t.galleys = s.galleys ∧ t.page = s.page ∧ t.unit = s.unit ∧ t.selectionDue = s.selectionDue ∧ t.free = s.free ∧
      t.pending = s.pending

/-! ### Reading a galley (R78, R79) -/

/-- R78, R79: SNAPSHOT latches the live record of every named galley that holds no latch, all at once, and lists those it latched; a galley
that holds one, or is not named, keeps what it has. POSITION returns the latched record and releases the latch, or the live record, 22 bytes
each; GALLEY REPORT returns the latch and the count and empties both. -/
def Obligations.ReadingsAreLatchedAndReturned : Prop :=
  (∀ (s : State) (g : GalleyId) (b : Byte) (p : PositionRecord), s.link.canTake = true → (s.galley g).snapshot = some p →
    exec (.position (galleyByte g) [b]) s
      = .next ((s.setGalley g { s.galley g with snapshot := none }).answer 0x02 (galleyByte g) .done (1 :: p.bytes))) ∧
  (∀ (s : State) (g : GalleyId) (b : Byte), s.link.canTake = true → (s.galley g).snapshot = none →
    exec (.position (galleyByte g) [b]) s
      = .next (s.answer 0x02 (galleyByte g) .done (0 :: (s.galley g).position.bytes))) ∧
  (∀ p : PositionRecord, p.bytes.length = 22) ∧
  (∀ (s : State) (g : GalleyId) (b : Byte), s.link.canTake = true →
    exec (.galleyReport (galleyByte g) [b]) s
      = .next ((s.setGalley g { s.galley g with latch := none, excCount := 0 }).answer 0x04 (galleyByte g) .done
          ((match (s.galley g).latch with
            | none => [0, 0, 0, 0, 0, 0, 0, 0, 0, 0]
            | some e =>
              [1] ++ be16 e.number.toNat ++ [e.exceptions.byte] ++ be32 e.first.toNat ++ be16 e.amount)
            ++ [byteOf (s.galley g).excCount]))) ∧
  ∀ (s : State) (set : Byte), s.link.canTake = true →
    ∃ (t : State) (listed : Byte), exec (.snapshot 0xFF [set]) s = .next t ∧
      (∀ g, t.galley g =
        if set.getLsbD g.val = true ∧ (s.galley g).snapshot = none then
          { s.galley g with snapshot := some (s.galley g).position }
        else s.galley g) ∧
      (∀ g : GalleyId, listed.getLsbD g.val = (set.getLsbD g.val && (s.galley g).snapshot.isNone)) ∧ listed.toNat < 16 ∧
      t.link = (s.answer 0x03 0xFF .done [listed]).link ∧
      t.fonts = s.fonts ∧ t.page = s.page ∧ t.unit = s.unit ∧ t.events = s.events ∧ t.selectionDue = s.selectionDue ∧ t.free = s.free ∧
      t.pending = s.pending

/-! ### Stories (R40 to R47, R64) -/

/-- R40 to R42 and the layout of 9.7: every list of well-formed items, sent as its code units, reads back as those items. -/
def Obligations.StoryReadsBackItsItems : Prop :=
  ∀ items : List Item, (∀ i ∈ items, i.wellFormed = true) → readStory (storyBody items) = .ok items

/-- R44 to R46, R64 of a galley that is not released: story joins the back of the queue, its units below 0x0020 dropped, the idle timer is
retriggered, and the reply carries the counts; a galley OFF or CLOSING refuses it with STATE, a body that does not read as whole, defined
items is refused with BAD_ITEM, the reason and the offset in code units, and a frame that exceeds the free count with FULL. The free count
is read at the event's end (R159, log entry 6). A READY or STARVED galley goes SETTING and takes its first step within the event, here the
consumption of a FONT item. -/
def Obligations.StoryIsStoredWhole : Prop :=
  (∀ (s : State) (g : GalleyId) (ps : List Piece) (items : List Item), s.link.canTake = true → (∀ p ∈ ps, p.good = true) →
    items = pieceItems ps →
    (s.galley g).state ∈ [.setting, .blocked, .halted, .draining] → (s.galley g).released = false →
    (s.galley g).fill + storyUnits items ≤ 1024 →
    exec (.story (galleyByte g) (unitBytes (pieceUnits ps))) s
      = .next ((s.setGalley g { (s.galley g).timerAfresh with story := (s.galley g).story ++ items }).answer
          0x10 (galleyByte g) .done
          (be16 (storyUnits items) ++ be16 items.length ++ be16 (1024 - ((s.galley g).fill + storyUnits items))))) ∧
  (∀ (s : State) (g : GalleyId) (n : SlotId) (items : List Item), s.link.canTake = true →
    (∀ i ∈ items, i.wellFormed = true) → (s.galley g).state ∈ [.ready, .starved] → (s.galley g).released = false →
    (s.galley g).story = [] → (s.galley g).held = none → (s.galley g).hasCarry = false →
    (s.galley g).mark.state = .disarmed → 1 + storyUnits items ≤ 1024 →
    exec (.story (galleyByte g) (storyBody (.font n :: items))) s
      = .next (s.noting ((s.setGalley g ({ (s.galley g).timerAfresh with state := .setting, slot := n }.past items)).answer
          0x10 (galleyByte g) .done (be16 (1 + storyUnits items) ++ be16 (1 + items.length) ++ be16 (1024 - storyUnits items))))) ∧
  (∀ (s : State) (g : GalleyId) (body : List Byte), s.link.canTake = true → (s.galley g).state ∈ [.off, .closing] →
    exec (.story (galleyByte g) body) s = .next (s.answer 0x10 (galleyByte g) .state [])) ∧
  (∀ (s : State) (g : GalleyId) (ps : List Piece) (items : List Item), s.link.canTake = true → (∀ p ∈ ps, p.good = true) →
    items = pieceItems ps →
    (s.galley g).state ∉ [.off, .closing] → (s.galley g).fill ≤ 1024 → 1024 < (s.galley g).fill + storyUnits items →
    exec (.story (galleyByte g) (unitBytes (pieceUnits ps))) s
      = .next (s.answer 0x10 (galleyByte g) .full (be16 (1024 - (s.galley g).fill)))) ∧
  (∀ (s : State) (g : GalleyId) (ps : List Piece) (us : List CodeUnit) (lone : List Byte) (why : BadReason),
    s.link.canTake = true → (s.galley g).state ∉ [.off, .closing] → (∀ p ∈ ps, p.good = true) → why.MetAt us → lone.length ≤ 1 →
    exec (.story (galleyByte g) (unitBytes (pieceUnits ps ++ us) ++ lone)) s
      = .next (s.answer 0x10 (galleyByte g) .badItem (byteOf why.code :: be16 (pieceUnits ps).length))) ∧
  ∀ (s : State) (g : GalleyId) (ps : List Piece) (lone : Byte), s.link.canTake = true →
    (s.galley g).state ∉ [.off, .closing] → (∀ p ∈ ps, p.good = true) →
    exec (.story (galleyByte g) (unitBytes (pieceUnits ps) ++ [lone])) s
      = .next (s.answer 0x10 (galleyByte g) .badItem (byteOf BadReason.odd.code :: be16 (pieceUnits ps).length))

/-- R64 step 2: story at a released galley that the film has passed is stored and halts the galley with cause BEHIND, its released flag
staying set; where the film has not passed it, the flag clears and the idle timer starts afresh. -/
def Obligations.StoryAtAReleasedGalley : Prop :=
  (∀ (s : State) (g : GalleyId) (items : List Item), s.link.canTake = true → (∀ i ∈ items, i.wellFormed = true) →
    (s.galley g).state ∉ [.off, .closing, .halted] → (s.galley g).released = true →
    (s.galley g).frontier + 1200 < s.page.high → (s.galley g).fill + storyUnits items ≤ 1024 →
    exec (.story (galleyByte g) (storyBody items)) s
      = .next (s.noting (((s.setGalley g
            ({ s.galley g with story := (s.galley g).story ++ items }.haltedWith .behind)).answer 0x10 (galleyByte g) .done
          (be16 (storyUnits items) ++ be16 items.length ++ be16 (1024 - ((s.galley g).fill + storyUnits items)))).raise
          (.halted g) (.halted .behind)))) ∧
  ∀ (s : State) (g : GalleyId) (items : List Item), s.link.canTake = true → (∀ i ∈ items, i.wellFormed = true) →
    (s.galley g).state ∈ [.setting, .blocked, .draining] → (s.galley g).released = true →
    s.page.high ≤ (s.galley g).frontier + 1200 → (s.galley g).fill + storyUnits items ≤ 1024 →
    exec (.story (galleyByte g) (storyBody items)) s
      = .next (s.noting ((s.setGalley g
          { (s.galley g).timerAfresh with story := (s.galley g).story ++ items, released := false }).answer
          0x10 (galleyByte g) .done
          (be16 (storyUnits items) ++ be16 items.length ++ be16 (1024 - ((s.galley g).fill + storyUnits items)))))

/-- R54: FLUSH empties a halted galley's queue, reports what it removed, and leaves everything else; in any other state it is refused with
STATE, and before that a target outside 0..3 with RANGE. -/
def Obligations.FlushEmptiesTheQueue : Prop :=
  (∀ (s : State) (g : GalleyId) (b : Byte), s.link.canTake = true → (s.galley g).state = .halted →
    exec (.flush (galleyByte g) [b]) s
      = .next ((s.setGalley g { s.galley g with story := [] }).answer 0x46 (galleyByte g) .done
          (be16 (storyUnits (s.galley g).story) ++ be16 (s.galley g).story.length))) ∧
  (∀ (s : State) (g : GalleyId) (b : Byte), s.link.canTake = true → (s.galley g).state ≠ .halted →
    exec (.flush (galleyByte g) [b]) s = .next (s.answer 0x46 (galleyByte g) .state [])) ∧
  ∀ (s : State) (target b : Byte), s.link.canTake = true → 4 ≤ target.toNat →
    exec (.flush target [b]) s = .next (s.answer 0x46 target .range [])

/-! ### Parameters, halts and marks (R57 to R70) -/

/-- R58, R59: PARAM writes the staged set of a galley that is open and sets the pending flag; PARAM NOW writes the active set of a halted
galley without a started line and clears it. A set out of range, or with a coded value 9.7 does not give, is refused with RANGE, and one
that would leave a restraining galley's frontier above the band with BEHIND. -/
def Obligations.ParametersAreStagedOrTakenAtOnce : Prop :=
  (∀ (s : State) (g : GalleyId) (p : Params), s.link.canTake = true → (s.galley g).state ≠ .off → p.Good s.page.width →
    ((s.galley g).restraining = true →
      s.page.high ≤ ({ s.galley g with staged := p, pendingFlag := true } : Galley).frontier + 1200) →
    exec (.param (galleyByte g) p.body) s
      = .next (s.noting ((s.setGalley g { s.galley g with staged := p, pendingFlag := true }).answer 0x11 (galleyByte g) .done []))) ∧
  (∀ (s : State) (g : GalleyId) (p : Params), s.link.canTake = true → (s.galley g).state ≠ .off → p.Good s.page.width →
    (s.galley g).restraining = true →
    ({ s.galley g with staged := p, pendingFlag := true } : Galley).frontier + 1200 < s.page.high →
    exec (.param (galleyByte g) p.body) s = .next (s.answer 0x11 (galleyByte g) .behind [])) ∧
  (∀ (s : State) (g : GalleyId) (measure xOffset leading : Nat) (align dir hyph : Byte), s.link.canTake = true →
    measure < 65536 → xOffset < 65536 → leading < 65536 →
    (measure < 60 ∨ 16000 < measure ∨ 4800 < leading ∨ s.page.width < xOffset + measure ∨ 4 ≤ align.toNat ∨
      2 ≤ dir.toNat ∨ 2 ≤ hyph.toNat) →
    ((s.galley g).state ≠ .off →
      exec (.param (galleyByte g) (be16 measure ++ be16 xOffset ++ be16 leading ++ [align, dir, hyph])) s
        = .next (s.answer 0x11 (galleyByte g) .range [])) ∧
    ((s.galley g).state = .halted → (s.galley g).started = false →
      exec (.paramNow (galleyByte g) (be16 measure ++ be16 xOffset ++ be16 leading ++ [align, dir, hyph])) s
        = .next (s.answer 0x42 (galleyByte g) .range []))) ∧
  (∀ (s : State) (g : GalleyId) (p : Params), s.link.canTake = true → (s.galley g).state = .halted →
    (s.galley g).started = false → p.Good s.page.width → (s.galley g).restraining = true →
    ({ s.galley g with active := p, pendingFlag := false } : Galley).frontier + 1200 < s.page.high →
    exec (.paramNow (galleyByte g) p.body) s = .next (s.answer 0x42 (galleyByte g) .behind [])) ∧
  (∀ (s : State) (g : GalleyId) (p : Params), s.link.canTake = true → (s.galley g).state = .off →
    exec (.param (galleyByte g) p.body) s = .next (s.answer 0x11 (galleyByte g) .state [])) ∧
  (∀ (s : State) (g : GalleyId) (p : Params), s.link.canTake = true → (s.galley g).state = .halted →
    (s.galley g).started = false → p.Good s.page.width →
    ((s.galley g).restraining = true →
      s.page.high ≤ ({ s.galley g with active := p, pendingFlag := false } : Galley).frontier + 1200) →
    exec (.paramNow (galleyByte g) p.body) s
      = .next (s.noting ((s.setGalley g { s.galley g with active := p, pendingFlag := false }).answer 0x42 (galleyByte g) .done []))) ∧
  (∀ (s : State) (g : GalleyId) (p : Params), s.link.canTake = true → (s.galley g).state = .halted →
    (s.galley g).started = true →
    exec (.paramNow (galleyByte g) p.body) s = .next (s.answer 0x42 (galleyByte g) .lineOpen [])) ∧
  ∀ (s : State) (g : GalleyId) (p : Params), s.link.canTake = true → (s.galley g).state ≠ .halted →
    exec (.paramNow (galleyByte g) p.body) s = .next (s.answer 0x42 (galleyByte g) .state [])

/-- R66, R69: HALT takes a galley to HALTED with cause REQUEST, clears a deferred halt cause, keeps a held closed line, is answered with
DONE, and raises HALTED behind its reply; in OFF, CLOSING and HALTED it is refused with STATE. MARK SET replaces the mark and arms it at an
index that is not below the item index; a lower index and a kind that is neither TAG nor FORCE are refused with RANGE; MARK CLEAR disarms
it. -/
def Obligations.HaltAndMarksAct : Prop :=
  (∀ (s : State) (g : GalleyId) (b : Byte), s.link.canTake = true →
    (s.galley g).state ∈ [.ready, .setting, .starved, .blocked, .draining] →
    exec (.halt (galleyByte g) [b]) s
      = .next (s.noting (((s.setGalley g { s.galley g with state := .halted, cause := some .request, deferred := none }).answer 0x12
          (galleyByte g) .done []).raise (.halted g) (.halted .request)))) ∧
  (∀ (s : State) (g : GalleyId) (b : Byte), s.link.canTake = true → (s.galley g).state ∈ [.off, .closing, .halted] →
    exec (.halt (galleyByte g) [b]) s = .next (s.answer 0x12 (galleyByte g) .state [])) ∧
  (∀ (s : State) (g : GalleyId) (k : MarkKind) (i : StoryIndex), s.link.canTake = true →
    (s.galley g).state ∉ [.off, .closing] → (s.galley g).itemIndex.toNat ≤ i.toNat →
    exec (.markSet (galleyByte g) (k.byte :: be32 i.toNat)) s
      = .next ((s.setGalley g { s.galley g with mark := { kind := k, index := i, state := .armed } }).answer 0x13
          (galleyByte g) .done [])) ∧
  (∀ (s : State) (g : GalleyId) (k : MarkKind) (i : StoryIndex), s.link.canTake = true →
    (s.galley g).state ∉ [.off, .closing] → i.toNat < (s.galley g).itemIndex.toNat →
    exec (.markSet (galleyByte g) (k.byte :: be32 i.toNat)) s = .next (s.answer 0x13 (galleyByte g) .range [])) ∧
  (∀ (s : State) (g : GalleyId) (k : Byte) (i : StoryIndex), s.link.canTake = true →
    (s.galley g).state ∉ [.off, .closing] → 2 ≤ k.toNat →
    exec (.markSet (galleyByte g) (k :: be32 i.toNat)) s = .next (s.answer 0x13 (galleyByte g) .range [])) ∧
  (∀ (s : State) (g : GalleyId) (k : MarkKind) (i : StoryIndex), s.link.canTake = true →
    (s.galley g).state ∈ [.off, .closing] →
    exec (.markSet (galleyByte g) (k.byte :: be32 i.toNat)) s = .next (s.answer 0x13 (galleyByte g) .state [])) ∧
  (∀ (s : State) (g : GalleyId) (b : Byte), s.link.canTake = true → (s.galley g).state ≠ .off →
    exec (.markClear (galleyByte g) [b]) s
      = .next ((s.setGalley g { s.galley g with mark := { (s.galley g).mark with state := .disarmed } }).answer 0x14
          (galleyByte g) .done [])) ∧
  ∀ (s : State) (g : GalleyId) (b : Byte), s.link.canTake = true → (s.galley g).state = .off →
    exec (.markClear (galleyByte g) [b]) s = .next (s.answer 0x14 (galleyByte g) .state [])

/-! ### Opening and closing a galley (R57, R76, R77) -/

/-- R57: an accepted GALLEY OPEN makes an OFF galley READY with every value the rule gives; its checks refuse with NO_PAGE, STATE, RANGE and
BEHIND. That the staged set, the mark's kind and its index keep their values is the model's choice (log entry 15). -/
def Obligations.OpeningSetsUpTheGalley : Prop :=
  (∀ (s : State) (g : GalleyId) (o : Opening), s.link.canTake = true → s.page.state = .open → (s.galley g).state = .off →
    o.Good s.page → s.page.high ≤ o.top + 1200 →
    exec (.galleyOpen (galleyByte g) o.body) s
      = .next (s.noting ((s.setGalley g
          { state := .ready, cause := none, drain := false, deferred := none, active := o.params,
            staged := (s.galley g).staged, pendingFlag := false, topDepth := o.top, lastDepth := none, itemIndex := 0,
            lineNumber := 0, interval := o.interval, idleTimer := decide (o.interval ≠ 0), released := false,
            mark := { (s.galley g).mark with state := .disarmed }, snapshot := none, latch := none, excCount := 0,
            slot := o.slot, size := o.size, track := o.track, shift := 0, direction := o.params.direction,
            nextDirection := none, hasEntries := false, clampPending := false, story := [], builder := Builder.empty,
            held := none, output := [] }).answer 0x15 (galleyByte g) .done []))) ∧
  (∀ (s : State) (g : GalleyId) (o : Opening), s.link.canTake = true → s.page.state = .open → (s.galley g).state = .off →
    o.Good s.page → o.top + 1200 < s.page.high →
    exec (.galleyOpen (galleyByte g) o.body) s = .next (s.answer 0x15 (galleyByte g) .behind [])) ∧
  (∀ (s : State) (g : GalleyId) (top xOffset measure leading interval size : Nat) (align dir hyph font track : Byte),
    s.link.canTake = true → s.page.state = .open → (s.galley g).state = .off → top < 65536 → xOffset < 65536 →
    measure < 65536 → leading < 65536 → interval < 65536 → size < 65536 →
    (s.page.depth ≤ top ∨ measure < 60 ∨ 16000 < measure ∨ 4800 < leading ∨ s.page.width < xOffset + measure ∨
      4 ≤ align.toNat ∨ 2 ≤ dir.toNat ∨ 2 ≤ hyph.toNat ∨ 255 < interval ∨ 16 ≤ font.toNat ∨ size < 16 ∨ 576 < size ∨
      track.toInt < -32 ∨ 31 < track.toInt) →
    exec (.galleyOpen (galleyByte g)
        (be16 top ++ be16 xOffset ++ be16 measure ++ be16 leading ++ [align, dir, hyph] ++ be16 interval ++ [font]
          ++ be16 size ++ [track])) s
      = .next (s.answer 0x15 (galleyByte g) .range [])) ∧
  (∀ (s : State) (g : GalleyId) (o : Opening), s.link.canTake = true → s.page.state = .open → (s.galley g).state ≠ .off →
    exec (.galleyOpen (galleyByte g) o.body) s = .next (s.answer 0x15 (galleyByte g) .state [])) ∧
  ∀ (s : State) (g : GalleyId) (o : Opening), s.link.canTake = true → s.page.state ≠ .open →
    exec (.galleyOpen (galleyByte g) o.body) s = .next (s.answer 0x15 (galleyByte g) .noPage [])

/-- R76, R77: GALLEY CLOSE DRAIN sets the drain flag of a BLOCKED or HALTED galley and leaves it there; a galley with nothing left to set
goes CLOSING, and OFF with CLOSED raised when its output queue is empty. GALLEY CLOSE DISCARD drops the story, the builder and a held closed
line, reports how many units and entries that was, and takes the galley to CLOSING, or to OFF with CLOSED raised. A form that is neither is
refused with RANGE. That a held line's entries are counted is read by inference (log entry 5); that the pending flag stays at OFF is the
model's choice (log entry 23). -/
def Obligations.GalleyCloseDrainsOrDiscards : Prop :=
  (∀ (s : State) (g : GalleyId), s.link.canTake = true → (s.galley g).state ∈ [.blocked, .halted] →
    (s.galley g).drain = false →
    exec (.galleyCloseDrain (galleyByte g) [0]) s
      = .next ((s.setGalley g { s.galley g with drain := true }).answer 0x16 (galleyByte g) .done [])) ∧
  (∀ (s : State) (g : GalleyId), s.link.canTake = true → (s.galley g).state ∈ [.ready, .setting, .starved] →
    (s.galley g).drain = false → (s.galley g).story = [] → (s.galley g).started = false →
    (s.galley g).builder.entries = [] → (s.galley g).held = none → (s.galley g).output ≠ [] →
    exec (.galleyCloseDrain (galleyByte g) [0]) s
      = .next (s.noting ((s.setGalley g (s.galley g).atClosing).answer 0x16 (galleyByte g) .done []))) ∧
  (∀ (s : State) (g : GalleyId), s.link.canTake = true → (s.galley g).state ∈ [.ready, .setting, .starved] →
    (s.galley g).drain = false → (s.galley g).story = [] → (s.galley g).started = false →
    (s.galley g).builder.entries = [] → (s.galley g).held = none → (s.galley g).output = [] →
    exec (.galleyCloseDrain (galleyByte g) [0]) s
      = .next (s.noting (((s.setGalley g (s.galley g).atClosing.atOff).answer 0x16 (galleyByte g) .done []).raise (.closed g)
          (.closed (s.galley g).lineNumber (s.galley g).itemIndex)))) ∧
  (∀ (s : State) (g : GalleyId), s.link.canTake = true →
    ((s.galley g).state ∈ [.off, .closing] ∨ (s.galley g).drain = true) →
    exec (.galleyCloseDrain (galleyByte g) [0]) s = .next (s.answer 0x16 (galleyByte g) .state [])) ∧
  (∀ (s : State) (g : GalleyId) (form : Byte), s.link.canTake = true → form ≠ 0 → form ≠ 1 →
    exec (.galleyCloseDrain (galleyByte g) [form]) s = .next (s.answer 0x16 (galleyByte g) .range [])) ∧
  (∀ (s : State) (g : GalleyId), s.link.canTake = true → (s.galley g).state ∉ [.off, .closing] →
    (s.galley g).output ≠ [] →
    exec (.galleyCloseDiscard (galleyByte g) [1]) s
      = .next (s.noting ((s.setGalley g
          { (s.galley g).atClosing with story := [], builder := Builder.empty, held := none }).answer 0x16 (galleyByte g) .done
          (be16 (storyUnits (s.galley g).story)
            ++ be16 ((s.galley g).builder.entries.length + ((s.galley g).held.map HeldLine.entries).getD 0))))) ∧
  (∀ (s : State) (g : GalleyId), s.link.canTake = true → (s.galley g).state ∉ [.off, .closing] →
    (s.galley g).output = [] →
    exec (.galleyCloseDiscard (galleyByte g) [1]) s
      = .next (s.noting (((s.setGalley g
          { (s.galley g).atClosing.atOff with story := [], builder := Builder.empty, held := none }).answer 0x16
            (galleyByte g) .done
          (be16 (storyUnits (s.galley g).story)
            ++ be16 ((s.galley g).builder.entries.length + ((s.galley g).held.map HeldLine.entries).getD 0))).raise
          (.closed g) (.closed (s.galley g).lineNumber (s.galley g).itemIndex)))) ∧
  ∀ (s : State) (g : GalleyId), s.link.canTake = true → (s.galley g).state ∈ [.off, .closing] →
    exec (.galleyCloseDiscard (galleyByte g) [1]) s = .next (s.answer 0x16 (galleyByte g) .state [])

/-! ### Requests of a halted galley (R67, R68, R71 to R73) -/

/-- R67 with R63: RESUME clears the released flag and the cause, starts the idle timer afresh, and the galley proceeds: BLOCKED while it
holds a closed line, STARVED or READY with no story, and otherwise SETTING or DRAINING past its front item, here a FONT item. A released
galley that the film has passed is refused with BEHIND, and one that is not HALTED with STATE. -/
def Obligations.ResumeProceeds : Prop :=
  (∀ (s : State) (g : GalleyId) (b : Byte), s.link.canTake = true → (s.galley g).state = .halted →
    ((s.galley g).released = false ∨ s.page.high ≤ (s.galley g).frontier + 1200) → (s.galley g).held.isSome = true →
    exec (.resume (galleyByte g) [b]) s
      = .next (s.noting ((s.setGalley g
          { (s.galley g).timerAfresh with released := false, state := .blocked, cause := none, deferred := none }).answer 0x40
          (galleyByte g) .done [4, 0]))) ∧
  (∀ (s : State) (g : GalleyId) (b : Byte), s.link.canTake = true → (s.galley g).state = .halted →
    ((s.galley g).released = false ∨ s.page.high ≤ (s.galley g).frontier + 1200) → (s.galley g).held = none →
    (s.galley g).story = [] → (s.galley g).hasCarry = false → (s.galley g).drain = false →
    exec (.resume (galleyByte g) [b]) s
      = .next (s.noting ((s.setGalley g
          { (s.galley g).timerAfresh with
            released := false, state := if (s.galley g).started then .starved else .ready, cause := none
            deferred := none }).answer 0x40 (galleyByte g) .done [if (s.galley g).started then 3 else 1, 0]))) ∧
  (∀ (s : State) (g : GalleyId) (b : Byte) (n : SlotId) (rest : List Item), s.link.canTake = true →
    (s.galley g).state = .halted → ((s.galley g).released = false ∨ s.page.high ≤ (s.galley g).frontier + 1200) →
    (s.galley g).held = none → (s.galley g).hasCarry = false → (s.galley g).story = .font n :: rest →
    ¬((s.galley g).mark.kind = .tag ∧ (s.galley g).mark.state = .armed ∧ (s.galley g).mark.index = (s.galley g).itemIndex) →
    exec (.resume (galleyByte g) [b]) s
      = .next (s.noting ((s.setGalley g
          ({ (s.galley g).timerAfresh with
            released := false, state := if (s.galley g).drain then .draining else .setting, cause := none
            deferred := none, slot := n }.past rest)).answer 0x40 (galleyByte g) .done
          [if (s.galley g).drain then 6 else 2, 0]))) ∧
  (∀ (s : State) (g : GalleyId) (b : Byte), s.link.canTake = true → (s.galley g).state = .halted →
    (s.galley g).released = true → (s.galley g).frontier + 1200 < s.page.high →
    exec (.resume (galleyByte g) [b]) s = .next (s.answer 0x40 (galleyByte g) .behind [])) ∧
  ∀ (s : State) (g : GalleyId) (b : Byte), s.link.canTake = true → (s.galley g).state ≠ .halted →
    exec (.resume (galleyByte g) [b]) s = .next (s.answer 0x40 (galleyByte g) .state [])

/-- R68: STEP consumes one item of a halted galley, here a FONT or a SIZE item, halts it again with cause STEP, reports HALTED, STEP and 1,
and raises HALTED; an armed TAG mark that names the item disarms. Its checks refuse with FULL, EMPTY and STATE. -/
def Obligations.StepConsumesOneItem : Prop :=
  (∀ (s : State) (g : GalleyId) (b : Byte) (n : SlotId) (rest : List Item), s.link.canTake = true →
    (s.galley g).state = .halted → (s.galley g).held = none → (s.galley g).hasCarry = false →
    (s.galley g).story = .font n :: rest →
    exec (.step (galleyByte g) [b]) s
      = .next (((s.setGalley g (({ s.galley g with slot := n }.past rest).haltedWith .step)).answer 0x41 (galleyByte g) .done
          [5, 3, 1]).raise (.halted g) (.halted .step))) ∧
  (∀ (s : State) (g : GalleyId) (b : Byte) (q : CodeUnit) (rest : List Item), s.link.canTake = true →
    (s.galley g).state = .halted → (s.galley g).held = none → (s.galley g).hasCarry = false →
    (s.galley g).story = .size q :: rest → 16 ≤ q.toNat → q.toNat ≤ 576 →
    exec (.step (galleyByte g) [b]) s
      = .next (((s.setGalley g (({ s.galley g with size := q.toNat }.past rest).haltedWith .step)).answer 0x41 (galleyByte g)
          .done [5, 3, 1]).raise (.halted g) (.halted .step))) ∧
  (∀ (s : State) (g : GalleyId) (b : Byte), s.link.canTake = true → (s.galley g).state = .halted →
    (s.galley g).held.isSome = true →
    exec (.step (galleyByte g) [b]) s = .next (s.answer 0x41 (galleyByte g) .full [])) ∧
  (∀ (s : State) (g : GalleyId) (b : Byte), s.link.canTake = true → (s.galley g).state = .halted →
    (s.galley g).held = none → (s.galley g).story = [] →
    exec (.step (galleyByte g) [b]) s = .next (s.answer 0x41 (galleyByte g) .empty [])) ∧
  ∀ (s : State) (g : GalleyId) (b : Byte), s.link.canTake = true → (s.galley g).state ≠ .halted →
    exec (.step (galleyByte g) [b]) s = .next (s.answer 0x41 (galleyByte g) .state [])

/-- R71, R128: RESTART gives a halted galley without a started line its next top depth, clears the released flag, starts the idle timer
afresh, turns cause BEHIND into REQUEST, and stages a new column where one is given; the film and every line not yet exposed must lie no
lower. A top, a column or a body length out of range is refused with RANGE. -/
def Obligations.RestartGivesANewTop : Prop :=
  (∀ (s : State) (g : GalleyId) (top : Nat), s.link.canTake = true → (s.galley g).state = .halted → s.page.state = .open →
    (s.galley g).started = false → top < s.page.depth → top < 65536 → s.page.high ≤ top + 1200 →
    (∀ l ∈ (s.galley g).closedLines, l.depth ≤ top) →
    exec (.restart (galleyByte g) (be16 top)) s
      = .next (s.noting ((s.setGalley g
          { (s.galley g).timerAfresh with
            topDepth := top, lastDepth := none, released := false
            cause := if (s.galley g).cause = some .behind then some .request else (s.galley g).cause }).answer 0x43
          (galleyByte g) .done []))) ∧
  (∀ (s : State) (g : GalleyId) (top xOffset measure : Nat), s.link.canTake = true → (s.galley g).state = .halted →
    s.page.state = .open → (s.galley g).started = false → top < s.page.depth → top < 65536 → s.page.high ≤ top + 1200 →
    (∀ l ∈ (s.galley g).closedLines, l.depth ≤ top) → 60 ≤ measure → measure ≤ 16000 →
    xOffset + measure ≤ s.page.width → s.page.width ≤ 14400 →
    exec (.restart (galleyByte g) (be16 top ++ be16 xOffset ++ be16 measure)) s
      = .next (s.noting ((s.setGalley g
          { (s.galley g).timerAfresh with
            topDepth := top, lastDepth := none, released := false
            cause := if (s.galley g).cause = some .behind then some .request else (s.galley g).cause
            staged :=
              if (s.galley g).pendingFlag then { (s.galley g).staged with xOffset := xOffset, measure := measure }
              else { (s.galley g).active with xOffset := xOffset, measure := measure }
            pendingFlag := true }).answer 0x43 (galleyByte g) .done []))) ∧
  (∀ (s : State) (g : GalleyId) (top : Nat), s.link.canTake = true → (s.galley g).state = .halted → s.page.state = .open →
    (s.galley g).started = false → top < s.page.depth → top < 65536 →
    (top + 1200 < s.page.high ∨ ∃ l ∈ (s.galley g).closedLines, top < l.depth) →
    exec (.restart (galleyByte g) (be16 top)) s = .next (s.answer 0x43 (galleyByte g) .behind [])) ∧
  (∀ (s : State) (g : GalleyId) (top : Nat), s.link.canTake = true → (s.galley g).state = .halted → s.page.state = .open →
    (s.galley g).started = false → s.page.depth ≤ top → top < 65536 →
    exec (.restart (galleyByte g) (be16 top)) s = .next (s.answer 0x43 (galleyByte g) .range [])) ∧
  (∀ (s : State) (g : GalleyId) (top xOffset measure : Nat), s.link.canTake = true → (s.galley g).state = .halted →
    s.page.state = .open → (s.galley g).started = false → top < 65536 → xOffset < 65536 → measure < 65536 →
    (s.page.depth ≤ top ∨ measure < 60 ∨ 16000 < measure ∨ s.page.width < xOffset + measure) →
    exec (.restart (galleyByte g) (be16 top ++ be16 xOffset ++ be16 measure)) s
      = .next (s.answer 0x43 (galleyByte g) .range [])) ∧
  (∀ (s : State) (g : GalleyId) (body : List Byte), s.link.canTake = true → (s.galley g).state = .halted →
    s.page.state = .open → (s.galley g).started = false → body.length ≠ 2 → body.length ≠ 6 →
    exec (.restart (galleyByte g) body) s = .next (s.answer 0x43 (galleyByte g) .range [])) ∧
  (∀ (s : State) (g : GalleyId) (body : List Byte), s.link.canTake = true → (s.galley g).state = .halted →
    s.page.state = .open → (s.galley g).started = true →
    exec (.restart (galleyByte g) body) s = .next (s.answer 0x43 (galleyByte g) .lineOpen [])) ∧
  (∀ (s : State) (g : GalleyId) (body : List Byte), s.link.canTake = true → (s.galley g).state = .halted →
    s.page.state ≠ .open → exec (.restart (galleyByte g) body) s = .next (s.answer 0x43 (galleyByte g) .noPage [])) ∧
  ∀ (s : State) (g : GalleyId) (body : List Byte), s.link.canTake = true → (s.galley g).state ≠ .halted →
    exec (.restart (galleyByte g) body) s = .next (s.answer 0x43 (galleyByte g) .state [])

/-- R72, R73: PEEK returns the builder's entries from its offset on, at most 40, of 21 bytes each, and changes nothing; ABANDON empties the
builder and reports how many entries it held, unless that would leave a restraining galley's frontier above the band. What PEEK reports
where an entry has no such field is read by inference (log entry 7). -/
def Obligations.PeekShowsAndAbandonEmpties : Prop :=
  (∀ (s : State) (g : GalleyId) (offset : Byte), s.link.canTake = true → (s.galley g).state = .halted →
    offset.toNat ≤ (s.galley g).builder.entries.length →
    exec (.peek (galleyByte g) [offset]) s
      = .next (s.answer 0x44 (galleyByte g) .done
          ([byteOf (s.galley g).builder.entries.length,
              byteOf (min 40 ((s.galley g).builder.entries.length - offset.toNat))]
            ++ ((((s.galley g).builder.entries.drop offset.toNat).take 40).map Entry.peekBytes).flatten))) ∧
  (∀ e : Entry, e.peekBytes.length = 21) ∧
  (∀ (s : State) (g : GalleyId) (offset : Byte), s.link.canTake = true → (s.galley g).state = .halted →
    (s.galley g).builder.entries.length < offset.toNat →
    exec (.peek (galleyByte g) [offset]) s = .next (s.answer 0x44 (galleyByte g) .range [])) ∧
  (∀ (s : State) (g : GalleyId) (b : Byte), s.link.canTake = true → (s.galley g).state ≠ .halted →
    exec (.peek (galleyByte g) [b]) s = .next (s.answer 0x44 (galleyByte g) .state []) ∧
    exec (.abandon (galleyByte g) [b]) s = .next (s.answer 0x45 (galleyByte g) .state [])) ∧
  (∀ (s : State) (g : GalleyId) (b : Byte), s.link.canTake = true → (s.galley g).state = .halted →
    ((s.galley g).started = true → (s.galley g).restraining = true → s.page.high ≤ (s.galley g).nextDepth + 1200) →
    exec (.abandon (galleyByte g) [b]) s
      = .next (s.noting ((s.setGalley g { s.galley g with builder := Builder.empty }).answer 0x45 (galleyByte g) .done
          [byteOf (s.galley g).builder.entries.length]))) ∧
  ∀ (s : State) (g : GalleyId) (b : Byte), s.link.canTake = true → (s.galley g).state = .halted →
    (s.galley g).started = true → (s.galley g).restraining = true → (s.galley g).nextDepth + 1200 < s.page.high →
    exec (.abandon (galleyByte g) [b]) s = .next (s.answer 0x45 (galleyByte g) .behind [])

/-! ### The font store (R18 to R39) -/

/-- R25: an accepted FONT BEGIN empties the slot in any state, without an event, makes it LOADING with the header given, starts the silence
timer, and reports the places returned and the places free; one whose header does not pass is refused with RANGE and changes nothing. -/
def Obligations.FontBeginStartsALoad : Prop :=
  (∀ (s : State) (n : SlotId) (h : Header), s.link.canTake = true → h.Good →
    exec (.fontBegin (byteOf n.val) h.body) s
      = .next ((s.setFont n
          { state := .loading, header := some h, records := [], kern := KernTable.zero, rejected := [], overflow := false,
            silence := true }).answer 0x20 (byteOf n.val) .done
          (be16 (s.font n).records.length ++ be16 (4096 - (poolUse s.fonts - (s.font n).records.length))))) ∧
  ∀ (s : State) (n : SlotId) (h : Header), s.link.canTake = true → h.natural ≤ 255 → h.minimum ≤ 255 → h.maximum ≤ 255 →
    h.declared ≤ 65535 →
    (h.natural < h.minimum ∨ h.maximum < h.natural ∨ h.missing.toNat < 0x20 ∨ 0xEFFF < h.missing.toNat ∨ h.declared < 1 ∨
      1024 < h.declared) →
    exec (.fontBegin (byteOf n.val) h.body) s = .next (s.answer 0x20 (byteOf n.val) .range [])

/-- R34: FONT DROP makes the slot EMPTY in any state without an event, stops its silence timer, and reports the places returned and the
places free. -/
def Obligations.FontDropEmptiesTheSlot : Prop :=
  ∀ (s : State) (n : SlotId) (b : Byte), s.link.canTake = true →
    exec (.fontDrop (byteOf n.val) [b]) s
      = .next ((s.setFont n
          { state := .empty, header := none, records := [], kern := KernTable.zero, rejected := [], overflow := false,
            silence := false }).answer 0x24 (byteOf n.val) .done
          (be16 (s.font n).records.length ++ be16 (4096 - (poolUse s.fonts - (s.font n).records.length))))

/-- R26 to R30: a frame of good records with new codes is stored whole where there is room, and their codes leave the rejected set; a good
record of a held code takes its place; a record with a wrong check puts its code in the rejected set, or sets the overflow flag when it is
full; a record with no place is answered with STORE_FULL and its position. A count outside 1..32, and a body that ends before or after its
last counted record, is refused with RANGE. Outside LOADING the frame is refused with STATE. -/
def Obligations.FontGlyphsStoresGoodRecords : Prop :=
  (∀ (s : State) (n : SlotId) (rs : List GlyphRecord), s.link.canTake = true → (s.font n).state = .loading →
    1 ≤ rs.length → rs.length ≤ 32 → (∀ r ∈ rs, r.contentGood = true ∧ r.Ranges) → (rs.map GlyphRecord.code).Nodup →
    (∀ r ∈ rs, ∀ x ∈ (s.font n).records, x.code ≠ r.code) → poolUse s.fonts + rs.length ≤ 4096 →
    (s.font n).records.length + rs.length ≤ 1024 →
    exec (.fontGlyphs (byteOf n.val) (byteOf rs.length :: (rs.map GlyphRecord.bytes).flatten)) s
      = .next ((s.setFont n
          { s.font n with
            records := (s.font n).records ++ rs
            rejected := (s.font n).rejected.filter (fun c => !(rs.map GlyphRecord.code).contains c)
            silence := true }).answer 0x21 (byteOf n.val) .done
          ([byteOf rs.length, 0, 0, 0] ++ be16 ((s.font n).records.length + rs.length)
            ++ be16 (4096 - (poolUse s.fonts + rs.length))))) ∧
  (∀ (s : State) (n : SlotId) (r : GlyphRecord), s.link.canTake = true → (s.font n).state = .loading →
    r.contentGood = true → r.Ranges → r.code ∈ (s.font n).records.map GlyphRecord.code →
    exec (.fontGlyphs (byteOf n.val) (1 :: r.bytes)) s
      = .next ((s.setFont n
          { s.font n with
            records := (s.font n).records.map (fun x => if x.code = r.code then r else x)
            rejected := (s.font n).rejected.filter (fun c => c != r.code)
            silence := true }).answer 0x21 (byteOf n.val) .done
          ([1, 0, 0, 0] ++ be16 (s.font n).records.length ++ be16 (4096 - poolUse s.fonts)))) ∧
  (∀ (s : State) (n : SlotId) (c1 c0 presence : Byte) (more : List Byte), s.link.canTake = true →
    (s.font n).state = .loading → 3 + more.length = recordLength presence → byteSum (c1 :: c0 :: presence :: more) ≠ 0 →
    exec (.fontGlyphs (byteOf n.val) (1 :: c1 :: c0 :: presence :: more)) s
      = .next ((s.setFont n
          (if unit16 c1 c0 ∈ (s.font n).rejected then { s.font n with silence := true }
          else if (s.font n).rejected.length < 16 then
            { s.font n with rejected := (s.font n).rejected ++ [unit16 c1 c0], silence := true }
          else { s.font n with overflow := true, silence := true })).answer 0x21 (byteOf n.val) .done
          ([0, 1, 1, 0] ++ be16 (s.font n).records.length ++ be16 (4096 - poolUse s.fonts)))) ∧
  (∀ (s : State) (n : SlotId) (r : GlyphRecord), s.link.canTake = true → (s.font n).state = .loading →
    r.contentGood = true → r.Ranges → r.code ∉ (s.font n).records.map GlyphRecord.code →
    (4096 ≤ poolUse s.fonts ∨ 1024 ≤ (s.font n).records.length) →
    exec (.fontGlyphs (byteOf n.val) (1 :: r.bytes)) s
      = .next ((s.setFont n { s.font n with silence := true }).answer 0x21 (byteOf n.val) .storeFull
          ([0, 0, 0, 1] ++ be16 (s.font n).records.length ++ be16 (4096 - poolUse s.fonts)))) ∧
  (∀ (s : State) (n : SlotId) (count : Byte) (more : List Byte), s.link.canTake = true → (s.font n).state = .loading →
    (count.toNat < 1 ∨ 32 < count.toNat) →
    exec (.fontGlyphs (byteOf n.val) (count :: more)) s
      = .next ((s.setFont n { s.font n with silence := true }).answer 0x21 (byteOf n.val) .range [])) ∧
  (∀ (s : State) (n : SlotId) (rs : List GlyphRecord) (count : Byte) (more : List Byte), s.link.canTake = true →
    (s.font n).state = .loading → (∀ r ∈ rs, r.contentGood = true ∧ r.Ranges) →
    ((count.toNat = rs.length ∧ more ≠ []) ∨
      (count.toNat = rs.length + 1 ∧ (more.length < 3 ∨ ∃ presence ∈ more[2]?, more.length < recordLength presence))) →
    exec (.fontGlyphs (byteOf n.val) (count :: (rs.map GlyphRecord.bytes).flatten ++ more)) s
      = .next ((s.setFont n { s.font n with silence := true }).answer 0x21 (byteOf n.val) .range [])) ∧
  ∀ (s : State) (n : SlotId) (body : List Byte), s.link.canTake = true → (s.font n).state ≠ .loading →
    exec (.fontGlyphs (byteOf n.val) body) s = .next (s.answer 0x21 (byteOf n.val) .state [])

/-- R20 to R22 and the layout of 9.7: every record whose fields are in range reads back, with every field, from the bytes the layout gives
it, and it is as long as its presence byte says. -/
def Obligations.GlyphRecordsReadBack : Prop :=
  ∀ r : GlyphRecord, r.contentGood = true → r.Ranges →
    readRecord r.bytes = some r ∧ r.bytes.length = recordLength r.presence

/-- R31: FONT KERN writes whole rows of a LOADING slot's kern table from a row on and leaves the other rows; rows outside the table, another
number of values, or a value outside −32..+31 refuses the whole frame with RANGE; either restarts the silence timer. -/
def Obligations.FontKernWritesWholeRows : Prop :=
  (∀ (s : State) (n : SlotId) (row : Nat) (rows : List (Vector Int 16)), s.link.canTake = true →
    (s.font n).state = .loading → 1 ≤ rows.length → row + rows.length ≤ 16 →
    (∀ r ∈ rows, ∀ v ∈ r.toList, -32 ≤ v ∧ v ≤ 31) →
    ∃ k : KernTable,
      (∀ a b : Fin 16, k.at a b =
        if row ≤ a.val ∧ a.val < row + rows.length then (rows.getD (a.val - row) (Vector.replicate 16 0))[b]
        else (s.font n).kern.at a b) ∧
      exec (.fontKern (byteOf n.val)
          ([byteOf row, byteOf rows.length] ++ (rows.map (fun r => r.toList.map signedByte)).flatten)) s
        = .next ((s.setFont n { s.font n with kern := k, silence := true }).answer 0x22 (byteOf n.val) .done [])) ∧
  (∀ (s : State) (n : SlotId) (row count : Byte) (values : List Byte), s.link.canTake = true →
    (s.font n).state = .loading →
    (16 ≤ row.toNat ∨ count.toNat < 1 ∨ 16 < count.toNat ∨ 16 < row.toNat + count.toNat ∨
      values.length ≠ count.toNat * 16 ∨ ∃ v ∈ values, v.toInt < -32 ∨ 31 < v.toInt) →
    exec (.fontKern (byteOf n.val) (row :: count :: values)) s
      = .next ((s.setFont n { s.font n with silence := true }).answer 0x22 (byteOf n.val) .range [])) ∧
  ∀ (s : State) (n : SlotId) (body : List Byte), s.link.canTake = true → (s.font n).state ≠ .loading →
    exec (.fontKern (byteOf n.val) body) s = .next (s.answer 0x22 (byteOf n.val) .state [])

/-- R32: FONT END makes a LOADING slot VALID when it holds as many codes as were declared, no rejected code, no overflow, and its
missing-glyph record, and PROVISIONAL otherwise; it stops the silence timer, raises FONT_DONE with the result, and reports what it
judged. -/
def Obligations.FontEndJudgesTheLoad : Prop :=
  (∀ (s : State) (n : SlotId) (b : Byte) (h : Header), s.link.canTake = true → (s.font n).state = .loading →
    (s.font n).header = some h → (s.font n).records.length = h.declared → (s.font n).rejected = [] →
    (s.font n).overflow = false → h.missing ∈ (s.font n).records.map GlyphRecord.code →
    exec (.fontEnd (byteOf n.val) [b]) s
      = .next (((s.setFont n { s.font n with state := .valid, silence := false }).answer 0x23 (byteOf n.val) .done
          ([1] ++ be16 h.declared ++ be16 h.declared ++ [0, 0, 1])).raise .fontDone (.fontDone n true))) ∧
  (∀ (s : State) (n : SlotId) (b : Byte) (h : Header), s.link.canTake = true → (s.font n).state = .loading →
    (s.font n).header = some h →
    ¬((s.font n).records.length = h.declared ∧ (s.font n).rejected = [] ∧ (s.font n).overflow = false ∧
      h.missing ∈ (s.font n).records.map GlyphRecord.code) →
    exec (.fontEnd (byteOf n.val) [b]) s
      = .next (((s.setFont n { s.font n with state := .provisional, silence := false }).answer 0x23 (byteOf n.val) .done
          ([0] ++ be16 (s.font n).records.length ++ be16 h.declared
            ++ [byteOf (s.font n).rejected.length, flagByte (s.font n).overflow,
              flagByte (decide (h.missing ∈ (s.font n).records.map GlyphRecord.code))])).raise
          .fontDone (.fontDone n false))) ∧
  ∀ (s : State) (n : SlotId) (b : Byte), s.link.canTake = true → (s.font n).state ≠ .loading →
    exec (.fontEnd (byteOf n.val) [b]) s = .next (s.answer 0x23 (byteOf n.val) .state [])

/-- R35: FONT QUERY returns a slot's contents in the 304 bytes of 9.7 and changes nothing. -/
def Obligations.FontQueryReturnsTheSlot : Prop :=
  ∀ (s : State) (n : SlotId) (b : Byte), s.link.canTake = true → (s.font n).rejected.length ≤ 16 →
    ∃ r : List Byte, exec (.fontQuery (byteOf n.val) [b]) s = .next (s.answer 0x25 (byteOf n.val) .done r) ∧
      r.length = 304 ∧
      r.take 9 = byteOf (s.font n).state.code ::
        (match (s.font n).header with | none => [0, 0, 0, 0, 0, 0, 0, 0] | some h => h.body) ∧
      (∀ i j : Fin 16, r[9 + 16 * i.val + j.val]? = some (signedByte ((s.font n).kern.at i j))) ∧
      (r.drop 265).take 4 = be16 (s.font n).records.length
        ++ [flagByte (s.font n).missingHeld, byteOf (s.font n).rejected.length] ∧
      (∀ (i : Nat) (c : CodeUnit), (s.font n).rejected[i]? = some c → (r.drop (269 + 2 * i)).take 2 = be16 c.toNat) ∧
      r.drop 301 = [flagByte (s.font n).overflow] ++ be16 (poolUse s.fonts)

/-- R33, R74: the silence timer's expiry makes the slot PROVISIONAL with what it holds and raises FONT_ABANDONED; the idle timer's expiry
releases its galley and raises RELEASED with its frontier and H. A timer that does not run does not expire (log entry 2). -/
def Obligations.TimersExpire : Prop :=
  (∀ (s : State) (n : SlotId), (s.font n).silence = true →
    exec (.silenceTimerExpiry n) s
      = .next ((s.setFont n { s.font n with state := .provisional, silence := false }).raise .fontAbandoned
          (.fontAbandoned n))) ∧
  (∀ (s : State) (n : SlotId), (s.font n).silence = false → exec (.silenceTimerExpiry n) s = .next s) ∧
  (∀ (s : State) (g : GalleyId), (s.galley g).idleTimer = true →
    exec (.idleTimerExpiry g) s
      = .next (s.noting ((s.setGalley g { s.galley g with idleTimer := false, released := true }).raise (.released g)
          (.released (s.galley g).frontier s.page.high)))) ∧
  ∀ (s : State) (g : GalleyId), (s.galley g).idleTimer = false → exec (.idleTimerExpiry g) s = .next s

/-! ### Consumption (R48 to R53, R84 to R94, R101) -/

/-- R49 to R51, R53: FONT, SIZE, TRACK, SHIFT and the direction items set their value, brought into its range, where an operand outside it
gives CLAMPED to the started line or to the galley; nothing else of the part changes but the queue, the item index and the stop mark
(R48). -/
def Obligations.ValueItemsSetTheCurrentValues : Prop :=
  (∀ (s : State) (g : GalleyId) (n : SlotId) (rest : List Item), (s.galley g).ReadyToConsume →
    (s.galley g).story = .font n :: rest →
    exec (.fontN g) s = .next (s.setGalley g ({ s.galley g with slot := n }.past rest))) ∧
  (∀ (s : State) (g : GalleyId) (q : CodeUnit) (rest : List Item), (s.galley g).ReadyToConsume →
    (s.galley g).story = .size q :: rest →
    exec (.size g) s
      = .next (s.setGalley g (({ s.galley g with size := min 576 (max 16 q.toNat) }.noteClamp
          (decide (q.toNat < 16 ∨ 576 < q.toNat))).past rest))) ∧
  (∀ (s : State) (g : GalleyId) (t : CodeUnit) (rest : List Item), (s.galley g).ReadyToConsume →
    (s.galley g).story = .track t :: rest →
    exec (.track g) s
      = .next (s.setGalley g (({ s.galley g with track := min 31 (max (-32) t.toInt) }.noteClamp
          (decide (t.toInt < -32 ∨ 31 < t.toInt))).past rest))) ∧
  (∀ (s : State) (g : GalleyId) (h : CodeUnit) (rest : List Item), (s.galley g).ReadyToConsume →
    (s.galley g).story = .shift h :: rest →
    exec (.shift g) s
      = .next (s.setGalley g (({ s.galley g with shift := min 1200 (max (-1200) h.toInt) }.noteClamp
          (decide (h.toInt < -1200 ∨ 1200 < h.toInt))).past rest))) ∧
  (∀ (s : State) (g : GalleyId) (rest : List Item), (s.galley g).ReadyToConsume → (s.galley g).story = .dirLtr :: rest →
    exec (.dirLtr g) s = .next (s.setGalley g (((s.galley g).steered .ltr).past rest))) ∧
  ∀ (s : State) (g : GalleyId) (rest : List Item), (s.galley g).ReadyToConsume → (s.galley g).story = .dirRtl :: rest →
    exec (.dirRtl g) s = .next (s.setGalley g (((s.galley g).steered .rtl).past rest))

/-- R84: a CHAR whose slot is VALID finds its record, or the missing-glyph record, starts a line where none is started, and enters the
builder, when the line then still fits; a slot that is not VALID halts the galley with NO_FONT, and a line start below the page with
OVERMATTER, the item staying at the front. -/
def Obligations.CharEntersTheLine : Prop :=
  (∀ (s : State) (g : GalleyId) (u : CodeUnit) (rest : List Item) (h : Header) (r : GlyphRecord) (sub : Bool) (y : Galley)
    (p : Prepared), (s.galley g).ReadyToConsume → (s.galley g).story = .char u :: rest →
    (s.font (s.galley g).slot).Finds u h r sub → (s.galley g).LineStands s.page.depth → y = (s.galley g).withLine →
    p = { code := u, slot := y.slot, matrix := h.matrix, record := r, substituted := sub, size := y.size, track := y.track,
          shift := y.shift, index := y.itemIndex, disc := none } →
    (y.builder.entries.length < 160 ∨ (y.builder.entries.length = 160 ∧ p.dropped y.builder.entries = true)) →
    y.FitsWith (y.builder.enter s.fonts p) →
    exec (.char g) s
      = .next (s.setGalley g ({ y with
          builder := y.builder.enter s.fonts p
          hasEntries := y.hasEntries || !p.dropped y.builder.entries }.past rest))) ∧
  (∀ (s : State) (g : GalleyId) (u : CodeUnit) (rest : List Item), (s.galley g).ReadyToConsume →
    (s.galley g).story = .char u :: rest → (s.font (s.galley g).slot).state ≠ .valid →
    exec (.char g) s
      = .next (s.noting ((s.setGalley g ((s.galley g).haltedWith .noFont)).raise (.halted g) (.halted .noFont)))) ∧
  ∀ (s : State) (g : GalleyId) (u : CodeUnit) (rest : List Item) (h : Header) (r : GlyphRecord) (sub : Bool),
    (s.galley g).ReadyToConsume → (s.galley g).story = .char u :: rest → (s.font (s.galley g).slot).Finds u h r sub →
    (s.galley g).started = false → s.page.depth < (s.galley g).nextDepth →
    exec (.char g) s
      = .next (s.noting ((s.setGalley g ((s.galley g).haltedWith .overmatter)).raise (.halted g) (.halted .overmatter)))

/-- R82, R84, R88 to R91: a record copy that is no mark, or a mark with no glyph to stand on, joins the entries as a GLYPH with the copy's
values, an orphan where it is a mark; a mark joins its base as a MARK entry, or is dropped from a base that carries 3, which takes the
marks-dropped flag (R83). No entry before it changes but in its form, its resolved field, its advance and its kern. -/
def Obligations.EnteringMakesTheEntry : Prop :=
  (∀ (fonts : Vector Slot 16) (b : Builder) (p : Prepared), p.attaches b.entries = false →
    ∃ (es : List Entry) (e : Entry) (q : GlyphPart), (b.enter fonts p).entries = es ++ [e] ∧ e.body = .glyph q ∧
      e.code = p.code ∧ e.slot = p.slot ∧ e.size = p.size ∧ e.track = p.track ∧ e.shift = p.shift ∧ e.index = p.index ∧
      e.disc = p.disc ∧ q.matrix = p.matrix ∧ q.record = p.record ∧ q.substituted = p.substituted ∧ q.kern = 0 ∧
      q.marksDropped = false ∧ (q.orphan = true ↔ p.record.direction = .m) ∧
      q.advance = glyphAdvance (q.record.image q.form).advance e.track 0 e.size ∧
      es.map Entry.bare = b.entries.map Entry.bare) ∧
  (∀ (fonts : Vector Slot 16) (b : Builder) (p : Prepared), p.attaches b.entries = true → trailingMarks b.entries < 3 →
    ∃ (es : List Entry) (e : Entry), (b.enter fonts p).entries = es ++ [e] ∧
      e.body = .mark { matrix := p.matrix, record := p.record, substituted := p.substituted } ∧
      e.code = p.code ∧ e.slot = p.slot ∧ e.size = p.size ∧ e.track = p.track ∧ e.shift = p.shift ∧ e.index = p.index ∧
      e.disc = p.disc ∧ es = shape true b.entries ∧ es.map Entry.bare = b.entries.map Entry.bare) ∧
  ∀ (fonts : Vector Slot 16) (b : Builder) (p : Prepared), p.attaches b.entries = true → 3 ≤ trailingMarks b.entries →
    ∃ (before marks : List Entry) (base : Entry) (q : GlyphPart), b.entries = before ++ base :: marks ∧
      (∀ e ∈ marks, e.isMark = true) ∧ base.body = .glyph q ∧
      (b.enter fonts p).entries.map Entry.bare
        = (before ++ { base with body := .glyph { q with marksDropped := true } } :: marks).map Entry.bare

/-- R85 to R87: in a list of entries every letter stands in the form its neighbours' joining classes and its own record give, with that
form's advance; only a DUAL letter that is an open list's last base is unresolved, and it is the pending letter; every other entry stands as
it was. R37, R91, R98: a new entry kerns the last base before it, by the table of the new entry's slot where both are GLYPHs of one slot and
size and neither class is 0, and by 0 otherwise; at a line's end the last base's kern is 0; at a join the last base before it is kerned with
the first entry behind it. -/
def Obligations.FormsAndKernsFollowTheNeighbours : Prop :=
  (∀ (isOpen : Bool) (es : List Entry), (shape isOpen es).length = es.length ∧
    ∀ (i : Nat) (e : Entry), es[i]? = some e →
      (e.isGlyph = false → (shape isOpen es)[i]? = some e) ∧
      ∀ p : GlyphPart, e.body = .glyph p →
        (shape isOpen es)[i]? = some { e with body := .glyph { p with
          form := formFor p.record e.joiningClass (prevClass es i) (nextClass isOpen es i)
          resolved := !decide (e.joiningClass = .dual ∧ nextClass isOpen es i = none)
          advance :=
            glyphAdvance
              (p.record.image (formFor p.record e.joiningClass (prevClass es i) (nextClass isOpen es i))).advance
              e.track p.kern e.size } }) ∧
  (∀ es : List Entry, pendingOf (shape false es) = none) ∧
  (∀ (es : List Entry) (i : Nat), pendingOf (shape true es) = some i ↔
    ∃ e, es[i]? = some e ∧ e.joiningClass = .dual ∧ ∀ m ∈ es.drop (i + 1), m.isMark = true) ∧
  (∀ (fonts : Vector Slot 16) (before marks : List Entry) (e f : Entry) (p : GlyphPart) (k : Int), e.body = .glyph p →
    (∀ m ∈ marks, m.isMark = true) →
    ((∃ q, f.body = .glyph q ∧ e.slot = f.slot ∧ e.size = f.size ∧ p.record.kernClass ≠ 0 ∧ q.record.kernClass ≠ 0 ∧
        k = (fonts[f.slot]).kern.at p.record.kernClass q.record.kernClass) ∨
      (k = 0 ∧ ∀ q, f.body = .glyph q →
        e.slot ≠ f.slot ∨ e.size ≠ f.size ∨ p.record.kernClass = 0 ∨ q.record.kernClass = 0)) →
    addBase fonts (before ++ e :: marks) f = before ++ { e with body := .glyph { p with kern := k } } :: marks ++ [f] ∧
    joinEntries fonts (before ++ e :: marks) [f] = before ++ { e with body := .glyph { p with kern := k } } :: marks ++ [f]) ∧
  (∀ (fonts : Vector Slot 16) (before marks : List Entry) (e : Entry) (p : GlyphPart), e.body = .glyph p →
    (∀ m ∈ marks, m.isMark = true) →
    sealLine fonts (before ++ e :: marks)
      = shape false (before ++ { e with body := .glyph { p with kern := 0 } } :: marks)) ∧
  ∀ (fonts : Vector Slot 16) (es : List Entry) (f : Entry), endsInGlyph es = false →
    addBase fonts es f = es ++ [f] ∧ sealLine fonts es = shape false es

/-- R8, R92: SPACE and FIXED make an entry with the widths of their slot's header at the current size, behind the entries that stood there;
a SPACE is a break opportunity too. The line must have room and still fit. A slot that is not VALID halts the galley with NO_FONT. -/
def Obligations.SpacesEnterTheLine : Prop :=
  (∀ (s : State) (g : GalleyId) (rest : List Item) (h : Header) (y : Galley) (e : Entry) (b : Builder),
    (s.galley g).ReadyToConsume →
    (s.galley g).story = .space :: rest → (s.font (s.galley g).slot).state = .valid →
    (s.font (s.galley g).slot).header = some h → (s.galley g).LineStands s.page.depth → y = (s.galley g).withLine →
    y.builder.entries.length < 160 →
    e = { body := .space (h.natural * y.size * 25) (h.minimum * y.size * 25) (h.maximum * y.size * 25), code := 0xF000,
          slot := y.slot, size := y.size, track := y.track, shift := y.shift, index := y.itemIndex, disc := none } →
    b = y.builder.addSpace s.fonts e → y.FitsWith b →
    exec (.space g) s = .next (s.setGalley g ({ y with builder := b, hasEntries := true }.past rest)) ∧
      (∃ es, b.entries = es ++ [e] ∧ es.map Entry.bare = y.builder.entries.map Entry.bare) ∧
      b.opps.getLast? = some { place := y.builder.entries.length, kind := .space }) ∧
  (∀ (s : State) (g : GalleyId) (rest : List Item) (h : Header) (y : Galley) (e : Entry) (b : Builder),
    (s.galley g).ReadyToConsume →
    (s.galley g).story = .fixed :: rest → (s.font (s.galley g).slot).state = .valid →
    (s.font (s.galley g).slot).header = some h → (s.galley g).LineStands s.page.depth → y = (s.galley g).withLine →
    y.builder.entries.length < 160 →
    e = { body := .fixed (h.natural * y.size * 25), code := 0xF001, slot := y.slot, size := y.size, track := y.track,
          shift := y.shift, index := y.itemIndex, disc := none } →
    b = y.builder.addFixed s.fonts e → y.FitsWith b →
    exec (.fixed g) s = .next (s.setGalley g ({ y with builder := b, hasEntries := true }.past rest)) ∧
      (∃ es, b.entries = es ++ [e] ∧ es.map Entry.bare = y.builder.entries.map Entry.bare) ∧ b.opps = y.builder.opps) ∧
  (∀ (s : State) (g : GalleyId) (rest : List Item), (s.galley g).ReadyToConsume →
    (s.galley g).story = .space :: rest → (s.font (s.galley g).slot).state ≠ .valid →
    exec (.space g) s
      = .next (s.noting ((s.setGalley g ((s.galley g).haltedWith .noFont)).raise (.halted g) (.halted .noFont)))) ∧
  ∀ (s : State) (g : GalleyId) (rest : List Item), (s.galley g).ReadyToConsume →
    (s.galley g).story = .fixed :: rest → (s.font (s.galley g).slot).state ≠ .valid →
    exec (.fixed g) s
      = .next (s.noting ((s.setGalley g ((s.galley g).haltedWith .noFont)).raise (.halted g) (.halted .noFont)))

/-- R94 of a DISC with a no-break text: a line is started where none is, the no-break codes are entered one after another with role
NO_BREAK, and where hyphenation is on and entries stood before them the opportunity's place is directly before the first of them; the line
must have room and, when an entry was made, still fit. R94 of a DISC with no no-break text: it starts no line and makes no entry, and where
hyphenation is on and the builder holds entries it adds a break opportunity, holding its pre-break and post-break copies, at the end of the
line. R52: with a slot that is not VALID it halts the galley with NO_FONT. -/
def Obligations.DiscAddsAnOpportunity : Prop :=
  (∀ (s : State) (g : GalleyId) (rest : List Item) (pre post : List CodeUnit) (h : Header) (cs ds : List Prepared),
    (s.galley g).ReadyToConsume → (s.galley g).story = .disc pre post [] :: rest →
    cs.map Prepared.code = pre → ds.map Prepared.code = post →
    (∀ p ∈ cs ++ ds, (s.font (s.galley g).slot).Finds p.code h p.record p.substituted ∧ p.matrix = h.matrix ∧
      p.slot = (s.galley g).slot ∧ p.size = (s.galley g).size ∧ p.track = (s.galley g).track ∧
      p.shift = (s.galley g).shift ∧ p.index = (s.galley g).itemIndex) →
    (∀ p ∈ cs, p.disc = some { number := (s.galley g).itemIndex, role := .pre }) →
    (∀ p ∈ ds, p.disc = some { number := (s.galley g).itemIndex, role := .post }) →
    (s.font (s.galley g).slot).state = .valid → (s.font (s.galley g).slot).header = some h →
    (s.galley g).builder.entries.length ≤ 160 →
    exec (.disc g) s
      = .next (s.setGalley g
          ((if (s.galley g).active.hyphenation = true ∧ (s.galley g).builder.entries ≠ [] then
              { s.galley g with
                builder := { (s.galley g).builder with
                  opps := pushOpp (s.galley g).builder.opps
                    { place := (s.galley g).builder.entries.length, kind := .disc (s.galley g).itemIndex cs ds 0 } } }
            else s.galley g).past rest))) ∧
  (∀ (s : State) (g : GalleyId) (rest : List Item) (pre post noBreak : List CodeUnit) (h : Header)
    (cs ds ns : List Prepared) (y : Galley) (b : Builder),
    (s.galley g).ReadyToConsume → (s.galley g).story = .disc pre post noBreak :: rest → noBreak ≠ [] →
    cs.map Prepared.code = pre → ds.map Prepared.code = post → ns.map Prepared.code = noBreak →
    (∀ p ∈ cs ++ ds ++ ns, (s.font (s.galley g).slot).Finds p.code h p.record p.substituted ∧ p.matrix = h.matrix ∧
      p.slot = (s.galley g).slot ∧ p.size = (s.galley g).size ∧ p.track = (s.galley g).track ∧
      p.shift = (s.galley g).shift ∧ p.index = (s.galley g).itemIndex) →
    (∀ p ∈ cs, p.disc = some { number := (s.galley g).itemIndex, role := .pre }) →
    (∀ p ∈ ds, p.disc = some { number := (s.galley g).itemIndex, role := .post }) →
    (∀ p ∈ ns, p.disc = some { number := (s.galley g).itemIndex, role := .noBreak }) →
    (s.galley g).LineStands s.page.depth → y = (s.galley g).withLine →
    y.builder.entries.length + noBreak.length ≤ 160 → b = ns.foldl (Builder.enter s.fonts) y.builder →
    (b.entries.length = y.builder.entries.length ∨ y.FitsWith b) →
    exec (.disc g) s
      = .next (s.setGalley g
          ({ y with
              hasEntries := y.hasEntries || decide (y.builder.entries.length < b.entries.length)
              builder :=
                if y.active.hyphenation = true ∧ y.builder.entries ≠ [] then
                  { b with
                    opps := pushOpp b.opps
                      { place := y.builder.entries.length
                        kind := .disc y.itemIndex cs ds (b.entries.length - y.builder.entries.length) } }
                else b }.past rest))) ∧
  (∀ (s : State) (g : GalleyId) (rest : List Item) (pre post noBreak : List CodeUnit), (s.galley g).ReadyToConsume →
    (s.galley g).story = .disc pre post noBreak :: rest → noBreak ≠ [] →
    (s.font (s.galley g).slot).state = .valid → (s.font (s.galley g).slot).header.isSome = true →
    (∀ u ∈ pre ++ post ++ noBreak, ∃ h r sub, (s.font (s.galley g).slot).Finds u h r sub) →
    (s.galley g).started = false → s.page.depth < (s.galley g).nextDepth →
    exec (.disc g) s
      = .next (s.noting ((s.setGalley g ((s.galley g).haltedWith .overmatter)).raise (.halted g) (.halted .overmatter)))) ∧
  ∀ (s : State) (g : GalleyId) (rest : List Item) (pre post noBreak : List CodeUnit), (s.galley g).ReadyToConsume →
    (s.galley g).story = .disc pre post noBreak :: rest → (s.font (s.galley g).slot).state ≠ .valid →
    exec (.disc g) s
      = .next (s.noting ((s.setGalley g ((s.galley g).haltedWith .noFont)).raise (.halted g) (.halted .noFont)))

/-- R96 to R99: the trial close takes the latest opportunity whose line holds a GLYPH or FIXED entry, whose line and carry hold at most 160
entries, and whose line fits the measure. A SPACE break drops the whole run of spaces; a DISC break drops the no-break text, with its marks,
ends the line with the pre-break text and heads the carry with the post-break text; the records behind the break move with the carry. Where
none fits, the line is split before its last GLYPH or FIXED entry, or closes whole. What becomes of a mark behind a DISC point that belongs
to the base before it, of a DISC directly behind a dropped run, and of a DISC at the place of the one taken, is the model's choice (log
entry 12). -/
def Obligations.BreaksAreTakenWhereTheRulesSay : Prop :=
  (∀ (b : Break) (p : Params) (incoming : Nat), b.fits p incoming = true ↔
    (∃ e ∈ b.line, e.isGlyph = true ∨ e.isFixed = true) ∧ b.line.length ≤ 160 ∧ b.carry.length + incoming ≤ 160 ∧
      fitWidth p.align (sumsOf b.line) ≤ p.measure * 384) ∧
  (∀ (fonts : Vector Slot 16) (es : List Entry) (p : Params) (incoming : Nat) (opps : List Opp) (k : Break),
    trialClose fonts es p incoming opps = some k ↔
      ∃ earlier o later, opps = earlier ++ o :: later ∧ k = breakAt fonts es o later ∧ k.fits p incoming = true ∧
        ∀ l1 o' l2, later = l1 ++ o' :: l2 → (breakAt fonts es o' l2).fits p incoming = false) ∧
  (∀ (fonts : Vector Slot 16) (a run c : List Entry) (place : Nat) (later : List Opp),
    (∀ e ∈ a.getLast?, e.isSpace = false) → (∀ e ∈ run, e.isSpace = true) → (∀ e ∈ c.head?, e.isSpace = false) →
    a.length ≤ place → place < a.length + run.length →
    breakAt fonts (a ++ run ++ c) { place := place, kind := .space } later
      = { line := sealLine fonts a
          carry := shape true c
          opps := (later.filter (fun o => decide (a.length + run.length ≤ o.place))).map
            (fun o => { o with place := o.place - (a.length + run.length) }) }) ∧
  (∀ (fonts : Vector Slot 16) (a nb ms c : List Entry) (number : StoryIndex) (pre post : List Prepared)
    (later : List Opp), (∀ e ∈ nb, e.disc = some { number := number, role := .noBreak }) →
    (∀ e ∈ ms, e.isMark = true) → (∀ e ∈ c.head?, e.isMark = false) →
    breakAt fonts (a ++ nb ++ ms ++ c) { place := a.length, kind := .disc number pre post nb.length } later
      = { line := sealLine fonts
            (enterAll fonts (kernWith fonts (if nb.any Entry.isGlyph then a else a ++ ms) none) pre)
          carry := shape true (joinEntries fonts (enterAll fonts [] post) c)
          opps :=
            (later.filter (fun o =>
                decide (a.length < o.place) || (decide (o.kind = .space) && decide (o.place = a.length)))).map
              (fun o => { o with
                place := o.place - (a.length + nb.length + ms.length) + (enterAll fonts [] post).length }) }) ∧
  (∀ (fonts : Vector Slot 16) (a c : List Entry) (e : Entry) (opps : List Opp), e.isCore = true →
    (∀ x ∈ c, x.isCore = false) →
    forcedClose fonts (a ++ e :: c) opps
      = if a.any Entry.isCore then
          .split
            { line := sealLine fonts a
              carry := shape true (e :: c)
              opps :=
                (opps.filter (fun o =>
                    decide (a.length < o.place) || (decide (o.kind = .space) && decide (o.place = a.length)))).map
                  (fun o => { o with place := o.place - a.length }) }
        else .whole) ∧
  ∀ (fonts : Vector Slot 16) (es : List Entry) (opps : List Opp), (∀ e ∈ es, e.isCore = false) →
    forcedClose fonts es opps = .empty

/-- R61, R95, R96, R99, R102, R103, R122 of a CHAR or a FIXED that the line has no room for (a SPACE adds no fit width, R95): the line
closes at the latest break that fits, or is split before its last base with FORCED; its record joins the output queue and is given to its
galley where it has an exception; and the carry at once starts the next line, into which a staged set transfers. With a full output queue
the galley is BLOCKED, holding the line and the carry; a next line below the page halts it with OVERMATTER, the carry held; a line that no
split leaves anything of closes whole with WIDE. A line of 160 entries closes before the CHAR's entry is made, which then joins the
carry. -/
def Obligations.OverflowingLinesBreak : Prop :=
  (∀ (s : State) (g : GalleyId) (u : CodeUnit) (rest : List Item) (h : Header) (r : GlyphRecord) (sub : Bool) (y z : Galley)
    (p : Prepared) (d : Nat) (k : Break) (forced : Bool) (l : LineRecord),
    (s.galley g).ReadyToConsume → (s.galley g).story = .char u :: rest →
    (s.font (s.galley g).slot).Finds u h r sub → (s.galley g).LineStands s.page.depth → (s.galley g).mark.state = .disarmed →
    p = (s.galley g).prepare u none (r, h.matrix, sub) → (s.galley g).withLine.builder.entries.length < 160 →
    y = ({ (s.galley g).withLine with
            builder := (s.galley g).withLine.builder.enter s.fonts p
            hasEntries := (s.galley g).hasEntries || !p.dropped (s.galley g).builder.entries }.past rest) →
    ¬y.FitsWith y.builder → y.builder.lineDepth = some d →
    ClosesAt s.fonts y.builder y.active 0 k forced → k.carry ≠ [] →
    dropTrailingSpaces (sealLine s.fonts k.line) ≠ [] →
    l = y.brokenLine s.fonts g s.page.width d k.line forced false → z = (y.brokenAt d k).given l →
    (y.output.length < 4 → z.nextDepth ≤ s.page.depth → z.withLine.FitsWith z.builder →
      exec (.char g) s
        = .next (s.noting ((s.setGalley g { z.withLine with output := y.output ++ [l] }).raiseGiven g y l))) ∧
    (y.output.length < 4 → s.page.depth < z.nextDepth →
      exec (.char g) s
        = .next (s.noting (((s.setGalley g ({ z with output := y.output ++ [l] }.haltedWith .overmatter)).raiseGiven g y l).raise
            (.halted g) (.halted .overmatter)))) ∧
    (y.output.length = 4 →
      exec (.char g) s
        = .next (s.noting ((s.setGalley g
            { z with
              state := .blocked, cause := none, deferred := none
              held := some { record := l, entries := (dropTrailingSpaces (sealLine s.fonts k.line)).length } }).raiseGiven
            g y l)))) ∧
  (∀ (s : State) (g : GalleyId) (u : CodeUnit) (rest : List Item) (h : Header) (r : GlyphRecord) (sub : Bool) (y z : Galley)
    (p : Prepared) (d : Nat) (l : LineRecord),
    (s.galley g).ReadyToConsume → (s.galley g).story = .char u :: rest →
    (s.font (s.galley g).slot).Finds u h r sub → (s.galley g).LineStands s.page.depth → (s.galley g).mark.state = .disarmed →
    p = (s.galley g).prepare u none (r, h.matrix, sub) → (s.galley g).withLine.builder.entries.length < 160 →
    y = ({ (s.galley g).withLine with
            builder := (s.galley g).withLine.builder.enter s.fonts p
            hasEntries := (s.galley g).hasEntries || !p.dropped (s.galley g).builder.entries }.past rest) →
    ¬y.FitsWith y.builder → y.builder.lineDepth = some d → y.output.length < 4 →
    trialClose s.fonts y.builder.entries y.active 0 y.builder.opps = none →
    forcedClose s.fonts y.builder.entries y.builder.opps = .whole →
    dropTrailingSpaces (sealLine s.fonts y.builder.entries) ≠ [] →
    l = y.brokenLine s.fonts g s.page.width d y.builder.entries false true → z = (y.lineDone d).given l →
    exec (.char g) s
      = .next (s.noting ((s.setGalley g { z with output := y.output ++ [l] }).raiseGiven g y l))) ∧
  (∀ (s : State) (g : GalleyId) (u : CodeUnit) (rest : List Item) (h : Header) (r : GlyphRecord) (sub : Bool) (y z : Galley)
    (p : Prepared) (d : Nat) (k : Break) (forced : Bool) (l : LineRecord),
    (s.galley g).ReadyToConsume → (s.galley g).story = .char u :: rest →
    (s.font (s.galley g).slot).Finds u h r sub → (s.galley g).mark.state = .disarmed →
    p = (s.galley g).prepare u none (r, h.matrix, sub) → y = s.galley g → y.builder.lineDepth = some d →
    y.builder.entries.length = 160 → p.dropped y.builder.entries = false → y.output.length < 4 →
    ClosesAt s.fonts y.builder y.active 1 k forced → dropTrailingSpaces (sealLine s.fonts k.line) ≠ [] →
    l = y.brokenLine s.fonts g s.page.width d k.line forced false →
    z = ({ (y.brokenAt d k).given l with
            builder := (y.brokenAt d k).builder.enter s.fonts p
            hasEntries := y.hasEntries || !p.dropped (y.brokenAt d k).builder.entries }.past rest) →
    z.builder.entries ≠ [] → z.nextDepth ≤ s.page.depth → z.withLine.FitsWith z.builder →
    exec (.char g) s
      = .next (s.noting ((s.setGalley g { z.withLine with output := y.output ++ [l] }).raiseGiven g y l))) ∧
  ∀ (s : State) (g : GalleyId) (rest : List Item) (h : Header) (e : Entry) (x y z : Galley) (d : Nat) (k : Break)
    (forced : Bool) (l : LineRecord),
    (s.galley g).ReadyToConsume → (s.galley g).story = .fixed :: rest → (s.font (s.galley g).slot).state = .valid →
    (s.font (s.galley g).slot).header = some h → (s.galley g).LineStands s.page.depth → (s.galley g).mark.state = .disarmed →
    x = (s.galley g).withLine → x.builder.entries.length < 160 →
    e = { body := .fixed (h.natural * x.size * 25), code := 0xF001, slot := x.slot, size := x.size, track := x.track,
          shift := x.shift, index := x.itemIndex, disc := none } →
    y = ({ x with builder := x.builder.addFixed s.fonts e, hasEntries := true }.past rest) → ¬y.FitsWith y.builder →
    y.builder.lineDepth = some d → ClosesAt s.fonts y.builder y.active 0 k forced → k.carry ≠ [] →
    dropTrailingSpaces (sealLine s.fonts k.line) ≠ [] → l = y.brokenLine s.fonts g s.page.width d k.line forced false →
    z = (y.brokenAt d k).given l → y.output.length < 4 → z.nextDepth ≤ s.page.depth → z.withLine.FitsWith z.builder →
    exec (.fixed g) s
      = .next (s.noting ((s.setGalley g { z.withLine with output := y.output ++ [l] }).raiseGiven g y l))

/-- R53, R61, R70, R79, R101, R122: PARA closes the started line as a paragraph last line, whose record joins the output queue, or is held
with the galley BLOCKED when the queue is full; its exceptions go to the galley. On an empty builder it passes one line of leading. A FORCE
mark that is due halts the galley there. The idle timer is retriggered and the paragraph direction is settled. -/
def Obligations.ParaClosesTheLine : Prop :=
  (∀ (s : State) (g : GalleyId) (rest : List Item), (s.galley g).ReadyToConsume → (s.galley g).story = .para :: rest →
    (s.galley g).started = false → (s.galley g).nextDepth ≤ s.page.depth → ¬(s.galley g).ForceDue →
    exec (.para g) s
      = .next (s.noting (s.setGalley g
          (({ s.galley g with active := (s.galley g).nextParams, pendingFlag := false }.lineDone
            (s.galley g).nextDepth).paragraph.past rest)))) ∧
  (∀ (s : State) (g : GalleyId) (rest : List Item) (d : Nat) (l : LineRecord), (s.galley g).ReadyToConsume →
    (s.galley g).story = .para :: rest → (s.galley g).builder.lineDepth = some d → ¬(s.galley g).ForceDue →
    dropTrailingSpaces (sealLine s.fonts (s.galley g).builder.entries) ≠ [] →
    l = (s.galley g).lastLine s.fonts g s.page.width d → l.exceptions = ExcSet.none → (s.galley g).output.length < 4 →
    exec (.para g) s
      = .next (s.noting (s.setGalley g
          ({ ((s.galley g).lineDone d).paragraph with output := (s.galley g).output ++ [l] }.past rest)))) ∧
  (∀ (s : State) (g : GalleyId) (rest : List Item) (d : Nat) (l : LineRecord), (s.galley g).ReadyToConsume →
    (s.galley g).story = .para :: rest → (s.galley g).builder.lineDepth = some d → ¬(s.galley g).ForceDue →
    dropTrailingSpaces (sealLine s.fonts (s.galley g).builder.entries) ≠ [] →
    l = (s.galley g).lastLine s.fonts g s.page.width d → l.exceptions ≠ ExcSet.none → (s.galley g).latch = none →
    (s.galley g).output.length < 4 →
    exec (.para g) s
      = .next (s.noting ((s.setGalley g
          ({ ((s.galley g).lineDone d).paragraph with
              output := (s.galley g).output ++ [l], latch := some l.exception }.past rest)).raise
          (.exception g) (.exception l.exception)))) ∧
  (∀ (s : State) (g : GalleyId) (rest : List Item) (d : Nat) (l : LineRecord), (s.galley g).ReadyToConsume →
    (s.galley g).story = .para :: rest → (s.galley g).builder.lineDepth = some d → ¬(s.galley g).ForceDue →
    dropTrailingSpaces (sealLine s.fonts (s.galley g).builder.entries) ≠ [] →
    l = (s.galley g).lastLine s.fonts g s.page.width d → l.exceptions = ExcSet.none → (s.galley g).output.length = 4 →
    exec (.para g) s
      = .next (s.noting (s.setGalley g
          ({ ((s.galley g).lineDone d).paragraph with
              state := .blocked, cause := none, deferred := none
              held := some { record := l,
                             entries := (dropTrailingSpaces (sealLine s.fonts (s.galley g).builder.entries)).length } }.past
            rest)))) ∧
  ∀ (s : State) (g : GalleyId) (rest : List Item) (d : Nat) (l : LineRecord), (s.galley g).ReadyToConsume →
    (s.galley g).story = .para :: rest → (s.galley g).builder.lineDepth = some d → (s.galley g).ForceDue →
    dropTrailingSpaces (sealLine s.fonts (s.galley g).builder.entries) ≠ [] →
    l = (s.galley g).lastLine s.fonts g s.page.width d → l.exceptions = ExcSet.none → (s.galley g).output.length < 4 →
    exec (.para g) s
      = .next (s.noting ((s.setGalley g
          ({ (((s.galley g).lineDone d).paragraph.past rest) with
              output := (s.galley g).output ++ [l]
              mark := { (s.galley g).mark with state := .disarmed } }.haltedWith .mark)).raise (.halted g) (.halted .mark)))

/-- R63, R69, R76: an armed TAG mark halts the galley before the item it names and disarms; a SETTING galley without story goes STARVED with
a started line and READY without one; a DRAINING galley without story closes its started line as a paragraph last line and goes CLOSING, or
OFF with CLOSED raised when nothing is queued; its pending flag then stays by the model's choice (log entry 23). -/
def Obligations.GalleysStopAtMarksAndEnds : Prop :=
  (∀ (s : State) (g : GalleyId), (s.galley g).state ∈ [.setting, .draining] → (s.galley g).held = none →
    (s.galley g).hasCarry = false → (s.galley g).story ≠ [] → (s.galley g).mark.kind = .tag →
    (s.galley g).mark.state = .armed → (s.galley g).mark.index = (s.galley g).itemIndex →
    exec (.tagMarkHalt g) s
      = .next (s.noting ((s.setGalley g
          ({ s.galley g with mark := { (s.galley g).mark with state := .disarmed } }.haltedWith .mark)).raise
          (.halted g) (.halted .mark)))) ∧
  (∀ (s : State) (g : GalleyId), (s.galley g).state = .setting → (s.galley g).held = none →
    (s.galley g).hasCarry = false → (s.galley g).story = [] →
    exec (.queueEmpties g) s
      = .next (s.noting (s.setGalley g { s.galley g with state := if (s.galley g).started then .starved else .ready }))) ∧
  (∀ (s : State) (g : GalleyId), (s.galley g).state = .draining → (s.galley g).held = none →
    (s.galley g).started = false → (s.galley g).builder.entries = [] → (s.galley g).story = [] →
    (s.galley g).output ≠ [] → exec (.drainEnd g) s = .next (s.noting (s.setGalley g (s.galley g).atClosing))) ∧
  (∀ (s : State) (g : GalleyId), (s.galley g).state = .draining → (s.galley g).held = none →
    (s.galley g).started = false → (s.galley g).builder.entries = [] → (s.galley g).story = [] →
    (s.galley g).output = [] →
    exec (.drainEnd g) s
      = .next (s.noting ((s.setGalley g (s.galley g).atClosing.atOff).raise (.closed g)
          (.closed (s.galley g).lineNumber (s.galley g).itemIndex)))) ∧
  ∀ (s : State) (g : GalleyId) (d : Nat) (l : LineRecord), (s.galley g).state = .draining → (s.galley g).held = none →
    (s.galley g).builder.lineDepth = some d → (s.galley g).story = [] → (s.galley g).mark.state = .disarmed →
    dropTrailingSpaces (sealLine s.fonts (s.galley g).builder.entries) ≠ [] →
    l = (s.galley g).lastLine s.fonts g s.page.width d → l.exceptions = ExcSet.none → (s.galley g).output.length < 4 →
    exec (.drainEnd g) s
      = .next (s.noting (s.setGalley g { ((s.galley g).lineDone d).atClosing with output := (s.galley g).output ++ [l] }))

/-! ### The page and the arbiter (R123 to R139) -/

/-- R124, R125: PAGE OPEN opens a page of the given width and depth under the next page number, H at 0; PAGE CLOSE closes the OPEN page once
all four galleys are OFF. Either makes a selection due (R134), which issues the cut of the page just closed when the gate is open (R137).
Another target or a size out of range is refused with RANGE, and a request in another state with STATE. -/
def Obligations.PageOpensAndCloses : Prop :=
  (∀ (s : State) (width depth : Nat), s.link.canTake = true → s.page.state = .noPage → 1200 ≤ width → width ≤ 14400 →
    600 ≤ depth → depth ≤ 30000 →
    exec (.pageOpen 0xFF (be16 width ++ be16 depth)) s
      = .next ({ s with
            page := { state := .open, number := s.page.number + 1, width := width, depth := depth, high := 0,
                      lastIssued := 0, nextOrder := s.page.nextOrder }
            selectionDue := true }.answer 0x30 0xFF .done
          (be16 (s.page.number + 1).toNat))) ∧
  (∀ (s : State) (width depth : Nat), s.link.canTake = true → s.page.state = .noPage → width < 65536 → depth < 65536 →
    (width < 1200 ∨ 14400 < width ∨ depth < 600 ∨ 30000 < depth) →
    exec (.pageOpen 0xFF (be16 width ++ be16 depth)) s = .next (s.answer 0x30 0xFF .range [])) ∧
  (∀ (s : State) (width depth : Nat), s.link.canTake = true → s.page.state ≠ .noPage →
    exec (.pageOpen 0xFF (be16 width ++ be16 depth)) s = .next (s.answer 0x30 0xFF .state [])) ∧
  (∀ (s : State) (b : Byte), s.link.canTake = true → s.page.state = .open → (∀ g, (s.galley g).state = .off) →
    exec (.pageClose 0xFF [b]) s
      = .next ({ s with page := { s.page with state := .closing }, selectionDue := true }.answer 0x31 0xFF .done
          (be16 s.page.number.toNat))) ∧
  (∀ (s : State) (b : Byte), s.link.canTake = true → (s.page.state ≠ .open ∨ ∃ g, (s.galley g).state ≠ .off) →
    exec (.pageClose 0xFF [b]) s = .next (s.answer 0x31 0xFF .state [])) ∧
  ∀ (s : State) (target : Byte) (body : List Byte), s.link.canTake = true → target ≠ 0xFF →
    exec (.pageOpen target body) s = .next (s.answer 0x30 target .range []) ∧
    exec (.pageClose target body) s = .next (s.answer 0x31 target .range [])

/-- R130 to R133, R137, R142: through an open gate a selection issues the head line of least depth, the lowest galley on a tie, unless a
restraining galley with an empty queue would be passed by more than 1,200 steps; it goes out at its own depth, or at the top of the band
when it is late, and H follows. On a CLOSING page it issues the cut. Otherwise nothing is issued. Either way none is due any more (R134).
That the order timer stands still from the issue to the last byte of the frame, and that the frame waits with the transmitter meanwhile, is
read by inference (log entry 8). -/
def Obligations.SelectionIssuesTheLeastLine : Prop :=
  (∀ (s : State) (g : GalleyId) (l : LineRecord) (rest : List LineRecord) (e : Nat), s.unit.view.gateOpen = true →
    s.page.state = .open → (s.galley g).output = l :: rest →
    (∀ g' l' rest', (s.galley g').output = l' :: rest' →
      l.depth ≤ l'.depth ∧ (l'.depth = l.depth → g.val ≤ g'.val)) →
    (∀ g', (s.galley g').restraining = true → (s.galley g').output = [] → l.depth ≤ (s.galley g').frontier + 1200) →
    e = max l.depth (s.page.high - 1200) →
    exec .selection s
      = .next { s with
          selectionDue := false
          page := { s.page with high := max s.page.high e, lastIssued := e, nextOrder := s.page.nextOrder + 1 }
          unit := { s.unit with
            view := { s.unit.view with outstanding := some { number := s.page.nextOrder, kind := .line g } }
            orderTimer := false
            transmit := s.unit.transmit ++ [.line s.page.nextOrder e l.placements] } }) ∧
  (∀ (s : State) (g g' : GalleyId) (l : LineRecord) (rest : List LineRecord), s.page.state = .open →
    (s.galley g).output = l :: rest →
    (∀ g'' l' rest', (s.galley g'').output = l' :: rest' → l.depth ≤ l'.depth) →
    (s.galley g').restraining = true → (s.galley g').output = [] → (s.galley g').frontier + 1200 < l.depth →
    exec .selection s = .next { s with selectionDue := false }) ∧
  (∀ s : State, s.unit.view.gateOpen = true → s.page.state = .closing →
    exec .selection s
      = .next { s with
          selectionDue := false
          page := { s.page with high := s.page.depth, lastIssued := s.page.depth, nextOrder := s.page.nextOrder + 1 }
          unit := { s.unit with
            view := { s.unit.view with outstanding := some { number := s.page.nextOrder, kind := .cut } }
            orderTimer := false
            transmit := s.unit.transmit ++ [.cut s.page.nextOrder s.page.depth] } }) ∧
  (∀ s : State, (s.unit.view.known = false ∨ s.unit.view.held = true ∨ s.unit.view.faulted = true ∨
      s.unit.view.silent = true ∨ s.unit.view.outstanding.isSome = true ∨ s.page.state = .noPage) →
    exec .selection s = .next { s with selectionDue := false }) ∧
  ∀ s : State, s.page.state = .open → (∀ g, (s.galley g).output = []) → exec .selection s = .next { s with selectionDue := false }

/-! ### The photo unit link (R140 to R152) -/

/-- R61, R63, R135, R138, R146, R148: the order timer starts at the last byte of the order's frame; a DONE of the outstanding order's number
retires the line, a held closed line takes its place, a BLOCKED galley halts with its deferred cause or goes on, here past a FONT item or to
READY or STARVED, a CLOSING galley with nothing left goes OFF, and a cut ends the page with PAGE_DONE; a selection is then due (R134). A
DONE of another number changes nothing. That the outstanding order's frame is the last LINE or CUT with the transmitter is read by inference
(log entry 8); that a galley's pending flag stays at OFF is the model's choice (log entry 23). -/
def Obligations.DoneRetiresTheLine : Prop :=
  (∀ (s : State) (qs rest : List ExposureFrame) (f : ExposureFrame), s.unit.transmit = qs ++ f :: rest →
    (∀ x ∈ qs, x = ExposureFrame.query) → f ≠ ExposureFrame.query →
    exec .orderFrameSent s
      = .next { s with unit := { s.unit with
          transmit := rest
          orderTimer :=
            if s.unit.view.outstanding.isSome = true ∧ (∀ x ∈ rest, x = ExposureFrame.query) then true
            else s.unit.orderTimer } }) ∧
  (∀ s : State, (∀ x ∈ s.unit.transmit, x = ExposureFrame.query) → exec .orderFrameSent s = .next s) ∧
  (∀ (s : State) (n : Byte) (g : GalleyId), s.unit.view.outstanding = some { number := n, kind := .line g } →
    (s.galley g).held = none → ((s.galley g).state ≠ .closing ∨ 2 ≤ (s.galley g).output.length) →
    exec (.doneReport n) s
      = .next ({ s with selectionDue := true, unit := s.unit.without.hunting }.setGalley g
          { s.galley g with output := (s.galley g).output.tail })) ∧
  (∀ (s : State) (n : Byte) (g : GalleyId) (h : HeldLine),
    s.unit.view.outstanding = some { number := n, kind := .line g } → (s.galley g).held = some h →
    (s.galley g).state ≠ .blocked →
    exec (.doneReport n) s
      = .next ({ s with selectionDue := true, unit := s.unit.without.hunting }.setGalley g
          { s.galley g with output := (s.galley g).output.tail ++ [h.record], held := none })) ∧
  (∀ (s : State) (n : Byte) (g : GalleyId) (h : HeldLine),
    s.unit.view.outstanding = some { number := n, kind := .line g } → (s.galley g).held = some h →
    (s.galley g).state = .blocked → (s.galley g).deferred = some .step →
    exec (.doneReport n) s
      = .next (({ s with selectionDue := true, unit := s.unit.without.hunting }.setGalley g
          ({ s.galley g with output := (s.galley g).output.tail ++ [h.record], held := none }.haltedWith .step)).raise
          (.halted g) (.halted .step))) ∧
  (∀ (s : State) (n : Byte) (g : GalleyId) (h : HeldLine),
    s.unit.view.outstanding = some { number := n, kind := .line g } → (s.galley g).held = some h →
    (s.galley g).state = .blocked → (s.galley g).deferred = some .mark →
    exec (.doneReport n) s
      = .next (({ s with selectionDue := true, unit := s.unit.without.hunting }.setGalley g
          ({ s.galley g with output := (s.galley g).output.tail ++ [h.record], held := none }.haltedWith .mark)).raise
          (.halted g) (.halted .mark))) ∧
  (∀ (s : State) (n : Byte) (g : GalleyId) (h : HeldLine) (m : SlotId) (rest : List Item),
    s.unit.view.outstanding = some { number := n, kind := .line g } → (s.galley g).held = some h →
    (s.galley g).state = .blocked → (s.galley g).deferred = none → (s.galley g).hasCarry = false →
    (s.galley g).story = .font m :: rest →
    ¬((s.galley g).mark.kind = .tag ∧ (s.galley g).mark.state = .armed ∧ (s.galley g).mark.index = (s.galley g).itemIndex) →
    exec (.doneReport n) s
      = .next ({ s with selectionDue := true, unit := s.unit.without.hunting }.setGalley g
          ({ s.galley g with
              output := (s.galley g).output.tail ++ [h.record], held := none
              state := if (s.galley g).drain then .draining else .setting, cause := none, slot := m }.past rest))) ∧
  (∀ (s : State) (n : Byte) (g : GalleyId) (h : HeldLine),
    s.unit.view.outstanding = some { number := n, kind := .line g } → (s.galley g).held = some h →
    (s.galley g).state = .blocked → (s.galley g).deferred = none → (s.galley g).hasCarry = false →
    (s.galley g).story = [] → (s.galley g).drain = false →
    exec (.doneReport n) s
      = .next ({ s with selectionDue := true, unit := s.unit.without.hunting }.setGalley g
          { s.galley g with
            output := (s.galley g).output.tail ++ [h.record], held := none
            state := if (s.galley g).started then .starved else .ready, cause := none })) ∧
  (∀ (s : State) (n : Byte) (g : GalleyId), s.unit.view.outstanding = some { number := n, kind := .line g } →
    (s.galley g).held = none → (s.galley g).state = .closing → (s.galley g).output.length ≤ 1 →
    exec (.doneReport n) s
      = .next (({ s with selectionDue := true, unit := s.unit.without.hunting }.setGalley g
          { (s.galley g).atOff with output := [] }).raise (.closed g)
          (.closed (s.galley g).lineNumber (s.galley g).itemIndex))) ∧
  (∀ (s : State) (n : Byte), s.unit.view.outstanding = some { number := n, kind := .cut } →
    exec (.doneReport n) s
      = .next ({ s with
            selectionDue := true
            unit := s.unit.without.hunting
            page := { s.page with state := .noPage } }.raise .pageDone (.pageDone s.page.number))) ∧
  ∀ (s : State) (n : Byte), (∀ o, s.unit.view.outstanding = some o → o.number ≠ n) →
    exec (.doneReport n) s = .next { s with unit := s.unit.hunting }

/-- R136, R138, R147, R148, R151: a FAULT report of the outstanding order's number, and the order timer's expiry, end the order in failure:
the unit is faulted or silent with the last fault, the line is taken off the queue and given to its galley as SPOILED, and UNIT_FAULT is
raised. The two notices come in an order the manual leaves open; this holds for both (log entry 3). A failed cut leaves the page CLOSING. A
selection is then due (R134). The timer that expires is the one log entry 8 starts at the last byte of the order's frame. -/
def Obligations.FailureSpoilsTheLine : Prop :=
  (∀ (s : State) (n code : Byte) (g : GalleyId) (l : LineRecord) (rest : List LineRecord) (lf : LastFault)
    (e : ExceptionRecord), s.unit.view.outstanding = some { number := n, kind := .line g } →
    (s.galley g).output = l :: rest → (s.galley g).held = none → (s.galley g).state ≠ .closing →
    (s.galley g).latch = none → lf = { number := n, cut := false, fault := .code code } →
    e = { number := l.number, exceptions := { l.exceptions with spoiled := true }, first := l.first, amount := l.amount } →
    ∃ t : State, exec (.faultReport n code) s = .next t ∧
      t.unit = { s.unit.without.hunting with
        view := { s.unit.view with outstanding := none, faulted := true, lastFault := some lf } } ∧
      t.galleys = (s.setGalley g { s.galley g with output := rest, latch := some e }).galleys ∧
      (∃ u ∈ [(s.raise .unitFault (.unitFault lf)).raise (.exception g) (.exception e),
          (s.raise (.exception g) (.exception e)).raise .unitFault (.unitFault lf)],
        t.events = u.events ∧ t.link = u.link) ∧
      t.fonts = s.fonts ∧ t.page = s.page ∧ t.selectionDue = true ∧ t.free = s.free + 1 ∧ t.pending = s.pending) ∧
  (∀ (s : State) (n : Byte) (g : GalleyId) (l : LineRecord) (rest : List LineRecord) (lf : LastFault) (x : ExceptionRecord),
    s.unit.view.outstanding = some { number := n, kind := .line g } → s.unit.orderTimer = true →
    (s.galley g).output = l :: rest → (s.galley g).held = none → (s.galley g).state ≠ .closing →
    (s.galley g).latch = some x → lf = { number := n, cut := false, fault := .timeout } →
    ∃ t : State, exec .orderTimeout s = .next t ∧
      t.unit = { s.unit.without with
        view := { s.unit.view with outstanding := none, silent := true, lastFault := some lf } } ∧
      t.galleys = (s.setGalley g
        { s.galley g with output := rest, excCount := min ((s.galley g).excCount + 1) 255 }).galleys ∧
      t.events = (s.raise .unitFault (.unitFault lf)).events ∧ t.link = (s.raise .unitFault (.unitFault lf)).link ∧
      t.fonts = s.fonts ∧ t.page = s.page ∧ t.selectionDue = true ∧ t.free = s.free + 1 ∧ t.pending = s.pending) ∧
  (∀ (s : State) (n code : Byte) (lf : LastFault), s.unit.view.outstanding = some { number := n, kind := .cut } →
    lf = { number := n, cut := true, fault := .code code } →
    exec (.faultReport n code) s
      = .next ({ s with
            unit := { s.unit.without.hunting with
              view := { s.unit.view with outstanding := none, faulted := true, lastFault := some lf } }
            selectionDue := true
            free := s.free + 1 }.raise .unitFault (.unitFault lf))) ∧
  (∀ (s : State) (n code : Byte), (∀ o, s.unit.view.outstanding = some o → o.number ≠ n) →
    exec (.faultReport n code) s = .next { s with unit := s.unit.hunting }) ∧
  ∀ s : State, (s.unit.orderTimer = false ∨ s.unit.view.outstanding = none) → exec .orderTimeout s = .next s

/-- R145, R149, R150, R152, R177: a STATE report makes the unit known, held or not, and stops the query timer, HELD raising UNIT_HELD; UNIT
RESUME clears a fault or a silence, makes the unit unknown and asks it again, within the pause after a reset without a QUERY of its own; the
query timer's expiry asks again while the unit is unknown, and the pause ends in the first QUERY. That the query timer starts when QUERY is
handed to the transmitter is read by inference (log entry 8), and so is that the QUERY of the pause's end serves for UNIT RESUME's (log entry
21). The pause's end with a known unit or an outstanding order, and the expiry with a known unit, are the model's choice (log entry 21). -/
def Obligations.UnitStateIsAskedAndTaken : Prop :=
  (∀ s : State,
    exec .stateReady s
      = .next (s.noting { s with unit := { s.unit.hunting with
          view := { s.unit.view with known := true, held := false }, queryTimer := false } })) ∧
  (∀ s : State,
    exec .stateHeld s
      = .next (s.noting ({ s with unit := { s.unit.hunting with
          view := { s.unit.view with known := true, held := true }, queryTimer := false } }.raise .unitHeld .unitHeld))) ∧
  (∀ (s : State) (b : Byte), s.link.canTake = true → (s.unit.view.faulted = true ∨ s.unit.view.silent = true) →
    s.unit.resetPause = true →
    exec (.unitResume 0xFF [b]) s
      = .next ({ s with selectionDue := true, unit := { s.unit with
            view := { s.unit.view with faulted := false, silent := false, lastFault := none, known := false } } }.answer 0x32 0xFF .done [])) ∧
  (∀ (s : State) (b : Byte), s.link.canTake = true → (s.unit.view.faulted = true ∨ s.unit.view.silent = true) →
    s.unit.resetPause = false →
    exec (.unitResume 0xFF [b]) s
      = .next ({ s with selectionDue := true, unit := { s.unit with
            view := { s.unit.view with faulted := false, silent := false, lastFault := none, known := false }
            transmit := s.unit.transmit ++ [ExposureFrame.query]
            queryTimer := true } }.answer 0x32 0xFF .done [])) ∧
  (∀ (s : State) (b : Byte), s.link.canTake = true → s.unit.view.faulted = false → s.unit.view.silent = false →
    exec (.unitResume 0xFF [b]) s = .next (s.answer 0x32 0xFF .state [])) ∧
  (∀ s : State, s.unit.queryTimer = true → s.unit.view.known = false →
    exec .queryTimerExpiry s
      = .next { s with unit := { s.unit with transmit := s.unit.transmit ++ [ExposureFrame.query], queryTimer := true } }) ∧
  (∀ s : State, s.unit.queryTimer = true → s.unit.view.known = true →
    exec .queryTimerExpiry s = .next { s with unit := { s.unit with queryTimer := false } }) ∧
  (∀ s : State, s.unit.queryTimer = false → exec .queryTimerExpiry s = .next s) ∧
  (∀ s : State, s.unit.resetPause = false → exec .queryAfterReset s = .next s) ∧
  ∀ s : State, s.unit.resetPause = true →
    exec .queryAfterReset s
      = .next { s with unit := { s.unit with
          resetPause := false, transmit := s.unit.transmit ++ [ExposureFrame.query], queryTimer := true } }

/-! ### Measures and the closed line (R12, R105 to R115) -/

/-- R12 and R112: a conversion to steps is to the nearest, a half rounding up; a justified line that its minimum widths let in is set to
exactly the measure from its edge, each space getting its minimum and a share, the shares being equal to within one fine unit. -/
def Obligations.JustifiedLinesFillTheMeasure : Prop :=
  (∀ f : Int, 384 * toSteps f - 192 ≤ f ∧ f < 384 * toSteps f + 192) ∧
  ∀ (d : Dir) (m g : Nat) (ws : List (Nat × Nat × Nat)), ws ≠ [] → g + (ws.map (fun w => w.2.1)).sum ≤ m →
    let st := settle .justify d false m g ws
    st.width = m ∧ st.offset = 0 ∧ st.spaces.length = ws.length ∧ g + st.spaces.sum = m ∧
      ∀ i (hi : i < ws.length) j (hj : j < ws.length), i ≤ j →
        ∃ a b, st.spaces[i]? = some (ws[i].2.1 + a) ∧ st.spaces[j]? = some (ws[j].2.1 + b) ∧ b ≤ a ∧ a ≤ b + 1

/-- R113 to R116: how a line is set that is no justified line with room: a JUSTIFY last line at its natural widths from its START edge where
they fit, a JUSTIFY line without spaces from its START edge and LOOSE where it leaves room, a line of another alignment at its natural
widths by its alignment, and a line wider than its measure from the column's left edge; a last line is never LOOSE (R113), and a justified
one is where a space passes its maximum (R112). R110: a base resolved R is set with its mirror where its record holds one. R117, R118: each
GLYPH stands at the offset plus the widths of what precedes it in visual order, its marks directly behind it by R15 and R16. R119 to R121:
placements off the page are left out and make the line WIDE, and the record holds the values, the exceptions and the amount those rules
give. -/
def Obligations.LineRecordsHoldWhatTheRulesGive : Prop :=
  (∀ (a : Align) (d : Dir) (last : Bool) (m g n mn : Nat) (ws : List (Nat × Nat × Nat)),
    n = (ws.map (fun w => w.1)).sum → mn = (ws.map (fun w => w.2.1)).sum →
    (a = .justify → last = true → g + n ≤ m →
      settle a d last m g ws
        = { spaces := ws.map (fun w => w.1), width := g + n, offset := if d = .ltr then 0 else m - (g + n),
            loose := false }) ∧
    (a = .justify → last = false → ws = [] → g ≤ m →
      settle a d last m g ws
        = { spaces := [], width := g, offset := if d = .ltr then 0 else m - g, loose := decide (g < m) }) ∧
    (a = .justify → ws ≠ [] → g + mn ≤ m → (last = false ∨ m < g + n) →
      (settle a d last m g ws).width = m ∧ (settle a d last m g ws).offset = 0 ∧
      g + (settle a d last m g ws).spaces.sum = m ∧
      ((settle a d last m g ws).loose = true ↔
        last = false ∧ ∃ (i x : Nat) (w : Nat × Nat × Nat), ws[i]? = some w ∧
          (settle a d last m g ws).spaces[i]? = some x ∧ w.2.2 < x)) ∧
    (a = .justify → m < g + mn → (last = false ∨ m < g + n) →
      settle a d last m g ws
        = { spaces := ws.map (fun w => w.2.1), width := g + mn, offset := 0, loose := false }) ∧
    (a ≠ .justify → g + n ≤ m →
      settle a d last m g ws
        = { spaces := ws.map (fun w => w.1), width := g + n,
            offset :=
              if a = .center then (m - (g + n)) / 2
              else if (a = .start ∧ d = .ltr) ∨ (a = .atEnd ∧ d = .rtl) then 0 else m - (g + n)
            loose := false }) ∧
    (a ≠ .justify → m < g + n →
      settle a d last m g ws = { spaces := ws.map (fun w => w.1), width := g + n, offset := 0, loose := false })) ∧
  (∀ p : GlyphPart, closeImage .ltr p = p.record.image p.form ∧
    closeImage .rtl p = p.record.mirror.getD (p.record.image p.form)) ∧
  (∀ (xOffset x : Nat) (set : List Nat) (before rest : List (Dir × Cluster)),
    walk xOffset x set (before ++ rest)
      = walk xOffset x set before
        ++ walk xOffset (x + walkSum set before) (set.drop (before.filter (fun c => c.2.base.isSpace)).length) rest) ∧
  (∀ (xOffset x : Nat) (set : List Nat) (d : Dir) (c : Cluster) (p : GlyphPart), c.base.body = .glyph p →
    ∃ ms : List RawPlacement,
      walk xOffset x set [(d, c)]
        = { matrix := p.matrix, glyph := (closeImage d p).glyph, size := c.base.size, x := xOffset + toSteps x,
            y := c.base.shift } :: ms ∧
      ((∀ e ∈ c.marks, e.isMark = true) → ms.length = c.marks.length ∧
        ∀ (i : Nat) (e : Entry) (q : MarkPart) (a : Anchor) (o : MarkOffset), c.marks[i]? = some e → e.body = .mark q →
          a = p.record.anchor.getD { dx := ((closeImage d p).advance / 2 : Nat), dy := 0 } →
          o = q.record.markOffset.getD { dx := 0, dy := 0, stack := 0 } →
          ms[i]? = some
            { matrix := q.matrix, glyph := q.record.base.glyph, size := e.size
              x := xOffset + toSteps (x + a.dx * c.base.size * 25 + o.dx * e.size * 25)
              y := c.base.shift
                + toSteps (a.dy * c.base.size * 25 + (o.dy + i * o.stack) * e.size * 25) })) ∧
  (∀ (xOffset x : Nat) (set : List Nat) (d : Dir) (c : Cluster), c.base.isGlyph = false → walk xOffset x set [(d, c)] = []) ∧
  ∀ (g : GalleyId) (number : Count16) (l : ClosedLine) (visual : List (Dir × Cluster)) (st : Setting)
    (raw : List RawPlacement) (r : LineRecord),
    visual = visualOrder l.direction (resolve l.direction (clusters l.entries)) →
    st = settle l.params.align l.direction l.last (l.params.measure * 384) (visual.map closeCore).sum (spaceList visual) →
    raw = walk l.params.xOffset st.offset st.spaces visual → r = closeRecord g number l →
    r.galley = g ∧ r.number = number ∧ r.depth = l.depth ∧ (∀ e ∈ l.entries.head?, r.first = e.index) ∧
    r.placements = (raw.filter (fun (p : RawPlacement) => decide (0 ≤ p.x ∧ p.x ≤ l.pageWidth))).map
      (fun (p : RawPlacement) =>
        ({ matrix := p.matrix, glyph := p.glyph, size := p.size, x := p.x.toNat, y := p.y } : Placement)) ∧
    r.exceptions = { l.exceptions with loose := st.loose, wide := r.exceptions.wide } ∧
    (r.exceptions.wide = true ↔
      l.exceptions.wide = true ∨ (l.params.measure * 384 < st.width ∧ l.exceptions.forced = false) ∨
        ∃ p ∈ raw, p.x < 0 ∨ l.pageWidth < p.x) ∧
    (r.exceptions.forced = true ∨ r.exceptions.wide = true →
      r.amount = if st.width ≤ l.params.measure * 384 then 0
        else min (toSteps ((st.width : Int) - l.params.measure * 384)).toNat 65535) ∧
    (r.exceptions.forced = false → r.exceptions.wide = false → r.exceptions.loose = false → r.amount = 0) ∧
    (r.exceptions.forced = false → r.exceptions.wide = false → r.exceptions.loose = true →
      (spaceList visual = [] ∧ r.amount = 0) ∨
      ∃ x : Nat, r.amount = min (toSteps x).toNat 65535 ∧
        (∀ (i y : Nat) (w : Nat × Nat × Nat), (spaceList visual)[i]? = some w → st.spaces[i]? = some y → y ≤ w.2.2 + x) ∧
        ∃ (i y : Nat) (w : Nat × Nat × Nat), (spaceList visual)[i]? = some w ∧ st.spaces[i]? = some y ∧ y = w.2.2 + x)

/-- R105 to R109: a base of a strong direction resolves to it, and a neutral to its neighbours' where they agree, else to the paragraph's;
the visual order is a reordering of the line, the same as the logical order for a line all of the paragraph's direction, reversed for an RTL
paragraph, with an opposite run inside set in its own direction. -/
def Obligations.VisualOrderFollowsTheRuns : Prop :=
  (∀ (para : Dir) (cs : List Cluster), (resolve para cs).map (fun x => x.2) = cs ∧
    (∀ x ∈ resolve para cs, ∀ d, x.2.base.direction.strong = some d → x.1 = d) ∧
    ((∀ c ∈ cs, c.base.direction.strong = none) → ∀ x ∈ resolve para cs, x.1 = para)) ∧
  (∀ (para d : Dir) (c1 c2 : Cluster) (ns : List Cluster), c1.base.direction.strong = some d →
    c2.base.direction.strong = some d → (∀ c ∈ ns, c.base.direction.strong = none) →
    resolve para (c1 :: ns ++ [c2]) = (d, c1) :: ns.map (fun c => (d, c)) ++ [(d, c2)]) ∧
  (∀ (para d e : Dir) (c1 c2 : Cluster) (ns : List Cluster), c1.base.direction.strong = some d →
    c2.base.direction.strong = some e → d ≠ e → (∀ c ∈ ns, c.base.direction.strong = none) →
    resolve para (c1 :: ns ++ [c2]) = (d, c1) :: ns.map (fun c => (para, c)) ++ [(e, c2)]) ∧
  (∀ (para : Dir) (xs : List (Dir × Cluster)), (visualOrder para xs).Perm xs) ∧
  (∀ a b c : List (Dir × Cluster), (∀ x ∈ a ++ c, x.1 = .ltr) → (∀ x ∈ b, x.1 = .rtl) →
    visualOrder .ltr (a ++ b ++ c) = a ++ b.reverse ++ c) ∧
  ∀ a b c : List (Dir × Cluster), (∀ x ∈ a ++ c, x.1 = .rtl) → (∀ x ∈ b, x.1 = .ltr) →
    visualOrder .rtl (a ++ b ++ c) = c.reverse ++ b ++ a.reverse

/-! ### What every step keeps -/

/-- R56, R74 and R79: every step keeps the table of halt causes and deferred halt causes, the law of the exception latch, and that the idle
timer runs only where the rule lets it. -/
def Obligations.HaltAndLatchLawsAreKept : Prop :=
  (∀ s t : State, (∀ g, (s.galley g).HaltLaw) → step s = .next t → ∀ g, (t.galley g).HaltLaw) ∧
  (∀ s t : State, (∀ g, (s.galley g).LatchLaw) → step s = .next t → ∀ g, (t.galley g).LatchLaw) ∧
  ∀ s t : State, (∀ g, (s.galley g).TimerLaw) → step s = .next t → ∀ g, (t.galley g).TimerLaw

/-- R127 and R128: every step keeps an output queue at 4 lines or fewer, its lines and a held one in order of depth, and the next line no
higher. -/
def Obligations.QueueLawIsKept : Prop :=
  ∀ s t : State, (∀ g, (s.galley g).QueueLaw) → step s = .next t → ∀ g, (t.galley g).QueueLaw

/-- R6, R9, R10, R81, R85 to R87, R93, R95, R102: every step keeps a builder's letters in the forms their neighbours give, its sums and
pending letter those of its entries, and its opportunity list within 48 and empty without entries; and after every step a started line fits
its measure, however many lines the step closed. -/
def Obligations.BuilderLawIsKeptAndLinesFit : Prop :=
  (∀ s t : State, (∀ g, (s.galley g).BuilderLaw) → step s = .next t → ∀ g, (t.galley g).BuilderLaw) ∧
  ∀ s t : State, (∀ g, (s.galley g).BuilderLaw ∧ (s.galley g).FitLaw) → step s = .next t → ∀ g, (t.galley g).FitLaw

/-- R18, R19, R23, R33, R158, R161: every step keeps the law of the font store; and that at most one reply and one notice of each flag
waits, and a frame is held only behind a reply. R134: where no selection is due, a selection would issue nothing; and a selection is due
after a command exactly when it was due before, or the command changed what a selection reads: the unit view, the page state, or a galley's
output queue, frontier, released flag or state. SELECTION itself and the two resets leave none due (log entry 4). R177: every step keeps
that no QUERY waits with the transmitter, and the query timer does not run, before the pause after a reset has ended; that the query timer
is stopped at a reset is read by inference (log entry 13). -/
def Obligations.FontStoreLinkAndSelectionLawsAreKept : Prop :=
  (∀ s t : State, s.FontLaw → step s = .next t → t.FontLaw) ∧
  (∀ s t : State, s.link.Law → step s = .next t → t.link.Law) ∧
  (∀ s t : State, s.unit.QueryLaw → step s = .next t → t.unit.QueryLaw) ∧
  (∀ s t : State, s.DueLaw → step s = .next t → t.DueLaw) ∧
  ∀ (c : Instr) (s t : State), c ≠ .selection → c ≠ .partResetEffect → (∀ early, c ≠ .powerOn early) →
    exec c s = .next t →
    (t.selectionDue = true ↔
      s.selectionDue = true ∨ t.unit.view ≠ s.unit.view ∨ t.page.state ≠ s.page.state ∨
        ∃ g, (t.galley g).output ≠ (s.galley g).output ∨ (t.galley g).frontier ≠ (s.galley g).frontier ∨
          (t.galley g).released ≠ (s.galley g).released ∨ (t.galley g).state ≠ (s.galley g).state)

/-- The laws of the whole part (R18, R56, R123, R127, R129, R133, R142, R158, R167, R177) together are kept by every step: in particular the law
of restraint, that no restraining galley's frontier is left above the band. -/
def Obligations.EveryStepKeepsTheLaws : Prop :=
  ∀ s t : State, s.Good → step s = .next t → t.Good

/-- The part right after power-on keeps all its laws. -/
def Obligations.ResetKeepsTheLaws : Prop := State.reset.Good
end

