-- ==== Sys2Proof/Laws/State.lean ====
section
/-! SUPPORT. What each update of the state leaves: one lemma for each field and each update, so that no later proof unfolds one. -/

namespace Sys2Proof.Machine

/-! ### Galleys and slots -/

@[simp] theorem State.galley_setGalley_self (s : State) (g : GalleyId) (x : Galley) : (s.setGalley g x).galley g = x := by
  simp [State.galley, State.setGalley]

theorem State.galley_setGalley_ne (s : State) {g h : GalleyId} (x : Galley) (hne : h ≠ g) :
    (s.setGalley g x).galley h = s.galley h := by
  have : g.val ≠ h.val := fun e => hne (Fin.ext e.symm)
  simp [State.galley, State.setGalley, this]

theorem State.galley_setGalley (s : State) (g h : GalleyId) (x : Galley) :
    (s.setGalley g x).galley h = if h = g then x else s.galley h := by
  by_cases e : h = g
  · subst e; simp
  · simp [State.galley_setGalley_ne s x e, e]

@[simp] theorem State.setGalley_galley (s : State) (g : GalleyId) : s.setGalley g (s.galley g) = s := by
  simp [State.galley, State.setGalley]

@[simp] theorem State.setGalley_setGalley (s : State) (g : GalleyId) (x y : Galley) :
    (s.setGalley g x).setGalley g y = s.setGalley g y := by
  simp [State.setGalley]

@[simp] theorem State.setGalley_link (s : State) (g : GalleyId) (x : Galley) : (s.setGalley g x).link = s.link := rfl
@[simp] theorem State.setGalley_fonts (s : State) (g : GalleyId) (x : Galley) : (s.setGalley g x).fonts = s.fonts := rfl
@[simp] theorem State.setGalley_page (s : State) (g : GalleyId) (x : Galley) : (s.setGalley g x).page = s.page := rfl
@[simp] theorem State.setGalley_unit (s : State) (g : GalleyId) (x : Galley) : (s.setGalley g x).unit = s.unit := rfl
@[simp] theorem State.setGalley_events (s : State) (g : GalleyId) (x : Galley) : (s.setGalley g x).events = s.events := rfl
@[simp] theorem State.setGalley_free (s : State) (g : GalleyId) (x : Galley) : (s.setGalley g x).free = s.free := rfl
@[simp] theorem State.setGalley_pending (s : State) (g : GalleyId) (x : Galley) :
    (s.setGalley g x).pending = s.pending := rfl
@[simp] theorem State.setGalley_selectionDue (s : State) (g : GalleyId) (x : Galley) :
    (s.setGalley g x).selectionDue = s.selectionDue := rfl
@[simp] theorem State.setGalley_font (s : State) (g : GalleyId) (x : Galley) (n : SlotId) :
    (s.setGalley g x).font n = s.font n := rfl

@[simp] theorem State.font_setFont_self (s : State) (n : SlotId) (f : Slot) : (s.setFont n f).font n = f := by
  simp [State.font, State.setFont]

theorem State.font_setFont_ne (s : State) {n m : SlotId} (f : Slot) (hne : m ≠ n) :
    (s.setFont n f).font m = s.font m := by
  have : n.val ≠ m.val := fun e => hne (Fin.ext e.symm)
  simp [State.font, State.setFont, this]

theorem State.font_setFont (s : State) (n m : SlotId) (f : Slot) :
    (s.setFont n f).font m = if m = n then f else s.font m := by
  by_cases e : m = n
  · subst e; simp
  · simp [State.font_setFont_ne s f e, e]

@[simp] theorem State.setFont_font (s : State) (n : SlotId) : s.setFont n (s.font n) = s := by
  simp [State.font, State.setFont]

@[simp] theorem State.setFont_setFont (s : State) (n : SlotId) (f f' : Slot) :
    (s.setFont n f).setFont n f' = s.setFont n f' := by
  simp [State.setFont]

@[simp] theorem State.setFont_link (s : State) (n : SlotId) (f : Slot) : (s.setFont n f).link = s.link := rfl
@[simp] theorem State.setFont_galleys (s : State) (n : SlotId) (f : Slot) : (s.setFont n f).galleys = s.galleys := rfl
@[simp] theorem State.setFont_page (s : State) (n : SlotId) (f : Slot) : (s.setFont n f).page = s.page := rfl
@[simp] theorem State.setFont_unit (s : State) (n : SlotId) (f : Slot) : (s.setFont n f).unit = s.unit := rfl
@[simp] theorem State.setFont_events (s : State) (n : SlotId) (f : Slot) : (s.setFont n f).events = s.events := rfl
@[simp] theorem State.setFont_free (s : State) (n : SlotId) (f : Slot) : (s.setFont n f).free = s.free := rfl
@[simp] theorem State.setFont_pending (s : State) (n : SlotId) (f : Slot) : (s.setFont n f).pending = s.pending := rfl
@[simp] theorem State.setFont_selectionDue (s : State) (n : SlotId) (f : Slot) :
    (s.setFont n f).selectionDue = s.selectionDue := rfl
@[simp] theorem State.setFont_galley (s : State) (n : SlotId) (f : Slot) (g : GalleyId) :
    (s.setFont n f).galley g = s.galley g := rfl

/-! ### An update of the link, the page or the unit leaves the galleys and the slots -/

@[simp] theorem State.galley_link (s : State) (l : ComposingLink) (g : GalleyId) :
    ({ s with link := l } : State).galley g = s.galley g := rfl
@[simp] theorem State.galley_page (s : State) (p : Page) (g : GalleyId) :
    ({ s with page := p } : State).galley g = s.galley g := rfl
@[simp] theorem State.galley_unit (s : State) (u : UnitLink) (g : GalleyId) :
    ({ s with unit := u } : State).galley g = s.galley g := rfl
@[simp] theorem State.galley_events (s : State) (e : EventUnit) (g : GalleyId) :
    ({ s with events := e } : State).galley g = s.galley g := rfl
@[simp] theorem State.galley_pending (s : State) (q : List Instr) (g : GalleyId) :
    ({ s with pending := q } : State).galley g = s.galley g := rfl
@[simp] theorem State.font_link (s : State) (l : ComposingLink) (n : SlotId) :
    ({ s with link := l } : State).font n = s.font n := rfl
@[simp] theorem State.font_page (s : State) (p : Page) (n : SlotId) :
    ({ s with page := p } : State).font n = s.font n := rfl
@[simp] theorem State.font_unit (s : State) (u : UnitLink) (n : SlotId) :
    ({ s with unit := u } : State).font n = s.font n := rfl
@[simp] theorem State.font_events (s : State) (e : EventUnit) (n : SlotId) :
    ({ s with events := e } : State).font n = s.font n := rfl
@[simp] theorem State.font_pending (s : State) (q : List Instr) (n : SlotId) :
    ({ s with pending := q } : State).font n = s.font n := rfl

/-! ### Answers and notices -/

@[simp] theorem State.answer_fonts (s : State) (k t : Byte) (r : Result) (d : List Byte) :
    (s.answer k t r d).fonts = s.fonts := rfl
@[simp] theorem State.answer_galleys (s : State) (k t : Byte) (r : Result) (d : List Byte) :
    (s.answer k t r d).galleys = s.galleys := rfl
@[simp] theorem State.answer_page (s : State) (k t : Byte) (r : Result) (d : List Byte) :
    (s.answer k t r d).page = s.page := rfl
@[simp] theorem State.answer_unit (s : State) (k t : Byte) (r : Result) (d : List Byte) :
    (s.answer k t r d).unit = s.unit := rfl
@[simp] theorem State.answer_events (s : State) (k t : Byte) (r : Result) (d : List Byte) :
    (s.answer k t r d).events = s.events := rfl
@[simp] theorem State.answer_free (s : State) (k t : Byte) (r : Result) (d : List Byte) :
    (s.answer k t r d).free = s.free := rfl
@[simp] theorem State.answer_pending (s : State) (k t : Byte) (r : Result) (d : List Byte) :
    (s.answer k t r d).pending = s.pending := rfl
@[simp] theorem State.answer_selectionDue (s : State) (k t : Byte) (r : Result) (d : List Byte) :
    (s.answer k t r d).selectionDue = s.selectionDue := rfl
@[simp] theorem State.answer_galley (s : State) (k t : Byte) (r : Result) (d : List Byte) (g : GalleyId) :
    (s.answer k t r d).galley g = s.galley g := rfl
@[simp] theorem State.answer_font (s : State) (k t : Byte) (r : Result) (d : List Byte) (n : SlotId) :
    (s.answer k t r d).font n = s.font n := rfl

@[simp] theorem State.notify_fonts (s : State) (f : Flag) (d : EventData) : (s.notify f d).fonts = s.fonts := rfl
@[simp] theorem State.notify_galleys (s : State) (f : Flag) (d : EventData) : (s.notify f d).galleys = s.galleys := rfl
@[simp] theorem State.notify_page (s : State) (f : Flag) (d : EventData) : (s.notify f d).page = s.page := rfl
@[simp] theorem State.notify_unit (s : State) (f : Flag) (d : EventData) : (s.notify f d).unit = s.unit := rfl
@[simp] theorem State.notify_events (s : State) (f : Flag) (d : EventData) : (s.notify f d).events = s.events := rfl
@[simp] theorem State.notify_free (s : State) (f : Flag) (d : EventData) : (s.notify f d).free = s.free := rfl
@[simp] theorem State.notify_pending (s : State) (f : Flag) (d : EventData) : (s.notify f d).pending = s.pending := rfl
@[simp] theorem State.notify_selectionDue (s : State) (f : Flag) (d : EventData) :
    (s.notify f d).selectionDue = s.selectionDue := rfl

/-! ### Re-examination points (R134) -/

@[simp] theorem State.noting_link (s t : State) : (s.noting t).link = t.link := rfl
@[simp] theorem State.noting_fonts (s t : State) : (s.noting t).fonts = t.fonts := rfl
@[simp] theorem State.noting_galleys (s t : State) : (s.noting t).galleys = t.galleys := rfl
@[simp] theorem State.noting_page (s t : State) : (s.noting t).page = t.page := rfl
@[simp] theorem State.noting_unit (s t : State) : (s.noting t).unit = t.unit := rfl
@[simp] theorem State.noting_events (s t : State) : (s.noting t).events = t.events := rfl
@[simp] theorem State.noting_free (s t : State) : (s.noting t).free = t.free := rfl
@[simp] theorem State.noting_pending (s t : State) : (s.noting t).pending = t.pending := rfl
@[simp] theorem State.noting_galley (s t : State) (g : GalleyId) : (s.noting t).galley g = t.galley g := rfl
@[simp] theorem State.noting_font (s t : State) (n : SlotId) : (s.noting t).font n = t.font n := rfl
@[simp] theorem State.noting_watched (s t : State) : (s.noting t).watched = t.watched := rfl
@[simp] theorem State.noting_selectionDue (s t : State) :
    (s.noting t).selectionDue = (s.selectionDue || decide (t.watched ≠ s.watched)) := rfl

/-- An event that changes nothing a selection reads makes none due (R134). -/
theorem State.noting_same (s t : State) (h : t.watched = s.watched) (hd : t.selectionDue = s.selectionDue) :
    s.noting t = t := by
  simp [State.noting, h, ← hd]

/-- What was watched before the event, and whether a selection was due, is all an event's note takes from the state before it. -/
theorem State.noting_congr (s s' t : State) (h : s.watched = s'.watched) (hd : s.selectionDue = s'.selectionDue) :
    s.noting t = s'.noting t := by
  simp [State.noting, h, hd]

@[simp] theorem State.watched_link (s : State) (l : ComposingLink) : ({ s with link := l } : State).watched = s.watched := rfl
@[simp] theorem State.watched_events (s : State) (e : EventUnit) : ({ s with events := e } : State).watched = s.watched := rfl
@[simp] theorem State.watched_pending (s : State) (q : List Instr) : ({ s with pending := q } : State).watched = s.watched := rfl
@[simp] theorem State.watched_setFont (s : State) (n : SlotId) (f : Slot) : (s.setFont n f).watched = s.watched := rfl
@[simp] theorem State.watched_notify (s : State) (f : Flag) (d : EventData) : (s.notify f d).watched = s.watched := rfl
@[simp] theorem State.watched_answer (s : State) (k t : Byte) (r : Result) (d : List Byte) :
    (s.answer k t r d).watched = s.watched := rfl

/-- A galley replaced by one whose watched part is the same leaves what a selection reads. -/
theorem State.watched_setGalley (s : State) (g : GalleyId) (x : Galley) (h : x.watched = (s.galley g).watched) :
    (s.setGalley g x).watched = s.watched := by
  have : (s.galleys.set g x).toList.map Galley.watched = s.galleys.toList.map Galley.watched := by
    apply List.ext_getElem
    · simp
    · intro i h1 h2
      simp only [List.getElem_map, Vector.getElem_toList, Vector.getElem_set]
      split
      · rename_i hi; subst hi; exact h
      · rfl
  simp [State.watched, State.setGalley, this]

end Sys2Proof.Machine
end

