-- ==== Sys2Proof/Laws/Events.lean ====
section
/-! SUPPORT. What the event unit's operations do: the flags' places, a raise, a list of raises, and the placing of a notice. -/

namespace Sys2Proof.Machine

/-- Two flags stand at one place only when they are one flag (R167). -/
theorem Flag.place_injective : ∀ f f' : Flag, f.place = f'.place → f = f' := by
  intro f f' h
  have h' : f.place.val = f'.place.val := congrArg Fin.val h
  cases f <;> cases f' <;> simp only [Flag.place] at h' <;> first | rfl | (rename_i g g'; have := g.isLt; have := g'.isLt; congr 1; apply Fin.ext; omega) | (exfalso; revert h'; first | (rename_i g g'; have := g.isLt; have := g'.isLt; omega) | (rename_i g; have := g.isLt; simp; omega) | simp)

/-- Every flag is one of the 21 (R167). -/
theorem mem_allFlags (f : Flag) : f ∈ allFlags := by
  cases f <;> first | decide | (rename_i g; revert g; decide)

@[simp] theorem EventUnit.flag_setFlag_self (e : EventUnit) (f : Flag) (d : Option EventData) :
    (e.setFlag f d).flag f = d := by
  simp [EventUnit.flag, EventUnit.setFlag]

theorem EventUnit.flag_setFlag_ne (e : EventUnit) {f f' : Flag} (d : Option EventData) (h : f' ≠ f) :
    (e.setFlag f d).flag f' = e.flag f' := by
  have : f.place.val ≠ f'.place.val := fun hv => h (Flag.place_injective _ _ (Fin.ext hv.symm))
  simp [EventUnit.flag, EventUnit.setFlag, this]

@[simp] theorem EventUnit.mask_setFlag (e : EventUnit) (f : Flag) (d : Option EventData) :
    (e.setFlag f d).mask = e.mask := rfl

@[simp] theorem EventUnit.masked_setFlag (e : EventUnit) (f f' : Flag) (d : Option EventData) :
    (e.setFlag f d).masked f' = e.masked f' := rfl

/-- Everything a raise can do (R168): nothing, the flag set, or the flag set and its notice placed. -/
theorem State.raise_cases (s : State) (f : Flag) (d : EventData) :
    (∃ e, s.events.flag f = some e ∧ s.raise f d = s) ∨
    (s.events.flag f = none ∧ s.events.masked f = true ∧
      s.raise f d = { s with events := s.events.setFlag f (some d) }) ∨
    (s.events.flag f = none ∧ s.events.masked f = false ∧
      s.raise f d = { s with
        events := s.events.setFlag f (some d)
        link := { s.link with sendQueue := placeNotice f d s.link.sendQueue } }) := by
  unfold State.raise
  cases h : s.events.flag f with
  | some e => exact .inl ⟨e, rfl, rfl⟩
  | none =>
    cases hm : s.events.masked f with
    | true => exact .inr (.inl ⟨rfl, rfl, by simp⟩)
    | false => exact .inr (.inr ⟨rfl, rfl, by simp [State.notify]⟩)

@[simp] theorem State.raise_fonts (s : State) (f : Flag) (d : EventData) : (s.raise f d).fonts = s.fonts := by
  obtain ⟨_, _, h⟩ | ⟨_, _, h⟩ | ⟨_, _, h⟩ := s.raise_cases f d <;> rw [h]
@[simp] theorem State.raise_galleys (s : State) (f : Flag) (d : EventData) : (s.raise f d).galleys = s.galleys := by
  obtain ⟨_, _, h⟩ | ⟨_, _, h⟩ | ⟨_, _, h⟩ := s.raise_cases f d <;> rw [h]
@[simp] theorem State.raise_page (s : State) (f : Flag) (d : EventData) : (s.raise f d).page = s.page := by
  obtain ⟨_, _, h⟩ | ⟨_, _, h⟩ | ⟨_, _, h⟩ := s.raise_cases f d <;> rw [h]
@[simp] theorem State.raise_unit (s : State) (f : Flag) (d : EventData) : (s.raise f d).unit = s.unit := by
  obtain ⟨_, _, h⟩ | ⟨_, _, h⟩ | ⟨_, _, h⟩ := s.raise_cases f d <;> rw [h]
@[simp] theorem State.raise_free (s : State) (f : Flag) (d : EventData) : (s.raise f d).free = s.free := by
  obtain ⟨_, _, h⟩ | ⟨_, _, h⟩ | ⟨_, _, h⟩ := s.raise_cases f d <;> rw [h]
@[simp] theorem State.raise_pending (s : State) (f : Flag) (d : EventData) : (s.raise f d).pending = s.pending := by
  obtain ⟨_, _, h⟩ | ⟨_, _, h⟩ | ⟨_, _, h⟩ := s.raise_cases f d <;> rw [h]
@[simp] theorem State.raise_selectionDue (s : State) (f : Flag) (d : EventData) :
    (s.raise f d).selectionDue = s.selectionDue := by
  obtain ⟨_, _, h⟩ | ⟨_, _, h⟩ | ⟨_, _, h⟩ := s.raise_cases f d <;> rw [h]
@[simp] theorem State.raise_watched (s : State) (f : Flag) (d : EventData) : (s.raise f d).watched = s.watched := by
  simp [State.watched]
@[simp] theorem State.raise_mask (s : State) (f : Flag) (d : EventData) : (s.raise f d).events.mask = s.events.mask := by
  obtain ⟨_, _, h⟩ | ⟨_, _, h⟩ | ⟨_, _, h⟩ := s.raise_cases f d <;> simp [h]
@[simp] theorem State.raise_galley (s : State) (f : Flag) (d : EventData) (g : GalleyId) :
    (s.raise f d).galley g = s.galley g := by simp [State.galley]
@[simp] theorem State.raise_font (s : State) (f : Flag) (d : EventData) (n : SlotId) :
    (s.raise f d).font n = s.font n := by simp [State.font]

/-- Of the link a raise changes the send queue alone (R168). -/
theorem State.raise_link (s : State) (f : Flag) (d : EventData) :
    (s.raise f d).link = s.link ∨
      (s.raise f d).link = { s.link with sendQueue := placeNotice f d s.link.sendQueue } := by
  obtain ⟨_, _, h⟩ | ⟨_, _, h⟩ | ⟨_, _, h⟩ := s.raise_cases f d <;> simp [h]

@[simp] theorem State.raiseAll_nil (s : State) : s.raiseAll [] = s := rfl
@[simp] theorem State.raiseAll_cons (s : State) (f : Flag) (d : EventData) (r : List (Flag × EventData)) :
    s.raiseAll ((f, d) :: r) = (s.raise f d).raiseAll r := rfl

theorem State.raiseAll_append (s : State) (a b : List (Flag × EventData)) :
    s.raiseAll (a ++ b) = (s.raiseAll a).raiseAll b := by
  induction a generalizing s with
  | nil => rfl
  | cons p a ih => obtain ⟨f, d⟩ := p; simp [ih]

@[simp] theorem State.raiseAll_fonts (s : State) (r : List (Flag × EventData)) : (s.raiseAll r).fonts = s.fonts := by
  induction r generalizing s with | nil => rfl | cons p r ih => obtain ⟨f, d⟩ := p; simp [ih]
@[simp] theorem State.raiseAll_galleys (s : State) (r : List (Flag × EventData)) :
    (s.raiseAll r).galleys = s.galleys := by
  induction r generalizing s with | nil => rfl | cons p r ih => obtain ⟨f, d⟩ := p; simp [ih]
@[simp] theorem State.raiseAll_page (s : State) (r : List (Flag × EventData)) : (s.raiseAll r).page = s.page := by
  induction r generalizing s with | nil => rfl | cons p r ih => obtain ⟨f, d⟩ := p; simp [ih]
@[simp] theorem State.raiseAll_unit (s : State) (r : List (Flag × EventData)) : (s.raiseAll r).unit = s.unit := by
  induction r generalizing s with | nil => rfl | cons p r ih => obtain ⟨f, d⟩ := p; simp [ih]
@[simp] theorem State.raiseAll_free (s : State) (r : List (Flag × EventData)) : (s.raiseAll r).free = s.free := by
  induction r generalizing s with | nil => rfl | cons p r ih => obtain ⟨f, d⟩ := p; simp [ih]
@[simp] theorem State.raiseAll_pending (s : State) (r : List (Flag × EventData)) :
    (s.raiseAll r).pending = s.pending := by
  induction r generalizing s with | nil => rfl | cons p r ih => obtain ⟨f, d⟩ := p; simp [ih]

@[simp] theorem State.raiseAll_selectionDue (s : State) (r : List (Flag × EventData)) :
    (s.raiseAll r).selectionDue = s.selectionDue := by
  induction r generalizing s with | nil => rfl | cons p r ih => obtain ⟨f, d⟩ := p; simp [ih]
@[simp] theorem State.raiseAll_watched (s : State) (r : List (Flag × EventData)) :
    (s.raiseAll r).watched = s.watched := by
  simp [State.watched]

/-- What a galley's work leaves of the part: its galley, and what its raises set (R168). -/
theorem State.commit_eq (s : State) (g : GalleyId) (r : Run) : s.commit g r = (s.setGalley g r.gal).raiseAll r.events := rfl

@[simp] theorem State.commit_galley (s : State) (g h : GalleyId) (r : Run) :
    (s.commit g r).galley h = if h = g then r.gal else s.galley h := by
  rw [← State.galley_setGalley]; simp [State.commit, State.galley]
@[simp] theorem State.commit_fonts (s : State) (g : GalleyId) (r : Run) : (s.commit g r).fonts = s.fonts := by
  simp [State.commit]
@[simp] theorem State.commit_page (s : State) (g : GalleyId) (r : Run) : (s.commit g r).page = s.page := by
  simp [State.commit]
@[simp] theorem State.commit_unit (s : State) (g : GalleyId) (r : Run) : (s.commit g r).unit = s.unit := by
  simp [State.commit]
@[simp] theorem State.commit_free (s : State) (g : GalleyId) (r : Run) : (s.commit g r).free = s.free := by
  simp [State.commit]
@[simp] theorem State.commit_pending (s : State) (g : GalleyId) (r : Run) : (s.commit g r).pending = s.pending := by
  simp [State.commit]

@[simp] theorem State.commit_selectionDue (s : State) (g : GalleyId) (r : Run) :
    (s.commit g r).selectionDue = s.selectionDue := by
  simp [State.commit]

/-- An event whose notices are raised behind it makes a selection due where it did without them (R134). -/
theorem State.noting_raise (s t : State) (f : Flag) (d : EventData) :
    s.noting (t.raise f d) = (s.noting t).raise f d := by
  simp only [State.noting, State.raise_watched]
  generalize (s.selectionDue || decide (t.watched ≠ s.watched)) = due
  unfold State.raise
  cases he : t.events.flag f <;> cases hm : t.events.masked f <;> simp [State.notify]

/-! ### Placing a notice (R161, R169) -/

theorem placeNotice_of_absent (f : Flag) (d : EventData) (q : List TxFrame) (h : ∀ x ∈ q, x.isNoticeOf f = false) :
    placeNotice f d q = q ++ [.notice f d] := by
  induction q with
  | nil => rfl
  | cons x q ih =>
    have hx := h x (by simp)
    simp [placeNotice, hx, ih (fun y hy => h y (by simp [hy]))]

theorem placeNotice_of_waiting (f : Flag) (d e : EventData) (q r : List TxFrame) (h : ∀ x ∈ q, x.isNoticeOf f = false) :
    placeNotice f d (q ++ .notice f e :: r) = q ++ .notice f d :: r := by
  induction q with
  | nil => simp [placeNotice, TxFrame.isNoticeOf]
  | cons x q ih =>
    have hx := h x (by simp)
    simp [placeNotice, hx, ih (fun y hy => h y (by simp [hy]))]

/-- A notice placed behind a reply joins behind it, or takes the place of a notice that waits before or behind it. -/
theorem placeNotice_append (f : Flag) (d : EventData) (q r : List TxFrame) :
    placeNotice f d (q ++ r) =
      if q.any (TxFrame.isNoticeOf f) then placeNotice f d q ++ r else q ++ placeNotice f d r := by
  induction q with
  | nil => simp
  | cons x q ih =>
    cases hx : x.isNoticeOf f with
    | true => simp [placeNotice, hx]
    | false =>
      cases hq : q.any (TxFrame.isNoticeOf f) <;> simp [placeNotice, hx, ih, hq, List.any_cons]

theorem any_isReply_placeNotice (f : Flag) (d : EventData) (q : List TxFrame) :
    (placeNotice f d q).any TxFrame.isReply = q.any TxFrame.isReply := by
  induction q with
  | nil => simp [placeNotice, TxFrame.isReply]
  | cons x q ih =>
    cases hx : x.isNoticeOf f with
    | true => cases x <;> simp_all [placeNotice, TxFrame.isNoticeOf, TxFrame.isReply]
    | false => simp [placeNotice, hx, ih]

end Sys2Proof.Machine
end

