-- ==== Sys2Proof/Laws/Link.lean ====
section
/-! SUPPORT. What the composing link's operations do: checks of frames, a request's dispatch, and the placing of its reply. -/

namespace Sys2Proof.Machine

/-! ### Checks (R157, 9.7) -/

theorem foldl_add_bytes (a : Byte) (bs : List Byte) : bs.foldl (· + ·) a = a + bs.foldl (· + ·) 0 := by
  induction bs generalizing a with
  | nil => simp
  | cons b bs ih => rw [List.foldl_cons, List.foldl_cons, ih, ih (0 + b)]; simp [BitVec.add_assoc]

theorem byteSum_append (as bs : List Byte) : byteSum (as ++ bs) = byteSum as + byteSum bs := by
  simp only [byteSum, List.foldl_append]
  exact foldl_add_bytes _ _

theorem byteSum_singleton (b : Byte) : byteSum [b] = b := by simp [byteSum]

/-- The check byte makes the sum 0, whatever stands before it (R157, R140, R22). -/
theorem byteSum_checkOf (bs : List Byte) : byteSum (bs ++ [checkOf bs]) = 0 := by
  rw [byteSum_append, byteSum_singleton, checkOf, ← BitVec.sub_eq_add_neg, BitVec.sub_self]; rfl

theorem checkGood_checkOf (kind target : Byte) (body : List Byte) :
    checkGood kind target body (checkOf (be16 body.length ++ [kind, target] ++ body)) = true := by
  simp only [checkGood, byteSum_checkOf, beq_self_eq_true]

@[simp] theorem ReqKind.requestKind_code (k : ReqKind) : requestKind k.code = some k := by cases k <;> rfl

/-! ### Galley and slot bytes (9.7) -/

@[simp] theorem galleyOf_galleyByte (g : GalleyId) : galleyOf (galleyByte g) = g := by revert g; decide
theorem galleyByte_toNat_lt (g : GalleyId) : (galleyByte g).toNat < 4 := by revert g; decide
@[simp] theorem slotOf_byteOf (n : SlotId) : slotOf (byteOf n.val) = n := by revert n; decide
theorem slotByte_toNat_lt (n : SlotId) : (byteOf n.val).toNat < 16 := by revert n; decide

theorem Domain.galley_holds (g : GalleyId) : Domain.galley.holds (galleyByte g) = true := by revert g; decide
theorem Domain.slot_holds (n : SlotId) : Domain.slot.holds (byteOf n.val) = true := by revert n; decide
theorem Domain.part_holds : Domain.part.holds 0xFF = true := by decide

/-- Two bytes, high first, spell the number they were made from, when it fits (9.7). -/
theorem nat16_be16 (n : Nat) (h : n < 65536) : nat16 (byteOf (n / 256)) (byteOf n) = n := by
  simp only [nat16, byteOf, BitVec.toNat_ofNat]; omega

@[simp] theorem be16_length (n : Nat) : (be16 n).length = 2 := rfl
@[simp] theorem be32_length (n : Nat) : (be32 n).length = 4 := rfl

/-! ### A request's frame (R158 to R161) -/

/-- A taken request with the target its kind asks and a body its kind asks goes to its owner (R159). -/
theorem dispatch_request (s : State) (k : ReqKind) (target : Byte) (body : List Byte) (hd : k.domain.holds target = true)
    (hl : k.lengthGood body = true) : dispatch s k.code target body = handle k s target body := by
  simp [dispatch, hd, hl]

/-- A good frame that may be taken is dispatched, and its reply is placed (R157 to R161). -/
theorem completeFrame_good (s : State) (kind target : Byte) (body : List Byte) (h : s.link.canTake = true) :
    s.completeFrame (goodFrame kind target body)
      = s.noting
          ((dispatch { s with link := s.link.hunt } kind target body).place s.link.sendQueue.length kind target) := by
  simp only [State.completeFrame, h, State.takeFrame, goodFrame, checkGood_checkOf, ComposingLink.hunt, if_true]
  exact State.noting_congr _ _ _ rfl rfl

/-- A request that may be taken, with the target and a body of the kind, is handled by its owner with the receiver in HUNT. -/
theorem completeFrame_request (s : State) (k : ReqKind) (target : Byte) (body : List Byte) (h : s.link.canTake = true)
    (hd : k.domain.holds target = true) (hl : k.lengthGood body = true) :
    s.completeFrame (goodFrame k.code target body)
      = s.noting
          ((handle k { s with link := s.link.hunt } target body).place s.link.sendQueue.length k.code target) := by
  rw [completeFrame_good s _ _ _ h, dispatch_request _ _ _ _ hd hl]

/-- A frame that may not be taken is held or discarded (R158). -/
theorem completeFrame_held (s : State) (f : LinkFrame) (h : s.link.canTake = false) :
    s.completeFrame f
      = { s with link := { s.link with
            receiver := .hunt, gapTimer := false, heldFrame := some (s.link.heldFrame.getD f) } } := by
  simp [State.completeFrame, h, ComposingLink.hunt, ComposingLink.hold]

/-- The reply of an answer that leaves the send queue as it was stands at the back of it (R161). -/
theorem Answer.place_quiet (t : State) (r : Result) (d : List Byte) (kind target : Byte) :
    (Answer.place { state := t, result := r, data := d } t.link.sendQueue.length kind target)
      = { t with link := { t.link with sendQueue := t.link.sendQueue ++ [.reply kind target r d] } } := by
  simp [Answer.place]

/-- A refusal makes no selection due (R134, R159). -/
@[simp] theorem noting_answer (s : State) (r : Result) (d : List Byte) (kind target : Byte) :
    s.noting (s.answer kind target r d) = s.answer kind target r d := State.noting_same _ _ rfl rfl

/-- A request that its owner refuses: nothing but the link changes (R159, R160). -/
theorem place_refuse (s : State) (r : Result) (kind target : Byte) :
    (({ s with link := s.link.hunt } : State).refuse r).place s.link.sendQueue.length kind target
      = s.answer kind target r [] := by
  simp [State.refuse, Answer.place, State.answer, ComposingLink.hunt]

/-- A request that its owner answers with data and no notice, leaving the link otherwise as it was (R160, R161). -/
theorem place_answer (s t : State) (r : Result) (d : List Byte) (kind target : Byte)
    (h : t.link = s.link.hunt) :
    (Answer.place { state := t, result := r, data := d } s.link.sendQueue.length kind target)
      = { t with link := (s.answer kind target r d).link } := by
  simp [Answer.place, State.answer, h, ComposingLink.hunt]

/-- The reply stands ahead of a notice the event raised behind it: raising and then placing the reply is placing the reply and then raising
(R161). -/
theorem place_raise (t : State) (f : Flag) (e : EventData) (r : Result) (d : List Byte) (kind target : Byte) :
    (Answer.place { state := t.raise f e, result := r, data := d } t.link.sendQueue.length kind target)
      = ({ t with link := { t.link with sendQueue := t.link.sendQueue ++ [.reply kind target r d] } } : State).raise f e := by
  obtain ⟨x, hx, _⟩ | ⟨hx, hm, _⟩ | ⟨hx, hm, _⟩ := t.raise_cases f e
  · simp [Answer.place, State.raise, hx]
  · simp [Answer.place, State.raise, hx, hm]
  · by_cases ha : t.link.sendQueue.any (TxFrame.isNoticeOf f) = true
    · obtain ⟨q, y, rest, hq, hy, hn⟩ : ∃ q y rest, t.link.sendQueue = q ++ y :: rest ∧ TxFrame.isNoticeOf f y = true ∧
          ∀ x ∈ q, x.isNoticeOf f = false := by
        clear hx hm
        generalize t.link.sendQueue = l at ha
        induction l with
        | nil => simp at ha
        | cons x l ih =>
          cases hx : x.isNoticeOf f with
          | true => exact ⟨[], x, l, rfl, hx, by simp⟩
          | false =>
            obtain ⟨q, y, rest, hl, hy, hn⟩ := ih (by simpa [hx] using ha)
            exact ⟨x :: q, y, rest, by simp [hl], hy, by simpa [hx] using hn⟩
      obtain ⟨e', rfl⟩ : ∃ e', y = .notice f e' := by
        cases y <;> simp_all [TxFrame.isNoticeOf]
      have h2 := placeNotice_of_waiting f e e' q rest hn
      have h3 := placeNotice_of_waiting f e e' q (rest ++ [.reply kind target r d]) hn
      have hl : (q ++ TxFrame.notice f e :: rest).length = (q ++ TxFrame.notice f e' :: rest).length := by simp
      simp only [Answer.place, State.raise, hx, hm, State.notify, hq, h2, Bool.false_eq_true, if_false,
        List.append_assoc, List.cons_append, h3]
      rw [← hl, List.take_length, List.drop_length]
      simp
    · have hn : ∀ x ∈ t.link.sendQueue, x.isNoticeOf f = false := by simpa using ha
      have h2 := placeNotice_of_absent f e _ hn
      have h3 := placeNotice_of_absent f e (t.link.sendQueue ++ [.reply kind target r d]) (by
        intro x hx; rcases List.mem_append.1 hx with hx | hx
        · exact hn x hx
        · simp at hx; subst hx; rfl)
      simp [Answer.place, State.raise, hx, hm, State.notify, h2, h3]

/-! ### The link's own events -/

theorem gapExpiry_running (l : ComposingLink) (h : l.gapTimer = true) :
    l.gapExpiry = { l with receiver := .hunt, gapTimer := false } := by
  simp [ComposingLink.gapExpiry, h, ComposingLink.hunt]

/-- The first byte of the next frame is sent with no frame held (R161). -/
theorem transmit_next (s : State) (f : TxFrame) (rest : List TxFrame) (hr : s.link.sendingReset = false)
    (hq : s.link.sendQueue = f :: rest) (hh : s.link.heldFrame = none) :
    s.transmit = { s with link := { s.link with sending := some f, sendQueue := rest } } := by
  simp [State.transmit, hr, hq, State.takeHeldFrame, hh]

end Sys2Proof.Machine
end

