-- ==== Sys2Proof/Laws/FontStore.lean ====
section
/-! SUPPORT. What the font store's operations do: a code's joining and leaving the rejected set, the examination of one record, the kern rows,
and the length of a record's bytes. -/

namespace Sys2Proof.Machine

/-- Everything a code's joining the rejected set can do (R27). -/
theorem Slot.reject_cases (f : Slot) (c : CodeUnit) :
    (c ∈ f.rejected ∧ f.reject c = f) ∨
    (c ∉ f.rejected ∧ f.rejected.length < 16 ∧ f.reject c = { f with rejected := f.rejected ++ [c] }) ∨
    (c ∉ f.rejected ∧ 16 ≤ f.rejected.length ∧ f.reject c = { f with overflow := true }) := by
  unfold Slot.reject Config.rejectedCapacity
  by_cases hc : c ∈ f.rejected
  · exact .inl ⟨hc, by simp [hc]⟩
  · by_cases hl : f.rejected.length < 16
    · exact .inr (.inl ⟨hc, hl, by simp [hc, hl]⟩)
    · exact .inr (.inr ⟨hc, Nat.not_lt.1 hl, by simp [hc, hl]⟩)

@[simp] theorem Slot.reject_records (f : Slot) (c : CodeUnit) : (f.reject c).records = f.records := by
  obtain ⟨_, h⟩ | ⟨_, _, h⟩ | ⟨_, _, h⟩ := f.reject_cases c <;> rw [h]
@[simp] theorem Slot.reject_state (f : Slot) (c : CodeUnit) : (f.reject c).state = f.state := by
  obtain ⟨_, h⟩ | ⟨_, _, h⟩ | ⟨_, _, h⟩ := f.reject_cases c <;> rw [h]
@[simp] theorem Slot.reject_header (f : Slot) (c : CodeUnit) : (f.reject c).header = f.header := by
  obtain ⟨_, h⟩ | ⟨_, _, h⟩ | ⟨_, _, h⟩ := f.reject_cases c <;> rw [h]
@[simp] theorem Slot.reject_silence (f : Slot) (c : CodeUnit) : (f.reject c).silence = f.silence := by
  obtain ⟨_, h⟩ | ⟨_, _, h⟩ | ⟨_, _, h⟩ := f.reject_cases c <;> rw [h]

@[simp] theorem Slot.heal_records (f : Slot) (c : CodeUnit) : (f.heal c).records = f.records := rfl
@[simp] theorem Slot.heal_state (f : Slot) (c : CodeUnit) : (f.heal c).state = f.state := rfl
@[simp] theorem Slot.heal_header (f : Slot) (c : CodeUnit) : (f.heal c).header = f.header := rfl
@[simp] theorem Slot.heal_silence (f : Slot) (c : CodeUnit) : (f.heal c).silence = f.silence := rfl

/-- A record's replacement keeps the codes of a slot and their order (R28). -/
theorem replaceRecord_codes (r : GlyphRecord) (rs : List GlyphRecord) :
    (replaceRecord r rs).map GlyphRecord.code = rs.map GlyphRecord.code := by
  simp only [replaceRecord, List.map_map]
  apply List.map_congr_left
  intro x _
  by_cases h : x.code = r.code <;> simp [h]

@[simp] theorem replaceRecord_length (r : GlyphRecord) (rs : List GlyphRecord) :
    (replaceRecord r rs).length = rs.length := by simp [replaceRecord]

/-- Whether a slot finds a record is whether it holds the code (R23). -/
theorem Slot.find_isSome (f : Slot) (c : CodeUnit) :
    (f.find c).isSome = true ↔ c ∈ f.records.map GlyphRecord.code := by
  simp [Slot.find, List.find?_isSome]

/-- Everything the examination of one record can do (R27 to R29): nothing behind a full store; a rejection; a replacement; a new record; a full
store met. -/
theorem examine_cases (e : Examination) (position : Nat) (bs : List Byte) :
    (e.full ≠ 0 ∧ examine e position bs = e) ∨
    (e.full = 0 ∧ readRecord bs = none ∧ (examine e position bs).slot = e.slot.reject (recordCode bs) ∧
      (examine e position bs).rejected = e.rejected + 1 ∧ (examine e position bs).free = e.free ∧
      (examine e position bs).stored = e.stored ∧ (examine e position bs).full = 0) ∨
    ∃ r, e.full = 0 ∧ readRecord bs = some r ∧
      ((r.code ∈ e.slot.records.map GlyphRecord.code ∧
          examine e position bs
            = { e with slot := { e.slot with records := replaceRecord r e.slot.records }.heal r.code,
                       stored := e.stored + 1 }) ∨
        (r.code ∉ e.slot.records.map GlyphRecord.code ∧ 0 < e.free ∧ e.slot.records.length < 1024 ∧
          examine e position bs
            = { e with slot := { e.slot with records := e.slot.records ++ [r] }.heal r.code, free := e.free - 1,
                       stored := e.stored + 1 }) ∨
        (r.code ∉ e.slot.records.map GlyphRecord.code ∧ (e.free = 0 ∨ 1024 ≤ e.slot.records.length) ∧
          examine e position bs = { e with full := position })) := by
  unfold examine
  by_cases hf : e.full = 0
  · cases hr : readRecord bs with
    | none => exact .inr (.inl ⟨hf, rfl, by simp [hf], by simp [hf], by simp [hf], by simp [hf], by simp [hf]⟩)
    | some r =>
      refine .inr (.inr ⟨r, hf, rfl, ?_⟩)
      by_cases hc : (e.slot.find r.code).isSome = true
      · exact .inl ⟨(Slot.find_isSome _ _).1 hc, by simp only [hf, ne_eq, not_true, if_false, hc, if_true]⟩
      · have hn : r.code ∉ e.slot.records.map GlyphRecord.code := fun h => hc ((Slot.find_isSome _ _).2 h)
        by_cases hp : 0 < e.free ∧ e.slot.records.length < Config.slotRecords
        · exact .inr (.inl ⟨hn, hp.1, hp.2, by simp only [hf, ne_eq, not_true, if_false, hc, hp, and_self, if_true, Bool.false_eq_true]⟩)
        · refine .inr (.inr ⟨hn, ?_, by simp only [hf, ne_eq, not_true, if_false, hc, hp, Bool.false_eq_true]⟩)
          simp only [Config.slotRecords] at hp; omega
  · exact .inl ⟨hf, by simp [hf]⟩

/-- A kern row written, and the rows beside it (R31). -/
theorem KernTable.at_setIfInBounds (t : KernTable) (i : Nat) (r : Vector Int 16) (a b : Fin 16) :
    KernTable.at (t.setIfInBounds i r) a b = if i = a.val then r[b] else t.at a b := by
  simp only [KernTable.at, Fin.getElem_fin, Vector.getElem_setIfInBounds]
  split <;> simp_all

theorem KernTable.zero_at (a b : Fin 16) : KernTable.zero.at a b = 0 := by
  simp [KernTable.zero, KernTable.at]

end Sys2Proof.Machine
end

