-- ==== Sys2Proof/Laws/Galley.lean ====
section
/-! SUPPORT. What the galley controller's operations do: line start and line close, the giving of exceptions, halts, the consumption of the
front item, and the way a galley proceeds. -/

namespace Sys2Proof.Machine

/-! ### Small operations -/

@[simp] theorem Run.start_gal (x : Galley) : (Run.start x).gal = x := rfl
@[simp] theorem Run.start_events (x : Galley) : (Run.start x).events = [] := rfl
@[simp] theorem Run.start_stopped (x : Galley) : (Run.start x).stopped = false := rfl
@[simp] theorem Run.start_consumed (x : Galley) : (Run.start x).consumed = 0 := rfl

/-- A halt (R65, R66). -/
theorem Run.halt_eq (c : Ctx) (r : Run) (cause : HaltCause) :
    r.halt c cause
      = { gal := r.gal.haltedWith cause, events := r.events ++ [(.halted c.id, .halted cause)], stopped := true,
          consumed := r.consumed } := rfl

/-- Everything the giving of an exception can do (R79). -/
theorem Run.giveException_cases (c : Ctx) (r : Run) (l : LineRecord) :
    (l.exceptions = ExcSet.none ∧ r.giveException c l = r) ∨
    (l.exceptions ≠ ExcSet.none ∧ r.gal.latch = none ∧
      r.giveException c l
        = { r with gal := { r.gal with latch := some l.exception },
                   events := r.events ++ [(.exception c.id, .exception l.exception)] }) ∨
    (l.exceptions ≠ ExcSet.none ∧ (∃ e, r.gal.latch = some e) ∧
      r.giveException c l = { r with gal := { r.gal with excCount := min (r.gal.excCount + 1) 255 } }) := by
  unfold Run.giveException ExcSet.isEmpty
  by_cases h : l.exceptions = ExcSet.none
  · exact .inl ⟨h, by simp [h]⟩
  · cases hl : r.gal.latch with
    | none => exact .inr (.inl ⟨h, rfl, by simp [h]; rfl⟩)
    | some e => exact .inr (.inr ⟨h, ⟨e, rfl⟩, by simp [h]⟩)

/-- A line start below the page does not take place (R60). -/
theorem startLine_none (c : Ctx) (x : Galley) (byPara : Bool) :
    startLine c x byPara = none ↔ c.pageDepth < x.nextDepth := by
  unfold startLine; dsimp only; split <;> simp_all

/-- A line start that is no PARA's on an empty builder (R60, R51). -/
theorem startLine_some (c : Ctx) (x : Galley) (h : x.nextDepth ≤ c.pageDepth) (hs : x.started = false) :
    startLine c x false = some x.withLine := by
  simp [startLine, Nat.not_lt.2 h, Galley.withLine, hs]

/-- The galley an item finds: with its line started, or started now (R84 step 2). -/
theorem needLine_stands (c : Ctx) (x : Galley) (h : x.LineStands c.pageDepth) : needLine c x false = some x.withLine := by
  cases hs : x.started with
  | true => simp [needLine, hs, Galley.withLine]
  | false =>
    obtain h | h := h
    · simp [hs] at h
    · simp [needLine, hs, startLine_some c x h hs]

theorem needLine_below (c : Ctx) (x : Galley) (b : Bool) (hs : x.started = false) (h : c.pageDepth < x.nextDepth) :
    needLine c x b = none := by
  simp [needLine, hs, (startLine_none c x b).2 h]

/-- The front item consumed (R48, R69, R70). -/
theorem Galley.take_eq_past (x : Galley) (i : Item) (rest : List Item) (h : x.story = i :: rest) :
    x.take = x.past rest := by
  unfold Galley.take Galley.past StopMark.afterItem
  simp only [h, List.tail_cons]
  congr 1
  split <;> (cases x.mark.kind <;> simp)

@[simp] theorem Galley.retrigger_eq (x : Galley) : x.retrigger = x.timerRetriggered := by
  cases h : x.released <;> simp [Galley.retrigger, Galley.timerRetriggered, Galley.timerAfresh, Galley.timerStarted, h]
  cases x; simp_all

/-- A line that stands is left alone (R95). -/
theorem fitChain_fits (c : Ctx) (n : Nat) (r : Run) (h : r.gal.fits = true) : fitChain c n r = r := by
  cases n <;> simp [fitChain, h]

theorem fitChain_stopped (c : Ctx) (n : Nat) (r : Run) (h : r.stopped = true) : fitChain c n r = r := by
  cases n <;> simp [fitChain, h]

theorem limitClose_room (c : Ctx) (r : Run) (n : Nat) (h : r.gal.builder.entries.length + n ≤ 160) :
    limitClose c r n = (r, false) := by
  simp [limitClose, Config.entryLimit, Nat.not_lt.2 h]

/-! ### Line close (R61, R100) -/

/-- Everything a line close can do: an empty line; a record that joins the output queue; a record that finds it full. Each halts, or defers a
halt, where a FORCE mark acts. -/
theorem closeLine_cases (c : Ctx) (r : Run) (entries : List Entry) (forced wide last : Bool) (carry : List Entry)
    (opps : List Opp) :
    let t := closeLine c r entries forced wide last carry opps
    let body := dropTrailingSpaces (sealLine c.fonts entries)
    (body = [] ∧ t.gal.output = r.gal.output ∧ t.gal.held = r.gal.held) ∨
    (body ≠ [] ∧ r.gal.output.length < 4 ∧ (∃ l : LineRecord, t.gal.output = r.gal.output ++ [l] ∧
      l.galley = c.id ∧ l.number = r.gal.lineNumber ∧ l.depth = r.gal.builder.lineDepth.getD r.gal.nextDepth) ∧
      t.gal.held = r.gal.held) ∨
    (body ≠ [] ∧ 4 ≤ r.gal.output.length ∧ t.gal.output = r.gal.output ∧ t.stopped = true ∧ t.gal.state = .blocked ∧
      ∃ h : HeldLine, t.gal.held = some h ∧ h.entries = body.length ∧ h.record.galley = c.id ∧
        h.record.number = r.gal.lineNumber ∧ h.record.depth = r.gal.builder.lineDepth.getD r.gal.nextDepth) := by
  have hout : ∀ (q : Run) (l : LineRecord), (q.giveException c l).gal.output = q.gal.output ∧
      (q.giveException c l).gal.held = q.gal.held := by
    intro q l
    obtain ⟨_, h⟩ | ⟨_, _, h⟩ | ⟨_, _, h⟩ := q.giveException_cases c l <;> simp [h]
  have ha : (r.gal.afterClose carry opps).output = r.gal.output ∧ (r.gal.afterClose carry opps).held = r.gal.held := by
    simp only [Galley.afterClose, Galley.retrigger_eq, Galley.timerRetriggered, Galley.timerAfresh]
    split <;> simp
  intro t body
  cases hact : r.gal.mark.acts (r.gal.afterClose carry opps).builder.entries <;>
  · by_cases hb : body = []
    · refine .inl ⟨hb, ?_⟩
      simp only [t, closeLine, hact]
      rw [if_pos (by simpa [body] using hb)]
      simp [Run.halt_eq, Galley.haltedWith, ha]
    · have hb' : ¬(dropTrailingSpaces (sealLine c.fonts entries)).isEmpty = true := by simpa [body] using hb
      by_cases hl : r.gal.output.length < 4
      · refine .inr (.inl ⟨hb, hl, ?_⟩)
        simp only [t, closeLine, hact]
        rw [if_neg hb', if_pos (by simpa [hout, ha, Config.outputCapacity] using hl)]
        exact ⟨⟨_, by simp [Run.halt_eq, Galley.haltedWith, hout, ha]; rfl, rfl, rfl, rfl⟩,
          by simp [Run.halt_eq, Galley.haltedWith, hout, ha]⟩
      · refine .inr (.inr ⟨hb, Nat.not_lt.1 hl, ?_⟩)
        simp only [t, closeLine, hact]
        rw [if_neg hb', if_neg (by simpa [hout, ha, Config.outputCapacity] using hl)]
        exact ⟨by simp [hout, ha], rfl, rfl, ⟨_, rfl, rfl, rfl, rfl, rfl⟩⟩

/-! ### Proceeding (R63) -/

theorem startCarry_none (c : Ctx) (r : Run) (h : r.gal.hasCarry = false) : startCarry c r = r := by
  simp [startCarry, h]

/-- A galley that is ready to consume consumes the item at its front (R63 step 5). -/
theorem proceed_consumes (c : Ctx) (x : Galley) (h : x.ReadyToConsume) (hs : x.story ≠ []) :
    proceed c (Run.start x) = consumeItem c (Run.start x) := by
  obtain ⟨hp, hh, hc, ht⟩ := h
  have hp' : x.proceeding = true := by
    obtain h | h := hp <;> simp [Galley.proceeding, h]
  have ht' : x.tagNames = false := by
    cases h : x.tagNames with
    | false => rfl
    | true =>
      exfalso; apply ht
      simp only [Galley.tagNames, Bool.and_eq_true, beq_iff_eq] at h
      exact ⟨h.1.1, h.1.2, h.2⟩
  have he : x.story.isEmpty = false := by cases hx : x.story <;> simp_all
  simp [proceed, hp', hh, startCarry_none c (Run.start x) hc, proceedQueue, he, ht']

/-- The consumption rows: a galley that is ready to consume, with an item of the row's kind at its front (R48, R63). -/
theorem consumeEvent_ready (s : State) (g : GalleyId) (want : Item → Bool) (i : Item) (rest : List Item)
    (h : (s.galley g).ReadyToConsume) (hs : (s.galley g).story = i :: rest) (hw : want i = true) :
    consumeEvent s g want = s.noting (s.commit g (consumeItem (s.ctx g false) (Run.start (s.galley g)))) := by
  have hne : (s.galley g).story ≠ [] := by simp [hs]
  have hp := proceed_consumes (s.ctx g false) _ h hne
  obtain ⟨hst, _, _, ht⟩ := h
  have hp' : (s.galley g).proceeding = true := by
    obtain h | h := hst <;> simp [Galley.proceeding, h]
  have ht' : (s.galley g).tagNames = false := by
    cases h : (s.galley g).tagNames with
    | false => rfl
    | true =>
      exfalso; apply ht
      simp only [Galley.tagNames, Bool.and_eq_true, beq_iff_eq] at h
      exact ⟨h.1.1, h.1.2, h.2⟩
  simp [consumeEvent, galleyProceeds, hs, hp', ht', hw, hp]

/-- A consumption row whose kind is not the front item's, or whose galley does not proceed, changes nothing (log entry 2). -/
theorem consumeEvent_other (s : State) (g : GalleyId) (want : Item → Bool)
    (h : (s.galley g).proceeding = false ∨ ∀ i rest, (s.galley g).story = i :: rest → want i = false) :
    consumeEvent s g want = s := by
  unfold consumeEvent
  dsimp only
  cases hs : (s.galley g).story with
  | nil => rfl
  | cons i rest => obtain h | h := h <;> simp_all

/-! ### Lookups (R36) -/

theorem lookup_finds (fonts : Vector Slot 16) (n : SlotId) (u : CodeUnit) (h : Header) (r : GlyphRecord) (sub : Bool)
    (hf : (fonts[n]).Finds u h r sub) : lookup fonts n u = some (r, h.matrix, sub) := by
  obtain ⟨h1, h2, ⟨rfl, h3⟩ | ⟨rfl, h3, h4⟩⟩ := hf <;> simp only [lookup, *]

theorem lookup_invalid (fonts : Vector Slot 16) (n : SlotId) (u : CodeUnit) (h : (fonts[n]).state ≠ .valid) :
    lookup fonts n u = none := by
  unfold lookup; dsimp only; split <;> simp_all

theorem lookupHeader_invalid (fonts : Vector Slot 16) (n : SlotId) (h : (fonts[n]).state ≠ .valid) :
    lookupHeader fonts n = none := by
  unfold lookupHeader; dsimp only; split <;> simp_all

/-! ### The builder (R81, R93) -/

@[simp] theorem Builder.withEntries_entries (b : Builder) (es : List Entry) : (b.withEntries es).entries = shape true es := rfl
@[simp] theorem Builder.withEntries_sums (b : Builder) (es : List Entry) :
    (b.withEntries es).sums = sumsOf (b.withEntries es).entries := rfl
@[simp] theorem Builder.withEntries_pendingLetter (b : Builder) (es : List Entry) :
    (b.withEntries es).pendingLetter = pendingOf (b.withEntries es).entries := rfl
@[simp] theorem Builder.withEntries_lineDepth (b : Builder) (es : List Entry) :
    (b.withEntries es).lineDepth = b.lineDepth := rfl
@[simp] theorem Builder.withEntries_clampMark (b : Builder) (es : List Entry) :
    (b.withEntries es).clampMark = b.clampMark := rfl

theorem pushOpp_length (q : List Opp) (o : Opp) (h : q.length ≤ 48) : (pushOpp q o).length ≤ 48 := by
  unfold pushOpp Config.opportunityLimit; split <;> simp <;> omega

theorem shapeFrom_length (isOpen : Bool) (prev : Joining) (es : List Entry) :
    (shapeFrom isOpen prev es).length = es.length := by
  induction es generalizing prev with
  | nil => rfl
  | cons e es ih => simp only [shapeFrom]; split <;> simp [ih]

@[simp] theorem shape_length (isOpen : Bool) (es : List Entry) : (shape isOpen es).length = es.length :=
  shapeFrom_length isOpen .none es

end Sys2Proof.Machine
end

