-- ==== Sys2Proof/Laws/PhotoUnit.lean ====
section
/-! SUPPORT. What the arbiter's and the unit link controller's operations do. -/

namespace Sys2Proof.Machine

/-- The four galleys are all of them. -/
theorem mem_allGalleys (g : GalleyId) : g ∈ allGalleys := by revert g; decide

/-- Whether all four galleys are OFF (R125). -/
theorem State.allOff_iff (s : State) : s.allOff = true ↔ ∀ g, (s.galley g).state = .off := by
  simp only [State.allOff, List.all_eq_true, beq_iff_eq]
  exact ⟨fun h g => h g (mem_allGalleys g), fun h g _ => h g⟩

/-- The issue condition (R132). -/
theorem State.unrestrained_iff (s : State) (d : Nat) :
    s.unrestrained d = true ↔
      ∀ g, (s.galley g).restraining = true → (s.galley g).output = [] → d ≤ (s.galley g).frontier + 1200 := by
  simp only [State.unrestrained, List.all_eq_true, Config.reverseAllowance, Bool.not_eq_true', Bool.and_eq_false_iff,
    List.isEmpty_eq_false_iff]
  constructor
  · intro h g hr ho
    obtain (h | h) | h := h g (mem_allGalleys g)
    · simp [hr] at h
    · exact absurd ho h
    · exact Nat.le_of_not_lt (of_decide_eq_false h)
  · intro h g _
    by_cases hr : (s.galley g).restraining = true
    · by_cases ho : (s.galley g).output = []
      · have := h g hr ho
        exact .inr (decide_eq_false (Nat.not_lt.2 this))
      · exact .inl (.inr ho)
    · exact .inl (.inl (by simpa using hr))

/-- No candidate: every queue is empty (R131). -/
theorem candidateOf_none (s : State) (gs : List GalleyId) (h : candidateOf s gs = none) :
    ∀ g ∈ gs, (s.galley g).output = [] := by
  induction gs with
  | nil => simp
  | cons b gs ih =>
    simp only [candidateOf] at h
    split at h
    · rename_i ho
      intro g hg
      rcases List.mem_cons.1 hg with rfl | hg
      · exact ho
      · exact ih h g hg
    · simp at h
    · split at h <;> simp at h

/-- The candidate of a list of galleys stands at the head of its queue, at a depth no other head undercuts (R131). -/
theorem candidateOf_some (s : State) (gs : List GalleyId) (g : GalleyId) (l : LineRecord)
    (h : candidateOf s gs = some (g, l)) :
    (∃ rest, (s.galley g).output = l :: rest) ∧
      ∀ g' ∈ gs, ∀ l' rest', (s.galley g').output = l' :: rest' → l.depth ≤ l'.depth := by
  induction gs generalizing g l with
  | nil => simp [candidateOf] at h
  | cons a gs ih =>
    simp only [candidateOf] at h
    split at h
    · rename_i ho
      have := ih g l h
      refine ⟨this.1, ?_⟩
      intro g' hg l' rest' he
      rcases List.mem_cons.1 hg with rfl | hg
      · simp [ho] at he
      · exact this.2 g' hg l' rest' he
    · rename_i x xs ho hc
      obtain ⟨rfl, rfl⟩ : a = g ∧ x = l := by simpa using h
      refine ⟨⟨xs, ho⟩, ?_⟩
      intro g' hg l' rest' he
      rcases List.mem_cons.1 hg with rfl | hg
      · rw [ho] at he; cases he; exact Nat.le_refl _
      · simp [candidateOf_none s gs hc g' hg] at he
    · rename_i x xs g2 l2 ho hc
      obtain ⟨⟨r2, h2⟩, hall⟩ := ih g2 l2 hc
      split at h
      · rename_i hle
        obtain ⟨rfl, rfl⟩ : a = g ∧ x = l := by simpa using h
        refine ⟨⟨xs, ho⟩, ?_⟩
        intro g' hg l' rest' he
        rcases List.mem_cons.1 hg with rfl | hg
        · rw [ho] at he; cases he; exact Nat.le_refl _
        · exact Nat.le_trans hle (hall g' hg l' rest' he)
      · rename_i hle
        obtain ⟨rfl, rfl⟩ : g2 = g ∧ l2 = l := by simpa using h
        refine ⟨⟨r2, h2⟩, ?_⟩
        intro g' hg l' rest' he
        rcases List.mem_cons.1 hg with rfl | hg
        · rw [ho] at he; cases he; omega
        · exact hall g' hg l' rest' he

/-- Everything a selection can do (R130 to R133, R137): nothing, a line order, or the cut. -/
theorem State.select_cases (s : State) :
    s.select = s ∨
    (s.unit.view.gateOpen = true ∧ s.page.state = .closing ∧ s.select = s.issueCut) ∨
    (s.unit.view.gateOpen = true ∧ s.page.state = .open ∧ ∃ g l, s.candidate = some (g, l) ∧
      s.unrestrained l.depth = true ∧ s.select = s.issueLine g l) := by
  unfold State.select
  cases hg : s.unit.view.gateOpen with
  | false => simp
  | true =>
    cases hp : s.page.state with
    | noPage => simp
    | closing => simp
    | _ =>
      cases hc : s.candidate with
      | none => simp
      | some p =>
        obtain ⟨g, l⟩ := p
        cases hu : s.unrestrained l.depth with
        | false => simp [hu]
        | true => exact .inr (.inr ⟨rfl, rfl, g, l, rfl, hu, by simp [hu]⟩)

@[simp] theorem State.selectDue_selectionDue (s : State) : s.selectDue.selectionDue = false := rfl
@[simp] theorem State.selectDue_fonts (s : State) : s.selectDue.fonts = s.fonts := by
  obtain h | ⟨_, _, h⟩ | ⟨_, _, g, l, _, _, h⟩ := s.select_cases <;> simp [State.selectDue, h, State.issueCut, State.issueLine]
@[simp] theorem State.selectDue_galleys (s : State) : s.selectDue.galleys = s.galleys := by
  obtain h | ⟨_, _, h⟩ | ⟨_, _, g, l, _, _, h⟩ := s.select_cases <;> simp [State.selectDue, h, State.issueCut, State.issueLine]
@[simp] theorem State.selectDue_link (s : State) : s.selectDue.link = s.link := by
  obtain h | ⟨_, _, h⟩ | ⟨_, _, g, l, _, _, h⟩ := s.select_cases <;> simp [State.selectDue, h, State.issueCut, State.issueLine]
@[simp] theorem State.selectDue_events (s : State) : s.selectDue.events = s.events := by
  obtain h | ⟨_, _, h⟩ | ⟨_, _, g, l, _, _, h⟩ := s.select_cases <;> simp [State.selectDue, h, State.issueCut, State.issueLine]
@[simp] theorem State.selectDue_free (s : State) : s.selectDue.free = s.free := by
  obtain h | ⟨_, _, h⟩ | ⟨_, _, g, l, _, _, h⟩ := s.select_cases <;> simp [State.selectDue, h, State.issueCut, State.issueLine]
@[simp] theorem State.selectDue_pending (s : State) : s.selectDue.pending = s.pending := by
  obtain h | ⟨_, _, h⟩ | ⟨_, _, g, l, _, _, h⟩ := s.select_cases <;> simp [State.selectDue, h, State.issueCut, State.issueLine]

/-- Asked within the pause after a reset, the controller sends nothing yet (R177). -/
@[simp] theorem UnitLink.ask_in_pause {u : UnitLink} (h : u.resetPause = true) : u.ask = u := by simp [UnitLink.ask, h]
/-- Asked outside that pause, it sends QUERY (R145, R150). -/
@[simp] theorem UnitLink.ask_past_pause {u : UnitLink} (h : u.resetPause = false) : u.ask = u.query := by simp [UnitLink.ask, h]

@[simp] theorem UnitLink.ended_eq (u : UnitLink) : u.ended = u.without := rfl

@[simp] theorem State.exposureHunt_unit (s : State) : s.exposureHunt.unit = s.unit.hunting := rfl
@[simp] theorem State.exposureHunt_galleys (s : State) : s.exposureHunt.galleys = s.galleys := rfl
@[simp] theorem State.exposureHunt_fonts (s : State) : s.exposureHunt.fonts = s.fonts := rfl
@[simp] theorem State.exposureHunt_page (s : State) : s.exposureHunt.page = s.page := rfl
@[simp] theorem State.exposureHunt_events (s : State) : s.exposureHunt.events = s.events := rfl
@[simp] theorem State.exposureHunt_link (s : State) : s.exposureHunt.link = s.link := rfl
@[simp] theorem State.exposureHunt_free (s : State) : s.exposureHunt.free = s.free := rfl
@[simp] theorem State.exposureHunt_pending (s : State) : s.exposureHunt.pending = s.pending := rfl
@[simp] theorem State.exposureHunt_selectionDue (s : State) : s.exposureHunt.selectionDue = s.selectionDue := rfl
@[simp] theorem State.exposureHunt_watched (s : State) : s.exposureHunt.watched = s.watched := rfl

@[simp] theorem State.spoil_cut (s : State) : s.spoil .cut = s := rfl
@[simp] theorem State.spoil_unit (s : State) (k : OrderKind) : (s.spoil k).unit = s.unit := by
  cases k <;> simp [State.spoil]
@[simp] theorem State.spoil_page (s : State) (k : OrderKind) : (s.spoil k).page = s.page := by
  cases k <;> simp [State.spoil]
@[simp] theorem State.spoil_fonts (s : State) (k : OrderKind) : (s.spoil k).fonts = s.fonts := by
  cases k <;> simp [State.spoil]
@[simp] theorem State.spoil_free (s : State) (k : OrderKind) : (s.spoil k).free = s.free := by
  cases k <;> simp [State.spoil]
@[simp] theorem State.spoil_pending (s : State) (k : OrderKind) : (s.spoil k).pending = s.pending := by
  cases k <;> simp [State.spoil]

@[simp] theorem State.spoil_selectionDue (s : State) (k : OrderKind) : (s.spoil k).selectionDue = s.selectionDue := by
  cases k <;> simp [State.spoil]

/-- What the end of an order in failure leaves, whichever notice comes first (R147, R148, R151). -/
theorem State.failOrder_frame (s : State) (o : Order) (fault : FaultCode) :
    (s.failOrder o fault).unit
      = { s.unit.without with
          view := { s.unit.view with
            outstanding := none
            faulted := s.unit.view.faulted || !fault.isTimeout
            silent := s.unit.view.silent || fault.isTimeout
            lastFault := some { number := o.number, cut := o.kind == .cut, fault := fault } } } ∧
      (s.failOrder o fault).page = s.page ∧ (s.failOrder o fault).fonts = s.fonts ∧
      (s.failOrder o fault).free = s.free + 1 ∧ (s.failOrder o fault).pending = s.pending := by
  unfold State.failOrder
  dsimp only
  split <;> simp [UnitLink.without]

end Sys2Proof.Machine
end

