-- ==== Sys2Proof/Tests/Samples.lean ====
section
/-! SUPPORT. Small states, galleys and operands for the tests. -/

namespace Sys2Proof.Tests

open Sys2Proof.Machine

/-- The part with READY sent. -/
def idle : State := { State.reset with link := { State.reset.link with sendQueue := [] } }

/-- A part with a page of 9,600 by 14,000 steps open and a photo unit that is ready. -/
def onPage : State :=
  { idle with
    page := { state := .open, number := 1, width := 9600, depth := 14000, high := 0, lastIssued := 0, nextOrder := 0 }
    unit := { idle.unit with view := { idle.unit.view with known := true }, resetPause := false } }

/-- The part within the pause after a reset, a line order of galley 0 having failed there. -/
def faultInPause : State :=
  { idle with
    unit := { idle.unit with
      view := { idle.unit.view with
        known := true, faulted := true, lastFault := some { number := 0, cut := false, fault := .code 3 } } } }

/-- That part with H at a depth. -/
def highAt (s : State) (h : Nat) : State := { s with page := { s.page with high := h, lastIssued := h } }

/-- A plain column of 500 steps. -/
def column : Params :=
  { measure := 500, xOffset := 0, leading := 30, align := .start, direction := .ltr, hyphenation := true }

/-- A galley opened at depth 100 with an idle interval of 3 seconds, at 9 points in slot 0. -/
def ready : Galley := Galley.reset.opened column 100 30 0 36 0

/-- A galley that sets some items. -/
def setting (items : List Item) : Galley := { ready with state := .setting, story := items }

/-- A galley halted at the host's request with some items waiting. -/
def halted (items : List Item) : Galley := { ready with state := .halted, cause := some .request, story := items }

/-- A part with this galley 0. -/
def withG (x : Galley) : State := onPage.setGalley 0 x

/-- A base letter 'A' of 32 ru, a mark, a letter 'B' that joins on both sides, and the missing-glyph record '?'. -/
def recA : GlyphRecord :=
  { code := 0x41, base := { glyph := 65, advance := 32 }, direction := .l, joining := .none, kernClass := 1, initial := none,
    medial := none, final := none, mirror := none, anchor := none, markOffset := none }
def recM : GlyphRecord :=
  { recA with code := 0x4D, direction := .m, joining := .clear, markOffset := some { dx := -2, dy := 20, stack := 8 } }
def recB : GlyphRecord :=
  { recA with
    code := 0x42, direction := .r, joining := .dual, initial := some { glyph := 66, advance := 20 }
    medial := some { glyph := 67, advance := 21 }, final := some { glyph := 68, advance := 33 } }
def recMissing : GlyphRecord := { recA with code := 0x3F, base := { glyph := 63, advance := 10 } }

/-- A VALID slot of these records. -/
def font : Slot :=
  { state := .valid,
    header := some { matrix := 41, natural := 16, minimum := 12, maximum := 24, missing := 0x3F, declared := 4 },
    records := [recA, recM, recB, recMissing], kern := KernTable.zero, rejected := [], overflow := false, silence := false }

/-- The part with galley 0 as given and that font in slot 0. -/
def typed (x : Galley) : State := (withG x).setFont 0 font

/-- A slot that is being loaded, with no record yet. -/
def loading : Slot :=
  { Slot.empty with
    state := .loading
    header := some { matrix := 41, natural := 16, minimum := 12, maximum := 24, missing := 0x41, declared := 1 }
    silence := true }

/-- A part whose slot 0 is as given. -/
def withFont (f : Slot) : State := idle.setFont 0 f

/-- The entry of a fixed space, and one of the base letter 'A'. -/
def fixedEntry : Entry :=
  { body := .fixed 14400, code := 0xF001, slot := 0, size := 36, track := 0, shift := 0, index := 0, disc := none }
def partA : GlyphPart := (ready.prepare 0x41 none (recA, 41, false)).glyph false
def entryA : Entry := (ready.prepare 0x41 none (recA, 41, false)).entry (.glyph partA)

/-- Entries of the mark, of the letter 'B' that joins on both sides, and of a space. -/
def entryM : Entry :=
  (ready.prepare 0x4D none (recM, 41, false)).entry (.mark { matrix := 41, record := recM, substituted := false })
def partB : GlyphPart := (ready.prepare 0x42 none (recB, 41, false)).glyph false
def entryB : Entry := (ready.prepare 0x42 none (recB, 41, false)).entry (.glyph partB)
def spaceEntry : Entry := { fixedEntry with body := .space 14400 10800 21600, code := 0xF000 }

/-- A started line of some entries. -/
def lineOf (es : List Entry) : Builder := { Builder.empty with lineDepth := some 100 }.withEntries es

/-- A started line holding one fixed space. -/
def openLine : Builder :=
  { Builder.empty with lineDepth := some 100 }.addFixed onPage.fonts fixedEntry

/-- The carry of one fixed space. -/
def carry : Builder := { openLine with lineDepth := none }

/-- A closed line of galley 0 at a depth. -/
def lineAt (d : Nat) : LineRecord :=
  { galley := 0, number := 0, depth := d, first := 0, placements := [], exceptions := ExcSet.none, amount := 0 }

/-- A closed line held. -/
def heldAt (d : Nat) : HeldLine := { record := lineAt d, entries := 1 }

/-- The part with an order outstanding. -/
def awaiting (s : State) (k : OrderKind) : State :=
  { s with unit := { s.unit with view := { s.unit.view with outstanding := some { number := 5, kind := k } }, orderTimer := true } }

/-- The next state of a command, or the state itself where there is none. -/
def run (c : Instr) (s : State) : State :=
  match exec c s with
  | .next t => t
  | _ => s

/-- Every command answers a next state, the one `run` gives. -/
theorem exec_run (c : Instr) (s : State) : exec c s = .next (run c s) := by cases c <;> rfl

/-- What the last frame of the send queue carries, when it is a reply: result and data. -/
def lastReply (s : State) : Option (Result × List Byte) :=
  match s.link.sendQueue.getLast? with
  | some (.reply _ _ r d) => some (r, d)
  | _ => none

end Sys2Proof.Tests
end

