-- ==== Sys2Proof/Tests/Slice0.lean ====
section
/-! SUPPORT. Tests of one step or one operation each. What a test expects stands in the manual's worked figures, which its comment names, or
is computed by hand from the rule it names. -/

namespace Sys2Proof.Tests

open Sys2Proof.Machine

-- One theorem after another: many kernel evaluations waiting at once would each hold a thread.
set_option Elab.async false

/-! ### Operands a row cannot have are refused -/

theorem test_wellFormed_takes_a_request : (Instr.resume 0 [0]).wellFormed = true := by decide

theorem test_wellFormed_refuses_an_empty_body : (Instr.resume 0 []).wellFormed = false := by decide

theorem test_wellFormed_refuses_a_body_of_1101_bytes : (Instr.story 0 (List.replicate 1101 0)).wellFormed = false := by
  decide +kernel

theorem test_wellFormed_refuses_a_frame_without_a_body : (Instr.frameHeld (.whole 0x40 0 [] 0)).wellFormed = false := by decide

theorem test_wellFormed_refuses_a_good_bad_frame : (Instr.badFrame (goodFrame 0x40 0 [0])).wellFormed = false := by decide

theorem test_wellFormed_refuses_a_known_unknown : (Instr.unknown 0x40 0 [0]).wellFormed = false := by decide

theorem test_wellFormed_refuses_drain_of_form_discard : (Instr.galleyCloseDrain 0 [1]).wellFormed = false := by decide

theorem test_wellFormed_refuses_discard_of_form_drain : (Instr.galleyCloseDiscard 0 [0]).wellFormed = false := by decide

theorem test_wellFormed_refuses_a_report_as_discarded :
    (Instr.exposureFrameDiscard [0, 1, 0x41, 5, 0xB9]).wellFormed = false := by decide

theorem test_wellFormed_refuses_an_unfinished_frame_as_discarded :
    (Instr.exposureFrameDiscard [0, 1, 0x41, 5]).wellFormed = false := by decide

/-! ### No row has bits -/

theorem test_no_word_spells_a_command : decodeTableWord 16 0xFFFF = none ∧ idle.withFetchWord 16 0xFFFF = idle := by decide

/-! ### Measures (chapter 1) -/

/-- The table under R12. -/
theorem test_toSteps_table :
    [191, 192, 576, 48, -191, -192, -193, -576, -577].map toSteps = [0, 1, 2, 0, 0, 0, -1, -1, -2] := by decide

/-- Worked figures: advances (1.3). -/
theorem test_advances :
    glyphAdvance 30 0 0 36 = 27000 ∧ glyphAdvance 3 (-5) 0 36 = 0 ∧ glyphAdvance 4 (-3) 0 36 = 900 ∧
    glyphAdvance 4 (-3) (-4) 36 = 0 := by decide

/-- Worked figures: a justified line (1.6): three spaces of a measure of 1,800 steps. -/
theorem test_justified_line :
    settle .justify .ltr false 691200 647500 (List.replicate 3 (14800, 11100, 22200))
      = { spaces := [14567, 14567, 14566], width := 691200, offset := 0, loose := false } := by decide

/-- Worked figures: marks (1.7): the second mark on a base of 48 qp, anchor (12, 44), shift −24, its own size 40 qp. -/
theorem test_second_mark_of_mixed_sizes :
    (placeMark 0 0
      { (ready.prepare 0x41 none (recA, 41, false)).entry (.fixed 0) with size := 48, shift := -24 } { dx := 12, dy := 44 } 1
      { (ready.prepare 0x4D none (recM, 41, false)).entry (.fixed 0) with size := 40 }
      { matrix := 41, record := { recM with markOffset := some { dx := 0, dy := -6, stack := -10 } }, substituted := false }).y
      = 72 := by decide

/-! ### The font store (chapter 2) -/

/-- A record of 2.8, with a code. -/
def recOf (c : CodeUnit) : GlyphRecord := { recA with code := c }

/-- A mark that carries an anchor: the content error of 2.8's fifth record. -/
def recAnchored : GlyphRecord := { recM with code := 0x064E, anchor := some { dx := 0, dy := 0 } }

/-- The bytes of a record with its check wrong. -/
def spoilt (r : GlyphRecord) : List Byte := r.bytes.set 8 (r.bytes.getD 8 0 + 1)

/-- 2.8, the first FONT GLYPHS frame, without the records of the other slots: 3 stored, 2 rejected, the first rejected at position 3. -/
theorem test_fontGlyphs_counts_rejected_records :
    let t := run (.fontGlyphs 0 (5 :: ((recOf 0x0627).bytes ++ (recOf 0x0628).bytes ++ spoilt (recOf 0x062A)
      ++ (recOf 0x003F).bytes ++ recAnchored.bytes))) (withFont loading)
    lastReply t = some (.done, [3, 2, 3, 0, 0, 3, 0x0F, 0xFD]) ∧ (t.font 0).rejected = [0x062A, 0x064E] := by
  decide +kernel

/-- 2.8, FONT END of a load that meets its conditions. -/
theorem test_fontEnd_makes_the_slot_valid :
    let t := run (.fontEnd 0 [0]) (withFont { loading with records := [recA] })
    (t.font 0).state = .valid ∧ t.events.flag .fontDone = some (.fontDone 0 true) := by
  decide +kernel

/-- R36: a code with no record is set as the missing-glyph record. -/
theorem test_char_without_a_record_is_missing :
    let t := run (.char 0) (typed (setting [.char 0x5A]))
    (t.galley 0).builder.entries.map Entry.code = [0x5A] ∧
    (bearsExceptions (t.galley 0).builder.entries ExcSet.none).missing = true := by
  decide +kernel

/-! ### Stories (chapter 3) -/

/-- The units of the STORY frame of 3.3. -/
def frame33 : List Byte :=
  [0xF0, 0x20, 0x00, 0x24, 0x06, 0x45, 0x06, 0x31, 0x06, 0x2D, 0x06, 0x28, 0x06, 0x27, 0x00, 0x0D, 0x00, 0x0A, 0xF0, 0x00,
   0xF0, 0x40, 0x01, 0x00, 0x00, 0x2D, 0x06, 0x28, 0x06, 0x43, 0xF0, 0x02, 0x00, 0x0A, 0xF0, 0x31, 0xF0, 0x21, 0xFF, 0xC0]

/-- 3.3: the frame's 13 items. -/
theorem test_story_frame_items :
    (match readStory frame33 with | .ok items => items | .error _ => [])
      = [.size 36, .char 0x0645, .char 0x0631, .char 0x062D, .char 0x0628, .char 0x0627, .space, .disc [0x2D] [] [],
         .char 0x0628, .char 0x0643, .para, .dirRtl, .track 0xFFC0] := by
  decide

/-- 3.3: the reply at a galley of 1,000 units: 17 units, 13 items, 7 free. -/
theorem test_story_frame_reply :
    lastReply (run (.story 0 frame33) (withG (setting (List.replicate 1000 .para))))
      = some (.done, [0, 17, 0, 13, 0, 7]) := by
  decide +kernel

/-- 3.3: at a galley of 1,008 units the frame is refused with FULL and a free count of 16. -/
theorem test_story_frame_full :
    lastReply (run (.story 0 frame33) (withG (setting (List.replicate 1008 .para)))) = some (.full, [0, 16]) := by
  decide +kernel

/-- 3.3: the frame ended at offset 18 is SPLIT there; 0xF032 at offset 17 is UNDEFINED there. -/
theorem test_story_frame_refusals :
    lastReply (run (.story 0 (frame33.take 38)) (withG (setting []))) = some (.badItem, [3, 0, 18]) ∧
    lastReply (run (.story 0 (frame33.set 35 0x32)) (withG (setting []))) = some (.badItem, [2, 0, 17]) := by
  decide +kernel

/-- The last row of the table in 3.5: TRACK −64 with no started line. -/
theorem test_track_is_clamped :
    let x := (run (.track 0) (withG (setting [.track 0xFFC0]))).galley 0
    x.track = -32 ∧ x.clampPending = true ∧ x.itemIndex = 1 := by
  decide +kernel

/-! ### Building a line (chapters 5 and 11) -/

/-- A record of joining letters: its code and its advances in the forms ISOLATED, INITIAL, MEDIAL, FINAL. -/
def letter (c : CodeUnit) (j : Joining) (iso : Nat) (ini med fin : Option Nat) : GlyphRecord :=
  { recA with
    code := c, base := { glyph := 1, advance := iso }, direction := .r, joining := j, kernClass := 0
    initial := ini.map (fun w => { glyph := 2, advance := w }), medial := med.map (fun w => { glyph := 3, advance := w })
    final := fin.map (fun w => { glyph := 4, advance := w }) }

/-- The letters of 11.1. -/
def letterP := letter 0x70 .dual 40 (some 24) (some 22) (some 38)
def letterQ := letter 0x71 .dual 30 (some 18) (some 16) (some 28)
def letterR := letter 0x72 .trail 20 none none (some 22)

/-- A builder that some records have entered. -/
def entered (rs : List GlyphRecord) : Builder :=
  rs.foldl (fun b r => b.enter onPage.fonts (ready.prepare r.code none (r, 41, false)))
    { Builder.empty with lineDepth := some 100 }

/-- The form and the advance of each GLYPH entry of a galley. -/
def formsOf (b : Builder) : List (Form × Nat) :=
  b.entries.filterMap (fun e => match e.body with | .glyph p => some (p.form, p.advance) | _ => none)

/-- 11.1, the table's third row: r resolves q to MEDIAL, and is resolved itself. -/
theorem test_char_joins_its_neighbours :
    let x := (run (.char 0)
      ((withG { setting [.char 0x72] with builder := entered [letterP, letterQ] }).setFont 0
        { font with records := [letterP, letterQ, letterR] })).galley 0
    formsOf x.builder = [(.initial, 21600), (.medial, 14400), (.final, 19800)] ∧ x.builder.pendingLetter = none ∧
    x.builder.sums.g = 55800 := by
  decide +kernel

/-- The records of 11.2: A, u, x, y and the pre-break letter w. -/
def recs112 : List GlyphRecord :=
  [letter 0x41 .none 20 none none none, letter 0x75 .dual 12 (some 8) (some 7) (some 11),
   letter 0x78 .dual 9 (some 6) (some 5) (some 8), letter 0x79 .dual 12 (some 8) (some 7) (some 11),
   letter 0x77 .trail 10 none none (some 11)]

/-- A part as 11.2 has it, its galley with a story, a column of 120 steps, and what the builder holds. -/
def part112 (b : Builder) (story : List Item) : State :=
  (withG { setting story with
    active := { measure := 120, xOffset := 1000, leading := 30, align := .justify, direction := .rtl, hyphenation := true }
    direction := .rtl, builder := b, hasEntries := true }).setFont 0 { font with records := recs112 }

/-- A record of 11.2 with the values of its galley. -/
def copy112 (n : Nat) (d : Option DiscMember) : Prepared :=
  ready.prepare (recs112.getD n recA).code d (recs112.getD n recA, 41, false)

/-- 11.2 before y: A, a space, u and the no-break letter x, the opportunities the space and the DISC. -/
def builder112 : Builder :=
  { ((((entered (recs112.take 1)).addSpace onPage.fonts
      { body := .space 14400 10800 21600, code := 0xF000, slot := 0, size := 36, track := 0, shift := 0, index := 1
        disc := none }).enter onPage.fonts (copy112 1 none)).enter onPage.fonts
          (copy112 2 (some { number := 3, role := .noBreak }))) with
    opps :=
      [{ place := 1, kind := .space }, { place := 3, kind := .disc 3 [copy112 4 (some { number := 3, role := .pre })] [] 1 }] }

/-- 11.2: y breaks the line at the DISC, and goes to the next line alone, set ISOLATED. -/
theorem test_char_breaks_at_the_disc :
    let x := (run (.char 0) (part112 builder112 [.char 0x79])).galley 0
    formsOf x.builder = [(.isolated, 10800)] ∧ x.builder.lineDepth = some 130 ∧ x.builder.opps = [] := by
  decide +kernel

/-- R98 step 4, by hand: in B d1[G] d2 m c the break at d1 takes G and its mark away, and d2, which stood between them, goes to the head of
the carry. -/
theorem test_disc_before_a_dropped_mark_moves :
    let k := breakAt onPage.fonts [entryA, { entryA with disc := some { number := 4, role := .noBreak } }, entryM, entryA]
      { place := 1, kind := .disc 4 [] [] 1 } [{ place := 2, kind := .disc 5 [] [] 0 }]
    k.carry.length = 1 ∧ k.opps = [{ place := 0, kind := .disc 5 [] [] 0 }] := by
  decide +kernel

/-- 11.2: the places of w, u and A in the line that closed. -/
theorem test_broken_line_is_placed :
    ((run (.char 0) (part112 builder112 [.char 0x79])).galley 0).output.map (fun l => (l.placements.map Placement.x, l.amount))
      = [([1000, 1026, 1073], 0)] := by
  decide +kernel

/-! ### Closing a line (chapter 6) -/

/-- A cluster of one base, told by its code, of a direction class. -/
def base (c : CodeUnit) (x : DirClass) : Cluster :=
  { base := (ready.prepare c none (recA, 41, false)).entry
      (.glyph ((ready.prepare c none ({ recA with direction := x }, 41, false)).glyph false))
    marks := [] }

/-- The codes of a line's bases in visual order. -/
def visualCodes (para : Dir) (cs : List Cluster) : List CodeUnit :=
  (visualOrder para (resolve para cs)).map (fun x => x.2.base.code)

/-- 'A number inside right-to-left text' (chapter 6): a b sp 1 2 sp c d becomes d c sp 1 2 sp b a. -/
theorem test_number_in_right_to_left_text :
    visualCodes .rtl [base 1 .r, base 2 .r, base 9 .n, base 11 .d, base 12 .d, base 8 .n, base 3 .r, base 4 .r]
      = [4, 3, 8, 11, 12, 9, 2, 1] := by
  decide

/-- 'A right-to-left word in parentheses' (chapter 6): x sp ( a b ) sp y becomes x sp ( b a ) sp y, and in an RTL paragraph
y sp ) b a ( sp x by the bases' own codes. -/
theorem test_parentheses_in_both_paragraphs :
    let line := [base 10 .l, base 20 .n, base 21 .n, base 1 .r, base 2 .r, base 22 .n, base 23 .n, base 11 .l]
    visualCodes .ltr line = [10, 20, 21, 2, 1, 22, 23, 11] ∧ visualCodes .rtl line = [11, 23, 22, 2, 1, 21, 20, 10] := by
  decide

/-- 'A shorter paragraph last line' (chapter 6): set naturally from the right edge. -/
theorem test_last_line_of_a_right_to_left_paragraph :
    settle .justify .rtl true 691200 259000 [(14800, 11100, 22200)]
      = { spaces := [14800], width := 273800, offset := 417400, loose := false } := by
  decide

/-- 'Exceptions and amounts' (chapter 6), lines 40 and 41: LOOSE by 180 steps and FORCED by 21. -/
theorem test_amounts_of_loose_and_forced :
    (let st := settle .justify .ltr false 691200 600000 [(14800, 11100, 22200)]
     st.loose = true ∧ closeAmount { ExcSet.none with loose := true } 691200 st [(14800, 11100, 22200)] = 180) ∧
    closeAmount { ExcSet.none with forced := true } 691200
      (settle .justify .ltr false 691200 677000 (List.replicate 2 (14800, 11100, 22200))) [] = 21 := by
  decide

/-! ### Galleys (chapter 4) -/

/-- 4.14: the carry's line start below the page; RESUME takes it and the galley halts with OVERMATTER again. -/
theorem test_resume_into_overmatter :
    let t := run (.resume 0 [0])
      (withG { halted [] with cause := some .overmatter, builder := carry, lastDepth := some 13980 })
    lastReply { t with link := { t.link with sendQueue := t.link.sendQueue.take 1 } } = some (.done, [5, 4]) ∧
    t.events.flag (.halted 0) = some (.halted .overmatter) := by
  decide +kernel

/-- 4.14: RESTART at 12,000 with H at 13,990 is refused with BEHIND, and at 12,900 it is accepted. -/
theorem test_restart_within_the_band :
    lastReply (run (.restart 0 [0x2E, 0xE0]) (highAt (withG (halted [])) 13990)) = some (.behind, []) ∧
    ((run (.restart 0 [0x32, 0x64]) (highAt (withG (halted [])) 13990)).galley 0).topDepth = 12900 := by
  decide +kernel

/-- R57, by hand: the fields of GALLEY OPEN at their places in the body. -/
theorem test_galleyOpen_reads_its_fields :
    let x := (run (.galleyOpen 0 [0x03, 0xE8, 0x02, 0x58, 0x09, 0x60, 0x00, 0x3C, 2, 1, 1, 0x00, 0x1E, 7, 0x00, 0x28, 0xFB])
      onPage).galley 0
    x.state = .ready ∧ x.topDepth = 1000 ∧
    x.active = { measure := 2400, xOffset := 600, leading := 60, align := .atEnd, direction := .rtl, hyphenation := true } ∧
    x.interval = 30 ∧ x.slot = 7 ∧ x.size = 40 ∧ x.track = -5 := by
  decide +kernel

/-! ### The arbiter and the photo unit (chapters 7, 8 and 11) -/

/-- Chapter 7's first row: 2,300 waits for a restraining galley with frontier 1,090 and no line. -/
theorem test_selection_waits_for_a_starved_column :
    let s := (highAt (withG { setting [] with output := [lineAt 2300] }) 2250).setGalley 1 { ready with topDepth := 1090 }
    run .selection s = s := by
  decide +kernel

/-- 11.4's first row: 2,400 is issued past a frontier of 1,200, and H follows. -/
theorem test_selection_issues_at_the_limit :
    let t := run .selection
      ((highAt (withG { setting [] with output := [lineAt 2400] }) 2350).setGalley 1 { ready with topDepth := 1200 })
    t.page.high = 2400 ∧ t.unit.view.outstanding = some { number := 0, kind := .line 0 } ∧ t.unit.transmit = [.line 0 2400 []] := by
  decide +kernel

/-- R134 and R137: PAGE CLOSE with the gate open, then a step with no command waiting: the cut is issued. -/
theorem test_page_close_leads_to_the_cut :
    let t := run (.pageClose 0xFF [0]) onPage
    t.selectionDue = true ∧ (run .selection t).unit.transmit = [.cut 0 14000] ∧ (run .selection t).page.high = 14000 := by
  decide +kernel

theorem test_step_makes_the_due_selection :
    step (run (.pageClose 0xFF [0]) onPage) = exec .selection (run (.pageClose 0xFF [0]) onPage) := rfl

/-- R140: a DONE taken before its order's last byte leaves the frame with the transmitter; that byte then starts no timer. -/
theorem test_frame_outlives_its_order :
    let s := awaiting (withG { setting [] with output := [lineAt 100] }) (.line 0)
    let t := run (.doneReport 5) { s with unit := { s.unit with transmit := [.line 5 100 []], orderTimer := false } }
    t.unit.transmit = [.line 5 100 []] ∧ (run .orderFrameSent t).unit.transmit = [] ∧
    (run .orderFrameSent t).unit.orderTimer = false := by
  decide +kernel

/-- Chapter 8: a late DONE is ignored. -/
theorem test_late_done_is_ignored : run (.doneReport 43) onPage = onPage := by decide +kernel

/-- 11.5: FAULT of code 17 leaves the unit faulted, and the line in its galley's latch as SPOILED, whichever notice goes first. -/
theorem test_fault_spoils_the_line :
    let t := run (.faultReport 5 17) (awaiting (withG { setting [] with output := [lineAt 3000] }) (.line 0))
    t.unit.view.lastFault = some { number := 5, cut := false, fault := .code 17 } ∧
    ((t.galley 0).latch.map (fun e => (e.exceptions, e.amount))) = some ({ ExcSet.none with spoiled := true }, 0) ∧
    t.events.flag .unitFault = some (.unitFault { number := 5, cut := false, fault := .code 17 }) := by
  simp only [run, exec, execFaultReport, State.takeFault, State.failOrder]
  generalize Config.unitFaultFirst _ = b
  revert b
  decide +kernel

/-! ### Events and the composing link (chapters 9, 10 and 11) -/

/-- Chapter 10's second row: the flag of a held unit comes back, the reply showing it set, and its notice follows the reply. -/
theorem test_eventClear_of_a_held_unit :
    let s := { onPage with unit := { onPage.unit with view := { onPage.unit.view with held := true } } }
    let u := s.raise .unitHeld .unitHeld
    (run (.eventClear 0xFF [5, 0xFF]) { u with link := idle.link }).link.sendQueue
      = [.reply 0x05 0xFF .done [1, 0, 0], .notice .unitHeld .unitHeld] := by
  decide +kernel

/-- 11.6: a STATUS frame collected before READY is answered behind it. -/
theorem test_powerOn_answers_the_held_status :
    ((run (.powerOn ([0xA5, 0, 1, 0x01, 0xFF, 0, 0xFF].map PowerUpEvent.byte)) idle).link.sendQueue.map TxFrame.isReply)
      = [false, true] := by
  decide +kernel

/-- R150 and R177: UNIT RESUME within the pause after a reset sends no QUERY, and the pause's end sends one. -/
theorem test_unitResume_within_the_pause :
    let t := run (.unitResume 0xFF [0]) faultInPause
    t.unit.transmit = [] ∧ t.unit.view.known = false ∧ t.unit.view.faulted = false ∧ t.unit.queryTimer = false ∧
      (run .queryAfterReset t).unit.transmit = [.query] := by
  decide +kernel

/-- R164 and 9.7, by hand: the bytes of READY after power-on. -/
theorem test_ready_bytes :
    TxFrame.bytes (.ready .power) = [0xA5, 0, 5, 0x81, 0xFF, 0x10, 0x00, 0xF0, 4, 0, 0x77] := by decide

/-- 11.4's RELEASED notice (frontier 1,200, H 2,400), by hand from 9.7. -/
theorem test_released_notice_bytes :
    TxFrame.bytes (.notice (.released 1) (.released 1200 2400)) = [0xA5, 0, 5, 0x81, 1, 3, 0x04, 0xB0, 0x09, 0x60, 0x59] := by
  decide

/-- R143 and 8.2, by hand: the bytes of a CUT order. -/
theorem test_cut_bytes : ExposureFrame.bytes (.cut 7 14000) = [0x5A, 0, 3, 2, 7, 0x36, 0xB0, 0x0E] := by decide

end Sys2Proof.Tests
end

