-- ==== Sys2Proof/Tests/Witnesses.lean ====
section
/-! SUPPORT. For each statement with hypotheses, a state and operands that meet them. -/

namespace Sys2Proof.Tests

open Sys2Proof.Machine

-- One theorem after another: many kernel evaluations waiting at once would each hold a thread.
set_option Elab.async false

theorem test_witness_StatusReportsTheStateOfOneMoment :
    (fun (s : State) =>
      s.link.canTake = true) idle := by
  decide +kernel

theorem test_witness_EventMaskReplacesTheMask :
    (fun (s : State) =>
      s.link.canTake = true) idle := by
  decide +kernel

theorem test_witness_ReadingsAreLatchedAndReturned :
    ((fun (s : State) (g : GalleyId) (p : PositionRecord) =>
      s.link.canTake = true ∧ (s.galley g).snapshot = some p) (withG { ready with snapshot := some ready.position }) 0 ready.position) ∧
    ((fun (s : State) (g : GalleyId) =>
      s.link.canTake = true ∧ (s.galley g).snapshot = none) idle 0) ∧
    ((fun (s : State) =>
      s.link.canTake = true) idle) ∧
    ((fun (s : State) =>
      s.link.canTake = true) idle) := by
  refine ⟨?_, ?_, ?_, ?_⟩ <;> decide +kernel

theorem test_witness_StoryIsStoredWhole :
    ((fun (s : State) (g : GalleyId) (ps : List Piece) =>
      s.link.canTake = true ∧ ((∀ p ∈ ps, p.good = true)) ∧ (s.galley g).state ∈ [.setting, .blocked, .halted, .draining] ∧
      (s.galley g).released = false ∧ (s.galley g).fill + storyUnits (pieceItems ps : List Item) ≤ 1024) (withG (halted [])) 0 ([.dropped 0x1F, .item (.char 0x41), .item .para])) ∧
    ((fun (s : State) (g : GalleyId) (items : List Item) =>
      s.link.canTake = true ∧ ((∀ i ∈ items, i.wellFormed = true)) ∧ (s.galley g).state ∈ [.ready, .starved] ∧ (s.galley g).released = false ∧
      (s.galley g).story = [] ∧ (s.galley g).held = none ∧ (s.galley g).hasCarry = false ∧ (s.galley g).mark.state = .disarmed ∧
      1 + storyUnits items ≤ 1024) (withG ready) 0 ([.char 0x41, .para])) ∧
    ((fun (s : State) (g : GalleyId) =>
      s.link.canTake = true ∧ (s.galley g).state ∈ [.off, .closing]) idle 0) ∧
    ((fun (s : State) (g : GalleyId) (ps : List Piece) =>
      s.link.canTake = true ∧ ((∀ p ∈ ps, p.good = true)) ∧ (s.galley g).state ∉ [.off, .closing] ∧ (s.galley g).fill ≤ 1024 ∧
      1024 < (s.galley g).fill + storyUnits (pieceItems ps : List Item)) (withG { setting [.para] with story := List.replicate 1024 .para }) 0 ([.dropped 0x1F, .item (.char 0x41), .item .para])) ∧
    ((fun (s : State) (g : GalleyId) (ps : List Piece) =>
      s.link.canTake = true ∧ (s.galley g).state ∉ [.off, .closing] ∧
      ((∀ p ∈ ps, p.good = true))) (withG ready) 0 ([.dropped 0x1F, .item (.char 0x41), .item .para])) := by
  refine ⟨?_, ?_, ?_, ?_, ?_⟩ <;> decide +kernel

theorem test_witness_StoryAtAReleasedGalley :
    ((fun (s : State) (g : GalleyId) (items : List Item) =>
      s.link.canTake = true ∧ ((∀ i ∈ items, i.wellFormed = true)) ∧ (s.galley g).state ∉ [.off, .closing, .halted] ∧
      (s.galley g).released = true ∧ (s.galley g).frontier + 1200 < s.page.high ∧
      (s.galley g).fill + storyUnits items ≤ 1024) (highAt (withG { setting [] with released := true }) 1301) 0 ([.char 0x41, .para])) ∧
    ((fun (s : State) (g : GalleyId) (items : List Item) =>
      s.link.canTake = true ∧ ((∀ i ∈ items, i.wellFormed = true)) ∧ (s.galley g).state ∈ [.setting, .blocked, .draining] ∧
      (s.galley g).released = true ∧ s.page.high ≤ (s.galley g).frontier + 1200 ∧
      (s.galley g).fill + storyUnits items ≤ 1024) (highAt (withG { setting [] with released := true }) 1300) 0 ([.char 0x41, .para])) := by
  refine ⟨?_, ?_⟩ <;> decide +kernel

theorem test_witness_FlushEmptiesTheQueue :
    ((fun (s : State) (g : GalleyId) =>
      s.link.canTake = true ∧ (s.galley g).state = .halted) (withG (halted [])) 0) ∧
    ((fun (s : State) (g : GalleyId) =>
      s.link.canTake = true ∧ (s.galley g).state ≠ .halted) idle 0) ∧
    ((fun (s : State) (target : Byte) =>
      s.link.canTake = true ∧ 4 ≤ target.toNat) idle 4) := by
  refine ⟨?_, ?_, ?_⟩ <;> decide +kernel

theorem test_witness_ParametersAreStagedOrTakenAtOnce :
    ((fun (s : State) (g : GalleyId) (p : Params) =>
      s.link.canTake = true ∧ (s.galley g).state ≠ .off ∧ p.Good s.page.width ∧ (((s.galley g).restraining = true →
      s.page.high ≤ ({ s.galley g with staged := p, pendingFlag := true } : Galley).frontier + 1200))) (withG ready) 0 column) ∧
    ((fun (s : State) (g : GalleyId) (p : Params) =>
      s.link.canTake = true ∧ (s.galley g).state ≠ .off ∧ p.Good s.page.width ∧ (s.galley g).restraining = true ∧
      ({ s.galley g with staged := p, pendingFlag := true } : Galley).frontier + 1200 < s.page.high) (highAt (withG ready) 1301) 0 column) ∧
    ((fun (s : State) (g : GalleyId) (measure : Nat) (xOffset : Nat) (leading : Nat) (align : Byte) (dir : Byte) (hyph : Byte) =>
      s.link.canTake = true ∧ measure < 65536 ∧ xOffset < 65536 ∧ leading < 65536 ∧
      ((measure < 60 ∨ 16000 < measure ∨ 4800 < leading ∨ s.page.width < xOffset + measure ∨ 4 ≤ align.toNat ∨ 2 ≤ dir.toNat ∨ 2 ≤ hyph.toNat)) ∧
      (s.galley g).state ≠ .off) (withG ready) 0 60 9540 4800 3 1 2) ∧
    ((fun (s : State) (g : GalleyId) (measure : Nat) (xOffset : Nat) (leading : Nat) (align : Byte) (dir : Byte) (hyph : Byte) =>
      s.link.canTake = true ∧ measure < 65536 ∧ xOffset < 65536 ∧ leading < 65536 ∧
      ((measure < 60 ∨ 16000 < measure ∨ 4800 < leading ∨ s.page.width < xOffset + measure ∨ 4 ≤ align.toNat ∨ 2 ≤ dir.toNat ∨ 2 ≤ hyph.toNat)) ∧
      (s.galley g).state = .halted ∧ (s.galley g).started = false) (withG (halted [])) 0 60 9540 4800 3 1 2) ∧
    ((fun (s : State) (g : GalleyId) (p : Params) =>
      s.link.canTake = true ∧ (s.galley g).state = .halted ∧ (s.galley g).started = false ∧ p.Good s.page.width ∧ (s.galley g).restraining = true ∧
      ({ s.galley g with active := p, pendingFlag := false } : Galley).frontier + 1200 < s.page.high) (highAt (withG { halted [] with topDepth := 100, lastDepth := some 100 }) 1330) 0 ({ column with leading := 0 })) ∧
    ((fun (s : State) (g : GalleyId) =>
      s.link.canTake = true ∧ (s.galley g).state = .off) idle 0) ∧
    ((fun (s : State) (g : GalleyId) (p : Params) =>
      s.link.canTake = true ∧ (s.galley g).state = .halted ∧ (s.galley g).started = false ∧ p.Good s.page.width ∧
      (((s.galley g).restraining = true → s.page.high ≤ ({ s.galley g with active := p, pendingFlag := false } : Galley).frontier + 1200))) (withG (halted [])) 0 column) ∧
    ((fun (s : State) (g : GalleyId) =>
      s.link.canTake = true ∧ (s.galley g).state = .halted ∧ (s.galley g).started = true) (withG { halted [] with builder := openLine }) 0) ∧
    ((fun (s : State) (g : GalleyId) =>
      s.link.canTake = true ∧ (s.galley g).state ≠ .halted) idle 0) := by
  refine ⟨?_, ?_, ?_, ?_, ?_, ?_, ?_, ?_, ?_⟩ <;> decide +kernel

theorem test_witness_HaltAndMarksAct :
    ((fun (s : State) (g : GalleyId) =>
      s.link.canTake = true ∧ (s.galley g).state ∈ [.ready, .setting, .starved, .blocked, .draining]) (withG ready) 0) ∧
    ((fun (s : State) (g : GalleyId) =>
      s.link.canTake = true ∧ (s.galley g).state ∈ [.off, .closing, .halted]) idle 0) ∧
    ((fun (s : State) (g : GalleyId) (i : StoryIndex) =>
      s.link.canTake = true ∧ (s.galley g).state ∉ [.off, .closing] ∧ (s.galley g).itemIndex.toNat ≤ i.toNat) (withG ready) 0 5) ∧
    ((fun (s : State) (g : GalleyId) (i : StoryIndex) =>
      s.link.canTake = true ∧ (s.galley g).state ∉ [.off, .closing] ∧
      i.toNat < (s.galley g).itemIndex.toNat) (withG { halted [] with itemIndex := 5 }) 0 4) ∧
    ((fun (s : State) (g : GalleyId) (k : Byte) =>
      s.link.canTake = true ∧ (s.galley g).state ∉ [.off, .closing] ∧ 2 ≤ k.toNat) (withG ready) 0 2) ∧
    ((fun (s : State) (g : GalleyId) =>
      s.link.canTake = true ∧ (s.galley g).state ∈ [.off, .closing]) idle 0) ∧
    ((fun (s : State) (g : GalleyId) =>
      s.link.canTake = true ∧ (s.galley g).state ≠ .off) (withG ready) 0) ∧
    ((fun (s : State) (g : GalleyId) =>
      s.link.canTake = true ∧ (s.galley g).state = .off) idle 0) := by
  refine ⟨?_, ?_, ?_, ?_, ?_, ?_, ?_, ?_⟩ <;> decide +kernel

theorem test_witness_OpeningSetsUpTheGalley :
    ((fun (s : State) (g : GalleyId) (o : Opening) =>
      s.link.canTake = true ∧ s.page.state = .open ∧ (s.galley g).state = .off ∧ o.Good s.page ∧
      s.page.high ≤ o.top + 1200) onPage 0 ({ top := 100, params := column, interval := 255, slot := 15, size := 576, track := -32 })) ∧
    ((fun (s : State) (g : GalleyId) (o : Opening) =>
      s.link.canTake = true ∧ s.page.state = .open ∧ (s.galley g).state = .off ∧ o.Good s.page ∧
      o.top + 1200 < s.page.high) (highAt onPage 1301) 0 ({ top := 100, params := column, interval := 255, slot := 15, size := 576, track := -32 })) ∧
    ((fun (s : State) (g : GalleyId) (top : Nat) (xOffset : Nat) (measure : Nat) (leading : Nat) (interval : Nat) (size : Nat) (align : Byte) (dir : Byte) (hyph : Byte) (font : Byte) (track : Byte) =>
      s.link.canTake = true ∧ s.page.state = .open ∧ (s.galley g).state = .off ∧ top < 65536 ∧ xOffset < 65536 ∧ measure < 65536 ∧
      leading < 65536 ∧ interval < 65536 ∧ size < 65536 ∧ ((s.page.depth ≤ top ∨ measure < 60 ∨ 16000 < measure ∨ 4800 < leading ∨ s.page.width < xOffset + measure ∨ 4 ≤ align.toNat ∨ 2 ≤ dir.toNat ∨ 2 ≤ hyph.toNat ∨ 255 < interval ∨ 16 ≤ font.toNat ∨ size < 16 ∨ 576 < size ∨ track.toInt < -32 ∨ 31 < track.toInt))) onPage 0 100 9540 60 4800 255 576 3 1 2 15 32) ∧
    ((fun (s : State) (g : GalleyId) =>
      s.link.canTake = true ∧ s.page.state = .open ∧ (s.galley g).state ≠ .off) (withG ready) 0) ∧
    ((fun (s : State) =>
      s.link.canTake = true ∧ s.page.state ≠ .open) idle) := by
  refine ⟨?_, ?_, ?_, ?_, ?_⟩ <;> decide +kernel

theorem test_witness_GalleyCloseDrainsOrDiscards :
    ((fun (s : State) (g : GalleyId) =>
      s.link.canTake = true ∧ (s.galley g).state ∈ [.blocked, .halted] ∧ (s.galley g).drain = false) (withG (halted [])) 0) ∧
    ((fun (s : State) (g : GalleyId) =>
      s.link.canTake = true ∧ (s.galley g).state ∈ [.ready, .setting, .starved] ∧ (s.galley g).drain = false ∧ (s.galley g).story = [] ∧
      (s.galley g).started = false ∧ (s.galley g).builder.entries = [] ∧ (s.galley g).held = none ∧
      (s.galley g).output ≠ []) (withG { ready with output := [lineAt 100] }) 0) ∧
    ((fun (s : State) (g : GalleyId) =>
      s.link.canTake = true ∧ (s.galley g).state ∈ [.ready, .setting, .starved] ∧ (s.galley g).drain = false ∧ (s.galley g).story = [] ∧
      (s.galley g).started = false ∧ (s.galley g).builder.entries = [] ∧ (s.galley g).held = none ∧ (s.galley g).output = []) (withG ready) 0) ∧
    ((fun (s : State) (g : GalleyId) =>
      s.link.canTake = true ∧ (((s.galley g).state ∈ [.off, .closing] ∨ (s.galley g).drain = true))) idle 0) ∧
    ((fun (s : State) (form : Byte) =>
      s.link.canTake = true ∧ form ≠ 0 ∧ form ≠ 1) idle 2) ∧
    ((fun (s : State) (g : GalleyId) =>
      s.link.canTake = true ∧ (s.galley g).state ∉ [.off, .closing] ∧
      (s.galley g).output ≠ []) (withG { setting [] with state := .draining, output := [lineAt 100] }) 0) ∧
    ((fun (s : State) (g : GalleyId) =>
      s.link.canTake = true ∧ (s.galley g).state ∉ [.off, .closing] ∧ (s.galley g).output = []) (withG ready) 0) ∧
    ((fun (s : State) (g : GalleyId) =>
      s.link.canTake = true ∧ (s.galley g).state ∈ [.off, .closing]) idle 0) := by
  refine ⟨?_, ?_, ?_, ?_, ?_, ?_, ?_, ?_⟩ <;> decide +kernel

theorem test_witness_ResumeProceeds :
    ((fun (s : State) (g : GalleyId) =>
      s.link.canTake = true ∧ (s.galley g).state = .halted ∧ (((s.galley g).released = false ∨ s.page.high ≤ (s.galley g).frontier + 1200)) ∧
      (s.galley g).held.isSome = true) (withG { halted [.para] with held := some (heldAt 100) }) 0) ∧
    ((fun (s : State) (g : GalleyId) =>
      s.link.canTake = true ∧ (s.galley g).state = .halted ∧ (((s.galley g).released = false ∨ s.page.high ≤ (s.galley g).frontier + 1200)) ∧
      (s.galley g).held = none ∧ (s.galley g).story = [] ∧ (s.galley g).hasCarry = false ∧ (s.galley g).drain = false) (withG (halted [])) 0) ∧
    ((fun (s : State) (g : GalleyId) (n : SlotId) (rest : List Item) =>
      s.link.canTake = true ∧ (s.galley g).state = .halted ∧ (((s.galley g).released = false ∨ s.page.high ≤ (s.galley g).frontier + 1200)) ∧
      (s.galley g).held = none ∧ (s.galley g).hasCarry = false ∧ (s.galley g).story = .font n :: rest ∧ (¬((s.galley g).mark.kind = .tag ∧
      (s.galley g).mark.state = .armed ∧ (s.galley g).mark.index = (s.galley g).itemIndex))) (withG (halted [.font 1, .para])) 0 1 ([.para])) ∧
    ((fun (s : State) (g : GalleyId) =>
      s.link.canTake = true ∧ (s.galley g).state = .halted ∧ (s.galley g).released = true ∧
      (s.galley g).frontier + 1200 < s.page.high) (highAt (withG { halted [] with released := true }) 1301) 0) ∧
    ((fun (s : State) (g : GalleyId) =>
      s.link.canTake = true ∧ (s.galley g).state ≠ .halted) idle 0) := by
  refine ⟨?_, ?_, ?_, ?_, ?_⟩ <;> decide +kernel

theorem test_witness_StepConsumesOneItem :
    ((fun (s : State) (g : GalleyId) (n : SlotId) (rest : List Item) =>
      s.link.canTake = true ∧ (s.galley g).state = .halted ∧ (s.galley g).held = none ∧ (s.galley g).hasCarry = false ∧
      (s.galley g).story = .font n :: rest) (withG (halted [.font 1, .para])) 0 1 ([.para])) ∧
    ((fun (s : State) (g : GalleyId) (q : CodeUnit) (rest : List Item) =>
      s.link.canTake = true ∧ (s.galley g).state = .halted ∧ (s.galley g).held = none ∧ (s.galley g).hasCarry = false ∧
      (s.galley g).story = .size q :: rest ∧ 16 ≤ q.toNat ∧ q.toNat ≤ 576) (withG (halted [.size 36])) 0 36 ([])) ∧
    ((fun (s : State) (g : GalleyId) =>
      s.link.canTake = true ∧ (s.galley g).state = .halted ∧ (s.galley g).held.isSome = true) (withG { halted [.para] with held := some (heldAt 100) }) 0) ∧
    ((fun (s : State) (g : GalleyId) =>
      s.link.canTake = true ∧ (s.galley g).state = .halted ∧ (s.galley g).held = none ∧ (s.galley g).story = []) (withG (halted [])) 0) ∧
    ((fun (s : State) (g : GalleyId) =>
      s.link.canTake = true ∧ (s.galley g).state ≠ .halted) idle 0) := by
  refine ⟨?_, ?_, ?_, ?_, ?_⟩ <;> decide +kernel

theorem test_witness_RestartGivesANewTop :
    ((fun (s : State) (g : GalleyId) (top : Nat) =>
      s.link.canTake = true ∧ (s.galley g).state = .halted ∧ s.page.state = .open ∧ (s.galley g).started = false ∧ top < s.page.depth ∧
      top < 65536 ∧ s.page.high ≤ top + 1200 ∧ ((∀ l ∈ (s.galley g).closedLines, l.depth ≤ top))) (withG (halted [])) 0 100) ∧
    ((fun (s : State) (g : GalleyId) (top : Nat) (xOffset : Nat) (measure : Nat) =>
      s.link.canTake = true ∧ (s.galley g).state = .halted ∧ s.page.state = .open ∧ (s.galley g).started = false ∧ top < s.page.depth ∧
      top < 65536 ∧ s.page.high ≤ top + 1200 ∧ ((∀ l ∈ (s.galley g).closedLines, l.depth ≤ top)) ∧ 60 ≤ measure ∧ measure ≤ 16000 ∧
      xOffset + measure ≤ s.page.width ∧ s.page.width ≤ 14400) (withG (halted [])) 0 100 9540 60) ∧
    ((fun (s : State) (g : GalleyId) (top : Nat) =>
      s.link.canTake = true ∧ (s.galley g).state = .halted ∧ s.page.state = .open ∧ (s.galley g).started = false ∧ top < s.page.depth ∧
      top < 65536 ∧ ((top + 1200 < s.page.high ∨ ∃ l ∈ (s.galley g).closedLines, top < l.depth))) (highAt (withG { halted [] with released := true }) 1301) 0 100) ∧
    ((fun (s : State) (g : GalleyId) (top : Nat) =>
      s.link.canTake = true ∧ (s.galley g).state = .halted ∧ s.page.state = .open ∧ (s.galley g).started = false ∧ s.page.depth ≤ top ∧
      top < 65536) (withG (halted [])) 0 14000) ∧
    ((fun (s : State) (g : GalleyId) (top : Nat) (xOffset : Nat) (measure : Nat) =>
      s.link.canTake = true ∧ (s.galley g).state = .halted ∧ s.page.state = .open ∧ (s.galley g).started = false ∧ top < 65536 ∧ xOffset < 65536 ∧
      measure < 65536 ∧ ((s.page.depth ≤ top ∨ measure < 60 ∨ 16000 < measure ∨ s.page.width < xOffset + measure))) (withG (halted [])) 0 14000 9540 60) ∧
    ((fun (s : State) (g : GalleyId) (body : List Byte) =>
      s.link.canTake = true ∧ (s.galley g).state = .halted ∧ s.page.state = .open ∧ (s.galley g).started = false ∧ body.length ≠ 2 ∧
      body.length ≠ 6) (withG (halted [])) 0 ([])) ∧
    ((fun (s : State) (g : GalleyId) =>
      s.link.canTake = true ∧ (s.galley g).state = .halted ∧ s.page.state = .open ∧
      (s.galley g).started = true) (withG { halted [] with builder := openLine }) 0) ∧
    ((fun (s : State) (g : GalleyId) =>
      s.link.canTake = true ∧ (s.galley g).state = .halted ∧ s.page.state ≠ .open) ({ (withG (halted [])) with page := { onPage.page with state := .closing } }) 0) ∧
    ((fun (s : State) (g : GalleyId) =>
      s.link.canTake = true ∧ (s.galley g).state ≠ .halted) idle 0) := by
  refine ⟨?_, ?_, ?_, ?_, ?_, ?_, ?_, ?_, ?_⟩ <;> decide +kernel

theorem test_witness_PeekShowsAndAbandonEmpties :
    ((fun (s : State) (g : GalleyId) (offset : Byte) =>
      s.link.canTake = true ∧ (s.galley g).state = .halted ∧ offset.toNat ≤ (s.galley g).builder.entries.length) (withG (halted [])) 0 0) ∧
    ((fun (s : State) (g : GalleyId) (offset : Byte) =>
      s.link.canTake = true ∧ (s.galley g).state = .halted ∧ (s.galley g).builder.entries.length < offset.toNat) (withG (halted [])) 0 1) ∧
    ((fun (s : State) (g : GalleyId) =>
      s.link.canTake = true ∧ (s.galley g).state ≠ .halted) idle 0) ∧
    ((fun (s : State) (g : GalleyId) =>
      s.link.canTake = true ∧ (s.galley g).state = .halted ∧ (((s.galley g).started = true → (s.galley g).restraining = true →
      s.page.high ≤ (s.galley g).nextDepth + 1200))) (withG (halted [])) 0) ∧
    ((fun (s : State) (g : GalleyId) =>
      s.link.canTake = true ∧ (s.galley g).state = .halted ∧ (s.galley g).started = true ∧ (s.galley g).restraining = true ∧
      (s.galley g).nextDepth + 1200 < s.page.high) (highAt (withG { halted [] with builder := { carry with lineDepth := some 100 }, topDepth := 90 }) 1291) 0) := by
  refine ⟨?_, ?_, ?_, ?_, ?_⟩ <;> decide +kernel

theorem test_witness_FontBeginStartsALoad :
    ((fun (s : State) (h : Header) =>
      s.link.canTake = true ∧ h.Good) idle ({ matrix := 41, natural := 16, minimum := 12, maximum := 24, missing := 0x3F, declared := 4 })) ∧
    ((fun (s : State) (h : Header) =>
      s.link.canTake = true ∧ h.natural ≤ 255 ∧ h.minimum ≤ 255 ∧ h.maximum ≤ 255 ∧ h.declared ≤ 65535 ∧
      ((h.natural < h.minimum ∨ h.maximum < h.natural ∨ h.missing.toNat < 0x20 ∨ 0xEFFF < h.missing.toNat ∨ h.declared < 1 ∨ 1024 < h.declared))) idle ({ matrix := 41, natural := 16, minimum := 12, maximum := 24, missing := 0xEFFF, declared := 1025 })) := by
  refine ⟨?_, ?_⟩ <;> decide +kernel

theorem test_witness_FontDropEmptiesTheSlot :
    (fun (s : State) =>
      s.link.canTake = true) idle := by
  decide +kernel

theorem test_witness_FontGlyphsStoresGoodRecords :
    ((fun (s : State) (n : SlotId) (rs : List GlyphRecord) =>
      s.link.canTake = true ∧ (s.font n).state = .loading ∧ 1 ≤ rs.length ∧ rs.length ≤ 32 ∧ ((∀ r ∈ rs, r.contentGood = true ∧ r.Ranges)) ∧
      (rs.map GlyphRecord.code).Nodup ∧ ((∀ r ∈ rs, ∀ x ∈ (s.font n).records, x.code ≠ r.code)) ∧ poolUse s.fonts + rs.length ≤ 4096 ∧
      (s.font n).records.length + rs.length ≤ 1024) (withFont loading) 0 ([recA, recB])) ∧
    ((fun (s : State) (n : SlotId) (r : GlyphRecord) =>
      s.link.canTake = true ∧ (s.font n).state = .loading ∧ r.contentGood = true ∧ r.Ranges ∧
      r.code ∈ (s.font n).records.map GlyphRecord.code) (withFont { loading with records := [recA] }) 0 recA) ∧
    ((fun (s : State) (n : SlotId) (c1 : Byte) (c0 : Byte) (presence : Byte) (more : List Byte) =>
      s.link.canTake = true ∧ (s.font n).state = .loading ∧ 3 + more.length = recordLength presence ∧
      byteSum (c1 :: c0 :: presence :: more) ≠ 0) (withFont loading) 0 0 0x41 0 (List.replicate 6 1)) ∧
    ((fun (s : State) (n : SlotId) (r : GlyphRecord) =>
      s.link.canTake = true ∧ (s.font n).state = .loading ∧ r.contentGood = true ∧ r.Ranges ∧ r.code ∉ (s.font n).records.map GlyphRecord.code ∧
      ((4096 ≤ poolUse s.fonts ∨ 1024 ≤ (s.font n).records.length))) (withFont { loading with records := List.replicate 1024 recA }) 0 recB) ∧
    ((fun (s : State) (n : SlotId) (count : Byte) =>
      s.link.canTake = true ∧ (s.font n).state = .loading ∧ ((count.toNat < 1 ∨ 32 < count.toNat))) (withFont loading) 0 0) ∧
    ((fun (s : State) (n : SlotId) (rs : List GlyphRecord) (count : Byte) (more : List Byte) =>
      s.link.canTake = true ∧ (s.font n).state = .loading ∧ ((∀ r ∈ rs, r.contentGood = true ∧ r.Ranges)) ∧ (((count.toNat = rs.length ∧
      more ≠ []) ∨ (count.toNat = rs.length + 1 ∧ (more.length < 3 ∨ ∃ presence ∈ more[2]?, more.length < recordLength presence))))) (withFont loading) 0 ([recA, recB]) 2 (List.replicate 6 1)) ∧
    ((fun (s : State) (n : SlotId) =>
      s.link.canTake = true ∧ (s.font n).state ≠ .loading) idle 0) := by
  refine ⟨?_, ?_, ?_, ?_, ?_, ?_, ?_⟩ <;> decide +kernel

theorem test_witness_FontKernWritesWholeRows :
    ((fun (s : State) (n : SlotId) (row : Nat) (rows : List (Vector Int 16)) =>
      s.link.canTake = true ∧ (s.font n).state = .loading ∧ 1 ≤ rows.length ∧ row + rows.length ≤ 16 ∧ ((∀ r ∈ rows, ∀ v ∈ r.toList, -32 ≤ v ∧
      v ≤ 31))) (withFont loading) 0 15 ([Vector.replicate 16 (-32)])) ∧
    ((fun (s : State) (n : SlotId) (row : Byte) (count : Byte) (values : List Byte) =>
      s.link.canTake = true ∧ (s.font n).state = .loading ∧ ((16 ≤ row.toNat ∨ count.toNat < 1 ∨ 16 < count.toNat ∨ 16 < row.toNat + count.toNat ∨ values.length ≠ count.toNat * 16 ∨ ∃ v ∈ values, v.toInt < -32 ∨ 31 < v.toInt))) (withFont loading) 0 16 1 ([])) ∧
    ((fun (s : State) (n : SlotId) =>
      s.link.canTake = true ∧ (s.font n).state ≠ .loading) idle 0) := by
  refine ⟨?_, ?_, ?_⟩ <;> decide +kernel

theorem test_witness_FontEndJudgesTheLoad :
    ((fun (s : State) (n : SlotId) (h : Header) =>
      s.link.canTake = true ∧ (s.font n).state = .loading ∧ (s.font n).header = some h ∧ (s.font n).records.length = h.declared ∧
      (s.font n).rejected = [] ∧ (s.font n).overflow = false ∧
      h.missing ∈ (s.font n).records.map GlyphRecord.code) (withFont { loading with records := [recA] }) 0 ({ matrix := 41, natural := 16, minimum := 12, maximum := 24, missing := 0x41, declared := 1 })) ∧
    ((fun (s : State) (n : SlotId) (h : Header) =>
      s.link.canTake = true ∧ (s.font n).state = .loading ∧ (s.font n).header = some h ∧ (¬((s.font n).records.length = h.declared ∧
      (s.font n).rejected = [] ∧ (s.font n).overflow = false ∧
      h.missing ∈ (s.font n).records.map GlyphRecord.code))) (withFont loading) 0 ({ matrix := 41, natural := 16, minimum := 12, maximum := 24, missing := 0x41, declared := 1 })) ∧
    ((fun (s : State) (n : SlotId) =>
      s.link.canTake = true ∧ (s.font n).state ≠ .loading) idle 0) := by
  refine ⟨?_, ?_, ?_⟩ <;> decide +kernel

theorem test_witness_FontQueryReturnsTheSlot :
    (fun (s : State) (n : SlotId) =>
      s.link.canTake = true ∧ (s.font n).rejected.length ≤ 16) idle 0 := by
  decide +kernel

theorem test_witness_TimersExpire :
    ((fun (s : State) (n : SlotId) =>
      (s.font n).silence = true) (withFont loading) 0) ∧
    ((fun (s : State) (n : SlotId) =>
      (s.font n).silence = false) idle 0) ∧
    ((fun (s : State) (g : GalleyId) =>
      (s.galley g).idleTimer = true) (withG ready) 0) ∧
    ((fun (s : State) (g : GalleyId) =>
      (s.galley g).idleTimer = false) idle 0) := by
  refine ⟨?_, ?_, ?_, ?_⟩ <;> decide +kernel

theorem test_witness_ValueItemsSetTheCurrentValues :
    ((fun (s : State) (g : GalleyId) (n : SlotId) (rest : List Item) =>
      (s.galley g).ReadyToConsume ∧ (s.galley g).story = .font n :: rest) (withG (setting [.font 15])) 0 15 ([])) ∧
    ((fun (s : State) (g : GalleyId) (q : CodeUnit) (rest : List Item) =>
      (s.galley g).ReadyToConsume ∧ (s.galley g).story = .size q :: rest) (withG (setting [.size 576])) 0 576 ([])) ∧
    ((fun (s : State) (g : GalleyId) (t : CodeUnit) (rest : List Item) =>
      (s.galley g).ReadyToConsume ∧ (s.galley g).story = .track t :: rest) (withG (setting [.track 0xFFE0])) 0 0xFFE0 ([])) ∧
    ((fun (s : State) (g : GalleyId) (h : CodeUnit) (rest : List Item) =>
      (s.galley g).ReadyToConsume ∧ (s.galley g).story = .shift h :: rest) (withG (setting [.shift 1200])) 0 1200 ([])) ∧
    ((fun (s : State) (g : GalleyId) (rest : List Item) =>
      (s.galley g).ReadyToConsume ∧ (s.galley g).story = .dirLtr :: rest) (withG (setting [.dirLtr])) 0 ([])) ∧
    ((fun (s : State) (g : GalleyId) (rest : List Item) =>
      (s.galley g).ReadyToConsume ∧ (s.galley g).story = .dirRtl :: rest) (withG (setting [.dirRtl])) 0 ([])) := by
  refine ⟨?_, ?_, ?_, ?_, ?_, ?_⟩ <;> decide +kernel

theorem test_witness_CharEntersTheLine :
    ((fun (s : State) (g : GalleyId) (u : CodeUnit) (rest : List Item) (h : Header) (r : GlyphRecord) (sub : Bool) =>
      (s.galley g).ReadyToConsume ∧ (s.galley g).story = .char u :: rest ∧ (s.font (s.galley g).slot).Finds u h r sub ∧
      (s.galley g).LineStands s.page.depth ∧ ((((s.galley g).withLine : Galley).builder.entries.length < 160 ∨ (((s.galley g).withLine : Galley).builder.entries.length = 160 ∧ ({ code := u, slot := ((s.galley g).withLine : Galley).slot, matrix := h.matrix, record := r, substituted := sub, size := ((s.galley g).withLine : Galley).size, track := ((s.galley g).withLine : Galley).track, shift := ((s.galley g).withLine : Galley).shift, index := ((s.galley g).withLine : Galley).itemIndex, disc := none } : Prepared).dropped ((s.galley g).withLine : Galley).builder.entries = true))) ∧ ((s.galley g).withLine : Galley).FitsWith (((s.galley g).withLine : Galley).builder.enter s.fonts ({ code := u, slot := ((s.galley g).withLine : Galley).slot, matrix := h.matrix, record := r, substituted := sub, size := ((s.galley g).withLine : Galley).size, track := ((s.galley g).withLine : Galley).track, shift := ((s.galley g).withLine : Galley).shift, index := ((s.galley g).withLine : Galley).itemIndex, disc := none } : Prepared))) (typed (setting [.char 0x41])) 0 0x41 ([]) ({ matrix := 41, natural := 16, minimum := 12, maximum := 24, missing := 0x3F, declared := 4 }) recA false) ∧
    ((fun (s : State) (g : GalleyId) (u : CodeUnit) (rest : List Item) =>
      (s.galley g).ReadyToConsume ∧ (s.galley g).story = .char u :: rest ∧
      (s.font (s.galley g).slot).state ≠ .valid) (withG (setting [.char 0x41])) 0 0x41 ([])) ∧
    ((fun (s : State) (g : GalleyId) (u : CodeUnit) (rest : List Item) (h : Header) (r : GlyphRecord) (sub : Bool) =>
      (s.galley g).ReadyToConsume ∧ (s.galley g).story = .char u :: rest ∧ (s.font (s.galley g).slot).Finds u h r sub ∧
      (s.galley g).started = false ∧ s.page.depth < (s.galley g).nextDepth) (typed { setting [.char 0x41] with topDepth := 14001 }) 0 0x41 ([]) ({ matrix := 41, natural := 16, minimum := 12, maximum := 24, missing := 0x3F, declared := 4 }) recA false) := by
  refine ⟨?_, ?_, ?_⟩ <;> decide +kernel

theorem test_witness_SpacesEnterTheLine :
    ((fun (s : State) (g : GalleyId) (rest : List Item) (h : Header) =>
      (s.galley g).ReadyToConsume ∧ (s.galley g).story = .space :: rest ∧ (s.font (s.galley g).slot).state = .valid ∧
      (s.font (s.galley g).slot).header = some h ∧ (s.galley g).LineStands s.page.depth ∧
      ((s.galley g).withLine : Galley).builder.entries.length < 160 ∧
      ((s.galley g).withLine : Galley).FitsWith (((s.galley g).withLine : Galley).builder.addSpace s.fonts ({ body := .space (h.natural * ((s.galley g).withLine : Galley).size * 25) (h.minimum * ((s.galley g).withLine : Galley).size * 25) (h.maximum * ((s.galley g).withLine : Galley).size * 25), code := 0xF000, slot := ((s.galley g).withLine : Galley).slot, size := ((s.galley g).withLine : Galley).size, track := ((s.galley g).withLine : Galley).track, shift := ((s.galley g).withLine : Galley).shift, index := ((s.galley g).withLine : Galley).itemIndex, disc := none } : Entry) : Builder)) (typed (setting [.space])) 0 ([]) ({ matrix := 41, natural := 16, minimum := 12, maximum := 24, missing := 0x3F, declared := 4 })) ∧
    ((fun (s : State) (g : GalleyId) (rest : List Item) (h : Header) =>
      (s.galley g).ReadyToConsume ∧ (s.galley g).story = .fixed :: rest ∧ (s.font (s.galley g).slot).state = .valid ∧
      (s.font (s.galley g).slot).header = some h ∧ (s.galley g).LineStands s.page.depth ∧
      ((s.galley g).withLine : Galley).builder.entries.length < 160 ∧
      ((s.galley g).withLine : Galley).FitsWith (((s.galley g).withLine : Galley).builder.addFixed s.fonts ({ body := .fixed (h.natural * ((s.galley g).withLine : Galley).size * 25), code := 0xF001, slot := ((s.galley g).withLine : Galley).slot, size := ((s.galley g).withLine : Galley).size, track := ((s.galley g).withLine : Galley).track, shift := ((s.galley g).withLine : Galley).shift, index := ((s.galley g).withLine : Galley).itemIndex, disc := none } : Entry) : Builder)) (typed (setting [.fixed])) 0 ([]) ({ matrix := 41, natural := 16, minimum := 12, maximum := 24, missing := 0x3F, declared := 4 })) ∧
    ((fun (s : State) (g : GalleyId) (rest : List Item) =>
      (s.galley g).ReadyToConsume ∧ (s.galley g).story = .space :: rest ∧
      (s.font (s.galley g).slot).state ≠ .valid) (withG (setting [.space])) 0 ([])) ∧
    ((fun (s : State) (g : GalleyId) (rest : List Item) =>
      (s.galley g).ReadyToConsume ∧ (s.galley g).story = .fixed :: rest ∧
      (s.font (s.galley g).slot).state ≠ .valid) (withG (setting [.fixed])) 0 ([])) := by
  refine ⟨?_, ?_, ?_, ?_⟩ <;> decide +kernel

theorem test_witness_DiscAddsAnOpportunity :
    ((fun (s : State) (g : GalleyId) (rest : List Item) (pre : List CodeUnit) (post : List CodeUnit) (h : Header) (cs : List Prepared) (ds : List Prepared) =>
      (s.galley g).ReadyToConsume ∧ (s.galley g).story = .disc pre post [] :: rest ∧ cs.map Prepared.code = pre ∧ ds.map Prepared.code = post ∧
      ((∀ p ∈ cs ++ ds, (s.font (s.galley g).slot).Finds p.code h p.record p.substituted ∧ p.matrix = h.matrix ∧ p.slot = (s.galley g).slot ∧
      p.size = (s.galley g).size ∧ p.track = (s.galley g).track ∧ p.shift = (s.galley g).shift ∧ p.index = (s.galley g).itemIndex)) ∧
      ((∀ p ∈ cs, p.disc = some { number := (s.galley g).itemIndex, role := .pre })) ∧
      ((∀ p ∈ ds, p.disc = some { number := (s.galley g).itemIndex, role := .post })) ∧ (s.font (s.galley g).slot).state = .valid ∧
      (s.font (s.galley g).slot).header = some h ∧ (s.galley g).builder.entries.length ≤ 160) (typed (setting [.disc [0x41] [] []])) 0 ([]) ([0x41]) ([]) ({ matrix := 41, natural := 16, minimum := 12, maximum := 24, missing := 0x3F, declared := 4 }) ([((typed (setting [.disc [0x41] [] []])).galley 0).prepare 0x41 (some { number := 0, role := .pre }) (recA, 41, false)]) ([])) ∧
    ((fun (s : State) (g : GalleyId) (rest : List Item) (pre : List CodeUnit) (post : List CodeUnit) (noBreak : List CodeUnit) (h : Header) (cs : List Prepared) (ds : List Prepared) (ns : List Prepared) =>
      (s.galley g).ReadyToConsume ∧ (s.galley g).story = .disc pre post noBreak :: rest ∧ noBreak ≠ [] ∧ cs.map Prepared.code = pre ∧
      ds.map Prepared.code = post ∧ ns.map Prepared.code = noBreak ∧
      ((∀ p ∈ cs ++ ds ++ ns, (s.font (s.galley g).slot).Finds p.code h p.record p.substituted ∧ p.matrix = h.matrix ∧ p.slot = (s.galley g).slot ∧
      p.size = (s.galley g).size ∧ p.track = (s.galley g).track ∧ p.shift = (s.galley g).shift ∧ p.index = (s.galley g).itemIndex)) ∧
      ((∀ p ∈ cs, p.disc = some { number := (s.galley g).itemIndex, role := .pre })) ∧
      ((∀ p ∈ ds, p.disc = some { number := (s.galley g).itemIndex, role := .post })) ∧
      ((∀ p ∈ ns, p.disc = some { number := (s.galley g).itemIndex, role := .noBreak })) ∧ (s.galley g).LineStands s.page.depth ∧
      ((s.galley g).withLine : Galley).builder.entries.length + noBreak.length ≤ 160 ∧
      (((ns.foldl (Builder.enter s.fonts) ((s.galley g).withLine : Galley).builder : Builder).entries.length = ((s.galley g).withLine : Galley).builder.entries.length ∨ ((s.galley g).withLine : Galley).FitsWith (ns.foldl (Builder.enter s.fonts) ((s.galley g).withLine : Galley).builder : Builder)))) (typed { setting [.disc [0x41] [] [0x42]] with builder := openLine }) 0 ([]) ([0x41]) ([]) ([0x42]) ({ matrix := 41, natural := 16, minimum := 12, maximum := 24, missing := 0x3F, declared := 4 }) ([((typed { setting [.disc [0x41] [] [0x42]] with builder := openLine }).galley 0).prepare 0x41 (some { number := 0, role := .pre }) (recA, 41, false)]) ([]) ([((typed { setting [.disc [0x41] [] [0x42]] with builder := openLine }).galley 0).prepare 0x42 (some { number := 0, role := .noBreak }) (recB, 41, false)])) ∧
    ((fun (s : State) (g : GalleyId) (rest : List Item) (pre : List CodeUnit) (post : List CodeUnit) (noBreak : List CodeUnit) =>
      (s.galley g).ReadyToConsume ∧ (s.galley g).story = .disc pre post noBreak :: rest ∧
      (s.font (s.galley g).slot).state ≠ .valid) (withG (setting [.disc [] [] []])) 0 ([]) ([]) ([]) ([])) := by
  refine ⟨?_, ?_, ?_⟩ <;> decide +kernel

theorem test_witness_ParaClosesTheLine :
    ((fun (s : State) (g : GalleyId) (rest : List Item) =>
      (s.galley g).ReadyToConsume ∧ (s.galley g).story = .para :: rest ∧ (s.galley g).started = false ∧ (s.galley g).nextDepth ≤ s.page.depth ∧
      (¬(s.galley g).ForceDue)) (withG (setting [.para])) 0 ([])) ∧
    ((fun (s : State) (g : GalleyId) (rest : List Item) (d : Nat) =>
      (s.galley g).ReadyToConsume ∧ (s.galley g).story = .para :: rest ∧ (s.galley g).builder.lineDepth = some d ∧ (¬(s.galley g).ForceDue) ∧
      dropTrailingSpaces (sealLine s.fonts (s.galley g).builder.entries) ≠ [] ∧
      ((s.galley g).lastLine s.fonts g s.page.width d : LineRecord).exceptions = ExcSet.none ∧
      (s.galley g).output.length < 4) (withG { setting [.para] with builder := openLine }) 0 ([]) 100) ∧
    ((fun (s : State) (g : GalleyId) (rest : List Item) (d : Nat) =>
      (s.galley g).ReadyToConsume ∧ (s.galley g).story = .para :: rest ∧ (s.galley g).builder.lineDepth = some d ∧ (¬(s.galley g).ForceDue) ∧
      dropTrailingSpaces (sealLine s.fonts (s.galley g).builder.entries) ≠ [] ∧
      ((s.galley g).lastLine s.fonts g s.page.width d : LineRecord).exceptions ≠ ExcSet.none ∧ (s.galley g).latch = none ∧
      (s.galley g).output.length < 4) (withG { setting [.para] with builder := { openLine with clampMark := true } }) 0 ([]) 100) ∧
    ((fun (s : State) (g : GalleyId) (rest : List Item) (d : Nat) =>
      (s.galley g).ReadyToConsume ∧ (s.galley g).story = .para :: rest ∧ (s.galley g).builder.lineDepth = some d ∧ (¬(s.galley g).ForceDue) ∧
      dropTrailingSpaces (sealLine s.fonts (s.galley g).builder.entries) ≠ [] ∧
      ((s.galley g).lastLine s.fonts g s.page.width d : LineRecord).exceptions = ExcSet.none ∧
      (s.galley g).output.length = 4) (withG { setting [.para] with builder := openLine, output := List.replicate 4 (lineAt 100) }) 0 ([]) 100) ∧
    ((fun (s : State) (g : GalleyId) (rest : List Item) (d : Nat) =>
      (s.galley g).ReadyToConsume ∧ (s.galley g).story = .para :: rest ∧ (s.galley g).builder.lineDepth = some d ∧ (s.galley g).ForceDue ∧
      dropTrailingSpaces (sealLine s.fonts (s.galley g).builder.entries) ≠ [] ∧
      ((s.galley g).lastLine s.fonts g s.page.width d : LineRecord).exceptions = ExcSet.none ∧
      (s.galley g).output.length < 4) (withG { setting [.para] with builder := openLine, mark := { kind := .force, index := 0, state := .armed } }) 0 ([]) 100) := by
  refine ⟨?_, ?_, ?_, ?_, ?_⟩ <;> decide +kernel

theorem test_witness_GalleysStopAtMarksAndEnds :
    ((fun (s : State) (g : GalleyId) =>
      (s.galley g).state ∈ [.setting, .draining] ∧ (s.galley g).held = none ∧ (s.galley g).hasCarry = false ∧ (s.galley g).story ≠ [] ∧
      (s.galley g).mark.kind = .tag ∧ (s.galley g).mark.state = .armed ∧
      (s.galley g).mark.index = (s.galley g).itemIndex) (withG { setting [.para] with mark := { kind := .tag, index := 0, state := .armed } }) 0) ∧
    ((fun (s : State) (g : GalleyId) =>
      (s.galley g).state = .setting ∧ (s.galley g).held = none ∧ (s.galley g).hasCarry = false ∧
      (s.galley g).story = []) (highAt (withG { setting [] with released := true }) 1301) 0) ∧
    ((fun (s : State) (g : GalleyId) =>
      (s.galley g).state = .draining ∧ (s.galley g).held = none ∧ (s.galley g).started = false ∧ (s.galley g).builder.entries = [] ∧
      (s.galley g).story = [] ∧ (s.galley g).output ≠ []) (withG { setting [] with state := .draining, output := [lineAt 100] }) 0) ∧
    ((fun (s : State) (g : GalleyId) =>
      (s.galley g).state = .draining ∧ (s.galley g).held = none ∧ (s.galley g).started = false ∧ (s.galley g).builder.entries = [] ∧
      (s.galley g).story = [] ∧ (s.galley g).output = []) (withG { setting [] with state := .draining }) 0) ∧
    ((fun (s : State) (g : GalleyId) (d : Nat) =>
      (s.galley g).state = .draining ∧ (s.galley g).held = none ∧ (s.galley g).builder.lineDepth = some d ∧ (s.galley g).story = [] ∧
      (s.galley g).mark.state = .disarmed ∧ dropTrailingSpaces (sealLine s.fonts (s.galley g).builder.entries) ≠ [] ∧
      ((s.galley g).lastLine s.fonts g s.page.width d : LineRecord).exceptions = ExcSet.none ∧
      (s.galley g).output.length < 4) (withG { setting [] with state := .draining, builder := openLine }) 0 100) := by
  refine ⟨?_, ?_, ?_, ?_, ?_⟩ <;> decide +kernel

theorem test_witness_PageOpensAndCloses :
    ((fun (s : State) (width : Nat) (depth : Nat) =>
      s.link.canTake = true ∧ s.page.state = .noPage ∧ 1200 ≤ width ∧ width ≤ 14400 ∧ 600 ≤ depth ∧ depth ≤ 30000) idle 1200 30000) ∧
    ((fun (s : State) (width : Nat) (depth : Nat) =>
      s.link.canTake = true ∧ s.page.state = .noPage ∧ width < 65536 ∧ depth < 65536 ∧
      ((width < 1200 ∨ 14400 < width ∨ depth < 600 ∨ 30000 < depth))) idle 1199 30000) ∧
    ((fun (s : State) =>
      s.link.canTake = true ∧ s.page.state ≠ .noPage) onPage) ∧
    ((fun (s : State) =>
      s.link.canTake = true ∧ s.page.state = .open ∧ ((∀ g, (s.galley g).state = .off))) onPage) ∧
    ((fun (s : State) =>
      s.link.canTake = true ∧ ((s.page.state ≠ .open ∨ ∃ g, (s.galley g).state ≠ .off))) idle) ∧
    ((fun (s : State) (target : Byte) =>
      s.link.canTake = true ∧ target ≠ 0xFF) idle 4) := by
  refine ⟨?_, ?_, ?_, ?_, ?_, ?_⟩ <;> decide +kernel

theorem test_witness_SelectionIssuesTheLeastLine :
    ((fun (s : State) =>
      s.unit.view.gateOpen = true ∧ s.page.state = .closing) ({ onPage with page := { onPage.page with state := .closing } })) ∧
    ((fun (s : State) =>
      ((s.unit.view.known = false ∨ s.unit.view.held = true ∨ s.unit.view.faulted = true ∨ s.unit.view.silent = true ∨ s.unit.view.outstanding.isSome = true ∨ s.page.state = .noPage))) idle) ∧
    ((fun (s : State) =>
      s.page.state = .open ∧ ((∀ g, (s.galley g).output = []))) onPage) := by
  refine ⟨?_, ?_, ?_⟩ <;> decide +kernel

theorem test_witness_DoneRetiresTheLine :
    ((fun (s : State) (qs : List ExposureFrame) (rest : List ExposureFrame) (f : ExposureFrame) =>
      s.unit.transmit = qs ++ f :: rest ∧ ((∀ x ∈ qs, x = ExposureFrame.query)) ∧
      f ≠ ExposureFrame.query) ({ onPage with unit := { onPage.unit with transmit := [.query, .cut 5 14000] } }) ([ExposureFrame.query]) ([]) (.cut 5 14000)) ∧
    ((fun (s : State) =>
      ((∀ x ∈ s.unit.transmit, x = ExposureFrame.query))) idle) ∧
    ((fun (s : State) (n : Byte) (g : GalleyId) =>
      s.unit.view.outstanding = some { number := n, kind := .line g } ∧ (s.galley g).held = none ∧
      (((s.galley g).state ≠ .closing ∨ 2 ≤ (s.galley g).output.length))) (awaiting onPage (.line 0)) 5 0) ∧
    ((fun (s : State) (n : Byte) (g : GalleyId) (h : HeldLine) =>
      s.unit.view.outstanding = some { number := n, kind := .line g } ∧ (s.galley g).held = some h ∧
      (s.galley g).state ≠ .blocked) (awaiting (withG { halted [] with output := [lineAt 100], held := some (heldAt 130) }) (.line 0)) 5 0 (heldAt 130)) ∧
    ((fun (s : State) (n : Byte) (g : GalleyId) (h : HeldLine) =>
      s.unit.view.outstanding = some { number := n, kind := .line g } ∧ (s.galley g).held = some h ∧ (s.galley g).state = .blocked ∧
      (s.galley g).deferred = some .step) (awaiting (withG { ready with state := .blocked, output := [lineAt 100], held := some (heldAt 130), deferred := some .step }) (.line 0)) 5 0 (heldAt 130)) ∧
    ((fun (s : State) (n : Byte) (g : GalleyId) (h : HeldLine) =>
      s.unit.view.outstanding = some { number := n, kind := .line g } ∧ (s.galley g).held = some h ∧ (s.galley g).state = .blocked ∧
      (s.galley g).deferred = some .mark) (awaiting (withG { ready with state := .blocked, output := [lineAt 100], held := some (heldAt 130), deferred := some .mark }) (.line 0)) 5 0 (heldAt 130)) ∧
    ((fun (s : State) (n : Byte) (g : GalleyId) (h : HeldLine) (m : SlotId) (rest : List Item) =>
      s.unit.view.outstanding = some { number := n, kind := .line g } ∧ (s.galley g).held = some h ∧ (s.galley g).state = .blocked ∧
      (s.galley g).deferred = none ∧ (s.galley g).hasCarry = false ∧ (s.galley g).story = .font m :: rest ∧ (¬((s.galley g).mark.kind = .tag ∧
      (s.galley g).mark.state = .armed ∧ (s.galley g).mark.index = (s.galley g).itemIndex))) (awaiting (withG { ready with state := .blocked, output := [lineAt 100], held := some (heldAt 130), story := [.font 1] }) (.line 0)) 5 0 (heldAt 130) 1 ([])) ∧
    ((fun (s : State) (n : Byte) (g : GalleyId) (h : HeldLine) =>
      s.unit.view.outstanding = some { number := n, kind := .line g } ∧ (s.galley g).held = some h ∧ (s.galley g).state = .blocked ∧
      (s.galley g).deferred = none ∧ (s.galley g).hasCarry = false ∧ (s.galley g).story = [] ∧
      (s.galley g).drain = false) (awaiting (withG { ready with state := .blocked, output := [lineAt 100], held := some (heldAt 130) }) (.line 0)) 5 0 (heldAt 130)) ∧
    ((fun (s : State) (n : Byte) (g : GalleyId) =>
      s.unit.view.outstanding = some { number := n, kind := .line g } ∧ (s.galley g).held = none ∧ (s.galley g).state = .closing ∧
      (s.galley g).output.length ≤ 1) (awaiting (withG { ready with state := .closing, output := [lineAt 100] }) (.line 0)) 5 0) ∧
    ((fun (s : State) (n : Byte) =>
      s.unit.view.outstanding = some { number := n, kind := .cut }) (awaiting onPage .cut) 5) := by
  refine ⟨?_, ?_, ?_, ?_, ?_, ?_, ?_, ?_, ?_, ?_⟩ <;> decide +kernel

theorem test_witness_FailureSpoilsTheLine :
    ((fun (s : State) (n : Byte) (g : GalleyId) (l : LineRecord) (rest : List LineRecord) =>
      s.unit.view.outstanding = some { number := n, kind := .line g } ∧ (s.galley g).output = l :: rest ∧ (s.galley g).held = none ∧
      (s.galley g).state ≠ .closing ∧ (s.galley g).latch = none) (awaiting (withG { setting [] with output := [lineAt 100] }) (.line 0)) 5 0 (lineAt 100) ([])) ∧
    ((fun (s : State) (n : Byte) (g : GalleyId) (l : LineRecord) (rest : List LineRecord) (x : ExceptionRecord) =>
      s.unit.view.outstanding = some { number := n, kind := .line g } ∧ s.unit.orderTimer = true ∧ (s.galley g).output = l :: rest ∧
      (s.galley g).held = none ∧ (s.galley g).state ≠ .closing ∧
      (s.galley g).latch = some x) (awaiting (withG { setting [] with output := [lineAt 100], latch := some (lineAt 100).exception }) (.line 0)) 5 0 (lineAt 100) ([]) ((lineAt 100).exception)) ∧
    ((fun (s : State) (n : Byte) =>
      s.unit.view.outstanding = some { number := n, kind := .cut }) (awaiting onPage .cut) 5) ∧
    ((fun (s : State) =>
      ((s.unit.orderTimer = false ∨ s.unit.view.outstanding = none))) idle) := by
  refine ⟨?_, ?_, ?_, ?_⟩ <;> decide +kernel

theorem test_witness_UnitStateIsAskedAndTaken :
    ((fun (s : State) =>
      s.link.canTake = true ∧ (s.unit.view.faulted = true ∨ s.unit.view.silent = true) ∧ s.unit.resetPause = true) faultInPause) ∧
    ((fun (s : State) =>
      s.link.canTake = true ∧ (s.unit.view.faulted = true ∨ s.unit.view.silent = true) ∧ s.unit.resetPause = false) ({ onPage with unit := { onPage.unit with view := { onPage.unit.view with faulted := true } } })) ∧
    ((fun (s : State) =>
      s.link.canTake = true ∧ s.unit.view.faulted = false ∧ s.unit.view.silent = false) idle) ∧
    ((fun (s : State) =>
      s.unit.queryTimer = true ∧ s.unit.view.known = false) ({ idle with unit := { idle.unit with queryTimer := true } })) ∧
    ((fun (s : State) =>
      s.unit.queryTimer = true ∧ s.unit.view.known = true) ({ idle with unit := { idle.unit with queryTimer := true, view := { idle.unit.view with known := true } } })) ∧
    ((fun (s : State) =>
      s.unit.queryTimer = false) idle) ∧
    ((fun (s : State) =>
      s.unit.resetPause = false) onPage) ∧
    ((fun (s : State) =>
      s.unit.resetPause = true) idle) := by
  refine ⟨?_, ?_, ?_, ?_, ?_, ?_, ?_, ?_⟩ <;> decide +kernel

/-! ### Steps -/

theorem test_witness_StepRunsTheFrontCommand :
    ((fun (s : State) (c : Instr) (rest : List Instr) => s.pending = c :: rest)
      { idle with pending := [.selection, .transmitStart] } .selection [.transmitStart]) ∧
    ((fun (s : State) => s.pending = [] ∧ s.selectionDue = true) { onPage with selectionDue := true }) ∧
    ((fun (s : State) => s.pending = [] ∧ s.selectionDue = false) idle) ∧
    (fun (c : Instr) (s t : State) => exec c s = .next t) (.markClear 0 [0])
      { withG ready with pending := [.selection] }
      (({ withG ready with pending := [.selection] } : State).answer 0x14 0 .done []) := by
  refine ⟨by decide +kernel, by decide +kernel, by decide +kernel, ?_⟩
  show exec _ _ = _
  rw [exec_run]
  exact congrArg Host.Outcome.next (by decide +kernel)

/-! ### The composing link -/

theorem test_witness_ReceiverCollectsAFrame :
    (fun (s : State) (body : List Byte) => s.link.receiver = .hunt ∧ 1 ≤ body.length ∧ body.length ≤ 1100) idle [0] ∧
    (fun (s : State) (body : List Byte) => s.link.receiver = .hunt ∧ 1 ≤ body.length ∧ body.length ≤ 1100) idle
      (List.replicate 1100 0) := by
  decide +kernel

/-- A start byte and another byte in HUNT; the byte that leaves a body of 1 byte one byte short of its check; the longest length and a length
of 0 and of 1,101; and the exposure receiver's counterparts, the byte that completes a DONE report among them. -/
theorem test_witness_BytesAtTheReceivers :
    ((fun (s : State) => s.link.receiver = .hunt) idle) ∧
    ((fun (s : State) (bs : List Byte) (b : Byte) => s.link.receiver = .frame bs ∧
      (bs = [] ∨ ∃ l1 l0 rest, bs ++ [b] = l1 :: l0 :: rest ∧ 1 ≤ l1.toNat * 256 + l0.toNat ∧
        l1.toNat * 256 + l0.toNat ≤ 1100 ∧ rest.length < 3 + (l1.toNat * 256 + l0.toNat)))
      { idle with link := { idle.link with receiver := .frame [0, 1, 0x40, 0] } } [0, 1, 0x40, 0] 7) ∧
    ((fun (s : State) (bs : List Byte) (b : Byte) => s.link.receiver = .frame bs ∧
      (bs = [] ∨ ∃ l1 l0 rest, bs ++ [b] = l1 :: l0 :: rest ∧ 1 ≤ l1.toNat * 256 + l0.toNat ∧
        l1.toNat * 256 + l0.toNat ≤ 1100 ∧ rest.length < 3 + (l1.toNat * 256 + l0.toNat)))
      { idle with link := { idle.link with receiver := .frame [4] } } [4] 0x4C) ∧
    ((fun (s : State) (l1 l0 : Byte) => s.link.receiver = .frame [l1] ∧
      (l1.toNat * 256 + l0.toNat = 0 ∨ 1100 < l1.toNat * 256 + l0.toNat))
      { idle with link := { idle.link with receiver := .frame [0] } } 0 0) ∧
    ((fun (s : State) (l1 l0 : Byte) => s.link.receiver = .frame [l1] ∧
      (l1.toNat * 256 + l0.toNat = 0 ∨ 1100 < l1.toNat * 256 + l0.toNat))
      { idle with link := { idle.link with receiver := .frame [4] } } 4 0x4D) ∧
    ((fun (s : State) => s.unit.receiver = .hunt) idle) ∧
    ((fun (s : State) (bs : List Byte) (b : Byte) => s.unit.receiver = .frame bs ∧
      (bs = [] ∨ ∃ l1 l0 rest, bs ++ [b] = l1 :: l0 :: rest ∧ rest.length < 2 + (l1.toNat * 256 + l0.toNat)))
      { idle with unit := { idle.unit with receiver := .frame [0, 1, 0x41] } } [0, 1, 0x41] 5) ∧
    ((fun (s : State) (bs : List Byte) (b l1 l0 : Byte) (rest : List Byte) => s.unit.receiver = .frame bs ∧
      bs ++ [b] = l1 :: l0 :: rest ∧ rest.length = 2 + (l1.toNat * 256 + l0.toNat))
      { idle with unit := { idle.unit with receiver := .frame [0, 1, 0x41, 5] } } [0, 1, 0x41, 5] 0xB9 0 1 [0x41, 5, 0xB9]) := by
  refine ⟨by decide, ⟨by decide, .inr ⟨0, 1, [0x40, 0, 7], by decide⟩⟩, ⟨by decide, .inr ⟨4, 0x4C, [], by decide⟩⟩, by decide,
    by decide, by decide, ⟨by decide, .inr ⟨0, 1, [0x41, 5], by decide⟩⟩, by decide⟩

theorem test_witness_PartialFramesAreDiscarded :
    ((fun (s : State) => s.link.gapTimer = true)
      { idle with link := { idle.link with receiver := .frame [0], gapTimer := true } }) ∧
    ((fun (s : State) => s.unit.gapTimer = true)
      { idle with unit := { idle.unit with receiver := .frame [0], gapTimer := true } }) ∧
    ((fun (l1 l0 k : Byte) (body : List Byte) (check : Byte) =>
      body.length = l1.toNat * 256 + l0.toNat ∧
      (byteSum (l1 :: l0 :: k :: (body ++ [check])) ≠ 0 ∨
        ¬((k = 0x41 ∧ body.length = 1) ∨ (k = 0x42 ∧ body.length = 2) ∨
          (k = 0x43 ∧ (body = [0x00] ∨ body = [0x01])))))
      0 1 0x43 [0x02] 0xBA) ∧
    ((fun (l1 l0 k : Byte) (body : List Byte) (check : Byte) =>
      body.length = l1.toNat * 256 + l0.toNat ∧
      (byteSum (l1 :: l0 :: k :: (body ++ [check])) ≠ 0 ∨
        ¬((k = 0x41 ∧ body.length = 1) ∨ (k = 0x42 ∧ body.length = 2) ∨
          (k = 0x43 ∧ (body = [0x00] ∨ body = [0x01])))))
      0 1 0x41 [0x05] 0) := by
  decide +kernel

theorem test_witness_FrameHeldBehindAReply :
    ((fun (s : State) => (∃ k t r d, TxFrame.reply k t r d ∈ s.link.sendQueue) ∨ s.link.resetPending = true)
      (idle.answer 0x40 0 .state [])) ∧
    ((fun (s : State) => (∃ k t r d, TxFrame.reply k t r d ∈ s.link.sendQueue) ∨ s.link.resetPending = true)
      { idle with link := { idle.link with resetPending := true } }) :=
  ⟨.inl ⟨0x40, 0, .state, [], by decide⟩, .inr (by decide)⟩

theorem test_witness_BadAndUnknownFramesReachNoOwner :
    ((fun (s : State) => s.link.canTake = true) idle) ∧
    ((fun (s : State) (kind target : Byte) (body : List Byte) (check : Byte) => s.link.canTake = true ∧
      byteSum (be16 body.length ++ [kind, target] ++ body ++ [check]) ≠ 0) idle 0x40 0 [0] 0) ∧
    ((fun (s : State) (kind : Byte) => s.link.canTake = true ∧ ∀ k : ReqKind, k.code ≠ kind) idle 0x07) :=
  ⟨by decide, by decide, by decide, by intro k; cases k <;> decide⟩

theorem test_witness_MisaddressedRequestsChangeNothing :
    ((fun (s : State) (k : ReqKind) (target : Byte) (body : List Byte) => s.link.canTake = true ∧
      ((k.domain = .galley ∧ 4 ≤ target.toNat) ∨ (k.domain = .slot ∧ 16 ≤ target.toNat) ∨
        (k.domain = .part ∧ target ≠ 0xFF) ∨ ∃ n, k.fixedLength = some n ∧ body.length ≠ n)) idle .resume 4 [0]) ∧
    ((fun (s : State) (k : ReqKind) (target : Byte) (body : List Byte) => s.link.canTake = true ∧
      ((k.domain = .galley ∧ 4 ≤ target.toNat) ∨ (k.domain = .slot ∧ 16 ≤ target.toNat) ∨
        (k.domain = .part ∧ target ≠ 0xFF) ∨ ∃ n, k.fixedLength = some n ∧ body.length ≠ n)) idle .fontEnd 16 [0]) ∧
    ((fun (s : State) (k : ReqKind) (target : Byte) (body : List Byte) => s.link.canTake = true ∧
      ((k.domain = .galley ∧ 4 ≤ target.toNat) ∨ (k.domain = .slot ∧ 16 ≤ target.toNat) ∨
        (k.domain = .part ∧ target ≠ 0xFF) ∨ ∃ n, k.fixedLength = some n ∧ body.length ≠ n)) idle .status 0 [0]) ∧
    ((fun (s : State) (k : ReqKind) (target : Byte) (body : List Byte) => s.link.canTake = true ∧
      ((k.domain = .galley ∧ 4 ≤ target.toNat) ∨ (k.domain = .slot ∧ 16 ≤ target.toNat) ∨
        (k.domain = .part ∧ target ≠ 0xFF) ∨ ∃ n, k.fixedLength = some n ∧ body.length ≠ n)) idle .param 0 [0]) :=
  ⟨⟨by decide, .inl (by decide)⟩, ⟨by decide, .inr (.inl (by decide))⟩, ⟨by decide, .inr (.inr (.inl (by decide)))⟩,
    ⟨by decide, .inr (.inr (.inr ⟨9, by decide⟩))⟩⟩

/-- READY alone; a reply behind READY with a frame held; a good frame and a bad one held behind the only reply, the receiver in the middle of a
further frame; PART RESET pending before its reply is sent and while it is being sent; and an empty queue. -/
theorem test_witness_TransmitStartTakesTheHeldFrame :
    ((fun (s : State) (f : TxFrame) (rest : List TxFrame) => s.link.sendQueue = f :: rest ∧ s.link.resetPending = false ∧
      (s.link.heldFrame = none ∨ ∃ x ∈ rest, x.isReply = true)) State.reset (.ready .power) []) ∧
    ((fun (s : State) (f : TxFrame) (rest : List TxFrame) => s.link.sendQueue = f :: rest ∧ s.link.resetPending = false ∧
      (s.link.heldFrame = none ∨ ∃ x ∈ rest, x.isReply = true))
      { idle with
        link := { idle.link with sendQueue := [.ready .power, .reply 0x40 0 .state []], heldFrame := some .badLength } }
      (.ready .power) [.reply 0x40 0 .state []]) ∧
    ((fun (s : State) (f : TxFrame) (rest : List TxFrame) (h : LinkFrame) =>
      s.link.sendQueue = f :: rest ∧ s.link.resetPending = false ∧ (∀ x ∈ rest, x.isReply = false) ∧
      s.link.heldFrame = some h)
      { idle with
        link := { idle.link with
          sendQueue := [.reply 0x40 0 .state []], heldFrame := some (goodFrame 0x01 0xFF [0]), receiver := .frame [0] } }
      (.reply 0x40 0 .state []) [] (goodFrame 0x01 0xFF [0])) ∧
    ((fun (s : State) (f : TxFrame) (rest : List TxFrame) (h : LinkFrame) =>
      s.link.sendQueue = f :: rest ∧ s.link.resetPending = false ∧ (∀ x ∈ rest, x.isReply = false) ∧
      s.link.heldFrame = some h)
      { idle with link := { idle.link with sendQueue := [.reply 0x40 0 .state []], heldFrame := some .badLength } }
      (.reply 0x40 0 .state []) [] .badLength) ∧
    ((fun (s : State) (f : TxFrame) (rest : List TxFrame) => s.link.sendQueue = f :: rest ∧ s.link.resetPending = true ∧
      ∀ target data, s.link.sending ≠ some (.reply 0x08 target .done data))
      { idle with
        link := { idle.link with
          sendQueue := [.reply 0x08 0xFF .done []], heldFrame := some .badLength, resetPending := true } }
      (.reply 0x08 0xFF .done []) []) ∧
    ((fun (s : State) (target : Byte) (data : List Byte) => s.link.resetPending = true ∧
      s.link.sending = some (.reply 0x08 target .done data))
      { idle with link := { idle.link with resetPending := true, sending := some (.reply 0x08 0xFF .done []) } } 0xFF []) ∧
    ((fun (s : State) => s.link.sendQueue = []) idle) := by
  refine ⟨⟨by decide, by decide, .inl (by decide)⟩, ⟨by decide, by decide, .inr ⟨_, .head _, rfl⟩⟩, by decide, by decide,
    ⟨by decide, by decide, ?_⟩, by decide, by decide⟩
  intro target data
  simp [idle, State.reset, ComposingLink.reset]

theorem test_witness_PartResetTakesEffectAfterItsReply :
    ((fun (s : State) => s.link.canTake = true) idle) ∧
    ((fun (s : State) => s.link.resetPending = true ∧ s.link.sending = some (.reply 0x08 0xFF .done []))
      { idle with link := { idle.link with resetPending := true, sending := some (.reply 0x08 0xFF .done []) } }) := by
  decide +kernel

theorem test_witness_PowerOnAnswersAFrameBehindReady :
    (fun (body : List Byte) => 1 ≤ body.length ∧ body.length ≤ 1100) [0] := by
  decide

/-! ### Events -/

theorem test_witness_RaiseSetsTheFlagAndNotifies :
    ((fun (s : State) (f : Flag) (e : EventData) => s.events.flag f = some e) (idle.raise .unitHeld .unitHeld) .unitHeld
      .unitHeld) ∧
    ((fun (s : State) (f : Flag) => s.events.flag f = none ∧ s.events.masked f = true)
      { idle with events := { idle.events with mask := Vector.replicate 9 true } } .unitHeld) ∧
    ((fun (s : State) (f : Flag) => s.events.flag f = none ∧ s.events.masked f = false ∧
      ∀ e, TxFrame.notice f e ∉ s.link.sendQueue) idle .unitHeld) ∧
    ((fun (s : State) (f : Flag) (q1 : List TxFrame) (e : EventData) (q2 : List TxFrame) =>
      s.events.flag f = none ∧ s.events.masked f = false ∧ s.link.sendQueue = q1 ++ .notice f e :: q2 ∧
      ∀ e', TxFrame.notice f e' ∉ q1)
      { idle with link := { idle.link with sendQueue := [.ready .power, .notice .unitHeld .unitHeld] } } .unitHeld
      [.ready .power] .unitHeld []) :=
  ⟨by decide +kernel, by decide +kernel, ⟨by decide +kernel, by decide +kernel, by intro e; simp [idle]⟩,
    ⟨by decide +kernel, by decide +kernel, by decide +kernel, by intro e; simp⟩⟩

/-- One name and all 21, of a unit that is not held and of one that is. -/
theorem test_witness_EventClearClearsTheNamedFlags :
    ((fun (s : State) (names : List Flag) => s.link.canTake = true ∧ 1 ≤ names.length ∧ names.length ≤ 21 ∧
      s.unit.view.held = false ∧ s.unit.view.faulted = false ∧ s.unit.view.silent = false)
      (onPage.raise .pageDone (.pageDone 1)) [.pageDone]) ∧
    ((fun (s : State) (names : List Flag) => s.link.canTake = true ∧ 1 ≤ names.length ∧ names.length ≤ 21) onPage
      allFlags) := by
  decide +kernel

/-! ### Entries, lines -/

theorem test_witness_EnteringMakesTheEntry :
    ((fun (b : Builder) (p : Prepared) => p.attaches b.entries = false) openLine (ready.prepare 0x4D none (recM, 41, false))) ∧
    ((fun (b : Builder) (p : Prepared) => p.attaches b.entries = true ∧ trailingMarks b.entries < 3)
      (openLine.enter onPage.fonts (ready.prepare 0x41 none (recA, 41, false))) (ready.prepare 0x4D none (recM, 41, false))) ∧
    ((fun (b : Builder) (p : Prepared) => p.attaches b.entries = true ∧ 3 ≤ trailingMarks b.entries)
      ((([recA, recM, recM, recM] : List GlyphRecord).map (fun r => ready.prepare r.code none (r, 41, false))).foldl
        (Builder.enter onPage.fonts) openLine)
      (ready.prepare 0x4D none (recM, 41, false))) := by
  decide +kernel

/-- A DUAL letter at the end of an open line, a mark behind it; a base kerned with a base of its slot and size, and one of class 0; a line's
last base; and a line whose last entry is a FIXED. -/
theorem test_witness_FormsAndKernsFollowTheNeighbours :
    ((fun (es : List Entry) (i : Nat) (e : Entry) => es[i]? = some e ∧ e.isGlyph = false) [entryA, fixedEntry] 1 fixedEntry) ∧
    ((fun (es : List Entry) (i : Nat) (e : Entry) (p : GlyphPart) => es[i]? = some e ∧ e.body = .glyph p) [fixedEntry, entryB] 1
      entryB partB) ∧
    ((fun (es : List Entry) (i : Nat) => ∃ e, es[i]? = some e ∧ e.joiningClass = .dual ∧ ∀ m ∈ es.drop (i + 1), m.isMark = true)
      [fixedEntry, entryB, entryM] 1) ∧
    ((fun (fonts : Vector Slot 16) (marks : List Entry) (e f : Entry) (p : GlyphPart) (k : Int) => e.body = .glyph p ∧
      (∀ m ∈ marks, m.isMark = true) ∧
      ∃ q, f.body = .glyph q ∧ e.slot = f.slot ∧ e.size = f.size ∧ p.record.kernClass ≠ 0 ∧ q.record.kernClass ≠ 0 ∧
        k = (fonts[f.slot]).kern.at p.record.kernClass q.record.kernClass)
      (onPage.setFont 0 { font with kern := Vector.replicate 16 (Vector.replicate 16 (-32)) }).fonts [entryM] entryA entryB
      partA (-32)) ∧
    ((fun (marks : List Entry) (e f : Entry) (p : GlyphPart) (k : Int) => e.body = .glyph p ∧
      (∀ m ∈ marks, m.isMark = true) ∧ k = 0 ∧ ∀ q, f.body = .glyph q →
        e.slot ≠ f.slot ∨ e.size ≠ f.size ∨ p.record.kernClass = 0 ∨ q.record.kernClass = 0)
      [entryM] entryA fixedEntry partA 0) ∧
    ((fun (es : List Entry) => endsInGlyph es = false) [entryA, fixedEntry]) := by
  refine ⟨by decide +kernel, by decide +kernel, ⟨entryB, by decide +kernel, by decide +kernel, by decide +kernel⟩,
    ⟨by decide +kernel, by decide +kernel, partB, by decide +kernel⟩,
    ⟨by decide +kernel, by decide +kernel, by decide +kernel, ?_⟩, by decide +kernel⟩
  intro q h
  simp [fixedEntry] at h

/-- The break of a line of a FIXED, a SPACE and an 'A': the trial close takes it, with nothing later that fits. -/
def brokenAtSpace : Break := breakAt onPage.fonts [fixedEntry, spaceEntry, entryA] { place := 1, kind := .space } []

/-- A line that breaks at its one SPACE; a run of two spaces at either of its places; a DISC whose no-break text is a letter with its mark, and one
whose text is empty before a stray mark; and lines that split, close whole and are empty. -/
theorem test_witness_BreaksAreTakenWhereTheRulesSay :
    (trialClose onPage.fonts [fixedEntry, spaceEntry, entryA] column 0 [{ place := 1, kind := .space }] = some brokenAtSpace) ∧
    ((fun (k : Break) (earlier : List Opp) (o : Opp) (later : List Opp) =>
      k = breakAt onPage.fonts [fixedEntry, spaceEntry, entryA] o later ∧ k.fits column 0 = true ∧
        ([{ place := 1, kind := .space }] : List Opp) = earlier ++ o :: later)
      brokenAtSpace [] { place := 1, kind := .space } []) ∧
    ((fun (a run c : List Entry) (place : Nat) =>
      (∀ e ∈ a.getLast?, e.isSpace = false) ∧ (∀ e ∈ run, e.isSpace = true) ∧ (∀ e ∈ c.head?, e.isSpace = false) ∧
      a.length ≤ place ∧ place < a.length + run.length) [entryA] [spaceEntry, spaceEntry] [entryA] 1) ∧
    ((fun (a run c : List Entry) (place : Nat) =>
      (∀ e ∈ a.getLast?, e.isSpace = false) ∧ (∀ e ∈ run, e.isSpace = true) ∧ (∀ e ∈ c.head?, e.isSpace = false) ∧
      a.length ≤ place ∧ place < a.length + run.length) [entryA] [spaceEntry, spaceEntry] [entryA] 2) ∧
    ((fun (nb ms c : List Entry) (number : StoryIndex) =>
      (∀ e ∈ nb, e.disc = some { number := number, role := .noBreak }) ∧ (∀ e ∈ ms, e.isMark = true) ∧
      ∀ e ∈ c.head?, e.isMark = false) [{ entryA with disc := some { number := 4, role := .noBreak } }] [entryM] [entryA] 4) ∧
    ((fun (nb ms c : List Entry) (number : StoryIndex) =>
      (∀ e ∈ nb, e.disc = some { number := number, role := .noBreak }) ∧ (∀ e ∈ ms, e.isMark = true) ∧
      ∀ e ∈ c.head?, e.isMark = false) [] [entryM] [entryA] 4) ∧
    ((fun (c : List Entry) (e : Entry) => e.isCore = true ∧ ∀ x ∈ c, x.isCore = false) [spaceEntry] entryA) ∧
    ((fun (es : List Entry) => ∀ e ∈ es, e.isCore = false) [spaceEntry]) := by
  refine ⟨?_, ?_, ?_, ?_, ?_, ?_, ?_, ?_⟩ <;> decide +kernel

/-- What the clauses of an overflowing CHAR ask of a state, its galley 0 setting the letter 'A', before the cases of each clause. -/
def Overflows (s : State) (y : Galley) (p : Prepared) (d : Nat) : Prop :=
  (s.galley 0).ReadyToConsume ∧ (s.galley 0).story = [.char 0x41] ∧
  (s.font (s.galley 0).slot).Finds 0x41 { matrix := 41, natural := 16, minimum := 12, maximum := 24, missing := 0x3F, declared := 4 }
    recA false ∧
  (s.galley 0).LineStands s.page.depth ∧ (s.galley 0).mark.state = .disarmed ∧
  p = (s.galley 0).prepare 0x41 none (recA, 41, false) ∧ (s.galley 0).withLine.builder.entries.length < 160 ∧
  y = ({ (s.galley 0).withLine with
          builder := (s.galley 0).withLine.builder.enter s.fonts p
          hasEntries := (s.galley 0).hasEntries || !p.dropped (s.galley 0).builder.entries }.past []) ∧
  ¬y.FitsWith y.builder ∧ y.builder.lineDepth = some d

/-- A part whose galley 0 sets the letter 'A' in a line of 100 steps that holds one 'A', closed at a depth, with some lines queued. -/
def crowded (d : Nat) (output : List LineRecord) : State :=
  typed { setting [.char 0x41] with
    active := { column with measure := 100 }, builder := { lineOf [entryA] with lineDepth := some d }, output := output }

/-- Its galley after the 'A' has entered, with the break and the record its close makes. -/
def crowdedAfter (s : State) : Galley :=
  { (s.galley 0).withLine with
      builder := (s.galley 0).withLine.builder.enter s.fonts ((s.galley 0).prepare 0x41 none (recA, 41, false))
      hasEntries := (s.galley 0).hasEntries
        || !((s.galley 0).prepare 0x41 none (recA, 41, false)).dropped (s.galley 0).builder.entries }.past []
def crowdedBreak (s : State) : Break :=
  { line := sealLine s.fonts ((crowdedAfter s).builder.entries.take 1)
    carry := shape true ((crowdedAfter s).builder.entries.drop 1)
    opps := [] }
def crowdedGiven (s : State) (d : Nat) : Galley :=
  ((crowdedAfter s).brokenAt d (crowdedBreak s)).given
    ((crowdedAfter s).brokenLine s.fonts 0 s.page.width d (crowdedBreak s).line true false)

/-- A line that splits, starting its carry; one whose carry starts below the page; one at a full output queue; an 'A' wider than its column; and a
line of 160 entries. -/
theorem test_witness_OverflowingLinesBreak :
    ((fun (s : State) (y z : Galley) (d : Nat) (k : Break) =>
      Overflows s y ((s.galley 0).prepare 0x41 none (recA, 41, false)) d ∧ ClosesAt s.fonts y.builder y.active 0 k true ∧
      k.carry ≠ [] ∧ dropTrailingSpaces (sealLine s.fonts k.line) ≠ [] ∧ y.output.length < 4 ∧ z.nextDepth ≤ s.page.depth ∧
      z.withLine.FitsWith z.builder)
      (crowded 100 []) (crowdedAfter (crowded 100 [])) (crowdedGiven (crowded 100 []) 100) 100 (crowdedBreak (crowded 100 []))) ∧
    ((fun (s : State) (y z : Galley) (d : Nat) (k : Break) =>
      Overflows s y ((s.galley 0).prepare 0x41 none (recA, 41, false)) d ∧ ClosesAt s.fonts y.builder y.active 0 k true ∧
      k.carry ≠ [] ∧ dropTrailingSpaces (sealLine s.fonts k.line) ≠ [] ∧ y.output.length < 4 ∧ s.page.depth < z.nextDepth)
      (crowded 13971 []) (crowdedAfter (crowded 13971 [])) (crowdedGiven (crowded 13971 []) 13971) 13971
      (crowdedBreak (crowded 13971 []))) ∧
    ((fun (s : State) (y : Galley) (d : Nat) (k : Break) =>
      Overflows s y ((s.galley 0).prepare 0x41 none (recA, 41, false)) d ∧ ClosesAt s.fonts y.builder y.active 0 k true ∧
      k.carry ≠ [] ∧ dropTrailingSpaces (sealLine s.fonts k.line) ≠ [] ∧ y.output.length = 4)
      (crowded 100 (List.replicate 4 (lineAt 100))) (crowdedAfter (crowded 100 (List.replicate 4 (lineAt 100)))) 100
      (crowdedBreak (crowded 100 (List.replicate 4 (lineAt 100))))) ∧
    ((fun (s : State) (y : Galley) (d : Nat) =>
      Overflows s y ((s.galley 0).prepare 0x41 none (recA, 41, false)) d ∧ y.output.length < 4 ∧
      trialClose s.fonts y.builder.entries y.active 0 y.builder.opps = none ∧
      forcedClose s.fonts y.builder.entries y.builder.opps = .whole ∧ dropTrailingSpaces (sealLine s.fonts y.builder.entries) ≠ [])
      (typed { setting [.char 0x41] with active := { column with measure := 60 } })
      (crowdedAfter (typed { setting [.char 0x41] with active := { column with measure := 60 } })) 100) := by
  unfold Overflows
  refine ⟨?_, ?_, ?_, ?_⟩ <;> decide +kernel

/-- A FIXED that a line of 100 steps with one 'A' has no room for: the line splits before it. -/
def crowdedFixed : State :=
  typed { setting [.fixed] with active := { column with measure := 100 }, builder := lineOf [entryA] }
def crowdedFixedAfter : Galley :=
  { (crowdedFixed.galley 0).withLine with
      builder := (crowdedFixed.galley 0).withLine.builder.addFixed crowdedFixed.fonts fixedEntry, hasEntries := true }.past []
def crowdedFixedBreak : Break := { line := [entryA], carry := [fixedEntry], opps := [] }
def crowdedFixedGiven : Galley :=
  (crowdedFixedAfter.brokenAt 100 crowdedFixedBreak).given
    (crowdedFixedAfter.brokenLine crowdedFixed.fonts 0 crowdedFixed.page.width 100 [entryA] true false)

theorem test_witness_OverflowingLinesBreak_at_a_fixed_space :
    (fun (s : State) (h : Header) (x y z : Galley) (d : Nat) (k : Break) => (s.galley 0).ReadyToConsume ∧
      (s.galley 0).story = [.fixed] ∧ (s.font (s.galley 0).slot).state = .valid ∧ (s.font (s.galley 0).slot).header = some h ∧
      (s.galley 0).LineStands s.page.depth ∧ (s.galley 0).mark.state = .disarmed ∧ x = (s.galley 0).withLine ∧
      x.builder.entries.length < 160 ∧
      fixedEntry = { body := .fixed (h.natural * x.size * 25), code := 0xF001, slot := x.slot, size := x.size, track := x.track,
                     shift := x.shift, index := x.itemIndex, disc := none } ∧
      y = crowdedFixedAfter ∧ ¬y.FitsWith y.builder ∧ y.builder.lineDepth = some d ∧
      ClosesAt s.fonts y.builder y.active 0 k true ∧ k.carry ≠ [] ∧ dropTrailingSpaces (sealLine s.fonts k.line) ≠ [] ∧
      y.output.length < 4 ∧ z.nextDepth ≤ s.page.depth ∧ z.withLine.FitsWith z.builder)
      crowdedFixed { matrix := 41, natural := 16, minimum := 12, maximum := 24, missing := 0x3F, declared := 4 }
      (crowdedFixed.galley 0).withLine crowdedFixedAfter crowdedFixedGiven 100
      { crowdedFixedBreak with line := sealLine crowdedFixed.fonts (crowdedFixedAfter.builder.entries.take 1) } := by
  decide +kernel

/-- The line of 160 entries: an 'A' comes, and the line splits before its last entry. -/
def fullLine : State :=
  typed { setting [.char 0x41] with
    active := { column with measure := 16000 }, builder := lineOf (List.replicate 160 fixedEntry) }
def fullBreak : Break := { line := List.replicate 159 fixedEntry, carry := [fixedEntry], opps := [] }
def fullGiven : Galley :=
  ((fullLine.galley 0).brokenAt 100 fullBreak).given
    ((fullLine.galley 0).brokenLine fullLine.fonts 0 fullLine.page.width 100 fullBreak.line true false)
def fullAfter : Galley :=
  { fullGiven with
      builder := ((fullLine.galley 0).brokenAt 100 fullBreak).builder.enter fullLine.fonts
        ((fullLine.galley 0).prepare 0x41 none (recA, 41, false))
      hasEntries := true }.past []

theorem test_witness_OverflowingLinesBreak_at_the_limit :
    (fun (s : State) (y z : Galley) (p : Prepared) (d : Nat) (k : Break) => y = s.galley 0 ∧ y.ReadyToConsume ∧
      y.story = [.char 0x41] ∧ y.mark.state = .disarmed ∧ p = y.prepare 0x41 none (recA, 41, false) ∧
      y.builder.lineDepth = some d ∧ y.builder.entries.length = 160 ∧ p.dropped y.builder.entries = false ∧ y.output.length < 4 ∧
      ClosesAt s.fonts y.builder y.active 1 k true ∧ dropTrailingSpaces (sealLine s.fonts k.line) ≠ [] ∧
      z.builder.entries ≠ [] ∧ z.nextDepth ≤ s.page.depth ∧ z.withLine.FitsWith z.builder)
      fullLine (fullLine.galley 0) fullAfter ((fullLine.galley 0).prepare 0x41 none (recA, 41, false)) 100 fullBreak := by
  decide +kernel

/-- Widths at, below and above the measure for each way a line is set; an 'A' with one mark; and a line of a FIXED, an 'A' and a mark. -/
theorem test_witness_LineRecordsHoldWhatTheRulesGive :
    ((fun (last : Bool) (m g n : Nat) => last = true ∧ g + n ≤ m) true 300 200 100) ∧
    ((fun (last : Bool) (m g : Nat) (ws : List (Nat × Nat × Nat)) => last = false ∧ ws = [] ∧ g ≤ m) false 300 300 []) ∧
    ((fun (last : Bool) (m g n mn : Nat) (ws : List (Nat × Nat × Nat)) => n = (ws.map (fun w => w.1)).sum ∧
      mn = (ws.map (fun w => w.2.1)).sum ∧ ws ≠ [] ∧ g + mn ≤ m ∧ (last = false ∨ m < g + n)) true 299 200 100 50
      [(100, 50, 200)]) ∧
    ((fun (last : Bool) (m g n mn : Nat) => m < g + mn ∧ (last = false ∨ m < g + n)) false 249 200 100 50) ∧
    ((fun (a : Align) (m g n : Nat) => a ≠ .justify ∧ g + n ≤ m) .center 300 200 100) ∧
    ((fun (a : Align) (m g n : Nat) => a ≠ .justify ∧ m < g + n) .atEnd 299 200 100) ∧
    ((fun (c : Cluster) (p : GlyphPart) => c.base.body = .glyph p ∧ ∀ e ∈ c.marks, e.isMark = true)
      { base := entryA, marks := [entryM] } partA) ∧
    ((fun (c : Cluster) => c.base.isGlyph = false) { base := fixedEntry, marks := [] }) ∧
    ((fun (l : ClosedLine) (e : Entry) => e ∈ l.entries.head?)
      { entries := [fixedEntry, entryA, entryM], direction := .ltr, last := true, params := column, depth := 100,
        exceptions := ExcSet.none, pageWidth := 9600 } fixedEntry) := by
  refine ⟨?_, ?_, ?_, ?_, ?_, ?_, ?_, ?_, ?_⟩ <;> decide +kernel

theorem test_witness_JustifiedLinesFillTheMeasure :
    (fun (m g : Nat) (ws : List (Nat × Nat × Nat)) => ws ≠ [] ∧ g + (ws.map (fun w => w.2.1)).sum ≤ m) 691200 647500
      (List.replicate 3 (14800, 11100, 22200)) ∧
    (fun (m g : Nat) (ws : List (Nat × Nat × Nat)) => ws ≠ [] ∧ g + (ws.map (fun w => w.2.1)).sum ≤ m) 33300 0
      (List.replicate 3 (14800, 11100, 22200)) := by
  decide

/-- A cluster of one base of a direction class. -/
def clusterOf (x : DirClass) : Cluster :=
  { base := (ready.prepare 0x41 none ({ recA with direction := x }, 41, false)).entry
      (.glyph ((ready.prepare 0x41 none ({ recA with direction := x }, 41, false)).glyph false))
    marks := [] }

theorem test_witness_VisualOrderFollowsTheRuns :
    ((fun (cs : List Cluster) => ∀ c ∈ cs, c.base.direction.strong = none) [clusterOf .n]) ∧
    ((fun (d : Dir) (c1 c2 : Cluster) (ns : List Cluster) => c1.base.direction.strong = some d ∧
      c2.base.direction.strong = some d ∧ ∀ c ∈ ns, c.base.direction.strong = none) .ltr (clusterOf .l) (clusterOf .d)
      [clusterOf .n]) ∧
    ((fun (d e : Dir) (c1 c2 : Cluster) (ns : List Cluster) => c1.base.direction.strong = some d ∧
      c2.base.direction.strong = some e ∧ d ≠ e ∧ ∀ c ∈ ns, c.base.direction.strong = none) .ltr .rtl (clusterOf .l)
      (clusterOf .r) [clusterOf .n]) ∧
    ((fun (a b c : List (Dir × Cluster)) => (∀ x ∈ a ++ c, x.1 = .ltr) ∧ ∀ x ∈ b, x.1 = .rtl)
      [(.ltr, clusterOf .l)] [(.rtl, clusterOf .r), (.rtl, clusterOf .r)] [(.ltr, clusterOf .l)]) ∧
    ((fun (a b c : List (Dir × Cluster)) => (∀ x ∈ a ++ c, x.1 = .rtl) ∧ ∀ x ∈ b, x.1 = .ltr)
      [(.rtl, clusterOf .r)] [(.ltr, clusterOf .d), (.ltr, clusterOf .d)] [(.rtl, clusterOf .r)]) ∧
    ((fun (a b c : List (Dir × Cluster)) => (∀ x ∈ a ++ c, x.1 = .rtl) ∧ ∀ x ∈ b, x.1 = .ltr)
      [(.rtl, clusterOf .r), (.rtl, clusterOf .r)] [] []) := by
  decide +kernel

theorem test_witness_StoryReadsBackItsItems :
    (fun (items : List Item) => ∀ i ∈ items, i.wellFormed = true)
      [.char 0x20, .char 0xEFFF, .space, .size 0, .disc [0x2D] [] [0x41, 0x42, 0x43, 0x44]] := by
  decide

/-- A unit of no item meets UNDEFINED, and a DISC of 4 codes that ends after 3 meets SPLIT. -/
theorem refused_undefined (u : CodeUnit) (h : 0xF000 ≤ u.toNat ∧
    u.toNat ∉ [0xF000, 0xF001, 0xF002, 0xF020, 0xF021, 0xF022, 0xF030, 0xF031, 0xF040] ∧
    ¬(0xF010 ≤ u.toNat ∧ u.toNat ≤ 0xF01F)) : BadReason.MetAt .undefined [u] := ⟨u, [], rfl, h⟩

theorem refused_split : BadReason.MetAt .split [0xF040, 0x0400, 0x41, 0x42, 0x43] :=
  Or.inr (Or.inr (Or.inr (Or.inr ⟨0x0400, [0x41, 0x42, 0x43], rfl, by decide, by decide, by simp [isCharCode]⟩)))

/-- Code units that meet each reason of BAD_ITEM at an item's beginning, behind a low unit and an 'A'. -/
theorem test_witness_StoryIsRefused :
    (∀ p ∈ [Piece.dropped 0x1F, .item (.char 0x41)], p.good = true) ∧ (withG ready).link.canTake = true ∧
    ((withG ready).galley 0).state ∉ [GalleyState.off, .closing] ∧
    BadReason.MetAt .undefined [0xF100] ∧ BadReason.MetAt .undefined [0xF003] ∧ BadReason.MetAt .split [0xF020] ∧
    BadReason.MetAt .split [0xF040, 0x0400, 0x41, 0x42, 0x43] ∧ BadReason.MetAt .count [0xF040, 0x0005] ∧
    BadReason.MetAt .textCode [0xF040, 0x0010, 0x1F] :=
  ⟨by decide, by decide, by decide, refused_undefined 0xF100 (by decide), refused_undefined 0xF003 (by decide),
    Or.inl rfl, refused_split, ⟨0x0005, [], rfl, by decide⟩, ⟨0x0010, [0x1F], rfl, by decide, 0x1F, by decide, by decide⟩⟩

/-- A DISC with a no-break text that would start its line one step below the page. -/
theorem test_witness_DiscMeetsThePageEnd :
    (fun (s : State) (g : GalleyId) (noBreak : List CodeUnit) => (s.galley g).ReadyToConsume ∧
      (s.galley g).story = [.disc [0x41] [] noBreak] ∧ noBreak ≠ [] ∧ (s.font (s.galley g).slot).state = .valid ∧
      (s.font (s.galley g).slot).header.isSome = true ∧
      (∀ u ∈ [0x41] ++ [] ++ noBreak, ∃ h r sub, (s.font (s.galley g).slot).Finds u h r sub) ∧
      (s.galley g).started = false ∧ s.page.depth < (s.galley g).nextDepth)
      (typed { setting [.disc [0x41] [] [0x41]] with topDepth := 14001 }) 0 [0x41] := by
  refine ⟨by decide +kernel, by decide +kernel, by decide, by decide +kernel, by decide +kernel, ?_, by decide +kernel,
    by decide +kernel⟩
  intro u hu
  have : u = 0x41 := by simpa using hu
  subst this
  exact ⟨{ matrix := 41, natural := 16, minimum := 12, maximum := 24, missing := 0x3F, declared := 4 }, recA, false,
    by decide +kernel⟩

theorem test_witness_GlyphRecordsReadBack :
    (fun (r : GlyphRecord) => r.contentGood = true ∧ r.Ranges) recB ∧
    (fun (r : GlyphRecord) => r.contentGood = true ∧ r.Ranges) { recM with markOffset := some { dx := -128, dy := 127, stack := 0 } } := by
  decide

/-! ### The arbiter and the photo unit -/

/-- Two galleys whose head lines tie at a depth: galley 0 is chosen. -/
def tied : State :=
  (withG { setting [] with output := [lineAt 130] }).setGalley 1 { setting [] with output := [lineAt 130] }

theorem test_witness_SelectionIssuesALine :
    (fun (s : State) (g : GalleyId) (l : LineRecord) (rest : List LineRecord) (e : Nat) => s.unit.view.gateOpen = true ∧
      s.page.state = .open ∧ (s.galley g).output = l :: rest ∧
      (∀ g' l' rest', (s.galley g').output = l' :: rest' → l.depth ≤ l'.depth ∧ (l'.depth = l.depth → g.val ≤ g'.val)) ∧
      (∀ g', (s.galley g').restraining = true → (s.galley g').output = [] → l.depth ≤ (s.galley g').frontier + 1200) ∧
      e = max l.depth (s.page.high - 1200)) tied 0 (lineAt 130) [] 130 := by
  refine ⟨by decide +kernel, by decide +kernel, by decide +kernel, ?_, by decide +kernel, by decide +kernel⟩
  have h : ∀ g' : GalleyId, (tied.galley g').output = [] ∨ (tied.galley g').output = [lineAt 130] := by decide +kernel
  intro g' l' rest' e
  rcases h g' with h | h <;> rw [h] at e <;> simp at e
  simp [← e.1]

/-- A line 1,201 steps below the frontier of a restraining galley with an empty queue. -/
theorem test_witness_SelectionIsRestrained :
    (fun (s : State) (g g' : GalleyId) (l : LineRecord) (rest : List LineRecord) => s.page.state = .open ∧
      (s.galley g).output = l :: rest ∧ (∀ g'' l' rest', (s.galley g'').output = l' :: rest' → l.depth ≤ l'.depth) ∧
      (s.galley g').restraining = true ∧ (s.galley g').output = [] ∧ (s.galley g').frontier + 1200 < l.depth)
      ((withG { setting [] with output := [lineAt 1301] }).setGalley 1 ready) 0 1 (lineAt 1301) [] := by
  refine ⟨by decide +kernel, by decide +kernel, ?_, by decide +kernel, by decide +kernel, by decide +kernel⟩
  have h : ∀ g' : GalleyId, (((withG { setting [] with output := [lineAt 1301] }).setGalley 1 ready).galley g').output = [] ∨
      (((withG { setting [] with output := [lineAt 1301] }).setGalley 1 ready).galley g').output = [lineAt 1301] := by
    decide +kernel
  intro g' l' rest' e
  rcases h g' with h | h <;> rw [h] at e <;> simp at e
  simp [← e.1]

theorem test_witness_ReportsOfAnotherNumber :
    (fun (s : State) (n : Byte) => ∀ o, s.unit.view.outstanding = some o → o.number ≠ n) (awaiting onPage .cut) 6 := by
  intro o h
  have : o = { number := 5, kind := .cut } := by simpa [awaiting] using h.symm
  subst this
  decide

/-! ### The laws every step keeps -/

/-- A part on a page whose galley 0 is to consume a FONT item. -/
def about : State := { withG (setting [.font 1]) with pending := [.fontN 0] }

/-- That part after its step. -/
def after : State := run (.fontN 0) { about with pending := [] }

theorem about_steps : step about = .next after := exec_run (.fontN 0) { about with pending := [] }

theorem about_halts :
    (∀ g, (about.galley g).HaltLaw) ∧ (∀ g, (about.galley g).LatchLaw) ∧ ∀ g, (about.galley g).TimerLaw := by
  unfold Galley.HaltLaw Galley.LatchLaw Galley.TimerLaw
  decide +kernel

theorem about_queue : ∀ g, (about.galley g).QueueLaw := by
  unfold Galley.QueueLaw
  decide +kernel

theorem about_builder :
    (∀ g, (about.galley g).BuilderLaw) ∧ ∀ g, (about.galley g).FitLaw := by
  unfold Galley.BuilderLaw Galley.FitLaw
  decide +kernel

theorem about_states : (∀ g, (about.galley g).StateLaw) ∧ ∀ g, (about.galley g).ValueLaw := by
  unfold Galley.StateLaw Galley.ValueLaw
  decide +kernel

theorem about_galleyLaws : ∀ g, (about.galley g).Law := fun g =>
  ⟨about_halts.1 g, about_states.1 g, about_halts.2.1 g,
    about_queue g, about_builder.1 g, about_builder.2 g,
    about_states.2 g, about_halts.2.2 g⟩

theorem about_fontLaw : about.FontLaw := by
  unfold State.FontLaw Slot.Law
  decide +kernel

theorem about_orderLaw : about.OrderLaw := by
  have h : about.unit.view.outstanding = none := by decide +kernel
  unfold State.OrderLaw
  rw [h]
  decide +kernel

theorem about_partLaws : about.PageLaw ∧ about.unit.view.Law ∧ about.unit.QueryLaw ∧ about.RestraintLaw ∧ about.DepthLaw := by
  unfold State.PageLaw UnitView.Law UnitLink.QueryLaw State.RestraintLaw State.DepthLaw
  decide +kernel

theorem about_dueLaw : about.DueLaw := by
  unfold State.DueLaw
  decide +kernel

theorem about_linkLaw : about.link.Law := by
  refine ⟨by decide +kernel, ?_, by decide +kernel⟩
  intro f
  simp [about, withG, onPage, idle, State.setGalley]

theorem about_eventLaw : about.EventLaw := by
  constructor
  · intro f d h
    have : ∀ p : Fin 21, about.events.flags[p] = none := by decide +kernel
    simp [EventUnit.flag, this] at h
  · intro f d h
    simp [about, withG, onPage, idle, State.setGalley] at h

theorem faultInPause_queryLaw : faultInPause.unit.QueryLaw := by
  unfold UnitLink.QueryLaw
  decide +kernel

theorem test_witness_HaltAndLatchLawsAreKept :
    ((∀ g, (about.galley g).HaltLaw) ∧ (∀ g, (about.galley g).LatchLaw) ∧ ∀ g, (about.galley g).TimerLaw) ∧
      step about = .next after := ⟨about_halts, about_steps⟩

theorem test_witness_QueueLawIsKept : (∀ g, (about.galley g).QueueLaw) ∧ step about = .next after :=
  ⟨about_queue, about_steps⟩

theorem test_witness_BuilderLawIsKeptAndLinesFit :
    ((∀ g, (about.galley g).BuilderLaw) ∧ ∀ g, (about.galley g).FitLaw) ∧ step about = .next after :=
  ⟨about_builder, about_steps⟩

theorem test_witness_FontStoreLinkAndSelectionLawsAreKept :
    ((about.FontLaw ∧ about.link.Law ∧ about.DueLaw) ∧ step about = .next after) ∧
    (faultInPause.unit.QueryLaw ∧ step { faultInPause with pending := [.unitResume 0xFF [0]] }
      = .next (run (.unitResume 0xFF [0]) faultInPause)) ∧
    exec (.pageClose 0xFF [0]) onPage = .next (run (.pageClose 0xFF [0]) onPage) :=
  ⟨⟨⟨about_fontLaw, about_linkLaw, about_dueLaw⟩, about_steps⟩,
    ⟨faultInPause_queryLaw, exec_run (.unitResume 0xFF [0]) faultInPause⟩, exec_run (.pageClose 0xFF [0]) onPage⟩

theorem test_witness_EveryStepKeepsTheLaws : about.Good ∧ step about = .next after :=
  ⟨⟨about_fontLaw, about_galleyLaws, about_partLaws.1, about_orderLaw, about_partLaws.2.1, about_partLaws.2.2.1,
    about_partLaws.2.2.2.1, about_partLaws.2.2.2.2, about_dueLaw, about_linkLaw, about_eventLaw⟩, about_steps⟩

end Sys2Proof.Tests
end

