-- ==== Sys2Proof/Proofs/Builder.lean ====
section
/-! Shaping, kerning and the width sums: what reshaping a list leaves, and that every operation of the builder gives a
builder that satisfies the law of R81. -/

namespace Sys2Proof.Machine

/-! ### Maps over the entries that shaping and kerning leave (R82, R85, R91) -/

/-- Shaping changes an entry's body alone, and of a GLYPH's only form, resolved and advance: a map blind to these does not see it. -/
theorem map_shapeFrom {β : Type} (φ : Entry → β) (isOpen : Bool)
    (hφ : ∀ prev next e p, e.body = .glyph p → φ { e with body := .glyph (shapeGlyph prev next e p) } = φ e)
    (prev : Joining) (es : List Entry) : (shapeFrom isOpen prev es).map φ = es.map φ := by
  induction es generalizing prev with
  | nil => rfl
  | cons e es ih =>
    unfold shapeFrom
    split
    case h_2 p hp => simp [ih, hφ _ _ e p hp]
    all_goals simp [ih]

theorem map_modifyHeadGlyph {β : Type} (φ : Entry → β) (f : Entry → GlyphPart → GlyphPart)
    (hφ : ∀ e p, e.body = .glyph p → φ { e with body := .glyph (f e p) } = φ e) (es : List Entry) :
    (modifyHeadGlyph f es).map φ = es.map φ := by
  induction es with
  | nil => rfl
  | cons e es ih =>
    unfold modifyHeadGlyph
    split
    case h_1 => simp [ih]
    case h_2 p hp => simp [hφ e p hp]
    case h_3 => rfl

/-- A change of the last base's GLYPH is not seen by a map blind to it. -/
theorem map_modifyLastGlyph {β : Type} (φ : Entry → β) (f : Entry → GlyphPart → GlyphPart)
    (hφ : ∀ e p, e.body = .glyph p → φ { e with body := .glyph (f e p) } = φ e) (es : List Entry) :
    (modifyLastGlyph f es).map φ = es.map φ := by
  simp [modifyLastGlyph, map_modifyHeadGlyph φ f hφ]

@[simp] theorem modifyLastGlyph_length (f : Entry → GlyphPart → GlyphPart) (es : List Entry) :
    (modifyLastGlyph f es).length = es.length := by
  simpa using congrArg List.length (map_modifyLastGlyph (fun _ => ()) f (fun _ _ _ => rfl) es)

@[simp] theorem kernWith_length (fonts : Vector Slot 16) (es : List Entry) (b : Option Entry) :
    (kernWith fonts es b).length = es.length := by
  simp [kernWith]

/-- Kerning a list's last base is not seen by a map that is blind to kerns. -/
theorem map_kernWith {β : Type} (φ : Entry → β)
    (hφ : ∀ e p k, e.body = .glyph p → φ { e with body := .glyph { p with kern := k } } = φ e)
    (fonts : Vector Slot 16) (es : List Entry) (b : Option Entry) : (kernWith fonts es b).map φ = es.map φ :=
  map_modifyLastGlyph φ _ (fun e p hp => hφ e p _ hp) es

theorem Entry.bare_of_glyph (e : Entry) (p q : GlyphPart) (hp : e.body = .glyph p)
    (hq : { q with form := .none, resolved := true, advance := 0, kern := 0 }
      = { p with form := .none, resolved := true, advance := 0, kern := 0 }) :
    Entry.bare { e with body := .glyph q } = e.bare := by
  simp only [Entry.bare, hp, hq]

@[simp] theorem map_bare_shapeFrom (isOpen : Bool) (prev : Joining) (es : List Entry) :
    (shapeFrom isOpen prev es).map Entry.bare = es.map Entry.bare :=
  map_shapeFrom _ _ (fun _ _ e p hp => e.bare_of_glyph p _ hp rfl) _ _

@[simp] theorem map_bare_kernWith (fonts : Vector Slot 16) (es : List Entry) (b : Option Entry) :
    (kernWith fonts es b).map Entry.bare = es.map Entry.bare :=
  map_kernWith _ (fun e p _ hp => e.bare_of_glyph p _ hp rfl) _ _ _

theorem Entry.isCore_of_glyph (e : Entry) (p q : GlyphPart) (hp : e.body = .glyph p) :
    Entry.isCore { e with body := .glyph q } = e.isCore := by
  simp [Entry.isCore, Entry.isGlyph, hp]

/-- Whether each entry is a GLYPH or FIXED stays in shaping and kerning. -/
theorem map_isCore_sealLine (fonts : Vector Slot 16) (es : List Entry) :
    (sealLine fonts es).map Entry.isCore = es.map Entry.isCore := by
  rw [sealLine, shape, map_shapeFrom _ _ (fun _ _ e p hp => e.isCore_of_glyph p _ hp),
    map_kernWith _ (fun e p _ hp => e.isCore_of_glyph p _ hp)]

theorem any_isCore_sealLine (fonts : Vector Slot 16) (es : List Entry) :
    (sealLine fonts es).any Entry.isCore = es.any Entry.isCore := by
  have h := congrArg (List.any · id) (map_isCore_sealLine fonts es)
  simpa [List.any_map] using h

/-! ### Shaping twice is shaping once (R85 to R87) -/

@[simp] theorem nextJoining_shapeFrom (isOpen : Bool) (prev : Joining) (es : List Entry) :
    nextJoining isOpen (shapeFrom isOpen prev es) = nextJoining isOpen es := by
  induction es generalizing prev with
  | nil => rfl
  | cons e es ih =>
    cases hb : e.body with
    | glyph p => simp [shapeFrom, nextJoining, hb, shapeGlyph, GlyphPart.remeasure, GlyphPart.joining]
    | mark q => simp [shapeFrom, nextJoining, hb, ih]
    | _ => simp [shapeFrom, nextJoining, hb]

/-- The forms follow from the joining classes, which shaping leaves as they are. -/
theorem shapeFrom_idem (isOpen : Bool) (prev : Joining) (es : List Entry) :
    shapeFrom isOpen prev (shapeFrom isOpen prev es) = shapeFrom isOpen prev es := by
  induction es generalizing prev with
  | nil => rfl
  | cons e es ih =>
    cases hb : e.body with
    | glyph p =>
      have hj : (shapeGlyph prev (nextJoining isOpen es) e p).joining = p.joining := rfl
      have hg : ∀ b, shapeGlyph prev (nextJoining isOpen es) { e with body := b }
          (shapeGlyph prev (nextJoining isOpen es) e p) = shapeGlyph prev (nextJoining isOpen es) e p := fun _ => rfl
      simp only [shapeFrom, hb, hj, hg, ih, nextJoining_shapeFrom]
    | space n m x => simp [shapeFrom, hb, ih]
    | fixed n => simp [shapeFrom, hb, ih]
    | mark q => simp [shapeFrom, hb, ih]

@[simp] theorem shape_idem (isOpen : Bool) (es : List Entry) : shape isOpen (shape isOpen es) = shape isOpen es :=
  shapeFrom_idem _ _ _

@[simp] theorem shape_eq_nil (isOpen : Bool) (es : List Entry) : shape isOpen es = [] ↔ es = [] := by
  rw [← List.length_eq_zero_iff, shape_length, List.length_eq_zero_iff]

/-- An entry that is no GLYPH, put at the end of a list, stays behind the entries that stood there, in their order. -/
theorem shape_append_plain (isOpen : Bool) (es : List Entry) (e : Entry) (he : e.isGlyph = false) :
    ∃ fs, shape isOpen (es ++ [e]) = fs ++ [e] ∧ fs.map Entry.bare = es.map Entry.bare := by
  have hlast : ∀ prev, shapeFrom isOpen prev [e] = [e] := by
    intro prev
    cases hb : e.body <;> simp_all [shapeFrom, Entry.isGlyph]
  have key : ∀ prev, ∃ fs, shapeFrom isOpen prev (es ++ [e]) = fs ++ [e] := by
    induction es with
    | nil => exact fun prev => ⟨[], by simp [hlast]⟩
    | cons a es ih =>
      intro prev
      rw [List.cons_append, shapeFrom]
      split
      case h_2 p hp =>
        obtain ⟨fs, hfs⟩ := ih p.joining
        exact ⟨_ :: fs, by rw [hfs]; rfl⟩
      case h_1 =>
        obtain ⟨fs, hfs⟩ := ih prev
        exact ⟨a :: fs, by rw [hfs]; rfl⟩
      case h_3 =>
        obtain ⟨fs, hfs⟩ := ih .none
        exact ⟨a :: fs, by rw [hfs]; rfl⟩
  obtain ⟨fs, hfs⟩ := key .none
  refine ⟨fs, hfs, ?_⟩
  have h := map_bare_shapeFrom isOpen .none (es ++ [e])
  rw [hfs] at h
  simpa using h

/-! ### The builder's law (R81, R93) -/

/-- The law of the line builder, of a builder alone. -/
def Builder.Lawful (b : Builder) : Prop :=
  b.entries = shape true b.entries ∧ b.sums = sumsOf b.entries ∧ b.pendingLetter = pendingOf b.entries ∧
    b.opps.length ≤ 48 ∧ (b.entries = [] → b.opps = [])

theorem Galley.builderLaw_iff (x : Galley) : x.BuilderLaw ↔ x.builder.Lawful := Iff.rfl

theorem Builder.lawful_empty : Builder.empty.Lawful := ⟨rfl, rfl, rfl, by simp [Builder.empty], fun _ => rfl⟩

/-- A new entry list gives a lawful builder, for shaping it again would change nothing (R81, R10). -/
theorem Builder.withEntries_lawful (b : Builder) (es : List Entry) (h : b.opps.length ≤ 48) :
    (b.withEntries es).Lawful := by
  refine ⟨by simp, rfl, rfl, ?_, fun hn => ?_⟩
  · simp only [Builder.withEntries]
    split <;> simp [h]
  · have : es = [] := by simpa using hn
    simp [Builder.withEntries, this, shape, shapeFrom]

theorem Builder.enter_lawful (fonts : Vector Slot 16) (b : Builder) (p : Prepared) (h : b.Lawful) :
    (b.enter fonts p).Lawful := by
  obtain ⟨-, -, -, hopps, -⟩ := h
  exact b.withEntries_lawful _ hopps

theorem Builder.addSpace_lawful (fonts : Vector Slot 16) (b : Builder) (e : Entry) (h : b.Lawful) :
    (b.addSpace fonts e).Lawful := by
  obtain ⟨-, -, -, hopps, -⟩ := h
  exact Builder.withEntries_lawful _ _ (pushOpp_length _ _ hopps)

theorem Builder.addFixed_lawful (fonts : Vector Slot 16) (b : Builder) (e : Entry) (h : b.Lawful) :
    (b.addFixed fonts e).Lawful := by
  obtain ⟨-, -, -, hopps, -⟩ := h
  exact b.withEntries_lawful _ hopps

theorem Builder.foldl_enter_lawful (fonts : Vector Slot 16) (ps : List Prepared) (b : Builder) (h : b.Lawful) :
    (ps.foldl (Builder.enter fonts) b).Lawful := by
  induction ps generalizing b with
  | nil => exact h
  | cons p ps ih => exact ih _ (b.enter_lawful fonts p h)

/-- A record joined to the opportunity list of a builder with entries keeps its law (R93). -/
theorem Builder.pushOpp_lawful (b : Builder) (o : Opp) (h : b.Lawful) (hne : b.entries ≠ []) :
    ({ b with opps := pushOpp b.opps o } : Builder).Lawful := by
  obtain ⟨hshape, hsums, hpend, hopps, -⟩ := h
  exact ⟨hshape, hsums, hpend, pushOpp_length _ _ hopps, fun hn => absurd hn hne⟩

/-! ### Settling a copy: how many entries it makes (R84 to R90) -/

/-- A dropped mark makes no entry, and every other copy makes one (R84 step 4, R89). -/
theorem enterPrepared_length (fonts : Vector Slot 16) (es : List Entry) (p : Prepared) :
    (enterPrepared fonts es p).length = if p.dropped es then es.length else es.length + 1 := by
  unfold enterPrepared
  split
  · simp
  · split <;> simp [addBase]

@[simp] theorem Builder.enter_length (fonts : Vector Slot 16) (b : Builder) (p : Prepared) :
    (b.enter fonts p).entries.length = if p.dropped b.entries then b.entries.length else b.entries.length + 1 := by
  simp [Builder.enter, enterPrepared_length]

theorem Prepared.dropped_nil (p : Prepared) : p.dropped [] = false := by
  simp [Prepared.dropped, Prepared.attaches, endsInGlyph]

@[simp] theorem Builder.enter_lineDepth (fonts : Vector Slot 16) (b : Builder) (p : Prepared) :
    (b.enter fonts p).lineDepth = b.lineDepth := rfl

@[simp] theorem Builder.foldl_enter_lineDepth (fonts : Vector Slot 16) (ps : List Prepared) (b : Builder) :
    (ps.foldl (Builder.enter fonts) b).lineDepth = b.lineDepth := by
  induction ps generalizing b with
  | nil => rfl
  | cons p ps ih => simp [ih]

theorem Builder.length_le_foldl_enter (fonts : Vector Slot 16) (ps : List Prepared) (b : Builder) :
    b.entries.length ≤ (ps.foldl (Builder.enter fonts) b).entries.length := by
  induction ps generalizing b with
  | nil => exact Nat.le_refl _
  | cons p ps ih =>
    refine Nat.le_trans ?_ (ih (b.enter fonts p))
    rw [Builder.enter_length]
    split <;> omega

/-- Settled on an empty builder, copies make at least one entry: the first finds no base it could be dropped from. -/
theorem Builder.foldl_enter_of_empty (fonts : Vector Slot 16) (ps : List Prepared) (b : Builder) (hb : b.entries = [])
    (hps : ps ≠ []) : 0 < (ps.foldl (Builder.enter fonts) b).entries.length := by
  obtain ⟨p, ps, rfl⟩ := List.exists_cons_of_ne_nil hps
  refine Nat.lt_of_lt_of_le ?_ (Builder.length_le_foldl_enter fonts ps (b.enter fonts p))
  simp [hb, Prepared.dropped_nil]

/-! ### A dropped mark leaves the sums (R89) -/

/-- An entry without the note that a mark of it was dropped. -/
def Entry.unnoted (e : Entry) : Entry :=
  match e.body with
  | .glyph p => { e with body := .glyph { p with marksDropped := false } }
  | _ => e

theorem nextJoining_unnoted (isOpen : Bool) (es : List Entry) :
    nextJoining isOpen (es.map Entry.unnoted) = nextJoining isOpen es := by
  induction es with
  | nil => rfl
  | cons e es ih => cases hb : e.body <;> simp [nextJoining, Entry.unnoted, hb, ih, GlyphPart.joining]

/-- Shaping neither reads nor writes that note. -/
theorem shapeFrom_unnoted (isOpen : Bool) (prev : Joining) (es : List Entry) :
    shapeFrom isOpen prev (es.map Entry.unnoted) = (shapeFrom isOpen prev es).map Entry.unnoted := by
  induction es generalizing prev with
  | nil => rfl
  | cons e es ih =>
    cases hb : e.body with
    | glyph p =>
      have hj : ({ p with marksDropped := false } : GlyphPart).joining = p.joining := rfl
      simp only [List.map_cons, shapeFrom, Entry.unnoted, hb, hj, ih, nextJoining_unnoted]
      rfl
    | space n m x => simp [shapeFrom, Entry.unnoted, hb, ih]
    | fixed n => simp [shapeFrom, Entry.unnoted, hb, ih]
    | mark q => simp [shapeFrom, Entry.unnoted, hb, ih]

@[simp] theorem Entry.unnoted_isSpace (e : Entry) : e.unnoted.isSpace = e.isSpace := by
  cases hb : e.body <;> simp [Entry.unnoted, Entry.isSpace, hb]

@[simp] theorem Entry.unnoted_coreWidth (e : Entry) : e.unnoted.coreWidth = e.coreWidth := by
  cases hb : e.body <;> simp [Entry.unnoted, Entry.coreWidth, hb]

@[simp] theorem Entry.unnoted_spaceWidths (e : Entry) : e.unnoted.spaceWidths = e.spaceWidths := by
  cases hb : e.body <;> simp [Entry.unnoted, Entry.spaceWidths, hb]

/-- The sums of R9 do not read that note. -/
theorem sumsOf_unnoted (es : List Entry) : sumsOf (es.map Entry.unnoted) = sumsOf es := by
  have hs : Entry.isSpace ∘ Entry.unnoted = Entry.isSpace := funext Entry.unnoted_isSpace
  have hc : Entry.coreWidth ∘ Entry.unnoted = Entry.coreWidth := funext Entry.unnoted_coreWidth
  have ht : trailingSpaces (es.map Entry.unnoted) = (trailingSpaces es).map Entry.unnoted := by
    simp only [trailingSpaces, ← List.map_reverse, List.takeWhile_map, hs]
  simp [sumsOf, ht, List.filter_map, hs, hc, Function.comp_def]

/-- A mark that is dropped changes no width: the builder's sums stay (R89, R9). -/
theorem Builder.enter_dropped_sums (fonts : Vector Slot 16) (b : Builder) (p : Prepared) (h : b.Lawful)
    (hd : p.dropped b.entries = true) : (b.enter fonts p).sums = b.sums := by
  obtain ⟨hshape, hsums, -, -, -⟩ := h
  have hu : ∀ f : Entry → GlyphPart → GlyphPart, (∀ e p, f e p = { p with marksDropped := true }) →
      (modifyLastGlyph f b.entries).map Entry.unnoted = b.entries.map Entry.unnoted := fun f hf =>
    map_modifyLastGlyph _ f (fun e q hq => by simp [Entry.unnoted, hq, hf]) _
  calc (b.enter fonts p).sums
      = sumsOf (shape true (enterPrepared fonts b.entries p)) := rfl
    _ = sumsOf (shape true ((enterPrepared fonts b.entries p).map Entry.unnoted)) := by
        rw [shape, shape, shapeFrom_unnoted, sumsOf_unnoted]
    _ = sumsOf (shape true (b.entries.map Entry.unnoted)) := by
        rw [enterPrepared, if_pos hd, hu _ fun _ _ => rfl]
    _ = sumsOf (shape true b.entries) := by rw [shape, shapeFrom_unnoted, sumsOf_unnoted, shape]
    _ = b.sums := by rw [← hshape, hsums]

/-- Copies that make no entry change no width: each of them is a dropped mark (R89, R94). -/
theorem Builder.foldl_enter_none_made (fonts : Vector Slot 16) (ps : List Prepared) (b : Builder) (h : b.Lawful)
    (hlen : (ps.foldl (Builder.enter fonts) b).entries.length ≤ b.entries.length) :
    (ps.foldl (Builder.enter fonts) b).sums = b.sums := by
  induction ps generalizing b with
  | nil => rfl
  | cons p ps ih =>
    have hle := Builder.length_le_foldl_enter fonts ps (b.enter fonts p)
    rw [List.foldl_cons] at hlen ⊢
    have hb := Builder.enter_length fonts b p
    cases hd : p.dropped b.entries with
    | true =>
      rw [hd, if_pos rfl] at hb
      rw [ih _ (b.enter_lawful fonts p h) (by omega), Builder.enter_dropped_sums fonts b p h hd]
    | false =>
      rw [hd] at hb
      simp only [Bool.false_eq_true, if_false] at hb
      omega

end Sys2Proof.Machine
end

