-- ==== Sys2Proof/Proofs/LineClose.lean ====
section
/-! Line close, the chain of closes and starts, and the consumption of an item: what each leaves of the builder (R81), and that
a started line fits its measure behind them (R95, R102). -/

namespace Sys2Proof.Machine

/-! ### Frames: the builder in halts, exceptions and line starts -/

@[simp] theorem Run.take_gal (r : Run) (x : Galley) : (r.take x).gal = x.take := rfl
@[simp] theorem Run.take_stopped (r : Run) (x : Galley) : (r.take x).stopped = r.stopped := rfl
@[simp] theorem Galley.take_builder (x : Galley) : x.take.builder = x.builder := rfl
@[simp] theorem Galley.take_active (x : Galley) : x.take.active = x.active := rfl

@[simp] theorem Run.giveException_builder (c : Ctx) (r : Run) (l : LineRecord) :
    (r.giveException c l).gal.builder = r.gal.builder := by
  obtain ⟨_, h⟩ | ⟨_, _, h⟩ | ⟨_, _, h⟩ := r.giveException_cases c l <;> rw [h]
@[simp] theorem Run.giveException_active (c : Ctx) (r : Run) (l : LineRecord) :
    (r.giveException c l).gal.active = r.gal.active := by
  obtain ⟨_, h⟩ | ⟨_, _, h⟩ | ⟨_, _, h⟩ := r.giveException_cases c l <;> rw [h]

/-- What a line start that takes place leaves (R60): of the builder it fixes the depth and the clamp mark alone. -/
theorem startLine_eq_some {c : Ctx} {x y : Galley} {byPara : Bool} (h : startLine c x byPara = some y) :
    ∃ clampPending clampMark, y =
      { x with
        active := x.nextParams, pendingFlag := false, clampPending := clampPending
        builder := { x.builder with lineDepth := some x.nextDepth, clampMark := clampMark } } := by
  unfold startLine at h
  dsimp only at h
  split at h
  · cases h
  · exact ⟨_, _, (Option.some.inj h).symm⟩

theorem startLine_started {c : Ctx} {x y : Galley} {byPara : Bool} (h : startLine c x byPara = some y) : y.started = true := by
  obtain ⟨_, _, rfl⟩ := startLine_eq_some h
  rfl

theorem startLine_output {c : Ctx} {x y : Galley} {byPara : Bool} (h : startLine c x byPara = some y) :
    y.output = x.output := by
  obtain ⟨_, _, rfl⟩ := startLine_eq_some h
  rfl

theorem startLine_entries {c : Ctx} {x y : Galley} {byPara : Bool} (h : startLine c x byPara = some y) :
    y.builder.entries = x.builder.entries := by
  obtain ⟨_, _, rfl⟩ := startLine_eq_some h
  rfl

/-- The law of the builder reads neither the depth nor the clamp mark. -/
theorem startLine_lawful {c : Ctx} {x y : Galley} {byPara : Bool} (h : startLine c x byPara = some y)
    (hx : x.builder.Lawful) : y.builder.Lawful := by
  obtain ⟨_, _, rfl⟩ := startLine_eq_some h
  exact hx

/-- The galley an item finds has a started line; either that was started before, or it starts now (R84 step 2). -/
theorem needLine_eq_some {c : Ctx} {x y : Galley} {byPara : Bool} (h : needLine c x byPara = some y) :
    (x.started = true ∧ y = x) ∨ (x.started = false ∧ startLine c x byPara = some y) := by
  unfold needLine at h
  split at h
  · exact .inl ⟨‹_›, (Option.some.inj h).symm⟩
  · rename_i hs
    exact .inr ⟨Bool.not_eq_true _ ▸ hs, h⟩

/-! ### The law of a started line (R95) -/

/-- The fit test and the law of R95 say the same. -/
theorem Galley.fits_iff (x : Galley) : x.fits = true ↔ x.FitLaw := by
  cases hs : x.started with
  | false => simp [Galley.fits, Galley.FitLaw, hs]
  | true =>
    simp only [Galley.fits, Galley.FitLaw, hs, Bool.not_true, Bool.false_or, true_imp_iff]
    exact decide_eq_true_iff

/-- Without a started line there is nothing to fit. -/
theorem Galley.fitLaw_of_unstarted (x : Galley) (h : x.builder.lineDepth = none) : x.FitLaw := by
  simp [Galley.FitLaw, Galley.started, h]

theorem Galley.hasCarry_of_started (x : Galley) (h : x.started = true) : x.hasCarry = false := by
  simp [Galley.hasCarry, h]

theorem Galley.hasCarry_of_empty (x : Galley) (h : x.builder.entries = []) : x.hasCarry = false := by
  simp [Galley.hasCarry, h]

theorem Galley.entries_eq_nil_of_unstarted (x : Galley) (hs : x.started = false) (hc : x.hasCarry = false) :
    x.builder.entries = [] := by
  simpa [Galley.hasCarry, hs] using hc

/-! ### Line close: the builder it leaves (R100 step 6) -/

/-- The builder behind a line close: the carry with its records, without a started line. -/
def carryBuilder (carry : List Entry) (opps : List Opp) : Builder := { Builder.empty with opps := opps }.withEntries carry

theorem carryBuilder_lawful (carry : List Entry) (opps : List Opp) (h : opps.length ≤ 48) : (carryBuilder carry opps).Lawful :=
  Builder.withEntries_lawful _ _ h

/-- Whatever becomes of its record, a line close leaves the carry in the builder. -/
theorem closeLine_builder (c : Ctx) (r : Run) (es : List Entry) (forced wide last : Bool) (carry : List Entry)
    (opps : List Opp) : (closeLine c r es forced wide last carry opps).gal.builder = carryBuilder carry opps := by
  unfold closeLine
  dsimp only
  cases r.gal.mark.acts (r.gal.afterClose carry opps).builder.entries <;>
  · simp only [Bool.false_eq_true, if_false, if_true]
    by_cases hb : (dropTrailingSpaces (sealLine c.fonts es)).isEmpty = true
    · rw [if_pos hb]
      rfl
    · rw [if_neg hb]
      split
      · exact Run.giveException_builder _ _ _
      · exact Run.giveException_builder _ _ _

/-! ### The breaks a full line closes at (R96, R99) -/

theorem moveOpps_length (start shift : Nat) (opps : List Opp) : (moveOpps start shift opps).length = opps.length := by
  simp [moveOpps]

/-- The records that move with a carry are among those behind the opportunity taken (R97, R98). -/
theorem breakAt_opps_length (fonts : Vector Slot 16) (es : List Entry) (o : Opp) (later : List Opp) :
    (breakAt fonts es o later).opps.length ≤ later.length := by
  unfold breakAt
  split <;> simpa only [breakAtSpace, breakAtDisc, moveOpps_length] using List.length_filter_le _ _

/-- The break a trial close chooses fits, and moves no more records than the list held (R96). -/
theorem trialClose_some (fonts : Vector Slot 16) (es : List Entry) (p : Params) (incoming : Nat) (opps : List Opp) (k : Break)
    (h : trialClose fonts es p incoming opps = some k) : k.fits p incoming = true ∧ k.opps.length ≤ opps.length := by
  induction opps with
  | nil => simp [trialClose] at h
  | cons o later ih =>
    unfold trialClose at h
    split at h
    · rename_i b hb
      cases h
      obtain ⟨hfits, hlen⟩ := ih hb
      exact ⟨hfits, Nat.le_succ_of_le hlen⟩
    · dsimp only at h
      split at h
      · cases h
        exact ⟨‹_›, Nat.le_succ_of_le (breakAt_opps_length fonts es o later)⟩
      · cases h

/-- The line of a break a line closes at holds a GLYPH or FIXED entry (R96, R99). -/
theorem ClosesAt.line_core {fonts : Vector Slot 16} {b : Builder} {p : Params} {incoming : Nat} {k : Break} {forced : Bool}
    (h : ClosesAt fonts b p incoming k forced) : k.line.any Entry.isCore = true := by
  obtain ⟨h, -⟩ | ⟨-, h, -⟩ := h
  · obtain ⟨hfits, -⟩ := trialClose_some _ _ _ _ _ _ h
    simp only [Break.fits, Bool.and_eq_true] at hfits
    obtain ⟨⟨⟨hcore, -⟩, -⟩, -⟩ := hfits
    exact hcore
  · unfold forcedClose at h
    split at h
    · cases h
    · split at h
      · cases h
        rwa [any_isCore_sealLine]
      · cases h

theorem ClosesAt.opps_length {fonts : Vector Slot 16} {b : Builder} {p : Params} {incoming : Nat} {k : Break} {forced : Bool}
    (h : ClosesAt fonts b p incoming k forced) : k.opps.length ≤ b.opps.length := by
  obtain ⟨h, -⟩ | ⟨-, h, -⟩ := h
  · exact (trialClose_some _ _ _ _ _ _ h).2
  · unfold forcedClose at h
    split at h
    · cases h
    · split at h
      · cases h
        simpa only [moveOpps_length] using List.length_filter_le _ _
      · cases h

/-- Everything the close of a line that has no room can do (R96, R99): it closes at a break, or whole with nothing carried. -/
theorem closeFull_cases (c : Ctx) (r : Run) (incoming : Nat) :
    (∃ k forced, ClosesAt c.fonts r.gal.builder r.gal.active incoming k forced ∧
      closeFull c r incoming = closeLine c r k.line forced false false k.carry k.opps) ∨
    ∃ wide, closeFull c r incoming = closeLine c r r.gal.builder.entries false wide false [] [] := by
  unfold closeFull
  dsimp only
  split
  · rename_i k hk
    exact .inl ⟨k, false, .inl ⟨hk, rfl⟩, rfl⟩
  · rename_i hk
    split
    · rename_i k hf
      exact .inl ⟨k, true, .inr ⟨hk, hf, rfl⟩, rfl⟩
    · exact .inr ⟨true, rfl⟩
    · exact .inr ⟨false, rfl⟩

theorem closeFull_unstarted (c : Ctx) (r : Run) (incoming : Nat) : (closeFull c r incoming).gal.builder.lineDepth = none := by
  obtain ⟨k, forced, -, h⟩ | ⟨wide, h⟩ := closeFull_cases c r incoming <;> rw [h, closeLine_builder] <;> rfl

theorem closeFull_lawful (c : Ctx) (r : Run) (incoming : Nat) (h : r.gal.builder.Lawful) :
    (closeFull c r incoming).gal.builder.Lawful := by
  obtain ⟨-, -, -, hopps, -⟩ := h
  obtain ⟨k, forced, hk, h⟩ | ⟨wide, h⟩ := closeFull_cases c r incoming <;> rw [h, closeLine_builder]
  · exact carryBuilder_lawful _ _ (Nat.le_trans hk.opps_length hopps)
  · exact carryBuilder_lawful _ _ (by simp)

/-- A list with a GLYPH or FIXED entry is not all trailing spaces. -/
theorem dropTrailingSpaces_ne_nil (es : List Entry) (h : es.any Entry.isCore = true) : dropTrailingSpaces es ≠ [] := by
  obtain ⟨e, he, hcore⟩ := List.any_eq_true.1 h
  intro hnil
  have hall : ∀ e ∈ es, e.isSpace = true := by
    simpa [dropTrailingSpaces, List.dropWhile_eq_nil_iff] using hnil
  have hspace := hall e he
  cases hb : e.body <;> simp [Entry.isCore, Entry.isGlyph, Entry.isFixed, Entry.isSpace, hb] at hcore hspace

/-- A close that leaves a carry and does not stop the galley has put a record into an output queue that had room: this is what
bounds a chain of closes (R61, R102). -/
theorem closeFull_progress (c : Ctx) (r : Run) (incoming : Nat) (hgo : (closeFull c r incoming).stopped = false)
    (hcarry : (closeFull c r incoming).gal.builder.entries ≠ []) :
    r.gal.output.length < 4 ∧ (closeFull c r incoming).gal.output.length = r.gal.output.length + 1 := by
  obtain ⟨k, forced, hk, h⟩ | ⟨wide, h⟩ := closeFull_cases c r incoming
  · rw [h] at hgo ⊢
    have hbody : dropTrailingSpaces (sealLine c.fonts k.line) ≠ [] :=
      dropTrailingSpaces_ne_nil _ (by rw [any_isCore_sealLine]; exact hk.line_core)
    obtain ⟨hnil, -⟩ | ⟨-, hroom, ⟨l, hl, -⟩, -⟩ | ⟨-, -, -, hstop, -⟩ :=
      closeLine_cases c r k.line forced false false k.carry k.opps
    · exact absurd hnil hbody
    · exact ⟨hroom, by rw [hl]; simp⟩
    · rw [hstop] at hgo
      cases hgo
  · rw [h, closeLine_builder] at hcarry
    exact absurd rfl hcarry

/-! ### The chain of closes and starts (R95, R102) -/

theorem fitChain_lawful (c : Ctx) (n : Nat) (r : Run) (h : r.gal.builder.Lawful) : (fitChain c n r).gal.builder.Lawful := by
  induction n generalizing r with
  | zero => exact h
  | succ n ih =>
    unfold fitChain
    have hq := closeFull_lawful c r 0 h
    split
    · exact h
    · dsimp only
      split
      · exact hq
      · split
        · exact hq
        · rename_i x hx
          exact ih _ (startLine_lawful hx hq)

/-- The fuel of a chain is above the closes an output queue of any length lets it make. -/
theorem chainFuel_outlasts (n : Nat) : 5 ≤ chainFuel + n := by
  simp only [chainFuel, Config.outputCapacity]
  omega

/-- The chain ends with a line that fits, or with none started, however many lines it closed: each close that goes on fills a place of the
output queue, so the fuel outlasts the closes. A galley that goes on behind a started line's chain holds no carry. -/
theorem fitChain_fitLaw (c : Ctx) (n : Nat) (r : Run) (hgo : r.stopped = false)
    (hfuel : 5 ≤ n + min r.gal.output.length 4) :
    (fitChain c n r).gal.FitLaw ∧
      (r.gal.started = true → (fitChain c n r).stopped = true ∨ (fitChain c n r).gal.hasCarry = false) := by
  induction n generalizing r with
  | zero => omega
  | succ n ih =>
    unfold fitChain
    cases hf : r.gal.fits with
    | true =>
      simp only [Bool.or_true, if_true]
      exact ⟨(Galley.fits_iff _).1 hf, fun hs => .inr (Galley.hasCarry_of_started _ hs)⟩
    | false =>
      simp only [hgo, Bool.or_false, Bool.false_eq_true, if_false]
      have hdepth := closeFull_unstarted c r 0
      cases hq : (closeFull c r 0).stopped || (closeFull c r 0).gal.builder.entries.isEmpty with
      | true =>
        simp only [if_true]
        refine ⟨Galley.fitLaw_of_unstarted _ hdepth, fun _ => ?_⟩
        obtain hq | hq := (Bool.or_eq_true_iff).1 hq
        · exact .inl hq
        · exact .inr (Galley.hasCarry_of_empty _ (List.isEmpty_iff.1 hq))
      | false =>
        simp only [Bool.false_eq_true, if_false]
        obtain ⟨hqgo, hqne⟩ := (Bool.or_eq_false_iff).1 hq
        obtain ⟨hroom, hout⟩ := closeFull_progress c r 0 hqgo (by simpa using hqne)
        split
        · exact ⟨Galley.fitLaw_of_unstarted _ hdepth, fun _ => .inl rfl⟩
        · rename_i x hx
          have hxout := startLine_output hx
          obtain ⟨hfit, hcarry⟩ := ih { closeFull c r 0 with gal := x } hqgo (by dsimp only; rw [hxout]; omega)
          exact ⟨hfit, fun _ => hcarry (startLine_started hx)⟩

theorem startCarry_lawful (c : Ctx) (r : Run) (h : r.gal.builder.Lawful) : (startCarry c r).gal.builder.Lawful := by
  unfold startCarry
  split
  · exact h
  · split
    · exact h
    · rename_i x hx
      exact fitChain_lawful c _ _ (startLine_lawful hx h)

/-- A carry's start ends with a line that fits, and a galley that goes on behind it holds no carry (R63 step 2). -/
theorem startCarry_fitLaw (c : Ctx) (r : Run) (h : r.gal.FitLaw) :
    (startCarry c r).gal.FitLaw ∧ ((startCarry c r).stopped = true ∨ (startCarry c r).gal.hasCarry = false) := by
  unfold startCarry
  cases hs : r.stopped || !r.gal.hasCarry with
  | true =>
    simp only [if_true]
    exact ⟨h, by simpa using hs⟩
  | false =>
    obtain ⟨hgo, -⟩ := (Bool.or_eq_false_iff).1 hs
    simp only [Bool.false_eq_true, if_false]
    split
    · exact ⟨h, .inl rfl⟩
    · rename_i x hx
      obtain ⟨hfit, hcarry⟩ := fitChain_fitLaw c chainFuel { r with gal := x } hgo (chainFuel_outlasts _)
      exact ⟨hfit, hcarry (startLine_started hx)⟩

/-! ### The end of an item's course (R84 step 5, R102, R103) -/

/-- The entry limit closes nothing, or closes the line that is full (R103). -/
theorem limitClose_cases (c : Ctx) (r : Run) (n : Nat) :
    limitClose c r n = (r, false) ∨ limitClose c r n = (closeFull c r n, true) := by
  unfold limitClose
  split
  · exact .inr rfl
  · exact .inl rfl

theorem limitClose_lawful (c : Ctx) (r : Run) (n : Nat) (h : r.gal.builder.Lawful) :
    (limitClose c r n).1.gal.builder.Lawful := by
  obtain hl | hl := limitClose_cases c r n <;> rw [hl]
  · exact h
  · exact closeFull_lawful c r n h

theorem limitClose_unlimited {c : Ctx} {r q : Run} {n : Nat} (h : limitClose c r n = (q, false)) : q = r := by
  obtain hl | hl := limitClose_cases c r n <;> rw [hl] at h <;> cases h
  rfl

theorem limitClose_unstarted {c : Ctx} {r q : Run} {n : Nat} (h : limitClose c r n = (q, true)) :
    q.gal.builder.lineDepth = none := by
  obtain hl | hl := limitClose_cases c r n <;> rw [hl] at h <;> cases h
  exact closeFull_unstarted c r n

theorem endCourse_lawful (c : Ctx) (r : Run) (limited : Bool) (h : r.gal.builder.Lawful) :
    (endCourse c r limited).gal.builder.Lawful := by
  cases limited
  · exact fitChain_lawful c _ r h
  · exact startCarry_lawful c r h

/-- Whatever an item put into the line, its course ends with a line that fits (R95, R102). -/
theorem endCourse_fitLaw (c : Ctx) (r : Run) (limited : Bool) (hgo : limited = false → r.stopped = false)
    (hl : limited = true → r.gal.builder.lineDepth = none) : (endCourse c r limited).gal.FitLaw := by
  cases limited with
  | false => exact (fitChain_fitLaw c chainFuel r (hgo rfl) (chainFuel_outlasts _)).1
  | true => exact (startCarry_fitLaw c r (Galley.fitLaw_of_unstarted _ (hl rfl))).1

/-- The course of an item behind its limit close: entries joined to the builder without touching its depth. -/
theorem endCourse_limitClose_fitLaw {c : Ctx} {r q : Run} {n : Nat} {limited : Bool} (hq : limitClose c r n = (q, limited))
    (hgo : r.stopped = false) (x : Galley) (hx : x.builder.lineDepth = q.gal.builder.lineDepth) :
    (endCourse c (q.take x) limited).gal.FitLaw := by
  refine endCourse_fitLaw c _ _ (fun h => ?_) (fun h => ?_) <;> subst h
  · rw [Run.take_stopped, limitClose_unlimited hq, hgo]
  · rw [Run.take_gal, Galley.take_builder, hx, limitClose_unstarted hq]

end Sys2Proof.Machine
end

