-- ==== Sys2Proof/Proofs/Consumption.lean ====
section
/-! The consumption of each item, and the controller's own work: both keep the builder's law, and leave a started line within its
measure (R84, R92, R94, R101, R63). -/

namespace Sys2Proof.Machine

/-! ### Items that make entries (R84, R92) -/

theorem needLine_lawful {c : Ctx} {x y : Galley} {byPara : Bool} (h : needLine c x byPara = some y)
    (hx : x.builder.Lawful) : y.builder.Lawful := by
  obtain ⟨-, rfl⟩ | ⟨-, hs⟩ := needLine_eq_some h
  · exact hx
  · exact startLine_lawful hs hx

/-- The course of an item that enters the line (R84): it halts the galley, or finds a line, closes it first where it is full, puts its
entry into the builder and ends its course. -/
def EntersLine (c : Ctx) (r t : Run) : Prop :=
  (∃ cause, t = r.halt c cause) ∨
  ∃ x n q limited b made, needLine c r.gal false = some x ∧ limitClose c { r with gal := x } n = (q, limited) ∧
    b.lineDepth = q.gal.builder.lineDepth ∧ (q.gal.builder.Lawful → b.Lawful) ∧
    t = endCourse c (q.take { q.gal with builder := b, hasEntries := made }) limited

theorem EntersLine.lawful {c : Ctx} {r t : Run} (h : EntersLine c r t) (hr : r.gal.builder.Lawful) : t.gal.builder.Lawful := by
  obtain ⟨cause, rfl⟩ | ⟨x, n, q, limited, b, made, hx, hq, -, hb, rfl⟩ := h
  · exact hr
  · have hlim := limitClose_lawful c { r with gal := x } n (needLine_lawful hx hr)
    rw [hq] at hlim
    exact endCourse_lawful c _ limited (hb hlim)

theorem EntersLine.fitLaw {c : Ctx} {r t : Run} (h : EntersLine c r t) (hgo : r.stopped = false) (hr : r.gal.FitLaw) :
    t.gal.FitLaw := by
  obtain ⟨cause, rfl⟩ | ⟨x, n, q, limited, b, made, -, hq, hb, -, rfl⟩ := h
  · exact hr
  · exact endCourse_limitClose_fitLaw hq hgo _ hb

theorem consumeChar_enters (c : Ctx) (r : Run) (code : CodeUnit) : EntersLine c r (consumeChar c r code) := by
  cases hl : lookup c.fonts r.gal.slot code with
  | none => exact .inl ⟨.noFont, by simp only [consumeChar, hl]⟩
  | some hit =>
    cases hx : needLine c r.gal false with
    | none => exact .inl ⟨.overmatter, by simp only [consumeChar, hl, hx]⟩
    | some x =>
      simp only [consumeChar, hl, hx]
      generalize hq : limitClose c _ _ = ql
      obtain ⟨q, limited⟩ := ql
      refine .inr ⟨x, _, q, limited, _, _, hx, hq, ?_, ?_, rfl⟩
      · rfl
      · exact Builder.enter_lawful _ _ _

theorem consumeSpace_enters (c : Ctx) (r : Run) : EntersLine c r (consumeSpace c r) := by
  cases hl : lookupHeader c.fonts r.gal.slot with
  | none => exact .inl ⟨.noFont, by simp only [consumeSpace, hl]⟩
  | some h =>
    cases hx : needLine c r.gal false with
    | none => exact .inl ⟨.overmatter, by simp only [consumeSpace, hl, hx]⟩
    | some x =>
      simp only [consumeSpace, hl, hx]
      generalize hq : limitClose c _ _ = ql
      obtain ⟨q, limited⟩ := ql
      refine .inr ⟨x, _, q, limited, _, _, hx, hq, ?_, ?_, rfl⟩
      · rfl
      · exact Builder.addSpace_lawful _ _ _

theorem consumeFixed_enters (c : Ctx) (r : Run) : EntersLine c r (consumeFixed c r) := by
  cases hl : lookupHeader c.fonts r.gal.slot with
  | none => exact .inl ⟨.noFont, by simp only [consumeFixed, hl]⟩
  | some h =>
    cases hx : needLine c r.gal false with
    | none => exact .inl ⟨.overmatter, by simp only [consumeFixed, hl, hx]⟩
    | some x =>
      simp only [consumeFixed, hl, hx]
      generalize hq : limitClose c _ _ = ql
      obtain ⟨q, limited⟩ := ql
      refine .inr ⟨x, _, q, limited, _, _, hx, hq, ?_, ?_, rfl⟩
      · rfl
      · exact Builder.addFixed_lawful _ _ _

/-! ### PARA (R101) -/

/-- PARA halts the galley, or leaves an empty builder (R101). -/
theorem consumePara_cases (c : Ctx) (r : Run) :
    (∃ cause, consumePara c r = r.halt c cause) ∨ (consumePara c r).gal.builder = carryBuilder [] [] := by
  cases hx : needLine c r.gal true with
  | none => exact .inl ⟨.overmatter, by simp only [consumePara, hx]⟩
  | some x =>
    refine .inr ?_
    simp only [consumePara, hx]
    exact closeLine_builder c (r.take x) x.builder.entries false false true [] []

/-! ### DISC (R94) -/

theorem prepareText_length (c : Ctx) (x : Galley) (role : DiscRole) (us : List CodeUnit) (ps : List Prepared)
    (h : x.prepareText c role us = some ps) : ps.length = us.length := by
  induction us generalizing ps with
  | nil => cases h; rfl
  | cons u us ih =>
    unfold Galley.prepareText at h
    split at h
    · rename_i qs _ hq
      cases h
      simp [ih _ hq]
    · cases h

/-- Everything a DISC can do (R94): it halts the galley, or enters the copies of its no-break text and, where the builder holds entries, may
add an opportunity; the course of an entered item follows, unless nothing was entered and the line was not full. -/
theorem consumeDisc_cases (c : Ctx) (r : Run) (pre post noBreak : List CodeUnit) :
    (∃ cause, consumeDisc c r pre post noBreak = r.halt c cause) ∨
    ∃ x q limited, ∃ texts : List Prepared, ∃ b made,
      (noBreak = [] ∧ x = r.gal ∨ noBreak ≠ [] ∧ needLine c r.gal false = some x) ∧ texts.length = noBreak.length ∧
      limitClose c { r with gal := x } texts.length = (q, limited) ∧
      (b = texts.foldl (Builder.enter c.fonts) q.gal.builder ∨
        q.gal.builder.entries ≠ [] ∧ ∃ o, b =
          { texts.foldl (Builder.enter c.fonts) q.gal.builder with
            opps := pushOpp (texts.foldl (Builder.enter c.fonts) q.gal.builder).opps o }) ∧
      (consumeDisc c r pre post noBreak = endCourse c (q.take { q.gal with builder := b, hasEntries := made }) limited ∨
        limited = false ∧
        (texts.foldl (Builder.enter c.fonts) q.gal.builder).entries.length ≤ q.gal.builder.entries.length ∧
        consumeDisc c r pre post noBreak = q.take { q.gal with builder := b, hasEntries := made }) := by
  unfold consumeDisc
  dsimp only
  split
  case h_2 => exact .inl ⟨.noFont, rfl⟩
  case h_1 h pres posts texts _ _ _ htexts =>
    split
    case h_1 => exact .inl ⟨.overmatter, rfl⟩
    case h_2 x hx =>
      have hfound : noBreak = [] ∧ x = r.gal ∨ noBreak ≠ [] ∧ needLine c r.gal false = some x := by
        split at hx
        · exact .inl ⟨List.isEmpty_iff.1 ‹_›, (Option.some.inj hx).symm⟩
        · exact .inr ⟨fun h => ‹¬_› (by simp [h]), hx⟩
      cases hq : limitClose c { r with gal := x } texts.length with
      | mk q limited =>
      let entered := texts.foldl (Builder.enter c.fonts) q.gal.builder
      let opp : Opp :=
        { place := q.gal.builder.entries.length
          kind := .disc q.gal.itemIndex pres posts (entered.entries.length - q.gal.builder.entries.length) }
      refine .inr ⟨x, q, limited, texts,
        if q.gal.active.hyphenation && decide (0 < q.gal.builder.entries.length) then
          { entered with opps := pushOpp entered.opps opp } else entered,
        q.gal.hasEntries || decide (0 < entered.entries.length - q.gal.builder.entries.length), hfound,
        prepareText_length c _ _ _ _ htexts, hq, ?_, ?_⟩
      rotate_left
      · cases hn : limited || decide (0 < entered.entries.length - q.gal.builder.entries.length) with
        | true => exact .inl (if_pos rfl)
        | false =>
          obtain ⟨hlim, hmade⟩ := Bool.or_eq_false_iff.1 hn
          rw [decide_eq_false_iff_not] at hmade
          exact .inr ⟨hlim, Nat.sub_eq_zero_iff_le.1 (Nat.eq_zero_of_not_pos hmade), if_neg Bool.false_ne_true⟩
      · split
        · rename_i hp
          obtain ⟨-, hp⟩ := (Bool.and_eq_true_iff).1 hp
          exact .inr ⟨List.length_pos_iff.1 (of_decide_eq_true hp), _, rfl⟩
        · exact .inl rfl

theorem consumeDisc_lawful (c : Ctx) (r : Run) (pre post noBreak : List CodeUnit) (hr : r.gal.builder.Lawful) :
    (consumeDisc c r pre post noBreak).gal.builder.Lawful := by
  obtain ⟨cause, h⟩ | ⟨x, q, limited, texts, b, made, hx, -, hq, hb, ht⟩ := consumeDisc_cases c r pre post noBreak
  · rw [h]
    exact hr
  · have hxl : x.builder.Lawful := by
      obtain ⟨-, rfl⟩ | ⟨-, hx⟩ := hx
      · exact hr
      · exact needLine_lawful hx hr
    have hql := limitClose_lawful c { r with gal := x } texts.length hxl
    rw [hq] at hql
    have hentered := Builder.foldl_enter_lawful c.fonts texts _ hql
    have hbl : b.Lawful := by
      obtain rfl | ⟨hne, o, rfl⟩ := hb
      · exact hentered
      · have hlen := Builder.length_le_foldl_enter c.fonts texts q.gal.builder
        have hpos := List.length_pos_iff.2 hne
        exact Builder.pushOpp_lawful _ o hentered (List.length_pos_iff.1 (by omega))
    obtain ht | ⟨-, -, ht⟩ := ht <;> rw [ht]
    · exact endCourse_lawful c _ limited hbl
    · exact hbl

/-- A DISC whose no-break marks are all dropped enters nothing, and its line, which then stood before it, stands as it was: on an empty
builder the first copy would have been entered. Every other DISC that touches the line ends in the fit test. -/
theorem consumeDisc_fitLaw (c : Ctx) (r : Run) (pre post noBreak : List CodeUnit) (hgo : r.stopped = false)
    (hcarry : r.gal.hasCarry = false) (hl : r.gal.builder.Lawful) (hr : r.gal.FitLaw) :
    (consumeDisc c r pre post noBreak).gal.FitLaw := by
  obtain ⟨cause, h⟩ | ⟨x, q, limited, texts, b, made, hx, hlen, hq, hb, ht⟩ := consumeDisc_cases c r pre post noBreak
  · rw [h]
    exact hr
  · have hbdepth : b.lineDepth = q.gal.builder.lineDepth := by
      obtain rfl | ⟨-, o, rfl⟩ := hb <;> simp
    have hbsums : b.sums = (texts.foldl (Builder.enter c.fonts) q.gal.builder).sums := by
      obtain rfl | ⟨-, o, rfl⟩ := hb <;> rfl
    obtain ht | ⟨hlim, hnone, ht⟩ := ht <;> rw [ht]
    · exact endCourse_limitClose_fitLaw hq hgo _ hbdepth
    · subst hlim
      obtain rfl : q = { r with gal := x } := limitClose_unlimited hq
      have hxr : x = r.gal := by
        obtain ⟨-, rfl⟩ | ⟨hne, hx⟩ := hx
        · rfl
        · obtain ⟨-, rfl⟩ | ⟨hs, hstart⟩ := needLine_eq_some hx
          · rfl
          · have hempty : x.builder.entries = [] := by
              rw [startLine_entries hstart, Galley.entries_eq_nil_of_unstarted _ hs hcarry]
            have htexts : texts ≠ [] := fun h => hne (List.length_eq_zero_iff.1 (by rw [← hlen, h]; rfl))
            have hpos := Builder.foldl_enter_of_empty c.fonts texts _ hempty htexts
            simp only [hempty, List.length_nil] at hnone
            omega
      subst hxr
      have hsums := Builder.foldl_enter_none_made c.fonts texts _ hl hnone
      intro hs
      have hs' : r.gal.started = true := by simpa [Galley.started, hbdepth] using hs
      simpa only [Run.take_gal, Galley.take_builder, Galley.take_active, hbsums, hsums] using hr hs'

/-! ### Value and direction items (R49 to R53) -/

/-- A value item touches the builder's clamp mark alone (R50, R51). -/
theorem Galley.clamped_builder (x : Galley) (was : Bool) :
    (x.clamped was).active = x.active ∧ ∃ mark, (x.clamped was).builder = { x.builder with clampMark := mark } := by
  unfold Galley.clamped
  split
  · split
    · exact ⟨rfl, _, rfl⟩
    · exact ⟨rfl, _, rfl⟩
  · exact ⟨rfl, _, rfl⟩

theorem Galley.setSize_builder (x : Galley) (q : CodeUnit) :
    (x.setSize q).active = x.active ∧ ∃ mark, (x.setSize q).builder = { x.builder with clampMark := mark } :=
  Galley.clamped_builder { x with size := _ } _

theorem Galley.setTrack_builder (x : Galley) (t : CodeUnit) :
    (x.setTrack t).active = x.active ∧ ∃ mark, (x.setTrack t).builder = { x.builder with clampMark := mark } :=
  Galley.clamped_builder { x with track := _ } _

theorem Galley.setShift_builder (x : Galley) (s : CodeUnit) :
    (x.setShift s).active = x.active ∧ ∃ mark, (x.setShift s).builder = { x.builder with clampMark := mark } :=
  Galley.clamped_builder { x with shift := _ } _

theorem Galley.setDirection_builder (x : Galley) (d : Dir) :
    (x.setDirection d).active = x.active ∧ ∃ mark, (x.setDirection d).builder = { x.builder with clampMark := mark } := by
  unfold Galley.setDirection
  split <;> exact ⟨rfl, _, rfl⟩

/-- Both laws read neither the clamp mark nor what lies outside the builder and the active set. -/
theorem Galley.lawful_of_clampMark {x y : Galley}
    (h : y.active = x.active ∧ ∃ mark, y.builder = { x.builder with clampMark := mark }) (hx : x.builder.Lawful) :
    y.take.builder.Lawful := by
  obtain ⟨-, mark, hb⟩ := h
  rw [Galley.take_builder, hb]
  exact hx

theorem Galley.fitLaw_of_clampMark {x y : Galley}
    (h : y.active = x.active ∧ ∃ mark, y.builder = { x.builder with clampMark := mark }) (hx : x.FitLaw) :
    y.take.FitLaw := by
  obtain ⟨ha, mark, hb⟩ := h
  intro hs
  have hs' : x.started = true := by simpa [Galley.started, hb] using hs
  simpa [ha, hb] using hx hs'

/-! ### The item at the front of the queue (R48) -/

theorem consumeItem_lawful (c : Ctx) (r : Run) (hr : r.gal.builder.Lawful) : (consumeItem c r).gal.builder.Lawful := by
  unfold consumeItem
  split
  · exact hr
  · exact (consumeChar_enters c r _).lawful hr
  · exact (consumeSpace_enters c r).lawful hr
  · exact (consumeFixed_enters c r).lawful hr
  · obtain ⟨cause, h⟩ | h := consumePara_cases c r <;> rw [h]
    · exact hr
    · exact carryBuilder_lawful [] [] (by simp)
  · exact hr
  · exact Galley.lawful_of_clampMark (Galley.setSize_builder _ _) hr
  · exact Galley.lawful_of_clampMark (Galley.setTrack_builder _ _) hr
  · exact Galley.lawful_of_clampMark (Galley.setShift_builder _ _) hr
  · exact Galley.lawful_of_clampMark (Galley.setDirection_builder _ _) hr
  · exact Galley.lawful_of_clampMark (Galley.setDirection_builder _ _) hr
  · exact consumeDisc_lawful c r _ _ _ hr

theorem consumeItem_fitLaw (c : Ctx) (r : Run) (hgo : r.stopped = false) (hcarry : r.gal.hasCarry = false)
    (hl : r.gal.builder.Lawful) (hr : r.gal.FitLaw) : (consumeItem c r).gal.FitLaw := by
  unfold consumeItem
  split
  · exact hr
  · exact (consumeChar_enters c r _).fitLaw hgo hr
  · exact (consumeSpace_enters c r).fitLaw hgo hr
  · exact (consumeFixed_enters c r).fitLaw hgo hr
  · obtain ⟨cause, h⟩ | h := consumePara_cases c r
    · rw [h]
      exact hr
    · exact Galley.fitLaw_of_unstarted _ (by rw [h]; rfl)
  · exact hr
  · exact Galley.fitLaw_of_clampMark (Galley.setSize_builder _ _) hr
  · exact Galley.fitLaw_of_clampMark (Galley.setTrack_builder _ _) hr
  · exact Galley.fitLaw_of_clampMark (Galley.setShift_builder _ _) hr
  · exact Galley.fitLaw_of_clampMark (Galley.setDirection_builder _ _) hr
  · exact Galley.fitLaw_of_clampMark (Galley.setDirection_builder _ _) hr
  · exact consumeDisc_fitLaw c r _ _ _ hgo hcarry hl hr

/-! ### Proceeding, draining and closing (R63, R76, R77) -/

@[simp] theorem Run.offWhenEmpty_builder (c : Ctx) (r : Run) : (r.offWhenEmpty c).gal.builder = r.gal.builder := by
  unfold Run.offWhenEmpty
  split <;> rfl

@[simp] theorem Run.offWhenEmpty_active (c : Ctx) (r : Run) : (r.offWhenEmpty c).gal.active = r.gal.active := by
  unfold Run.offWhenEmpty
  split <;> rfl

@[simp] theorem Run.enterClosing_builder (c : Ctx) (r : Run) : (r.enterClosing c).gal.builder = r.gal.builder :=
  Run.offWhenEmpty_builder c _

@[simp] theorem Run.enterClosing_active (c : Ctx) (r : Run) : (r.enterClosing c).gal.active = r.gal.active :=
  Run.offWhenEmpty_active c _

/-- The law of a started line reads of a galley its builder and its active set alone. -/
theorem Galley.fitLaw_congr {x y : Galley} (hb : y.builder = x.builder) (ha : y.active = x.active) (hx : x.FitLaw) : y.FitLaw := by
  unfold Galley.FitLaw Galley.started at *
  rwa [hb, ha]

/-- A drain ends with the builder as it stood, or behind the close of its line with an empty one (R76). -/
theorem endDrain_cases (c : Ctx) (r : Run) :
    ((endDrain c r).gal.builder = r.gal.builder ∧ (endDrain c r).gal.active = r.gal.active) ∨
      (endDrain c r).gal.builder = carryBuilder [] [] := by
  unfold endDrain
  cases hs : r.gal.started with
  | false =>
    refine .inl ?_
    simp only [Bool.false_eq_true, if_false]
    split <;> simp
  | true =>
    refine .inr ?_
    simp only [if_true]
    split <;> simp [closeLine_builder]

theorem proceedQueue_lawful (c : Ctx) (r : Run) (hr : r.gal.builder.Lawful) : (proceedQueue c r).gal.builder.Lawful := by
  unfold proceedQueue
  split
  · split
    · obtain ⟨h, -⟩ | h := endDrain_cases c r <;> rw [h]
      · exact hr
      · exact carryBuilder_lawful [] [] (by simp)
    · exact hr
  · split
    · exact hr
    · exact consumeItem_lawful c r hr

theorem proceedQueue_fitLaw (c : Ctx) (r : Run) (hgo : r.stopped = false) (hcarry : r.gal.hasCarry = false)
    (hl : r.gal.builder.Lawful) (hr : r.gal.FitLaw) : (proceedQueue c r).gal.FitLaw := by
  unfold proceedQueue
  split
  · split
    · obtain ⟨hb, ha⟩ | h := endDrain_cases c r
      · exact Galley.fitLaw_congr hb ha hr
      · exact Galley.fitLaw_of_unstarted _ (by rw [h]; rfl)
    · exact hr
  · split
    · exact hr
    · exact consumeItem_fitLaw c r hgo hcarry hl hr

theorem proceed_lawful (c : Ctx) (r : Run) (hr : r.gal.builder.Lawful) : (proceed c r).gal.builder.Lawful := by
  unfold proceed
  have hs := startCarry_lawful c r hr
  split
  · exact hr
  · split
    · exact hr
    · dsimp only
      split
      · exact hs
      · exact proceedQueue_lawful c _ hs

/-- A galley that proceeds starts its carry first, and so consumes an item only with no carry in hand (R63). -/
theorem proceed_fitLaw (c : Ctx) (r : Run) (hl : r.gal.builder.Lawful) (hr : r.gal.FitLaw) : (proceed c r).gal.FitLaw := by
  unfold proceed
  obtain ⟨hfit, hnext⟩ := startCarry_fitLaw c r hr
  split
  · exact hr
  · split
    · exact hr
    · dsimp only
      split
      · exact hfit
      · rename_i hgo
        have hcarry := hnext.resolve_left hgo
        exact proceedQueue_fitLaw c _ (by simpa using hgo) hcarry (startCarry_lawful c r hl) hfit

theorem afterHeadLeaves_lawful (c : Ctx) (r : Run) (hr : r.gal.builder.Lawful) : (afterHeadLeaves c r).gal.builder.Lawful := by
  unfold afterHeadLeaves
  split
  · rw [Run.offWhenEmpty_builder]
    exact hr
  · dsimp only
    split
    · split
      · exact hr
      · exact hr
      · exact proceed_lawful c _ hr
    · exact hr

theorem afterHeadLeaves_fitLaw (c : Ctx) (r : Run) (hl : r.gal.builder.Lawful) (hr : r.gal.FitLaw) :
    (afterHeadLeaves c r).gal.FitLaw := by
  unfold afterHeadLeaves
  split
  · exact Galley.fitLaw_congr (Run.offWhenEmpty_builder c r) (Run.offWhenEmpty_active c r) hr
  · dsimp only
    split
    · split
      · exact hr
      · exact hr
      · exact proceed_fitLaw c _ hl hr
    · exact hr

theorem stepGalley_lawful (c : Ctx) (x : Galley) (hx : x.builder.Lawful) : (stepGalley c x).gal.builder.Lawful := by
  unfold stepGalley
  have hs := startCarry_lawful c (Run.start x) hx
  dsimp only
  split
  · exact hs
  · split <;> exact consumeItem_lawful c _ hs

theorem stepGalley_fitLaw (c : Ctx) (x : Galley) (hl : x.builder.Lawful) (hx : x.FitLaw) : (stepGalley c x).gal.FitLaw := by
  unfold stepGalley
  have hs := startCarry_lawful c (Run.start x) hl
  obtain ⟨hfit, hnext⟩ := startCarry_fitLaw c (Run.start x) hx
  dsimp only
  split
  · exact hfit
  · rename_i hgo
    have hconsumed := consumeItem_fitLaw c _ (by simpa using hgo) (hnext.resolve_left hgo) hs hfit
    split <;> exact hconsumed

/-- The un-release test touches neither the builder nor the active set (R64 step 2). -/
theorem unreleaseTest_frame (c : Ctx) (high : Nat) (r : Run) :
    (unreleaseTest c high r).gal.builder = r.gal.builder ∧ (unreleaseTest c high r).gal.active = r.gal.active := by
  unfold unreleaseTest
  dsimp only
  split
  · exact ⟨rfl, rfl⟩
  · split
    · split <;> exact ⟨rfl, rfl⟩
    · split <;> exact ⟨rfl, rfl⟩

theorem arrival_lawful (c : Ctx) (high units : Nat) (x : Galley) (hx : x.builder.Lawful) :
    (arrival c high units x).gal.builder.Lawful := by
  unfold arrival
  obtain ⟨hb, -⟩ := unreleaseTest_frame c high (Run.start x.retrigger)
  have h : (unreleaseTest c high (Run.start x.retrigger)).gal.builder.Lawful := by
    rw [hb]
    exact hx
  dsimp only
  split
  · exact proceed_lawful c _ h
  · exact h

theorem arrival_fitLaw (c : Ctx) (high units : Nat) (x : Galley) (hl : x.builder.Lawful) (hx : x.FitLaw) :
    (arrival c high units x).gal.FitLaw := by
  unfold arrival
  obtain ⟨hb, ha⟩ := unreleaseTest_frame c high (Run.start x.retrigger)
  have hfit : (unreleaseTest c high (Run.start x.retrigger)).gal.FitLaw := Galley.fitLaw_congr hb ha hx
  dsimp only
  split
  · exact proceed_fitLaw c _ (by rw [hb]; exact hl) hfit
  · exact hfit

end Sys2Proof.Machine
end

