-- ==== Sys2Proof/Proofs/Moves.lean ====
section
/-! What a step can do to a galley. Every command reaches a galley by one of a few moves; a law that each move keeps is kept by every
step, and this is shown once, for any law. -/

namespace Sys2Proof.Machine

/-! ### The moves of a galley -/

/-- What can become of a galley within one event: the change a request makes to it, with the guard under which it is made, or the
controller's own work. -/
inductive Galley.Move : Galley → Galley → Prop where
  /-- Power-on and PART RESET (R80). -/
  | reset (x : Galley) : Move x Galley.reset
  /-- GALLEY OPEN (R57). -/
  | opened (x : Galley) (p : Params) (top interval : Nat) (slot : SlotId) (size : Nat) (track : Int) (h : x.state = .off) :
      Move x (x.opened p top interval slot size track)
  /-- PARAM (R58). -/
  | staged (x : Galley) (p : Params) (h : x.state ≠ .off) : Move x { x with staged := p, pendingFlag := true }
  /-- PARAM NOW (R59). -/
  | activated (x : Galley) (p : Params) (h : x.state = .halted) (hs : x.started = false) :
      Move x { x with active := p, pendingFlag := false }
  /-- RESTART (R71, R128). -/
  | restarted (x : Galley) (top : Nat) (column : Option (Nat × Nat)) (h : x.state = .halted) (hs : x.started = false)
      (ht : x.topAboveQueued top = false) : Move x (x.restarted top column)
  /-- ABANDON (R72). -/
  | abandoned (x : Galley) (h : x.state = .halted) : Move x { x with builder := Builder.empty }
  /-- FLUSH (R54). -/
  | flushed (x : Galley) (h : x.state = .halted) : Move x { x with story := [] }
  /-- MARK SET and MARK CLEAR (R69). -/
  | marked (x : Galley) (m : StopMark) (h : x.state ≠ .off) : Move x { x with mark := m }
  /-- SNAPSHOT and POSITION (R78). -/
  | latched (x : Galley) (p : Option PositionRecord) : Move x { x with snapshot := p }
  /-- GALLEY REPORT (R79). -/
  | reported (x : Galley) : Move x { x with latch := none, excCount := 0 }
  /-- The idle timer's expiry (R74). -/
  | released (x : Galley) (h : x.idleTimer = true) : Move x { x with idleTimer := false, released := true }
  /-- HALT (R66). -/
  | halted (c : Ctx) (x : Galley) (h : ¬(x.state = .off ∨ x.state = .closing ∨ x.state = .halted)) :
      Move x ((Run.start x).halt c .request).gal
  /-- STORY (R64). -/
  | arrived (c : Ctx) (high units : Nat) (items : List Item) (x : Galley) (h : ¬(x.state = .off ∨ x.state = .closing)) :
      Move x (arrival c high units { x with story := x.story ++ items }).gal
  /-- RESUME (R67). -/
  | resumed (c : Ctx) (x : Galley) (h : x.state = .halted) :
      Move x ((Run.start { x with released := false, idleTimer := x.timerStarted }).goOn c).gal
  /-- STEP (R68). -/
  | stepped (c : Ctx) (x : Galley) (h : x.state = .halted) (hh : x.held.isSome = false) (hs : x.story.isEmpty = false) :
      Move x (stepGalley c x).gal
  /-- GALLEY CLOSE DRAIN of a galley that is to drain later (R76). -/
  | drainNoted (x : Galley) (h : ¬(x.state = .off ∨ x.state = .closing ∨ x.drain = true)) : Move x { x with drain := true }
  /-- GALLEY CLOSE DRAIN of a galley that drains at once (R76). -/
  | drained (c : Ctx) (x : Galley) (h : x.state = .ready ∨ x.state = .setting ∨ x.state = .starved) :
      Move x (proceed c (Run.start { x with drain := true, state := .draining })).gal
  /-- GALLEY CLOSE DISCARD (R77). -/
  | discarded (c : Ctx) (x : Galley) (h : ¬(x.state = .off ∨ x.state = .closing)) :
      Move x ((Run.start x.discarded).enterClosing c).gal
  /-- The galley's own event (R63). -/
  | proceeded (c : Ctx) (x : Galley) : Move x (proceed c (Run.start x)).gal
  /-- The head of its output queue retires (R135). -/
  | retired (c : Ctx) (x : Galley) : Move x (retireHead c x).gal
  /-- The head of its output queue is spoiled (R136). -/
  | spoiled (c : Ctx) (x : Galley) : Move x (spoilHead c x).gal

/-- Each galley of the second state is reached from the first's by moves: by none or one in most events, by two where power-on is followed
by a request taken behind READY (R176). -/
def State.Moves (s t : State) : Prop := ∀ g, Relation.ReflTransGen Galley.Move (s.galley g) (t.galley g)

theorem State.Moves.of_galleys {s t : State} (h : t.galleys = s.galleys) : s.Moves t := fun g => by
  rw [State.galley, State.galley, h]

theorem State.Moves.refl (s : State) : s.Moves s := .of_galleys rfl

theorem State.Moves.trans {s t u : State} (h : s.Moves t) (h' : t.Moves u) : s.Moves u := fun g => (h g).trans (h' g)

/-- An event that first changes nothing of the galleys, and then goes on. -/
theorem State.Moves.after_galleys {s t u : State} (h : t.Moves u) (hst : t.galleys = s.galleys) : s.Moves u :=
  (State.Moves.of_galleys hst).trans h

theorem State.Moves.setGalley (s : State) {g : GalleyId} {x : Galley} (h : Galley.Move (s.galley g) x) :
    s.Moves (s.setGalley g x) := by
  intro g'
  rw [State.galley_setGalley]
  split
  · rename_i hg
    subst hg
    exact .single h
  · exact .refl

theorem State.Moves.commit (s : State) {g : GalleyId} {r : Run} (h : Galley.Move (s.galley g) r.gal) :
    s.Moves (s.commit g r) :=
  (State.Moves.setGalley s h).trans (.of_galleys (by simp [State.commit]))

/-- Whatever the state before it, a reset galley is one move away. -/
theorem State.Moves.of_reset (s : State) {t : State} (h : t.galleys = Vector.replicate 4 Galley.reset) : s.Moves t := by
  intro g
  have : t.galley g = Galley.reset := by simp [State.galley, h]
  rw [this]
  exact .single (.reset _)

/-! ### What each request does to the galleys -/

theorem handleStory_moves (s : State) (target : Byte) (body : List Byte) : s.Moves (handleStory s target body).state := by
  unfold handleStory
  dsimp only
  split
  · exact .refl s
  · split
    · exact .refl s
    · split
      · exact .refl s
      · exact .commit s (.arrived _ _ _ _ _ ‹_›)

theorem handleFlush_moves (s : State) (target : Byte) (body : List Byte) : s.Moves (handleFlush s target body).state := by
  unfold handleFlush
  dsimp only
  split
  · exact .refl s
  · exact .setGalley s (.flushed _ (not_not.1 ‹_›))

theorem handleGalleyOpen_moves (s : State) (target : Byte) (body : List Byte) :
    s.Moves (handleGalleyOpen s target body).state := by
  unfold handleGalleyOpen
  dsimp only
  split
  · exact .refl s
  · split
    · exact .refl s
    · rename_i hoff
      split
      · split
        · exact .refl s
        · split
          · split
            · exact .refl s
            · exact .setGalley s (.opened _ _ _ _ _ _ _ (not_not.1 hoff))
          · exact .refl s
      · exact .refl s

theorem handleParam_moves (s : State) (target : Byte) (body : List Byte) : s.Moves (handleParam s target body).state := by
  unfold handleParam
  dsimp only
  split
  · exact .refl s
  · rename_i hoff
    split
    · exact .refl s
    · split
      · exact .refl s
      · split
        · exact .refl s
        · exact .setGalley s (.staged _ _ hoff)

theorem handleParamNow_moves (s : State) (target : Byte) (body : List Byte) :
    s.Moves (handleParamNow s target body).state := by
  unfold handleParamNow
  dsimp only
  split
  · exact .refl s
  · rename_i hhalted
    split
    · exact .refl s
    · rename_i hstarted
      split
      · exact .refl s
      · split
        · exact .refl s
        · split
          · exact .refl s
          · exact .setGalley s (.activated _ _ (not_not.1 hhalted) (eq_false_of_ne_true hstarted))

theorem handleHalt_moves (s : State) (target : Byte) (body : List Byte) : s.Moves (handleHalt s target body).state := by
  unfold handleHalt
  dsimp only
  split
  · exact .refl s
  · exact .commit s (.halted _ _ ‹_›)

theorem handleResume_moves (s : State) (target : Byte) (body : List Byte) : s.Moves (handleResume s target body).state := by
  unfold handleResume
  dsimp only
  split
  · exact .refl s
  · split
    · exact .refl s
    · exact .commit s (.resumed _ _ (not_not.1 ‹_›))

theorem handleStep_moves (s : State) (target : Byte) (body : List Byte) : s.Moves (handleStep s target body).state := by
  unfold handleStep
  dsimp only
  split
  · exact .refl s
  · rename_i hhalted
    split
    · exact .refl s
    · rename_i hheld
      split
      · exact .refl s
      · exact .commit s (.stepped _ _ (not_not.1 hhalted) (eq_false_of_ne_true hheld) (eq_false_of_ne_true ‹_›))

theorem handleMarkSet_moves (s : State) (target : Byte) (body : List Byte) : s.Moves (handleMarkSet s target body).state := by
  unfold handleMarkSet
  dsimp only
  split
  · exact .refl s
  · rename_i hstate
    split
    · split
      · exact .refl s
      · split
        · exact .refl s
        · exact .setGalley s (.marked _ _ (fun h => hstate (.inl h)))
    · exact .refl s

theorem handleMarkClear_moves (s : State) (target : Byte) (body : List Byte) :
    s.Moves (handleMarkClear s target body).state := by
  unfold handleMarkClear
  dsimp only
  split
  · exact .refl s
  · exact .setGalley s (.marked _ _ ‹_›)

theorem handleRestart_moves (s : State) (target : Byte) (body : List Byte) : s.Moves (handleRestart s target body).state := by
  unfold handleRestart
  dsimp only
  split
  · exact .refl s
  · rename_i hhalted
    split
    · exact .refl s
    · split
      · exact .refl s
      · rename_i hstarted
        split
        · exact .refl s
        · rename_i top column _
          have judged (ok : Bool) : s.Moves
              (if s.page.depth ≤ top ∨ !ok then s.refuse .range
                else if aboveBand s.page.high top || (s.galley (galleyOf target)).topAboveQueued top then s.refuse .behind
                else (s.setGalley (galleyOf target) ((s.galley (galleyOf target)).restarted top column)).accept []).state := by
            split
            · exact .refl s
            · split
              · exact .refl s
              · rename_i hbehind
                obtain ⟨-, htop⟩ := Bool.or_eq_false_iff.1 (eq_false_of_ne_true hbehind)
                exact .setGalley s (.restarted _ _ _ (not_not.1 hhalted) (eq_false_of_ne_true hstarted) htop)
          exact judged _

theorem handleAbandon_moves (s : State) (target : Byte) (body : List Byte) : s.Moves (handleAbandon s target body).state := by
  unfold handleAbandon
  dsimp only
  split
  · exact .refl s
  · split
    · exact .refl s
    · exact .setGalley s (.abandoned _ (not_not.1 ‹_›))

theorem handlePeek_moves (s : State) (target : Byte) (body : List Byte) : s.Moves (handlePeek s target body).state := by
  unfold handlePeek
  dsimp only
  split
  · exact .refl s
  · split <;> exact .refl s

theorem drainGalley_moves (s : State) (g : GalleyId) : s.Moves (drainGalley s g).state := by
  unfold drainGalley
  dsimp only
  split
  · exact .refl s
  · split
    · exact .commit s (.drained _ _ ‹_›)
    · exact .commit s (.drainNoted _ ‹_›)

theorem discardGalley_moves (s : State) (g : GalleyId) : s.Moves (discardGalley s g).state := by
  unfold discardGalley
  dsimp only
  split
  · exact .refl s
  · exact .commit s (.discarded _ _ ‹_›)

theorem handleGalleyClose_moves (s : State) (target : Byte) (body : List Byte) :
    s.Moves (handleGalleyClose s target body).state := by
  unfold handleGalleyClose
  split
  · exact drainGalley_moves s _
  · exact discardGalley_moves s _
  · exact .refl s

theorem handlePosition_moves (s : State) (target : Byte) (body : List Byte) :
    s.Moves (handlePosition s target body).state := by
  unfold handlePosition
  dsimp only
  split
  · exact .setGalley s (.latched _ none)
  · exact .refl s

theorem latch_moves (s : State) (set : Byte) (g : GalleyId) : s.Moves (State.latch set s g) := by
  unfold State.latch
  split
  · exact .setGalley s (.latched _ _)
  · exact .refl s

theorem handleSnapshot_moves (s : State) (target : Byte) (body : List Byte) :
    s.Moves (handleSnapshot s target body).state :=
  have fold (gs : List GalleyId) (s : State) : s.Moves (gs.foldl (State.latch (body.headD 0)) s) := by
    induction gs generalizing s with
    | nil => exact .refl s
    | cons g gs ih => exact (latch_moves s _ g).trans (ih _)
  fold _ s

theorem handleGalleyReport_moves (s : State) (target : Byte) (body : List Byte) :
    s.Moves (handleGalleyReport s target body).state :=
  .setGalley s (.reported _)

/-! ### Requests that reach no galley -/

theorem clearFlag_galleys (s : State) (f : Flag) : (s.clearFlag f).galleys = s.galleys := by
  unfold State.clearFlag
  split
  · rfl
  · dsimp only
    split
    · rfl
    · exact State.raise_galleys _ _ _

theorem handleEventClear_galleys (s : State) (target : Byte) (body : List Byte) :
    (handleEventClear s target body).state.galleys = s.galleys := by
  have fold : ∀ (fs : List Flag) (s : State), (fs.foldl State.clearFlag s).galleys = s.galleys := by
    intro fs
    induction fs with
    | nil => exact fun _ => rfl
    | cons f fs ih => exact fun s => (ih _).trans (clearFlag_galleys s f)
  unfold handleEventClear
  split
  · rfl
  · split
    · rfl
    · exact fold _ s

theorem unmaskNotice_galleys (old : Vector Bool 9) (s : State) (f : Flag) :
    (State.unmaskNotice old s f).galleys = s.galleys := by
  unfold State.unmaskNotice
  split
  · rfl
  · split <;> rfl

theorem handleEventMask_galleys (s : State) (target : Byte) (body : List Byte) :
    (handleEventMask s target body).state.galleys = s.galleys := by
  have fold : ∀ (old : Vector Bool 9) (fs : List Flag) (s : State),
      (fs.foldl (State.unmaskNotice old) s).galleys = s.galleys := by
    intro old fs
    induction fs with
    | nil => exact fun _ => rfl
    | cons f fs ih => exact fun s => (ih _).trans (unmaskNotice_galleys old s f)
  unfold handleEventMask
  split
  · exact fold _ _ _
  · rfl

theorem handleFontBegin_galleys (s : State) (target : Byte) (body : List Byte) :
    (handleFontBegin s target body).state.galleys = s.galleys := by
  unfold handleFontBegin
  dsimp only
  split
  · split <;> rfl
  · rfl

theorem handleFontGlyphs_galleys (s : State) (target : Byte) (body : List Byte) :
    (handleFontGlyphs s target body).state.galleys = s.galleys := by
  unfold handleFontGlyphs
  dsimp only
  split
  · rfl
  · split
    · rfl
    · split
      · rfl
      · split <;> rfl

theorem handleFontKern_galleys (s : State) (target : Byte) (body : List Byte) :
    (handleFontKern s target body).state.galleys = s.galleys := by
  unfold handleFontKern
  dsimp only
  split
  · rfl
  · split
    · split <;> rfl
    · rfl

theorem handleFontEnd_galleys (s : State) (target : Byte) (body : List Byte) :
    (handleFontEnd s target body).state.galleys = s.galleys := by
  unfold handleFontEnd
  dsimp only
  split
  · rfl
  · exact State.raise_galleys _ _ _

theorem handlePageOpen_galleys (s : State) (target : Byte) (body : List Byte) :
    (handlePageOpen s target body).state.galleys = s.galleys := by
  unfold handlePageOpen
  split
  · rfl
  · split
    · dsimp only
      split <;> rfl
    · rfl

theorem handlePageClose_galleys (s : State) (target : Byte) (body : List Byte) :
    (handlePageClose s target body).state.galleys = s.galleys := by
  unfold handlePageClose
  split <;> rfl

theorem handleUnitResume_galleys (s : State) (target : Byte) (body : List Byte) :
    (handleUnitResume s target body).state.galleys = s.galleys := by
  unfold handleUnitResume
  dsimp only
  split <;> rfl

/-- Every request, by its kind. -/
theorem handle_moves (k : ReqKind) (s : State) (target : Byte) (body : List Byte) :
    s.Moves (handle k s target body).state := by
  cases k with
  | status => exact .refl s
  | position => exact handlePosition_moves s target body
  | snapshot => exact handleSnapshot_moves s target body
  | galleyReport => exact handleGalleyReport_moves s target body
  | eventClear => exact .of_galleys (handleEventClear_galleys s target body)
  | eventMask => exact .of_galleys (handleEventMask_galleys s target body)
  | partReset => exact .of_galleys rfl
  | story => exact handleStory_moves s target body
  | param => exact handleParam_moves s target body
  | halt => exact handleHalt_moves s target body
  | markSet => exact handleMarkSet_moves s target body
  | markClear => exact handleMarkClear_moves s target body
  | galleyOpen => exact handleGalleyOpen_moves s target body
  | galleyClose => exact handleGalleyClose_moves s target body
  | fontBegin => exact .of_galleys (handleFontBegin_galleys s target body)
  | fontGlyphs => exact .of_galleys (handleFontGlyphs_galleys s target body)
  | fontKern => exact .of_galleys (handleFontKern_galleys s target body)
  | fontEnd => exact .of_galleys (handleFontEnd_galleys s target body)
  | fontDrop => exact .of_galleys rfl
  | fontQuery => exact .refl s
  | pageOpen => exact .of_galleys (handlePageOpen_galleys s target body)
  | pageClose => exact .of_galleys (handlePageClose_galleys s target body)
  | unitResume => exact .of_galleys (handleUnitResume_galleys s target body)
  | resume => exact handleResume_moves s target body
  | step => exact handleStep_moves s target body
  | paramNow => exact handleParamNow_moves s target body
  | restart => exact handleRestart_moves s target body
  | peek => exact handlePeek_moves s target body
  | abandon => exact handleAbandon_moves s target body
  | flush => exact handleFlush_moves s target body

theorem dispatch_moves (s : State) (kind target : Byte) (body : List Byte) : s.Moves (dispatch s kind target body).state := by
  unfold dispatch
  split
  · exact .refl s
  · split
    · exact .refl s
    · split
      · exact .refl s
      · exact handle_moves _ s target body

/-! ### Frames at the composing link (R154 to R163, R175) -/

theorem takeFrame_moves (s : State) (f : LinkFrame) : s.Moves (s.takeFrame f) := by
  unfold State.takeFrame
  refine State.Moves.trans ?_ (.of_galleys (State.noting_galleys _ _))
  split
  · exact .of_galleys rfl
  · split
    · exact (dispatch_moves s _ _ _).trans (.of_galleys rfl)
    · exact .of_galleys rfl

theorem completeFrame_moves (s : State) (f : LinkFrame) : s.Moves (s.completeFrame f) := by
  unfold State.completeFrame
  dsimp only
  split
  · exact .after_galleys (takeFrame_moves _ f) rfl
  · exact .of_galleys rfl

theorem linkByte_moves (s : State) (b : Byte) : s.Moves (s.linkByte b) := by
  unfold State.linkByte
  split
  · exact .of_galleys rfl
  · exact .after_galleys (completeFrame_moves _ _) rfl

theorem takeHeldFrame_moves (s : State) : s.Moves s.takeHeldFrame := by
  unfold State.takeHeldFrame
  split
  · exact .refl s
  · split
    · exact .after_galleys (takeFrame_moves _ _) rfl
    · exact .refl s

theorem transmit_moves (s : State) : s.Moves s.transmit := by
  unfold State.transmit
  split
  · exact .refl s
  · split
    · exact .refl s
    · exact .after_galleys (takeHeldFrame_moves _) rfl

theorem resetEffect_moves (s : State) : s.Moves s.resetEffect := by
  unfold State.resetEffect
  split
  · exact .of_reset s rfl
  · exact .refl s

theorem powerOn_moves (s : State) (early : List PowerUpEvent) : s.Moves (s.powerOn early) :=
  State.Moves.trans (.of_reset s rfl) (takeHeldFrame_moves _)

/-! ### The galleys' own events, the timers and the photo unit -/

theorem galleyProceeds_moves (s : State) (g : GalleyId) : s.Moves (galleyProceeds s g) :=
  (State.Moves.commit s (.proceeded _ _)).trans (.of_galleys (State.noting_galleys _ _))

theorem consumeEvent_moves (s : State) (g : GalleyId) (want : Item → Bool) : s.Moves (consumeEvent s g want) := by
  unfold consumeEvent
  dsimp only
  split
  · exact .refl s
  · split
    · exact galleyProceeds_moves s g
    · exact .refl s

theorem tagMarkHalt_moves (s : State) (g : GalleyId) : s.Moves (tagMarkHalt s g) := by
  unfold tagMarkHalt
  dsimp only
  split
  · exact galleyProceeds_moves s g
  · exact .refl s

theorem queueEmpties_moves (s : State) (g : GalleyId) : s.Moves (queueEmpties s g) := by
  unfold queueEmpties
  dsimp only
  split
  · exact galleyProceeds_moves s g
  · exact .refl s

theorem drainEnd_moves (s : State) (g : GalleyId) : s.Moves (drainEnd s g) := by
  unfold drainEnd
  dsimp only
  split
  · exact galleyProceeds_moves s g
  · exact .refl s

theorem idleExpiry_moves (s : State) (g : GalleyId) : s.Moves (idleExpiry s g) := by
  unfold idleExpiry
  dsimp only
  split
  · exact (State.Moves.setGalley s (.released _ ‹_›)).trans (.of_galleys (by simp))
  · exact .refl s

theorem silenceExpiry_galleys (s : State) (n : SlotId) : (silenceExpiry s n).galleys = s.galleys := by
  unfold silenceExpiry
  dsimp only
  split
  · exact State.raise_galleys _ _ _
  · rfl

theorem takeDone_moves (s : State) (n : Byte) : s.Moves (s.takeDone n) := by
  unfold State.takeDone
  split
  · exact .refl s
  · split
    · dsimp only
      refine State.Moves.trans ?_ (.of_galleys (State.noting_galleys _ _))
      split
      · exact .after_galleys (.commit _ (.retired _ _)) rfl
      · exact .of_galleys (by simp [State.pageDone])
    · exact .refl s

theorem spoil_moves (s : State) (k : OrderKind) : s.Moves (s.spoil k) := by
  cases k with
  | line g => exact .commit s (.spoiled _ _)
  | cut => exact .refl s

theorem failOrder_moves (s : State) (o : Order) (fault : FaultCode) : s.Moves (s.failOrder o fault) := by
  unfold State.failOrder
  dsimp only
  refine State.Moves.trans ?_ (.of_galleys (State.noting_galleys _ _))
  split
  · exact .after_galleys (spoil_moves _ _) (State.raise_galleys _ _ _)
  · exact .after_galleys ((spoil_moves _ _).trans (.of_galleys (State.raise_galleys _ _ _))) rfl

theorem takeFault_moves (s : State) (n code : Byte) : s.Moves (s.takeFault n code) := by
  unfold State.takeFault
  split
  · exact .refl s
  · split
    · exact failOrder_moves s _ _
    · exact .refl s

theorem orderExpiry_moves (s : State) : s.Moves s.orderExpiry := by
  unfold State.orderExpiry
  split
  · exact .refl s
  · split
    · exact failOrder_moves s _ _
    · exact .refl s

theorem takeReport_moves (s : State) (r : Report) : s.Moves (s.takeReport r) := by
  cases r with
  | done n => exact takeDone_moves s n
  | fault n code => exact takeFault_moves s n code
  | ready => exact .of_galleys rfl
  | held => exact .of_galleys (by simp [State.takeReport, State.takeHeld])

theorem exposureHunt_moves (s : State) : s.Moves s.exposureHunt := .of_galleys rfl

theorem exposureFrameDone_moves (s : State) (bytes : List Byte) : s.Moves (s.exposureFrameDone bytes) := by
  unfold State.exposureFrameDone
  split
  · exact exposureHunt_moves s
  · exact (exposureHunt_moves s).trans (takeReport_moves _ _)

theorem exposureByte_moves (s : State) (b : Byte) : s.Moves (s.exposureByte b) := by
  unfold State.exposureByte
  split
  · split
    · exact .of_galleys rfl
    · exact .refl s
  · dsimp only
    split
    · exact exposureFrameDone_moves s _
    · exact .of_galleys rfl

theorem frameSent_galleys (s : State) : s.frameSent.galleys = s.galleys := by
  unfold State.frameSent
  split <;> rfl

theorem exposureGap_galleys (s : State) : s.exposureGap.galleys = s.galleys := by
  unfold State.exposureGap
  split <;> rfl

theorem queryExpiry_galleys (s : State) : s.queryExpiry.galleys = s.galleys := by
  unfold State.queryExpiry
  split
  · split <;> rfl
  · rfl

theorem pauseEnds_galleys (s : State) : s.pauseEnds.galleys = s.galleys := by
  unfold State.pauseEnds
  split <;> rfl

/-! ### One step -/

/-- Every command, by its row of the table. -/
theorem exec_moves (c : Instr) (s t : State) (h : exec c s = .next t) : s.Moves t := by
  cases c <;> cases h
  case powerOn early => exact powerOn_moves s early
  case transmitStart => exact transmit_moves s
  case gapTimerExpiry => exact .of_galleys rfl
  case breakCondition => exact .of_galleys rfl
  case partResetEffect => exact resetEffect_moves s
  case silenceTimerExpiry n => exact .of_galleys (silenceExpiry_galleys s n)
  case idleTimerExpiry g => exact idleExpiry_moves s g
  case tagMarkHalt g => exact tagMarkHalt_moves s g
  case queueEmpties g => exact queueEmpties_moves s g
  case drainEnd g => exact drainEnd_moves s g
  case selection => exact .of_galleys (State.selectDue_galleys s)
  case orderFrameSent => exact .of_galleys (frameSent_galleys s)
  case exposureGapExpiry => exact .of_galleys (exposureGap_galleys s)
  case exposureFrameDiscard bytes => exact exposureFrameDone_moves s bytes
  case doneReport n => exact (exposureHunt_moves s).trans (takeDone_moves _ n)
  case faultReport n code => exact (exposureHunt_moves s).trans (takeFault_moves _ n code)
  case orderTimeout => exact orderExpiry_moves s
  case stateReady => exact (exposureHunt_moves s).trans (takeReport_moves _ .ready)
  case stateHeld => exact (exposureHunt_moves s).trans (takeReport_moves _ .held)
  case queryTimerExpiry => exact .of_galleys (queryExpiry_galleys s)
  case queryAfterReset => exact .of_galleys (pauseEnds_galleys s)
  case byteCollected b => exact linkByte_moves s b
  case exposureByteCollected b => exact exposureByte_moves s b
  case char g | space g | fixed g | para g | fontN g | size g | track g | shift g | dirLtr g | dirRtl g | disc g =>
    exact consumeEvent_moves s g _
  all_goals exact completeFrame_moves s _

theorem step_moves (s t : State) (h : step s = .next t) : s.Moves t := by
  unfold step at h
  split at h
  · split at h
    · exact exec_moves .selection s t h
    · cases h
      exact .refl s
  · exact .after_galleys (exec_moves _ _ t h) rfl

/-- A law of one galley that every move keeps is kept by every step. -/
theorem step_keeps (P : Galley → Prop) (hP : ∀ x y, Galley.Move x y → P x → P y) (s t : State) (hs : ∀ g, P (s.galley g))
    (h : step s = .next t) : ∀ g, P (t.galley g) := by
  intro g
  have hmoves := step_moves s t h g
  generalize t.galley g = y at hmoves
  induction hmoves with
  | refl => exact hs g
  | tail _ hmove ih => exact hP _ _ hmove ih

end Sys2Proof.Machine
end

