-- ==== Sys2Proof/Proofs/BuilderLaw.lean ====
section
/-! What every step keeps of a builder and of a started line. -/

namespace Sys2Proof.Machine

/-- The record of a line and its exceptions leave the builder: the head of the queue is given to its galley before it leaves (R136). -/
theorem spoilHead_cases (c : Ctx) (x : Galley) :
    ∃ r : Run, spoilHead c x = afterHeadLeaves c r ∧ r.gal.builder = x.builder ∧ r.gal.active = x.active := by
  unfold spoilHead
  dsimp only
  split
  · exact ⟨_, rfl, rfl, rfl⟩
  · exact ⟨_, rfl, Run.giveException_builder _ _ _, Run.giveException_active _ _ _⟩

/-- A restarted galley takes its new column at its next line, none being started (R71). -/
theorem Galley.restarted_frame (x : Galley) (top : Nat) (column : Option (Nat × Nat)) :
    (x.restarted top column).builder = x.builder ∧ (x.restarted top column).active = x.active := by
  unfold Galley.restarted
  split <;> exact ⟨rfl, rfl⟩

/-- Every move keeps the builder's law: what it does not leave alone, it empties or gives a new entry list. -/
theorem Galley.Move.builderLaw {x y : Galley} (h : Galley.Move x y) (hx : x.BuilderLaw) : y.BuilderLaw := by
  rw [Galley.builderLaw_iff] at *
  cases h with
  | reset | opened | abandoned => exact Builder.lawful_empty
  | restarted _ top column =>
    rw [(x.restarted_frame top column).1]
    exact hx
  | arrived c => exact arrival_lawful c _ _ _ hx
  | resumed c => exact proceed_lawful c _ hx
  | stepped c => exact stepGalley_lawful c x hx
  | drained c => exact proceed_lawful c _ hx
  | discarded c =>
    rw [Run.enterClosing_builder]
    exact Builder.lawful_empty
  | proceeded c => exact proceed_lawful c _ hx
  | retired c => exact afterHeadLeaves_lawful c _ hx
  | spoiled c =>
    obtain ⟨r, h, hb, -⟩ := spoilHead_cases c x
    rw [h]
    exact afterHeadLeaves_lawful c r (by rw [hb]; exact hx)
  | staged | activated | flushed | marked | latched | reported | released | halted | drainNoted => exact hx

/-- Every move leaves a started line within its measure: the active set changes only where no line is started, and what the controller puts
into a line it tests. -/
theorem Galley.Move.fitLaw {x y : Galley} (h : Galley.Move x y) (hl : x.BuilderLaw) (hx : x.FitLaw) : y.FitLaw := by
  rw [Galley.builderLaw_iff] at hl
  cases h with
  | reset | opened | abandoned => exact Galley.fitLaw_of_unstarted _ rfl
  | activated _ _ _ hs => exact Galley.fitLaw_of_unstarted _ (by simpa [Galley.started] using hs)
  | restarted _ top column =>
    obtain ⟨hb, ha⟩ := x.restarted_frame top column
    exact Galley.fitLaw_congr hb ha hx
  | arrived c => exact arrival_fitLaw c _ _ _ hl hx
  | resumed c => exact proceed_fitLaw c _ hl hx
  | stepped c => exact stepGalley_fitLaw c x hl hx
  | drained c => exact proceed_fitLaw c _ hl hx
  | discarded c => exact Galley.fitLaw_of_unstarted _ (by rw [Run.enterClosing_builder]; rfl)
  | proceeded c => exact proceed_fitLaw c _ hl hx
  | retired c => exact afterHeadLeaves_fitLaw c _ hl hx
  | spoiled c =>
    obtain ⟨r, h, hb, ha⟩ := spoilHead_cases c x
    rw [h]
    exact afterHeadLeaves_fitLaw c r (by rw [hb]; exact hl) (Galley.fitLaw_congr hb ha hx)
  | staged | flushed | marked | latched | reported | released | halted | drainNoted => exact hx

/-- Settles O57: each move of a galley keeps the builder's law, and with it the law of the started line; so does every step. -/
theorem builderLawIsKeptAndLinesFit : Obligations.BuilderLawIsKeptAndLinesFit := by
  refine ⟨step_keeps Galley.BuilderLaw fun _ _ hmove hx => hmove.builderLaw hx, fun s t hs h g => ?_⟩
  have hboth := step_keeps (fun x => x.BuilderLaw ∧ x.FitLaw)
    (fun _ _ hmove hx => ⟨hmove.builderLaw hx.1, hmove.fitLaw hx.1 hx.2⟩) s t hs h
  exact (hboth g).2

end Sys2Proof.Machine
end

