-- ==== Sys2Proof/Proofs/Spaces.lean ====
section
/-! SPACE and FIXED items in the line (R8, R92, R93). -/

namespace Sys2Proof.Machine

/-! ### The builder with a SPACE or a FIXED entry -/

/-- A base without a kern joined to a list stands behind the entries that stood there, whose bare parts stay (R91, R92). -/
theorem shape_addBase_plain (fonts : Vector Slot 16) (es : List Entry) (e : Entry) (he : e.isGlyph = false) :
    ∃ fs, shape true (addBase fonts es e) = fs ++ [e] ∧ fs.map Entry.bare = es.map Entry.bare := by
  obtain ⟨fs, hfs, hbare⟩ := shape_append_plain true (kernWith fonts es (some e)) e he
  exact ⟨fs, hfs, by rw [hbare, map_bare_kernWith]⟩

/-- A SPACE is a break opportunity too, the last of the list (R92, R93). -/
theorem Builder.addSpace_getLast_opp (fonts : Vector Slot 16) (b : Builder) (e : Entry) :
    (b.addSpace fonts e).opps.getLast? = some { place := b.entries.length, kind := .space } := by
  simp [Builder.addSpace, Builder.withEntries, addBase, pushOpp]

/-- A FIXED is none (R93). -/
theorem Builder.addFixed_opps (fonts : Vector Slot 16) (b : Builder) (e : Entry) : (b.addFixed fonts e).opps = b.opps := by
  simp [Builder.addFixed, Builder.withEntries, addBase]

/-! ### An item that enters a line with room -/

theorem Galley.withLine_frame (x : Galley) :
    x.withLine.output = x.output ∧ x.withLine.released = x.released ∧ x.withLine.state = x.state ∧
      x.withLine.story = x.story := by
  unfold Galley.withLine
  split <;> exact ⟨rfl, rfl, rfl, rfl⟩

/-- A line is started at the frontier (R60, R62). -/
theorem Galley.withLine_lineDepth (x : Galley) : x.withLine.builder.lineDepth = some x.frontier := by
  cases hs : x.builder.lineDepth <;> simp [Galley.withLine, Galley.started, Galley.frontier, hs]

/-- Starting a line, entering it and passing the item change nothing a selection reads (R134). -/
theorem Galley.withLine_past_watched (x : Galley) (b : Builder) (rest : List Item)
    (hb : b.lineDepth = x.withLine.builder.lineDepth) :
    (({ x.withLine with builder := b, hasEntries := true } : Galley).past rest).watched = x.watched := by
  obtain ⟨hout, hrel, hstate, -⟩ := x.withLine_frame
  have hfrontier : (({ x.withLine with builder := b, hasEntries := true } : Galley).past rest).frontier = x.frontier := by
    simp [Galley.frontier, Galley.past, hb, x.withLine_lineDepth]
  rw [Galley.watched, Galley.watched, hfrontier]
  simp only [Galley.past, hout, hrel, hstate]

theorem lookupHeader_valid (fonts : Vector Slot 16) (n : SlotId) (h : Header) (hv : (fonts[n]).state = .valid)
    (hh : (fonts[n]).header = some h) : lookupHeader fonts n = some h := by
  simp only [lookupHeader, hv, hh]

/-- The event of an item whose entry gives the builder `b`, where the line still fits with it: the galley is past the item, and nothing else
happens (R48, R84). -/
theorem consumeEvent_enters (s : State) (g : GalleyId) (want : Item → Bool) (i : Item) (rest : List Item) (b : Builder)
    (hready : (s.galley g).ReadyToConsume) (hs : (s.galley g).story = i :: rest) (hw : want i = true)
    (hitem : consumeItem (s.ctx g false) (Run.start (s.galley g))
      = endCourse (s.ctx g false)
          ((Run.start (s.galley g)).take { (s.galley g).withLine with builder := b, hasEntries := true }) false)
    (hdepth : b.lineDepth = (s.galley g).withLine.builder.lineDepth) (hfit : (s.galley g).withLine.FitsWith b) :
    consumeEvent s g want
      = s.setGalley g (({ (s.galley g).withLine with builder := b, hasEntries := true } : Galley).past rest) := by
  obtain ⟨-, -, -, hstory⟩ := (s.galley g).withLine_frame
  have hfits : ({ (s.galley g).withLine with builder := b, hasEntries := true } : Galley).take.fits = true :=
    (Galley.fits_iff _).2 fun _ => hfit
  have hpast := Galley.take_eq_past { (s.galley g).withLine with builder := b, hasEntries := true } i rest (hstory.trans hs)
  rw [consumeEvent_ready s g want i rest hready hs hw, hitem, endCourse, if_neg Bool.false_ne_true, fitChain_fits _ _ _ hfits,
    State.commit, Run.take_gal, hpast]
  refine State.noting_same _ _ ?_ rfl
  exact State.watched_setGalley _ _ _ (Galley.withLine_past_watched _ b rest hdepth)

/-- The event of an item whose slot holds no font halts the galley (R36). -/
theorem consumeEvent_noFont (s : State) (g : GalleyId) (want : Item → Bool) (i : Item) (rest : List Item)
    (hready : (s.galley g).ReadyToConsume) (hs : (s.galley g).story = i :: rest) (hw : want i = true)
    (hitem : consumeItem (s.ctx g false) (Run.start (s.galley g)) = (Run.start (s.galley g)).halt (s.ctx g false) .noFont) :
    consumeEvent s g want
      = s.noting ((s.setGalley g ((s.galley g).haltedWith .noFont)).raise (.halted g) (.halted .noFont)) := by
  rw [consumeEvent_ready s g want i rest hready hs hw, hitem]
  rfl

/-! ### SPACE and FIXED -/

section Enters

variable (s : State) (g : GalleyId) (rest : List Item) (h : Header) (hv : (s.font (s.galley g).slot).state = .valid)
  (hh : (s.font (s.galley g).slot).header = some h) (hstands : (s.galley g).LineStands s.page.depth)
  (hroom : (s.galley g).withLine.builder.entries.length < 160)

include hv hh hstands hroom

/-- A SPACE whose line has room (R92). -/
theorem consumeSpace_room (hs : (s.galley g).story = .space :: rest) :
    consumeItem (s.ctx g false) (Run.start (s.galley g))
      = endCourse (s.ctx g false)
          ((Run.start (s.galley g)).take
            { (s.galley g).withLine with
              builder := (s.galley g).withLine.builder.addSpace s.fonts
                ((s.galley g).withLine.plainEntry 0xF000 (h.spaceBody (s.galley g).withLine.size))
              hasEntries := true }) false := by
  have hlookup : lookupHeader (s.ctx g false).fonts (s.galley g).slot = some h := lookupHeader_valid _ _ h hv hh
  have hline : needLine (s.ctx g false) (s.galley g) false = some (s.galley g).withLine := needLine_stands _ _ hstands
  have hlimit := limitClose_room (s.ctx g false) { Run.start (s.galley g) with gal := (s.galley g).withLine } 1 hroom
  simp only [consumeItem, Run.start_gal, hs, consumeSpace, hlookup, hline, hlimit]
  rfl

/-- A FIXED whose line has room (R92). -/
theorem consumeFixed_room (hs : (s.galley g).story = .fixed :: rest) :
    consumeItem (s.ctx g false) (Run.start (s.galley g))
      = endCourse (s.ctx g false)
          ((Run.start (s.galley g)).take
            { (s.galley g).withLine with
              builder := (s.galley g).withLine.builder.addFixed s.fonts
                ((s.galley g).withLine.plainEntry 0xF001 (h.fixedBody (s.galley g).withLine.size))
              hasEntries := true }) false := by
  have hlookup : lookupHeader (s.ctx g false).fonts (s.galley g).slot = some h := lookupHeader_valid _ _ h hv hh
  have hline : needLine (s.ctx g false) (s.galley g) false = some (s.galley g).withLine := needLine_stands _ _ hstands
  have hlimit := limitClose_room (s.ctx g false) { Run.start (s.galley g) with gal := (s.galley g).withLine } 1 hroom
  simp only [consumeItem, Run.start_gal, hs, consumeFixed, hlookup, hline, hlimit]
  rfl

end Enters

theorem consumeSpace_noFont (c : Ctx) (x : Galley) (rest : List Item) (hs : x.story = .space :: rest)
    (hv : (c.fonts[x.slot]).state ≠ .valid) : consumeItem c (Run.start x) = (Run.start x).halt c .noFont := by
  simp only [consumeItem, Run.start_gal, hs, consumeSpace, lookupHeader_invalid _ _ hv]

theorem consumeFixed_noFont (c : Ctx) (x : Galley) (rest : List Item) (hs : x.story = .fixed :: rest)
    (hv : (c.fonts[x.slot]).state ≠ .valid) : consumeItem c (Run.start x) = (Run.start x).halt c .noFont := by
  simp only [consumeItem, Run.start_gal, hs, consumeFixed, lookupHeader_invalid _ _ hv]

/-- Settles O41: the courses of SPACE and FIXED, of a line with room and of a slot without a font. -/
theorem spacesEnterTheLine : Obligations.SpacesEnterTheLine := by
  refine ⟨?_, ?_, ?_, ?_⟩
  · rintro s g rest h y e b hready hs hv hh hstands rfl hroom rfl rfl hfit
    refine ⟨congrArg Host.Outcome.next ?_, shape_addBase_plain _ _ _ rfl, Builder.addSpace_getLast_opp _ _ _⟩
    exact consumeEvent_enters s g _ .space rest _ hready hs rfl (consumeSpace_room s g rest h hv hh hstands hroom hs) rfl hfit
  · rintro s g rest h y e b hready hs hv hh hstands rfl hroom rfl rfl hfit
    refine ⟨congrArg Host.Outcome.next ?_, shape_addBase_plain _ _ _ rfl, Builder.addFixed_opps _ _ _⟩
    exact consumeEvent_enters s g _ .fixed rest _ hready hs rfl (consumeFixed_room s g rest h hv hh hstands hroom hs) rfl hfit
  · intro s g rest hready hs hv
    exact congrArg Host.Outcome.next (consumeEvent_noFont s g _ .space rest hready hs rfl (consumeSpace_noFont _ _ rest hs hv))
  · intro s g rest hready hs hv
    exact congrArg Host.Outcome.next (consumeEvent_noFont s g _ .fixed rest hready hs rfl (consumeFixed_noFont _ _ rest hs hv))

end Sys2Proof.Machine
end

