-- ==== Sys2Proof/Proofs/Justification.lean ====
section
/-! How a line is set: the rounding to steps (R12), the shares of a justified line (R112), and the settings of R113 to R116. -/

namespace Sys2Proof.Machine

/-- A conversion to steps is to the nearest, a half rounding up (R12). -/
theorem toSteps_nearest (f : Int) : 384 * toSteps f - 192 ≤ f ∧ f < 384 * toSteps f + 192 := by
  unfold toSteps
  omega

/-! ### Shares (R112) -/

@[simp] theorem shareOut_length (share extra : Nat) (ws : List (Nat × Nat × Nat)) :
    (shareOut share extra ws).length = ws.length := by
  induction ws generalizing extra with
  | nil => simp [shareOut]
  | cons w ws ih => cases extra <;> simp [shareOut, ih]

/-- Each space gets its minimum and the share, the first `extra` of them one fine unit more. -/
theorem shareOut_getElem? (share extra : Nat) (ws : List (Nat × Nat × Nat)) (i : Nat) (hi : i < ws.length) :
    (shareOut share extra ws)[i]? = some (ws[i].2.1 + (share + if i < extra then 1 else 0)) := by
  induction ws generalizing extra i with
  | nil => simp at hi
  | cons w ws ih =>
    cases i with
    | zero => cases extra <;> simp [shareOut, Nat.add_assoc]
    | succ i =>
      have hi' : i < ws.length := by simpa using hi
      cases extra <;> simp [shareOut, ih _ _ hi']

theorem shareOut_sum (share extra : Nat) (ws : List (Nat × Nat × Nat)) (h : extra ≤ ws.length) :
    (shareOut share extra ws).sum = (ws.map (fun w => w.2.1)).sum + share * ws.length + extra := by
  induction ws generalizing extra with
  | nil => simp_all [shareOut]
  | cons w ws ih =>
    cases extra with
    | zero =>
      simp only [shareOut, List.sum_cons, List.map_cons, List.length_cons, ih 0 (Nat.zero_le _), Nat.mul_succ]
      omega
    | succ extra =>
      have hle : extra ≤ ws.length := by simpa using h
      simp only [shareOut, List.sum_cons, List.map_cons, List.length_cons, ih extra hle, Nat.mul_succ]
      omega

/-- The shares hand out the whole slack: quotient and remainder of it by the number of spaces. -/
theorem justified_sum (g mn m : Nat) (ws : List (Nat × Nat × Nat)) (hws : ws ≠ []) (hmn : mn = (ws.map (fun w => w.2.1)).sum)
    (h : g + mn ≤ m) : g + (justified g mn m ws).sum = m := by
  have hpos : 0 < ws.length := List.length_pos_iff.2 hws
  have hdiv := Nat.div_add_mod (m - g - mn) ws.length
  rw [justified, shareOut_sum _ _ _ (Nat.le_of_lt (Nat.mod_lt _ hpos)), ← hmn, Nat.mul_comm]
  omega

/-! ### The setting of a line, by its case (R112 to R116) -/

section Settle

variable {a : Align} (d : Dir) {last : Bool} {m g n mn : Nat} {ws : List (Nat × Nat × Nat)}
  (hn : n = (ws.map (fun w => w.1)).sum) (hmn : mn = (ws.map (fun w => w.2.1)).sum)

include hn in
/-- A JUSTIFY last line that its natural widths let in (R113). -/
theorem settle_last (hlast : last = true) (h : g + n ≤ m) :
    settle .justify d last m g ws
      = { spaces := ws.map (fun w => w.1), width := g + n, offset := startOffset d m (g + n), loose := false } := by
  subst hn
  simp [settle, hlast, h]

include hn hmn in
/-- A JUSTIFY line with spaces, not set as a last line, that its minimum widths let in (R112). -/
theorem settle_justified (hws : ws ≠ []) (hfit : g + mn ≤ m) (h : last = false ∨ m < g + n) :
    settle .justify d last m g ws
      = { spaces := justified g mn m ws, width := m, offset := 0,
          loose := !last && anyLoose ws (justified g mn m ws) } := by
  subst hn hmn
  have hnot : ¬(last = true ∧ g + (ws.map (fun w => w.1)).sum ≤ m) := by
    rintro ⟨hl, hle⟩
    obtain h | h := h
    · simp [hl] at h
    · omega
  simp [settle, hnot, hfit, hws]

include hn hmn in
/-- A JUSTIFY line, not set as a last line, that its minimum widths keep out (R112, R113, R116). -/
theorem settle_overfull (hover : m < g + mn) (h : last = false ∨ m < g + n) :
    settle .justify d last m g ws
      = { spaces := ws.map (fun w => w.2.1), width := g + mn, offset := 0, loose := false } := by
  subst hn hmn
  have hnot : ¬(last = true ∧ g + (ws.map (fun w => w.1)).sum ≤ m) := by
    rintro ⟨hl, hle⟩
    obtain h | h := h
    · simp [hl] at h
    · omega
  simp [settle, hnot, Nat.not_le.2 hover]

/-- A JUSTIFY line without spaces (R114). -/
theorem settle_spaceless (h : g ≤ m) :
    settle .justify d false m g []
      = { spaces := [], width := g, offset := startOffset d m g, loose := decide (g < m) } := by
  simp [settle, h]

include hn in
/-- A line of another alignment that its natural widths let in (R115). -/
theorem settle_aligned (ha : a ≠ .justify) (h : g + n ≤ m) :
    settle a d last m g ws
      = { spaces := ws.map (fun w => w.1), width := g + n, offset := alignOffset a d m (g + n), loose := false } := by
  subst hn
  simp [settle, ha, h]

include hn in
/-- A line of another alignment that its natural widths keep out (R116). -/
theorem settle_wide (ha : a ≠ .justify) (h : m < g + n) :
    settle a d last m g ws = { spaces := ws.map (fun w => w.1), width := g + n, offset := 0, loose := false } := by
  subst hn
  simp [settle, ha, Nat.not_le.2 h]

end Settle

theorem startOffset_eq (d : Dir) (m w : Nat) : startOffset d m w = if d = .ltr then 0 else m - w := by
  cases d <;> rfl

theorem alignOffset_eq (a : Align) (d : Dir) (m w : Nat) (ha : a ≠ .justify) :
    alignOffset a d m w =
      if a = .center then (m - w) / 2
      else if (a = .start ∧ d = .ltr) ∨ (a = .atEnd ∧ d = .rtl) then 0 else m - w := by
  cases a <;> cases d <;> simp_all [alignOffset, startOffset]

/-- Settles O52: the rounding of R12, and the shares of a justified line. -/
theorem justifiedLinesFillTheMeasure : Obligations.JustifiedLinesFillTheMeasure := by
  refine ⟨toSteps_nearest, fun d m g ws hws hfit => ?_⟩
  rw [settle_justified d rfl rfl hws hfit (.inl rfl)]
  refine ⟨rfl, rfl, shareOut_length _ _ _, justified_sum g _ m ws hws rfl hfit, fun i hi j hj hij => ?_⟩
  refine ⟨_, _, shareOut_getElem? _ _ ws i hi, shareOut_getElem? _ _ ws j hj, ?_⟩
  split <;> split <;> omega

end Sys2Proof.Machine
end

