-- ==== Sys2Proof/Proofs/LineRecord.lean ====
section
/-! The line record (R110, R117 to R121): the walk of the visual order, the marks of a base, the exceptions and the amount. -/

namespace Sys2Proof.Machine

/-! ### LOOSE and its amount (R112, R121) -/

/-- A line is loose where one of its spaces is set wider than its maximum. -/
theorem anyLoose_iff (ws : List (Nat × Nat × Nat)) (set : List Nat) :
    anyLoose ws set = true ↔
      ∃ (i x : Nat) (w : Nat × Nat × Nat), ws[i]? = some w ∧ set[i]? = some x ∧ w.2.2 < x := by
  simp only [anyLoose, List.any_eq_true, decide_eq_true_eq, Prod.exists, List.mem_iff_getElem?, List.getElem?_zip_eq_some]
  constructor
  · rintro ⟨n, m, x, y, ⟨i, hw, hy⟩, hlt⟩
    exact ⟨i, y, n, m, x, hw, hy, hlt⟩
  · rintro ⟨i, y, n, m, x, hw, hy, hlt⟩
    exact ⟨n, m, x, y, ⟨i, hw, hy⟩, hlt⟩

/-- The excess over the maximum of a space with its set width. -/
def excessOf (p : (Nat × Nat × Nat) × Nat) : Int := (p.2 : Int) - p.1.2.2

theorem looseExcess_eq (ws : List (Nat × Nat × Nat)) (set : List Nat) :
    looseExcess ws set = (ws.zip set).foldl (fun acc p => max acc (excessOf p)) 0 := rfl

/-- A maximum kept along a list bounds what it was taken of, and is its start or one of them. -/
theorem foldl_max_excess (ps : List ((Nat × Nat × Nat) × Nat)) (acc : Int) :
    (∀ p ∈ ps, excessOf p ≤ ps.foldl (fun acc p => max acc (excessOf p)) acc) ∧
    acc ≤ ps.foldl (fun acc p => max acc (excessOf p)) acc ∧
    (ps.foldl (fun acc p => max acc (excessOf p)) acc = acc ∨
      ∃ p ∈ ps, ps.foldl (fun acc p => max acc (excessOf p)) acc = excessOf p) := by
  induction ps generalizing acc with
  | nil => simp
  | cons q ps ih =>
    obtain ⟨hall, hacc, hatt⟩ := ih (max acc (excessOf q))
    rw [List.foldl_cons]
    refine ⟨fun p hp => ?_, le_trans (le_max_left _ _) hacc, ?_⟩
    · obtain rfl | hp := List.mem_cons.1 hp
      · exact le_trans (le_max_right _ _) hacc
      · exact hall p hp
    · obtain hatt | ⟨p, hp, hatt⟩ := hatt
      · obtain hmax | hmax := max_choice acc (excessOf q)
        · exact .inl (hatt.trans hmax)
        · exact .inr ⟨q, by simp, hatt.trans hmax⟩
      · exact .inr ⟨p, by simp [hp], hatt⟩

/-- The excess of a loose line is positive, bounds the excess of each of its spaces, and is that of one of them (R121). -/
theorem looseExcess_spec (ws : List (Nat × Nat × Nat)) (set : List Nat) (h : anyLoose ws set = true) :
    ∃ x : Nat, 0 < x ∧ looseExcess ws set = x ∧
      (∀ (i y : Nat) (w : Nat × Nat × Nat), ws[i]? = some w → set[i]? = some y → y ≤ w.2.2 + x) ∧
      ∃ (i y : Nat) (w : Nat × Nat × Nat), ws[i]? = some w ∧ set[i]? = some y ∧ y = w.2.2 + x := by
  obtain ⟨hall, -, hatt⟩ := foldl_max_excess (ws.zip set) 0
  rw [← looseExcess_eq] at hall hatt
  have hbound (i y : Nat) (w : Nat × Nat × Nat) (hw : ws[i]? = some w) (hy : set[i]? = some y) :
      (y : Int) - w.2.2 ≤ looseExcess ws set :=
    hall (w, y) (List.mem_iff_getElem?.2 ⟨i, List.getElem?_zip_eq_some.2 ⟨hw, hy⟩⟩)
  obtain ⟨i, y, w, hw, hy, hlt⟩ := (anyLoose_iff ws set).1 h
  have hpos : 0 < looseExcess ws set := by
    have := hbound i y w hw hy
    omega
  obtain ⟨x, hx⟩ := Int.eq_ofNat_of_zero_le (le_of_lt hpos)
  refine ⟨x, by omega, hx, fun i y w hw hy => ?_, ?_⟩
  · have := hbound i y w hw hy
    omega
  · obtain hzero | ⟨⟨w, y⟩, hp, hval⟩ := hatt
    · omega
    · obtain ⟨i, hi⟩ := List.mem_iff_getElem?.1 hp
      obtain ⟨hw, hy⟩ := List.getElem?_zip_eq_some.1 hi
      refine ⟨i, y, w, hw, hy, ?_⟩
      simp only [excessOf] at hval
      omega

/-- A line set LOOSE has no spaces, or one of them passes its maximum (R112, R114). -/
theorem settle_loose (a : Align) (d : Dir) (last : Bool) (m g : Nat) (ws : List (Nat × Nat × Nat))
    (h : (settle a d last m g ws).loose = true) : ws = [] ∨ anyLoose ws (settle a d last m g ws).spaces = true := by
  by_cases hws : ws = []
  · exact .inl hws
  · have hne : ws.isEmpty = false := by simpa using hws
    simp only [settle, hne, Bool.false_eq_true, if_false] at h ⊢
    split_ifs at h ⊢
    exact .inr ((Bool.and_eq_true_iff).1 h).2

/-- An amount is 0 where the difference is not positive, else its steps (R13). -/
theorem amountOf_natDiff (w m : Nat) :
    amountOf ((w : Int) - m) = if w ≤ m then 0 else min (toSteps ((w : Int) - m)).toNat 65535 := by
  have hle : (w : Int) - m ≤ 0 ↔ w ≤ m := by omega
  simp only [amountOf, hle]

theorem amountOf_pos (x : Nat) (h : 0 < x) : amountOf x = min (toSteps x).toNat 65535 := by
  unfold amountOf
  rw [if_neg (by omega)]

/-! ### The walk (R117) -/

/-- The walk sets the first base at the position it has reached, and goes on behind it. -/
theorem walk_cons (xOffset x : Nat) (set : List Nat) (y : Dir × Cluster) (rest : List (Dir × Cluster)) :
    walk xOffset x set (y :: rest)
      = walk xOffset x set [y]
        ++ walk xOffset (x + walkWidth (set.headD 0) y) (if y.2.base.isSpace then set.tail else set) rest := by
  obtain ⟨d, c⟩ := y
  cases hb : c.base.body <;> simp [walk, walkWidth, Entry.isSpace, hb]

/-- Each base stands at the widths of what precedes it in visual order. -/
theorem walk_append (xOffset x : Nat) (set : List Nat) (before rest : List (Dir × Cluster)) :
    walk xOffset x set (before ++ rest)
      = walk xOffset x set before
        ++ walk xOffset (x + walkSum set before) (set.drop (before.filter (fun c => c.2.base.isSpace)).length) rest := by
  induction before generalizing x set with
  | nil => simp [walk, walkSum]
  | cons y before ih =>
    rw [List.cons_append, walk_cons, ih, walk_cons xOffset x set y before, List.append_assoc]
    cases hs : y.2.base.isSpace <;> simp [walkSum, hs, Nat.add_assoc]

theorem walk_plain (xOffset x : Nat) (set : List Nat) (d : Dir) (c : Cluster) (h : c.base.isGlyph = false) :
    walk xOffset x set [(d, c)] = [] := by
  cases hb : c.base.body <;> simp_all [walk, Entry.isGlyph]

/-! ### A base's marks (R118, R15, R16) -/

theorem placeMarks_length (xOffset x : Nat) (base : Entry) (a : Anchor) (n : Nat) (es : List Entry)
    (h : ∀ e ∈ es, e.isMark = true) : (placeMarks xOffset x base a n es).length = es.length := by
  induction es generalizing n with
  | nil => rfl
  | cons e es ih =>
    obtain ⟨he, hes⟩ := List.forall_mem_cons.1 h
    cases hb : e.body <;> simp_all [placeMarks, Entry.isMark]

/-- The marks of a base are placed in their order, each counting those before it. -/
theorem placeMarks_getElem? (xOffset x : Nat) (base : Entry) (a : Anchor) (n : Nat) (es : List Entry)
    (h : ∀ e ∈ es, e.isMark = true) (i : Nat) (e : Entry) (q : MarkPart) (hi : es[i]? = some e) (hq : e.body = .mark q) :
    (placeMarks xOffset x base a n es)[i]? = some (placeMark xOffset x base a (n + i) e q) := by
  induction es generalizing n i with
  | nil => simp at hi
  | cons f es ih =>
    obtain ⟨hf, hes⟩ := List.forall_mem_cons.1 h
    obtain ⟨p, hp⟩ : ∃ p, f.body = .mark p := by
      cases hb : f.body <;> simp_all [Entry.isMark]
    cases i with
    | zero =>
      obtain rfl : f = e := by simpa using hi
      obtain rfl : p = q := by simpa [hp] using hq
      simp [placeMarks, hp]
    | succ i =>
      rw [List.getElem?_cons_succ] at hi
      simp only [placeMarks, hp, List.getElem?_cons_succ, ih (n + 1) hes i hi]
      rw [Nat.add_assoc, Nat.add_comm 1]

/-- A base resolved R is set with its mirror where its record holds one (R110). -/
theorem closeImage_eq (p : GlyphPart) :
    closeImage .ltr p = p.record.image p.form ∧ closeImage .rtl p = p.record.mirror.getD (p.record.image p.form) := by
  cases hm : p.record.mirror <;> simp [closeImage, hm]

theorem anchorOf_eq (d : Dir) (p : GlyphPart) :
    anchorOf d p = p.record.anchor.getD { dx := ((closeImage d p).advance / 2 : Nat), dy := 0 } := by
  cases ha : p.record.anchor <;> simp [anchorOf, ha]

/-- A base that is a GLYPH is set where the walk stands, its marks directly behind it. -/
theorem walk_glyph (xOffset x : Nat) (set : List Nat) (d : Dir) (c : Cluster) (p : GlyphPart) (h : c.base.body = .glyph p) :
    walk xOffset x set [(d, c)]
      = { matrix := p.matrix, glyph := (closeImage d p).glyph, size := c.base.size, x := xOffset + toSteps x,
          y := c.base.shift } :: placeMarks xOffset x c.base (anchorOf d p) 0 c.marks := by
  simp [walk, h]

theorem placeMark_eq (xOffset x : Nat) (base : Entry) (a : Anchor) (n : Nat) (e : Entry) (q : MarkPart) (o : MarkOffset)
    (ho : o = q.record.markOffset.getD { dx := 0, dy := 0, stack := 0 }) :
    placeMark xOffset x base a n e q
      = { matrix := q.matrix, glyph := q.record.base.glyph, size := e.size
          x := xOffset + toSteps (x + a.dx * base.size * 25 + o.dx * e.size * 25)
          y := base.shift + toSteps (a.dy * base.size * 25 + (o.dy + n * o.stack) * e.size * 25) } := by
  subst ho
  simp only [placeMark, add_mul]

/-! ### The record's exceptions and amount (R119 to R121) -/

theorem onPage_eq (width : Nat) :
    RawPlacement.onPage width = fun (p : RawPlacement) => decide (0 ≤ p.x ∧ p.x ≤ (width : Int)) := by
  funext p
  simp [RawPlacement.onPage]

theorem any_offPage_iff (width : Nat) (raw : List RawPlacement) :
    raw.any (fun p => !p.onPage width) = true ↔ ∃ p ∈ raw, p.x < 0 ∨ width < p.x := by
  simp only [List.any_eq_true, RawPlacement.onPage, Bool.not_eq_true', Bool.and_eq_false_iff, decide_eq_false_iff_not, not_le]

theorem closeExceptions_wide (l : ClosedLine) (m : Nat) (st : Setting) (raw : List RawPlacement) :
    (closeExceptions l m st (raw.any (fun p => !p.onPage l.pageWidth))).wide = true ↔
      l.exceptions.wide = true ∨ (m < st.width ∧ l.exceptions.forced = false) ∨ ∃ p ∈ raw, p.x < 0 ∨ l.pageWidth < p.x := by
  simp only [closeExceptions, Bool.or_eq_true, any_offPage_iff, Bool.and_eq_true, decide_eq_true_eq, Bool.not_eq_true', or_assoc]

theorem closeAmount_forced_or_wide (x : ExcSet) (m : Nat) (st : Setting) (ws : List (Nat × Nat × Nat))
    (h : x.forced = true ∨ x.wide = true) :
    closeAmount x m st ws = if st.width ≤ m then 0 else min (toSteps ((st.width : Int) - m)).toNat 65535 := by
  rw [closeAmount, if_pos (Bool.or_eq_true_iff.2 h), amountOf_natDiff]

theorem closeAmount_plain (x : ExcSet) (m : Nat) (st : Setting) (ws : List (Nat × Nat × Nat)) (hf : x.forced = false)
    (hw : x.wide = false) : closeAmount x m st ws = if x.loose then amountOf (looseExcess ws st.spaces) else 0 := by
  simp [closeAmount, hf, hw]

/-- The amount of a LOOSE line: the greatest excess of a space over its maximum, 0 where the line has no spaces (R121). -/
theorem amountOf_looseExcess (ws : List (Nat × Nat × Nat)) (set : List Nat) (h : ws = [] ∨ anyLoose ws set = true) :
    (ws = [] ∧ amountOf (looseExcess ws set) = 0) ∨
      ∃ x : Nat, amountOf (looseExcess ws set) = min (toSteps x).toNat 65535 ∧
        (∀ (i y : Nat) (w : Nat × Nat × Nat), ws[i]? = some w → set[i]? = some y → y ≤ w.2.2 + x) ∧
        ∃ (i y : Nat) (w : Nat × Nat × Nat), ws[i]? = some w ∧ set[i]? = some y ∧ y = w.2.2 + x := by
  obtain rfl | h := h
  · exact .inl ⟨rfl, rfl⟩
  · obtain ⟨x, hpos, hx, hall, hatt⟩ := looseExcess_spec ws set h
    exact .inr ⟨x, by rw [hx, amountOf_pos x hpos], hall, hatt⟩

/-! ### The statement -/

/-- A justified line that its minimum widths let in fills its measure, and is LOOSE where a space passes its maximum, unless it is a last
line (R112, R113). -/
theorem settle_justified_fills (d : Dir) (last : Bool) (m g n mn : Nat) (ws : List (Nat × Nat × Nat))
    (hn : n = (ws.map (fun w => w.1)).sum) (hmn : mn = (ws.map (fun w => w.2.1)).sum) (hws : ws ≠ []) (hfit : g + mn ≤ m)
    (h : last = false ∨ m < g + n) :
    (settle .justify d last m g ws).width = m ∧ (settle .justify d last m g ws).offset = 0 ∧
      g + (settle .justify d last m g ws).spaces.sum = m ∧
      ((settle .justify d last m g ws).loose = true ↔
        last = false ∧ ∃ (i x : Nat) (w : Nat × Nat × Nat), ws[i]? = some w ∧
          (settle .justify d last m g ws).spaces[i]? = some x ∧ w.2.2 < x) := by
  rw [settle_justified d hn hmn hws hfit h]
  refine ⟨rfl, rfl, justified_sum g mn m ws hws hmn hfit, ?_⟩
  rw [Bool.and_eq_true, anyLoose_iff, Bool.not_eq_true']

/-- Settles O53: the settings, the walk, a base with its marks, and the record built from them. -/
theorem lineRecordsHoldWhatTheRulesGive : Obligations.LineRecordsHoldWhatTheRulesGive := by
  refine ⟨fun a d last m g n mn ws hn hmn => ⟨?_, ?_, ?_, ?_, ?_, ?_⟩, closeImage_eq, walk_append, ?_, walk_plain, ?_⟩
  · rintro rfl hlast h
    rw [settle_last d hn hlast h, startOffset_eq]
  · rintro rfl rfl rfl h
    rw [settle_spaceless d h, startOffset_eq]
  · rintro rfl
    exact settle_justified_fills d last m g n mn ws hn hmn
  · rintro rfl hover h
    exact settle_overfull d hn hmn hover h
  · intro ha h
    rw [settle_aligned d hn ha h, alignOffset_eq a d _ _ ha]
  · intro ha h
    exact settle_wide d hn ha h
  · intro xOffset x set d c p hp
    refine ⟨_, walk_glyph xOffset x set d c p hp, fun hmarks => ⟨placeMarks_length _ _ _ _ _ _ hmarks, ?_⟩⟩
    rintro i e q a o hi hq rfl ho
    rw [placeMarks_getElem? _ _ _ _ _ _ hmarks i e q hi hq, Nat.zero_add, anchorOf_eq, placeMark_eq _ _ _ _ _ _ _ o ho]
  · rintro g number l visual st raw r rfl rfl rfl rfl
    refine ⟨rfl, rfl, rfl, ?_, ?_, rfl, closeExceptions_wide l _ _ _, closeAmount_forced_or_wide _ _ _ _, ?_, ?_⟩
    · intro e he
      simp [closeRecord, Option.mem_def.1 he]
    · simp only [closeRecord, onPage_eq]
      rfl
    · intro hf hw hl
      exact (closeAmount_plain _ _ _ _ hf hw).trans (if_neg (by simpa using hl))
    · intro hf hw hl
      have hamount : (closeRecord g number l).amount = _ := (closeAmount_plain _ _ _ _ hf hw).trans (if_pos hl)
      rw [hamount]
      exact amountOf_looseExcess _ _ (settle_loose _ _ _ _ _ _ hl)

end Sys2Proof.Machine
end

