-- ==== Sys2Proof/Proofs/Acts.lean ====
section
/-! What one event does to the part. Every request's owner, every event of a galley, of a timer and of the photo unit acts by a
succession of a few kinds of act, each with the guard under which it is done; a law that each act keeps is kept by all of them. -/

namespace Sys2Proof.Machine

/-! ### The acts -/

/-- What a request or a timer makes of galley `g` without its controller's work, with the guard under which it is done. -/
inductive State.Sets (s : State) (g : GalleyId) : Galley → Prop where
  /-- GALLEY OPEN (R57). -/
  | opened (p : Params) (top interval : Nat) (slot : SlotId) (size : Nat) (track : Int) (hpage : s.page.state = .open)
      (h : (s.galley g).state = .off) (htop : top < s.page.depth) (hsize : 16 ≤ size ∧ size ≤ 576)
      (htrack : -32 ≤ track ∧ track ≤ 31) (hband : aboveBand s.page.high top = false) :
      Sets s g ((s.galley g).opened p top interval slot size track)
  /-- PARAM (R58). -/
  | staged (p : Params) (h : (s.galley g).state ≠ .off)
      (hband : refusedBehind s (s.galley g) { s.galley g with staged := p, pendingFlag := true } = false) :
      Sets s g { s.galley g with staged := p, pendingFlag := true }
  /-- PARAM NOW (R59). -/
  | activated (p : Params) (h : (s.galley g).state = .halted) (hstarted : (s.galley g).started = false)
      (hband : refusedBehind s (s.galley g) { s.galley g with active := p, pendingFlag := false } = false) :
      Sets s g { s.galley g with active := p, pendingFlag := false }
  /-- RESTART (R71, R128). -/
  | restarted (top : Nat) (column : Option (Nat × Nat)) (h : (s.galley g).state = .halted)
      (hstarted : (s.galley g).started = false) (hband : aboveBand s.page.high top = false)
      (htop : (s.galley g).topAboveQueued top = false) : Sets s g ((s.galley g).restarted top column)
  /-- ABANDON (R72). -/
  | abandoned (h : (s.galley g).state = .halted)
      (hband : ((s.galley g).started && refusedBehind s (s.galley g) { s.galley g with builder := Builder.empty }) = false) :
      Sets s g { s.galley g with builder := Builder.empty }
  /-- FLUSH (R54). -/
  | flushed (h : (s.galley g).state = .halted) : Sets s g { s.galley g with story := [] }
  /-- MARK SET and MARK CLEAR (R69). -/
  | marked (m : StopMark) : Sets s g { s.galley g with mark := m }
  /-- SNAPSHOT and POSITION (R78). -/
  | latched (p : Option PositionRecord) : Sets s g { s.galley g with snapshot := p }
  /-- GALLEY REPORT (R79). -/
  | reported : Sets s g { s.galley g with latch := none, excCount := 0 }
  /-- GALLEY CLOSE DRAIN of a galley that is to drain later (R76). -/
  | drainNoted : Sets s g { s.galley g with drain := true }
  /-- The idle timer's expiry (R74). -/
  | released : Sets s g { s.galley g with idleTimer := false, released := true }

/-- The work that the controller of galley `g` does within an event, with the guard under which it is done. -/
inductive State.Works (s : State) (g : GalleyId) : Run → Prop where
  /-- HALT (R66). -/
  | halted (h : ¬((s.galley g).state = .off ∨ (s.galley g).state = .closing ∨ (s.galley g).state = .halted)) :
      Works s g ((Run.start (s.galley g)).halt (s.ctx g false) .request)
  /-- STORY (R64). -/
  | arrived (items : List Item) (h : ¬((s.galley g).state = .off ∨ (s.galley g).state = .closing))
      (hroom : storyUnits items ≤ (s.galley g).storyFree) :
      Works s g (arrival (s.ctx g false) s.page.high (storyUnits items)
        { s.galley g with story := (s.galley g).story ++ items })
  /-- RESUME (R67). -/
  | resumed (h : (s.galley g).state = .halted)
      (hband : ((s.galley g).released && aboveBand s.page.high (s.galley g).frontier) = false) :
      Works s g
        ((Run.start { s.galley g with released := false, idleTimer := (s.galley g).timerStarted }).goOn (s.ctx g false))
  /-- STEP (R68). -/
  | stepped (h : (s.galley g).state = .halted) (hheld : (s.galley g).held.isSome = false) :
      Works s g (stepGalley (s.ctx g true) (s.galley g))
  /-- GALLEY CLOSE DRAIN of a galley that drains at once (R76). -/
  | drained (h : (s.galley g).state = .ready ∨ (s.galley g).state = .setting ∨ (s.galley g).state = .starved) :
      Works s g (proceed (s.ctx g false) (Run.start { s.galley g with drain := true, state := .draining }))
  /-- GALLEY CLOSE DISCARD (R77). -/
  | discarded (h : ¬((s.galley g).state = .off ∨ (s.galley g).state = .closing)) :
      Works s g ((Run.start (s.galley g).discarded).enterClosing (s.ctx g false))
  /-- The galley's own event (R63). -/
  | proceeded : Works s g (proceed (s.ctx g false) (Run.start (s.galley g)))
  /-- The head of its output queue retires (R135). -/
  | retired (h : s.unit.view.outstanding = none) : Works s g (retireHead (s.ctx g false) (s.galley g))
  /-- The head of its output queue is spoiled (R136). -/
  | spoiled (h : s.unit.view.outstanding = none) : Works s g (spoilHead (s.ctx g false) (s.galley g))

/-- What becomes of a font slot, `free` being the places free in the pool (R25 to R34). -/
inductive Slot.Load (free : Nat) (f : Slot) : Slot → Prop where
  /-- FONT BEGIN (R25). -/
  | begun (h : Header) : Load free f { Slot.empty with state := .loading, header := some h, silence := true }
  /-- FONT GLYPHS (R26 to R30). -/
  | examined (records : List (List Byte)) (h : f.state = .loading) :
      Load free f
        (examineAll
          { slot := { f with silence := true }, free := free, stored := 0, rejected := 0, firstRejected := 0, full := 0 }
          1 records).slot
  /-- FONT KERN, and every refusal with RANGE while LOADING (R31, R33). -/
  | kerned (k : KernTable) (h : f.state = .loading) : Load free f { f with kern := k, silence := true }
  /-- FONT END (R32). -/
  | ended (h : f.state = .loading) :
      Load free f { f with state := if f.loadGood then .valid else .provisional, silence := false }
  /-- FONT DROP (R34). -/
  | dropped : Load free f Slot.empty
  /-- The silence timer's expiry (R33). -/
  | abandoned (h : f.silence = true) : Load free f { f with state := .provisional, silence := false }

/-- What becomes of the unit link controller where no order is handed over and none ends (R141 to R152, R177). -/
inductive UnitLink.Change (u : UnitLink) : UnitLink → Prop where
  /-- A byte, a whole frame or a gap at the receiver (R141). -/
  | received (r : Receiver) (gap : Bool) : Change u { u with receiver := r, gapTimer := gap }
  /-- The last byte of a LINE or CUT frame has been sent (R148). -/
  | frameSent (f : ExposureFrame) (rest : List ExposureFrame) (h : u.transmit.dropWhile ExposureFrame.isQuery = f :: rest) :
      Change u { u with
        transmit := rest
        orderTimer := u.orderTimer || (u.view.outstanding.isSome && rest.all ExposureFrame.isQuery) }
  /-- UNIT RESUME (R150). -/
  | resumed (h : (u.view.faulted || u.view.silent) = true) :
      Change u { u with view := { u.view with faulted := false, silent := false, lastFault := none, known := false } }.ask
  /-- A STATE report (R149). -/
  | reported (held : Bool) : Change u { u with view := { u.view with known := true, held := held }, queryTimer := false }
  /-- The query timer's expiry (R145). -/
  | queried (h : u.queryTimer = true) : Change u u.query
  | queryOver : Change u { u with queryTimer := false }
  /-- The end of the pause after a reset (R152, R177). -/
  | pauseOver : Change u { u with resetPause := false }.query

/-- The unit link controller behind the failure of its outstanding order (R147, R148). -/
def UnitLink.failed (u : UnitLink) (o : Order) (fault : FaultCode) : UnitLink :=
  { u.without with
    view := { u.without.view with
      faulted := u.without.view.faulted || !fault.isTimeout
      silent := u.without.view.silent || fault.isTimeout
      lastFault := some { number := o.number, cut := o.kind == .cut, fault := fault } } }

/-- One act of the part within an event. What the composing link does with frames is no act. -/
inductive State.Act (s : State) : State → Prop where
  | raised (f : Flag) (d : EventData) (h : f.holds d = true) : Act s (s.raise f d)
  | notified (f : Flag) (d : EventData) (h : s.events.flag f = some d) : Act s (s.notify f d)
  | cleared (f : Flag) : Act s { s with events := s.events.setFlag f none }
  | masked (m : Vector Bool 9) : Act s { s with events := { s.events with mask := m } }
  | resetTaken : Act s { s with link := { s.link with resetPending := true } }
  | sets (g : GalleyId) (x : Galley) (h : s.Sets g x) : Act s (s.setGalley g x)
  | works (g : GalleyId) (r : Run) (h : s.Works g r) : Act s (s.commit g r)
  | loads (n : SlotId) (f : Slot) (h : Slot.Load (poolFree s.fonts) (s.font n) f) : Act s (s.setFont n f)
  | pageOpened (width depth : Nat) (h : s.page.state = .noPage) :
      Act s { s with page := { s.page with
        state := .open, number := s.page.number + 1, width := width, depth := depth, high := 0, lastIssued := 0 } }
  | pageClosed (h : s.page.state = .open) (hoff : s.allOff = true) : Act s { s with page := { s.page with state := .closing } }
  | changes (u : UnitLink) (h : s.unit.Change u) : Act s { s with unit := u }
  | lineEnded (o : Order) (h : s.unit.view.outstanding = some o) : Act s { s with unit := s.unit.without }
  | cutEnded (o : Order) (h : s.unit.view.outstanding = some o) (hk : o.kind = .cut) :
      Act s { s with unit := s.unit.without, page := { s.page with state := .noPage } }
  | failed (o : Order) (fault : FaultCode) (h : s.unit.view.outstanding = some o) :
      Act s { s with unit := s.unit.failed o fault, free := s.free + 1 }
  | selected : Act s s.select
  | due (b : Bool) : Act s { s with selectionDue := b }

/-- A succession of acts. -/
abbrev State.Acts : State → State → Prop := Relation.ReflTransGen State.Act

theorem State.Act.acts {s t : State} (h : s.Act t) : s.Acts t := .single h

theorem State.Acts.noting {s t : State} (h : s.Acts t) (r : State) : s.Acts (r.noting t) := h.tail (.due _)

/-! ### What each galley request does -/

theorem handleStory_acts (s : State) (target : Byte) (body : List Byte) : s.Acts (handleStory s target body).state := by
  unfold handleStory
  dsimp only
  split
  · exact .refl
  · split
    · exact .refl
    · split
      · exact .refl
      · exact .single (.works _ _ (.arrived _ ‹_› (Nat.le_of_not_lt ‹_›)))

theorem handleFlush_acts (s : State) (target : Byte) (body : List Byte) : s.Acts (handleFlush s target body).state := by
  unfold handleFlush
  dsimp only
  split
  · exact .refl
  · exact .single (.sets _ _ (.flushed (not_not.1 ‹_›)))

theorem handleGalleyOpen_acts (s : State) (target : Byte) (body : List Byte) :
    s.Acts (handleGalleyOpen s target body).state := by
  unfold handleGalleyOpen
  dsimp only
  split
  · exact .refl
  · rename_i hpage
    split
    · exact .refl
    · rename_i hoff
      split
      · split
        · exact .refl
        · split
          · rename_i hgood
            simp only [Bool.and_eq_true, decide_eq_true_eq] at hgood
            obtain ⟨⟨⟨⟨⟨⟨⟨-, htop⟩, -⟩, hlo⟩, hhi⟩, hneg⟩, hpos⟩, -⟩ := hgood
            split
            · exact .refl
            · exact .single (.sets _ _ (.opened _ _ _ _ _ _ (not_not.1 hpage) (not_not.1 hoff) htop ⟨hlo, hhi⟩ ⟨hneg, hpos⟩
                (eq_false_of_ne_true ‹_›)))
          · exact .refl
      · exact .refl

theorem handleParam_acts (s : State) (target : Byte) (body : List Byte) : s.Acts (handleParam s target body).state := by
  unfold handleParam
  dsimp only
  split
  · exact .refl
  · split
    · exact .refl
    · split
      · exact .refl
      · split
        · exact .refl
        · exact .single (.sets _ _ (.staged _ ‹_› (eq_false_of_ne_true ‹_›)))

theorem handleParamNow_acts (s : State) (target : Byte) (body : List Byte) : s.Acts (handleParamNow s target body).state := by
  unfold handleParamNow
  dsimp only
  split
  · exact .refl
  · rename_i hhalted
    split
    · exact .refl
    · rename_i hstarted
      split
      · exact .refl
      · split
        · exact .refl
        · split
          · exact .refl
          · exact .single (.sets _ _
              (.activated _ (not_not.1 hhalted) (eq_false_of_ne_true hstarted) (eq_false_of_ne_true ‹_›)))

theorem handleHalt_acts (s : State) (target : Byte) (body : List Byte) : s.Acts (handleHalt s target body).state := by
  unfold handleHalt
  dsimp only
  split
  · exact .refl
  · exact .single (.works _ _ (.halted ‹_›))

theorem handleResume_acts (s : State) (target : Byte) (body : List Byte) : s.Acts (handleResume s target body).state := by
  unfold handleResume
  dsimp only
  split
  · exact .refl
  · rename_i hhalted
    split
    · exact .refl
    · exact .single (.works _ _ (.resumed (not_not.1 hhalted) (eq_false_of_ne_true ‹_›)))

theorem handleStep_acts (s : State) (target : Byte) (body : List Byte) : s.Acts (handleStep s target body).state := by
  unfold handleStep
  dsimp only
  split
  · exact .refl
  · rename_i hhalted
    split
    · exact .refl
    · split
      · exact .refl
      · exact .single (.works _ _ (.stepped (not_not.1 hhalted) (eq_false_of_ne_true ‹_›)))

theorem handleMarkSet_acts (s : State) (target : Byte) (body : List Byte) : s.Acts (handleMarkSet s target body).state := by
  unfold handleMarkSet
  dsimp only
  split
  · exact .refl
  · split
    · split
      · exact .refl
      · split
        · exact .refl
        · exact .single (.sets _ _ (.marked _))
    · exact .refl

theorem handleMarkClear_acts (s : State) (target : Byte) (body : List Byte) : s.Acts (handleMarkClear s target body).state := by
  unfold handleMarkClear
  dsimp only
  split
  · exact .refl
  · exact .single (.sets _ _ (.marked _))

theorem handleRestart_acts (s : State) (target : Byte) (body : List Byte) : s.Acts (handleRestart s target body).state := by
  unfold handleRestart
  dsimp only
  split
  · exact .refl
  · rename_i hhalted
    split
    · exact .refl
    · split
      · exact .refl
      · rename_i hstarted
        split
        · exact .refl
        · rename_i top column _
          have judged (ok : Bool) : s.Acts
              (if s.page.depth ≤ top ∨ !ok then s.refuse .range
                else if aboveBand s.page.high top || (s.galley (galleyOf target)).topAboveQueued top then s.refuse .behind
                else (s.setGalley (galleyOf target) ((s.galley (galleyOf target)).restarted top column)).accept []).state := by
            split
            · exact .refl
            · split
              · exact .refl
              · rename_i hbehind
                obtain ⟨hband, htop⟩ := Bool.or_eq_false_iff.1 (eq_false_of_ne_true hbehind)
                exact .single (.sets _ _
                  (.restarted _ _ (not_not.1 hhalted) (eq_false_of_ne_true hstarted) hband htop))
          exact judged _

theorem handleAbandon_acts (s : State) (target : Byte) (body : List Byte) : s.Acts (handleAbandon s target body).state := by
  unfold handleAbandon
  dsimp only
  split
  · exact .refl
  · rename_i hhalted
    split
    · exact .refl
    · exact .single (.sets _ _ (.abandoned (not_not.1 hhalted) (eq_false_of_ne_true ‹_›)))

theorem handlePeek_acts (s : State) (target : Byte) (body : List Byte) : s.Acts (handlePeek s target body).state := by
  unfold handlePeek
  dsimp only
  split
  · exact .refl
  · split <;> exact .refl

theorem drainGalley_acts (s : State) (g : GalleyId) : s.Acts (drainGalley s g).state := by
  unfold drainGalley
  dsimp only
  split
  · exact .refl
  · split
    · exact .single (.works _ _ (.drained ‹_›))
    · exact .single (.sets _ _ .drainNoted)

theorem discardGalley_acts (s : State) (g : GalleyId) : s.Acts (discardGalley s g).state := by
  unfold discardGalley
  dsimp only
  split
  · exact .refl
  · exact .single (.works _ _ (.discarded ‹_›))

theorem handleGalleyClose_acts (s : State) (target : Byte) (body : List Byte) :
    s.Acts (handleGalleyClose s target body).state := by
  unfold handleGalleyClose
  split
  · exact drainGalley_acts s _
  · exact discardGalley_acts s _
  · exact .refl

theorem handlePosition_acts (s : State) (target : Byte) (body : List Byte) : s.Acts (handlePosition s target body).state := by
  unfold handlePosition
  dsimp only
  split
  · exact .single (.sets _ _ (.latched none))
  · exact .refl

theorem latch_acts (set : Byte) (gs : List GalleyId) (s : State) : s.Acts (gs.foldl (State.latch set) s) := by
  induction gs generalizing s with
  | nil => exact .refl
  | cons g gs ih =>
    refine Relation.ReflTransGen.trans ?_ (ih _)
    unfold State.latch
    split
    · exact .single (.sets _ _ (.latched _))
    · exact .refl

/-! ### What each request of the font store, the page, the photo unit and the event unit does -/

theorem handleFontBegin_acts (s : State) (target : Byte) (body : List Byte) :
    s.Acts (handleFontBegin s target body).state := by
  unfold handleFontBegin
  dsimp only
  split
  · split
    · exact .single (.loads _ _ (.begun _))
    · exact .refl
  · exact .refl

theorem handleFontGlyphs_acts (s : State) (target : Byte) (body : List Byte) :
    s.Acts (handleFontGlyphs s target body).state := by
  unfold handleFontGlyphs
  dsimp only
  split
  · exact .refl
  · rename_i hloading
    have refused : s.Acts (s.setFont (slotOf target) { s.font (slotOf target) with silence := true }) :=
      .single (.loads _ _ (.kerned _ (not_not.1 hloading)))
    split
    · exact refused
    · split
      · exact refused
      · split
        · exact refused
        · exact .single (.loads _ _ (.examined _ (not_not.1 hloading)))

theorem handleFontKern_acts (s : State) (target : Byte) (body : List Byte) :
    s.Acts (handleFontKern s target body).state := by
  unfold handleFontKern
  dsimp only
  split
  · exact .refl
  · rename_i hloading
    have written (k : KernTable) : s.Acts (s.setFont (slotOf target) { s.font (slotOf target) with kern := k, silence := true }) :=
      .single (.loads _ _ (.kerned _ (not_not.1 hloading)))
    split
    · split
      · exact written _
      · exact written _
    · exact written _

theorem handleFontEnd_acts (s : State) (target : Byte) (body : List Byte) : s.Acts (handleFontEnd s target body).state := by
  unfold handleFontEnd
  dsimp only
  split
  · exact .refl
  · exact Relation.ReflTransGen.tail (.single (.loads _ _ (.ended (not_not.1 ‹_›)))) (.raised _ _ rfl)

theorem handlePageOpen_acts (s : State) (target : Byte) (body : List Byte) :
    s.Acts (handlePageOpen s target body).state := by
  unfold handlePageOpen
  split
  · exact .refl
  · split
    · dsimp only
      split
      · exact .single (.pageOpened _ _ (not_not.1 ‹_›))
      · exact .refl
    · exact .refl

theorem handlePageClose_acts (s : State) (target : Byte) (body : List Byte) :
    s.Acts (handlePageClose s target body).state := by
  unfold handlePageClose
  split
  · rename_i h
    exact .single (.pageClosed h.1 h.2)
  · exact .refl

theorem handleUnitResume_acts (s : State) (target : Byte) (body : List Byte) :
    s.Acts (handleUnitResume s target body).state := by
  unfold handleUnitResume
  dsimp only
  split
  · exact .single (.changes _ (.resumed ‹_›))
  · exact .refl

/-- The data a level flag is raised with is of its kind (R172). -/
theorem levelData_holds (s : State) (f : Flag) (d : EventData) (h : s.levelData f = some d) : f.holds d = true := by
  unfold State.levelData at h
  split at h
  · split at h <;> cases h
    rfl
  · split at h
    · obtain ⟨lf, -, rfl⟩ := Option.map_eq_some_iff.1 h
      rfl
    · cases h
  · cases h

theorem clearFlag_acts (s : State) (f : Flag) : s.Acts (s.clearFlag f) := by
  unfold State.clearFlag
  split
  · exact .refl
  · dsimp only
    split
    · exact .single (.cleared f)
    · exact .tail (.single (.cleared f)) (.raised _ _ (levelData_holds s f _ ‹_›))

theorem handleEventClear_acts (s : State) (target : Byte) (body : List Byte) :
    s.Acts (handleEventClear s target body).state := by
  have fold (fs : List Flag) (s : State) : s.Acts (fs.foldl State.clearFlag s) := by
    induction fs generalizing s with
    | nil => exact .refl
    | cons f fs ih => exact (clearFlag_acts s f).trans (ih _)
  unfold handleEventClear
  split
  · exact .refl
  · split
    · exact .refl
    · exact fold _ s

theorem unmaskNotice_acts (old : Vector Bool 9) (s : State) (f : Flag) : s.Acts (State.unmaskNotice old s f) := by
  unfold State.unmaskNotice
  split
  · exact .refl
  · split
    · exact .single (.notified _ _ ‹_›)
    · exact .refl

theorem unmaskNotices_acts (old : Vector Bool 9) (fs : List Flag) (s : State) : s.Acts (fs.foldl (State.unmaskNotice old) s) := by
  induction fs generalizing s with
  | nil => exact .refl
  | cons f fs ih => exact (unmaskNotice_acts old s f).trans (ih _)

theorem setMask_acts (s : State) (m : Vector Bool 9) : s.Acts (s.setMask m) := by
  have hmasked : s.Acts { s with events := { s.events with mask := m } } := .single (.masked m)
  exact hmasked.trans (unmaskNotices_acts s.events.mask allFlags _)

theorem handleEventMask_acts (s : State) (target : Byte) (body : List Byte) :
    s.Acts (handleEventMask s target body).state := by
  unfold handleEventMask
  split
  · rename_i hi lo
    dsimp only [State.accept]
    exact setMask_acts s (readMask hi lo)
  · exact .refl

/-- Every request, by its kind. -/
theorem handle_acts (k : ReqKind) (s : State) (target : Byte) (body : List Byte) : s.Acts (handle k s target body).state := by
  cases k with
  | status => exact .refl
  | position => exact handlePosition_acts s target body
  | snapshot => exact latch_acts _ _ s
  | galleyReport => exact .single (.sets _ _ .reported)
  | eventClear => exact handleEventClear_acts s target body
  | eventMask => exact handleEventMask_acts s target body
  | partReset => exact .single .resetTaken
  | story => exact handleStory_acts s target body
  | param => exact handleParam_acts s target body
  | halt => exact handleHalt_acts s target body
  | markSet => exact handleMarkSet_acts s target body
  | markClear => exact handleMarkClear_acts s target body
  | galleyOpen => exact handleGalleyOpen_acts s target body
  | galleyClose => exact handleGalleyClose_acts s target body
  | fontBegin => exact handleFontBegin_acts s target body
  | fontGlyphs => exact handleFontGlyphs_acts s target body
  | fontKern => exact handleFontKern_acts s target body
  | fontEnd => exact handleFontEnd_acts s target body
  | fontDrop => exact .single (.loads _ _ .dropped)
  | fontQuery => exact .refl
  | pageOpen => exact handlePageOpen_acts s target body
  | pageClose => exact handlePageClose_acts s target body
  | unitResume => exact handleUnitResume_acts s target body
  | resume => exact handleResume_acts s target body
  | step => exact handleStep_acts s target body
  | paramNow => exact handleParamNow_acts s target body
  | restart => exact handleRestart_acts s target body
  | peek => exact handlePeek_acts s target body
  | abandon => exact handleAbandon_acts s target body
  | flush => exact handleFlush_acts s target body

theorem dispatch_acts (s : State) (kind target : Byte) (body : List Byte) : s.Acts (dispatch s kind target body).state := by
  unfold dispatch
  split
  · exact .refl
  · split
    · exact .refl
    · split
      · exact .refl
      · exact handle_acts _ s target body

/-! ### What the other events do -/

theorem galleyProceeds_acts (s : State) (g : GalleyId) : s.Acts (galleyProceeds s g) :=
  State.Acts.noting (.single (.works _ _ .proceeded)) s

theorem consumeEvent_acts (s : State) (g : GalleyId) (want : Item → Bool) : s.Acts (consumeEvent s g want) := by
  unfold consumeEvent
  dsimp only
  split
  · exact .refl
  · split
    · exact galleyProceeds_acts s g
    · exact .refl

theorem tagMarkHalt_acts (s : State) (g : GalleyId) : s.Acts (tagMarkHalt s g) := by
  unfold tagMarkHalt
  dsimp only
  split
  · exact galleyProceeds_acts s g
  · exact .refl

theorem queueEmpties_acts (s : State) (g : GalleyId) : s.Acts (queueEmpties s g) := by
  unfold queueEmpties
  dsimp only
  split
  · exact galleyProceeds_acts s g
  · exact .refl

theorem drainEnd_acts (s : State) (g : GalleyId) : s.Acts (drainEnd s g) := by
  unfold drainEnd
  dsimp only
  split
  · exact galleyProceeds_acts s g
  · exact .refl

theorem idleExpiry_acts (s : State) (g : GalleyId) : s.Acts (idleExpiry s g) := by
  unfold idleExpiry
  dsimp only
  split
  · exact State.Acts.noting (.tail (.single (.sets _ _ .released)) (.raised _ _ rfl)) s
  · exact .refl

theorem silenceExpiry_acts (s : State) (n : SlotId) : s.Acts (silenceExpiry s n) := by
  unfold silenceExpiry
  dsimp only
  split
  · exact .tail (.single (.loads _ _ (.abandoned ‹_›))) (.raised _ _ rfl)
  · exact .refl

theorem takeDone_acts (s : State) (n : Byte) : s.Acts (s.takeDone n) := by
  unfold State.takeDone
  split
  · exact .refl
  · rename_i o ho
    split
    · dsimp only
      refine State.Acts.noting ?_ s
      split
      · exact .tail (.single (.lineEnded o ho)) (.works _ _ (.retired rfl))
      · exact .tail (.single (.cutEnded o ho ‹_›)) (.raised _ _ rfl)
    · exact .refl

theorem spoil_acts (s : State) (k : OrderKind) (h : s.unit.view.outstanding = none) : s.Acts (s.spoil k) := by
  cases k with
  | line g => exact .single (.works _ _ (.spoiled h))
  | cut => exact .refl

/-- The notice of the failure stands before or behind those of the spoiling (R151). -/
theorem failOrder_acts (s : State) (o : Order) (fault : FaultCode) (h : s.unit.view.outstanding = some o) :
    s.Acts (s.failOrder o fault) := by
  unfold State.failOrder
  dsimp only
  refine State.Acts.noting (.head (.failed o fault h) ?_) s
  split
  · exact .head (.raised _ _ rfl) (spoil_acts _ _ (by rw [State.raise_unit]; rfl))
  · exact .tail (spoil_acts _ _ rfl) (.raised _ _ rfl)

theorem takeFault_acts (s : State) (n code : Byte) : s.Acts (s.takeFault n code) := by
  unfold State.takeFault
  split
  · exact .refl
  · split
    · exact failOrder_acts s _ _ ‹_›
    · exact .refl

theorem orderExpiry_acts (s : State) : s.Acts s.orderExpiry := by
  unfold State.orderExpiry
  split
  · exact .refl
  · split
    · exact failOrder_acts s _ _ ‹_›
    · exact .refl

theorem takeReport_acts (s : State) (r : Report) : s.Acts (s.takeReport r) := by
  cases r with
  | done n => exact takeDone_acts s n
  | fault n code => exact takeFault_acts s n code
  | ready => exact State.Acts.noting (.single (.changes _ (.reported false))) s
  | held => exact State.Acts.noting (.tail (.single (.changes _ (.reported true))) (.raised _ _ rfl)) s

theorem exposureHunt_acts (s : State) : s.Acts s.exposureHunt := .single (.changes _ (.received _ _))

theorem exposureFrameDone_acts (s : State) (bytes : List Byte) : s.Acts (s.exposureFrameDone bytes) := by
  unfold State.exposureFrameDone
  split
  · exact exposureHunt_acts s
  · exact (exposureHunt_acts s).trans (takeReport_acts _ _)

theorem exposureByte_acts (s : State) (b : Byte) : s.Acts (s.exposureByte b) := by
  unfold State.exposureByte
  split
  · split
    · exact .single (.changes _ (.received _ _))
    · exact .refl
  · dsimp only
    split
    · exact exposureFrameDone_acts s _
    · exact .single (.changes _ (.received _ _))

theorem frameSent_acts (s : State) : s.Acts s.frameSent := by
  unfold State.frameSent
  split
  · exact .refl
  · exact .single (.changes _ (.frameSent _ _ ‹_›))

theorem exposureGap_acts (s : State) : s.Acts s.exposureGap := by
  unfold State.exposureGap
  split
  · exact exposureHunt_acts s
  · exact .refl

theorem queryExpiry_acts (s : State) : s.Acts s.queryExpiry := by
  unfold State.queryExpiry
  split
  · split
    · exact .single (.changes _ .queryOver)
    · exact .single (.changes _ (.queried ‹_›))
  · exact .refl

theorem pauseEnds_acts (s : State) : s.Acts s.pauseEnds := by
  unfold State.pauseEnds
  split
  · exact .single (.changes _ .pauseOver)
  · exact .refl

theorem selectDue_acts (s : State) : s.Acts s.selectDue := .tail (.single .selected) (.due false)

/-! ### One step -/

/-- Every command but those of the composing link acts on the part, and on the part alone. -/
theorem exec_acts (c : Instr) (s t : State) (h : exec c s = .next t) :
    s.Acts t ∨ (∃ f, t = s.completeFrame f) ∨ (∃ b, t = s.linkByte b) ∨ t = s.transmit ∨ t = s.resetEffect ∨
      (∃ early, t = s.powerOn early) ∨ t = { s with link := s.link.gapExpiry } ∨ t = { s with link := s.link.hunt } := by
  cases c <;> cases h
  case powerOn early => exact .inr (.inr (.inr (.inr (.inr (.inl ⟨early, rfl⟩)))))
  case transmitStart => exact .inr (.inr (.inr (.inl rfl)))
  case gapTimerExpiry => exact .inr (.inr (.inr (.inr (.inr (.inr (.inl rfl))))))
  case breakCondition => exact .inr (.inr (.inr (.inr (.inr (.inr (.inr rfl))))))
  case partResetEffect => exact .inr (.inr (.inr (.inr (.inl rfl))))
  case byteCollected b => exact .inr (.inr (.inl ⟨b, rfl⟩))
  case silenceTimerExpiry n => exact .inl (silenceExpiry_acts s n)
  case idleTimerExpiry g => exact .inl (idleExpiry_acts s g)
  case tagMarkHalt g => exact .inl (tagMarkHalt_acts s g)
  case queueEmpties g => exact .inl (queueEmpties_acts s g)
  case drainEnd g => exact .inl (drainEnd_acts s g)
  case selection => exact .inl (selectDue_acts s)
  case orderFrameSent => exact .inl (frameSent_acts s)
  case exposureGapExpiry => exact .inl (exposureGap_acts s)
  case exposureFrameDiscard bytes => exact .inl (exposureFrameDone_acts s bytes)
  case doneReport n => exact .inl ((exposureHunt_acts s).trans (takeDone_acts _ n))
  case faultReport n code => exact .inl ((exposureHunt_acts s).trans (takeFault_acts _ n code))
  case orderTimeout => exact .inl (orderExpiry_acts s)
  case stateReady => exact .inl ((exposureHunt_acts s).trans (takeReport_acts _ .ready))
  case stateHeld => exact .inl ((exposureHunt_acts s).trans (takeReport_acts _ .held))
  case queryTimerExpiry => exact .inl (queryExpiry_acts s)
  case queryAfterReset => exact .inl (pauseEnds_acts s)
  case exposureByteCollected b => exact .inl (exposureByte_acts s b)
  case char g | space g | fixed g | para g | fontN g | size g | track g | shift g | dirLtr g | dirRtl g | disc g =>
    exact .inl (consumeEvent_acts s g _)
  all_goals exact .inr (.inl ⟨_, rfl⟩)

/-- A law that reads no queue of commands and that every command keeps is kept by every step. -/
theorem step_keeps_of_exec {P : State → Prop} (hexec : ∀ c s t, P s → exec c s = .next t → P t)
    (hpending : ∀ s q, P s → P { s with pending := q }) {s t : State} (hs : P s) (h : step s = .next t) : P t := by
  unfold step at h
  split at h
  · split at h
    · exact hexec _ _ _ hs h
    · cases h
      exact hs
  · exact hexec _ _ _ (hpending _ _ hs) h

/-- A law of the part that reads neither the composing link nor the queue of commands: the acts keep it, PART RESET keeps it, and the part
has it after power-on. -/
structure State.PartLaw (P : State → Prop) : Prop where
  act : ∀ s t, s.Act t → P s → P t
  link : ∀ s l, P s → P { s with link := l }
  pending : ∀ s q, P s → P { s with pending := q }
  partReset : ∀ s, P s → P s.partReset
  powered : ∀ l free pending, P { State.reset with link := l, free := free, pending := pending }

section Keeps

variable {P : State → Prop} (hP : State.PartLaw P)
include hP

theorem State.PartLaw.acts {s t : State} (h : s.Acts t) (hs : P s) : P t := by
  induction h with
  | refl => exact hs
  | tail _ hact ih => exact hP.act _ _ hact ih

theorem State.PartLaw.takeFrame (s : State) (f : LinkFrame) (hs : P s) : P (s.takeFrame f) := by
  unfold State.takeFrame
  refine hP.act _ _ (.due _) ?_
  split
  · exact hP.link _ _ hs
  · split
    · exact hP.link _ _ (hP.acts (dispatch_acts s _ _ _) hs)
    · exact hP.link _ _ hs

theorem State.PartLaw.completeFrame (s : State) (f : LinkFrame) (hs : P s) : P (s.completeFrame f) := by
  unfold State.completeFrame
  dsimp only
  split
  · exact hP.takeFrame _ f (hP.link _ _ hs)
  · exact hP.link _ _ (hP.link _ _ hs)

theorem State.PartLaw.takeHeldFrame (s : State) (hs : P s) : P s.takeHeldFrame := by
  unfold State.takeHeldFrame
  split
  · exact hs
  · split
    · exact hP.takeFrame _ _ (hP.link _ _ hs)
    · exact hs

theorem State.PartLaw.exec {c : Instr} {s t : State} (hs : P s) (h : exec c s = .next t) : P t := by
  obtain h | ⟨f, rfl⟩ | ⟨b, rfl⟩ | rfl | rfl | ⟨early, rfl⟩ | rfl | rfl := exec_acts c s t h
  · exact hP.acts h hs
  · exact hP.completeFrame s f hs
  · unfold State.linkByte
    split
    · exact hP.link _ _ hs
    · exact hP.completeFrame _ _ (hP.link _ _ hs)
  · unfold State.transmit
    split
    · exact hs
    · split
      · exact hs
      · exact hP.takeHeldFrame _ (hP.link _ _ hs)
  · unfold State.resetEffect
    split
    · exact hP.partReset s hs
    · exact hs
  · exact hP.takeHeldFrame _ (hP.powered _ _ _)
  · exact hP.link _ _ hs
  · exact hP.link _ _ hs

/-- A law of the part is kept by every step. -/
theorem State.PartLaw.step {s t : State} (hs : P s) (h : step s = .next t) : P t :=
  step_keeps_of_exec (fun _ _ _ => hP.exec) hP.pending hs h

end Keeps

end Sys2Proof.Machine
end

