-- ==== Sys2Proof/Proofs/FontLaw.lean ====
section
/-! The law of the font store (R18, R19, R23, R33): what each request and the silence timer make of a slot keeps it. -/

namespace Sys2Proof.Machine

/-! ### What a slot holds (R18, R19, R23) -/

/-- The part of a slot's law that tells of its record list and its rejected set. -/
def Slot.Contents (f : Slot) : Prop :=
  f.records.length ≤ Config.slotRecords ∧ (f.records.map GlyphRecord.code).Nodup ∧
  (∀ r ∈ f.records, r.contentGood = true) ∧
  f.rejected.length ≤ Config.rejectedCapacity ∧ f.rejected.Nodup

theorem Slot.Law.contents {f : Slot} (h : f.Law) : f.Contents := by
  obtain ⟨-, -, -, -, h⟩ := h
  exact h

/-- A record is read only from bytes without a content error (R21, R27). -/
theorem contentGood_of_readRecord {bs : List Byte} {r : GlyphRecord} (h : readRecord bs = some r) : r.contentGood = true := by
  unfold readRecord at h
  split at h
  · dsimp only at h
    split at h
    · split at h
      · rename_i hgood
        simp only [Bool.and_eq_true] at hgood
        obtain ⟨-, hgood⟩ := hgood
        rwa [← Option.some.inj h]
      · cases h
    · cases h
  · cases h

theorem Slot.reject_contents (f : Slot) (c : CodeUnit) (h : f.Contents) : (f.reject c).Contents := by
  obtain ⟨hlen, hcodes, hgood, hcap, hnodup⟩ := h
  obtain ⟨-, he⟩ | ⟨hnew, hroom, he⟩ | ⟨-, -, he⟩ := f.reject_cases c <;> rw [he]
  · exact ⟨hlen, hcodes, hgood, hcap, hnodup⟩
  · refine ⟨hlen, hcodes, hgood, ?_, ?_⟩
    · simpa [Config.rejectedCapacity] using hroom
    · exact hnodup.append (List.nodup_singleton c) (by simpa using hnew)
  · exact ⟨hlen, hcodes, hgood, hcap, hnodup⟩

theorem Slot.heal_contents (f : Slot) (c : CodeUnit) (h : f.Contents) : (f.heal c).Contents := by
  obtain ⟨hlen, hcodes, hgood, hcap, hnodup⟩ := h
  exact ⟨hlen, hcodes, hgood, (List.length_filter_le _ _).trans hcap, hnodup.filter _⟩

/-- A record in the place of one of its code (R28). -/
theorem Slot.replace_contents (f : Slot) (r : GlyphRecord) (h : f.Contents) (hr : r.contentGood = true) :
    ({ f with records := replaceRecord r f.records } : Slot).Contents := by
  obtain ⟨hlen, hcodes, hgood, hcap, hnodup⟩ := h
  refine ⟨by simpa using hlen, by simpa only [replaceRecord_codes] using hcodes, ?_, hcap, hnodup⟩
  intro x hx
  obtain ⟨y, hy, rfl⟩ := List.mem_map.1 hx
  split
  · exact hr
  · exact hgood y hy

/-- A record of a new code in a place of its own (R29). -/
theorem Slot.append_contents (f : Slot) (r : GlyphRecord) (h : f.Contents) (hr : r.contentGood = true)
    (hnew : r.code ∉ f.records.map GlyphRecord.code) (hroom : f.records.length < 1024) :
    ({ f with records := f.records ++ [r] } : Slot).Contents := by
  obtain ⟨hlen, hcodes, hgood, hcap, hnodup⟩ := h
  refine ⟨by simpa [Config.slotRecords] using hroom, ?_, ?_, hcap, hnodup⟩
  · rw [List.map_append]
    exact hcodes.append (List.nodup_singleton _) (by simpa using hnew)
  · intro x hx
    obtain hx | hx := List.mem_append.1 hx
    · exact hgood x hx
    · rwa [List.mem_singleton.1 hx]

/-! ### The examination of a frame (R26 to R30) -/

/-- What the examination of a frame keeps of the slot it began with, and of the places there were. -/
structure Examination.Sound (f : Slot) (places : Nat) (e : Examination) : Prop where
  contents : e.slot.Contents
  state : e.slot.state = f.state
  header : e.slot.header = f.header
  silence : e.slot.silence = f.silence
  places : e.slot.records.length + e.free ≤ places

theorem Examination.Sound.examine {f : Slot} {places : Nat} {e : Examination} (h : e.Sound f places) (position : Nat)
    (bs : List Byte) : (Machine.examine e position bs).Sound f places := by
  obtain ⟨hcontents, hstate, hheader, hsilence, hplaces⟩ := h
  obtain ⟨-, he⟩ | ⟨-, -, hslot, -, hfree, -, -⟩ | ⟨r, -, hr, hcase⟩ := examine_cases e position bs
  · rw [he]
    exact ⟨hcontents, hstate, hheader, hsilence, hplaces⟩
  · constructor <;> rw [hslot]
    · exact Slot.reject_contents _ _ hcontents
    · rwa [Slot.reject_state]
    · rwa [Slot.reject_header]
    · rwa [Slot.reject_silence]
    · rwa [Slot.reject_records, hfree]
  · have hgood := contentGood_of_readRecord hr
    obtain ⟨-, he⟩ | ⟨hnew, hfree, hroom, he⟩ | ⟨-, -, he⟩ := hcase <;> rw [he]
    · refine ⟨Slot.heal_contents _ _ (Slot.replace_contents _ _ hcontents hgood), hstate, hheader, hsilence, ?_⟩
      simpa using hplaces
    · refine ⟨Slot.heal_contents _ _ (Slot.append_contents _ _ hcontents hgood hnew hroom), hstate, hheader, hsilence, ?_⟩
      simp only [Slot.heal_records, List.length_append, List.length_singleton]
      omega
    · exact ⟨hcontents, hstate, hheader, hsilence, hplaces⟩

theorem Examination.Sound.examineAll {f : Slot} {places : Nat} {e : Examination} (h : e.Sound f places) (position : Nat)
    (records : List (List Byte)) : (Machine.examineAll e position records).Sound f places := by
  induction records generalizing e position with
  | nil => exact h
  | cons b bs ih => exact ih (h.examine position b) _

/-! ### The law of one slot -/

theorem Slot.empty_law : Slot.empty.Law := by
  refine ⟨fun _ => rfl, fun h => absurd rfl h, fun h => ?_, ?_, ?_⟩
  · cases h
  · simp [Slot.empty]
  · simp [Slot.empty]

/-- A LOADING slot that keeps its header and holds what it may. -/
theorem Slot.law_of_loading {f : Slot} (hs : f.state = .loading) (hsilence : f.silence = true) (hh : f.header.isSome = true)
    (h : f.Contents) : f.Law := by
  refine ⟨fun he => ?_, fun _ => hh, fun he => ?_, by simp [hs, hsilence], h⟩ <;> simp [hs] at he

theorem Slot.Law.header_of_loading {f : Slot} (h : f.Law) (hs : f.state = .loading) : f.header.isSome = true := by
  obtain ⟨-, hheader, -⟩ := h
  exact hheader (by simp [hs])

theorem Slot.Law.loading_of_silence {f : Slot} (h : f.Law) (hs : f.silence = true) : f.state = .loading := by
  obtain ⟨-, -, -, hsilence, -⟩ := h
  exact hsilence.1 hs

/-- A PROVISIONAL slot with what it held while LOADING (R32, R33, R39). -/
theorem Slot.Law.provisional {f : Slot} (h : f.Law) (hs : f.state = .loading) :
    ({ f with state := .provisional, silence := false } : Slot).Law := by
  have hheader := h.header_of_loading hs
  refine ⟨fun he => ?_, fun _ => hheader, fun he => ?_, by simp, h.contents⟩
  · cases he
  · cases he

theorem Slot.Load.law {free : Nat} {f f' : Slot} (hl : Slot.Load free f f') (h : f.Law) : f'.Law := by
  cases hl with
  | begun hd => exact Slot.law_of_loading rfl rfl rfl Slot.empty_law.contents
  | examined records hs =>
    have hstart : Examination.Sound { f with silence := true } (f.records.length + free)
        { slot := { f with silence := true }, free := free, stored := 0, rejected := 0, firstRejected := 0, full := 0 } :=
      ⟨h.contents, rfl, rfl, rfl, Nat.le_refl _⟩
    obtain ⟨hcontents, hstate, hheader, hsilence, -⟩ := hstart.examineAll 1 records
    exact Slot.law_of_loading (hstate.trans hs) hsilence (by rw [hheader]; exact h.header_of_loading hs) hcontents
  | kerned k hs => exact Slot.law_of_loading hs rfl (h.header_of_loading hs) h.contents
  | ended hs =>
    cases hg : f.loadGood with
    | false => exact h.provisional hs
    | true => exact ⟨by simp, fun _ => h.header_of_loading hs, fun _ => hg, by simp, h.contents⟩
  | dropped => exact Slot.empty_law
  | abandoned hs => exact h.provisional (h.loading_of_silence hs)

/-- No request takes more places than the pool has free (R23, R29). -/
theorem Slot.Load.length_le {free : Nat} {f f' : Slot} (hl : Slot.Load free f f') (h : f.Law) :
    f'.records.length ≤ f.records.length + free := by
  cases hl with
  | examined records hs =>
    have hstart : Examination.Sound { f with silence := true } (f.records.length + free)
        { slot := { f with silence := true }, free := free, stored := 0, rejected := 0, firstRejected := 0, full := 0 } :=
      ⟨h.contents, rfl, rfl, rfl, Nat.le_refl _⟩
    have hplaces := (hstart.examineAll 1 records).places
    omega
  | begun | dropped => exact Nat.zero_le _
  | kerned | ended | abandoned => exact Nat.le_add_right _ _

/-! ### The pool (R23) -/

theorem sum_map_set {α : Type} (φ : α → Nat) (xs : List α) (i : Nat) (x : α) (h : i < xs.length) :
    ((xs.set i x).map φ).sum + φ xs[i] = (xs.map φ).sum + φ x := by
  induction xs generalizing i with
  | nil => cases h
  | cons y ys ih =>
    cases i with
    | zero => simp only [List.set_cons_zero, List.map_cons, List.sum_cons, List.getElem_cons_zero]; omega
    | succ i =>
      have := ih i (Nat.lt_of_succ_lt_succ h)
      simp only [List.set_cons_succ, List.map_cons, List.sum_cons, List.getElem_cons_succ]
      omega

/-- A slot replaced changes the pool use by what it occupies more or less (R23). -/
theorem poolUse_set (s : State) (n : SlotId) (f : Slot) :
    poolUse (s.setFont n f).fonts + (s.font n).records.length = poolUse s.fonts + f.records.length := by
  have h := sum_map_set (fun f : Slot => f.records.length) s.fonts.toList n.val f (by simp)
  simpa [poolUse, State.setFont, State.font, Vector.toList_set] using h

/-- What one slot holds is among what the pool holds (R23). -/
theorem records_le_poolUse (s : State) (n : SlotId) : (s.font n).records.length ≤ poolUse s.fonts := by
  have h : s.font n ∈ s.fonts.toList := by simp [State.font]
  exact List.single_le_sum (by simp) _ (List.mem_map_of_mem (f := fun f : Slot => f.records.length) h)

/-! ### The law of the font store -/

theorem State.FontLaw.congr {s t : State} (h : s.FontLaw) (hf : t.fonts = s.fonts) : t.FontLaw := by
  unfold State.FontLaw State.font at *
  rwa [hf]

theorem State.FontLaw.setFont {s : State} (h : s.FontLaw) {n : SlotId} {f : Slot}
    (hl : Slot.Load (poolFree s.fonts) (s.font n) f) : (s.setFont n f).FontLaw := by
  obtain ⟨hslots, hpool⟩ := h
  constructor
  · intro m
    rw [State.font_setFont]
    split
    · exact hl.law (hslots n)
    · exact hslots m
  · have hset := poolUse_set s n f
    have hlen := hl.length_le (hslots n)
    simp only [poolFree, Config.poolPlaces] at hlen hpool ⊢
    omega

@[simp] theorem State.select_fonts (s : State) : s.select.fonts = s.fonts := s.selectDue_fonts

theorem State.Act.fontLaw {s t : State} (ha : s.Act t) (h : s.FontLaw) : t.FontLaw := by
  cases ha with
  | loads n f hl => exact h.setFont hl
  | raised f d => exact h.congr (State.raise_fonts s f d)
  | works g r => exact h.congr (State.commit_fonts s g r)
  | selected => exact h.congr s.select_fonts
  | notified | cleared | masked | resetTaken | sets | pageOpened | pageClosed | changes | lineEnded | cutEnded | failed | due =>
    exact h.congr rfl

theorem Slot.partReset_law {f : Slot} (h : f.Law) : f.partReset.Law := by
  unfold Slot.partReset
  split
  · exact h.provisional ‹_›
  · exact h

theorem State.FontLaw.partReset {s : State} (h : s.FontLaw) : s.partReset.FontLaw := by
  obtain ⟨hslots, hpool⟩ := h
  constructor
  · intro n
    have hn : s.partReset.font n = (s.font n).partReset := by simp [State.partReset, State.font]
    rw [hn]
    exact Slot.partReset_law (hslots n)
  · have hkeep (f : Slot) : f.partReset.records.length = f.records.length := by
      unfold Slot.partReset
      split <;> rfl
    have huse : poolUse s.partReset.fonts = poolUse s.fonts := by
      simp [poolUse, State.partReset, Vector.toList_map, Function.comp_def, hkeep]
    rwa [huse]

theorem State.reset_fontLaw : State.reset.FontLaw := by
  constructor
  · intro n
    have hn : State.reset.font n = Slot.empty := by simp [State.font, State.reset]
    rw [hn]
    exact Slot.empty_law
  · decide +kernel

theorem State.partLaw_fontLaw : State.PartLaw State.FontLaw where
  act _ _ ha h := ha.fontLaw h
  link _ _ h := h
  pending _ _ h := h
  partReset _ h := h.partReset
  powered _ _ _ := State.reset_fontLaw

end Sys2Proof.Machine
end

