-- ==== Sys2Proof/Proofs/LinkLaw.lean ====
section
/-! The law of the composing link (R158, R161): one reply and one notice of each flag wait at most, and a frame is held only behind a
reply. -/

namespace Sys2Proof.Machine

/-! ### Notices in the send queue (R161, R169) -/

theorem TxFrame.eq_notice_of_isNoticeOf {f : Flag} {x : TxFrame} (h : x.isNoticeOf f = true) : ∃ d, x = .notice f d := by
  cases x with
  | notice f' d =>
    obtain rfl : f' = f := by simpa [TxFrame.isNoticeOf] using h
    exact ⟨d, rfl⟩
  | reply | ready => cases h

/-- Placing a notice leaves the replies of the queue. -/
theorem filter_isReply_placeNotice (f : Flag) (d : EventData) (q : List TxFrame) :
    (placeNotice f d q).filter TxFrame.isReply = q.filter TxFrame.isReply := by
  induction q with
  | nil => rfl
  | cons x q ih =>
    unfold placeNotice
    split
    · obtain ⟨e, rfl⟩ := TxFrame.eq_notice_of_isNoticeOf ‹_›
      rfl
    · simp [List.filter_cons, ih]

/-- Placing a notice leaves the number of other flags' notices, and brings that of its own flag to one where there was none. -/
theorem length_filter_placeNotice (f f' : Flag) (d : EventData) (q : List TxFrame) :
    ((placeNotice f d q).filter (TxFrame.isNoticeOf f')).length
      = if f' = f then max 1 (q.filter (TxFrame.isNoticeOf f')).length else (q.filter (TxFrame.isNoticeOf f')).length := by
  induction q with
  | nil =>
    by_cases h : f = f'
    · simp [placeNotice, TxFrame.isNoticeOf, h]
    · simp [placeNotice, TxFrame.isNoticeOf, h, Ne.symm h]
  | cons x q ih =>
    unfold placeNotice
    cases hx : x.isNoticeOf f with
    | true =>
      obtain ⟨e, rfl⟩ := TxFrame.eq_notice_of_isNoticeOf hx
      by_cases h : f = f'
      · simp [TxFrame.isNoticeOf, h]
      · simp [TxFrame.isNoticeOf, h, Ne.symm h]
    | false =>
      by_cases h : f' = f
      · subst h
        simpa [List.filter_cons, hx] using ih
      · simp only [Bool.false_eq_true, if_false, List.filter_cons, h] at ih ⊢
        split <;> simp [ih]

/-! ### What acts leave of the link -/

/-- A link with notices placed: its replies and its held frame stay, and of no flag do two notices come to wait. -/
structure ComposingLink.Notified (l l' : ComposingLink) : Prop where
  held : l'.heldFrame = l.heldFrame
  replies : l'.sendQueue.filter TxFrame.isReply = l.sendQueue.filter TxFrame.isReply
  notices : ∀ f, (l.sendQueue.filter (TxFrame.isNoticeOf f)).length ≤ 1 → (l'.sendQueue.filter (TxFrame.isNoticeOf f)).length ≤ 1
  resetting : l.resetPending = true → l'.resetPending = true

theorem ComposingLink.Notified.refl (l : ComposingLink) : l.Notified l := ⟨rfl, rfl, fun _ h => h, id⟩

theorem ComposingLink.Notified.of_eq {l l' : ComposingLink} (h : l' = l) : l.Notified l' := h ▸ .refl l

theorem ComposingLink.Notified.trans {l l' l'' : ComposingLink} (h : l.Notified l') (h' : l'.Notified l'') : l.Notified l'' :=
  ⟨h'.held.trans h.held, h'.replies.trans h.replies, fun f hf => h'.notices f (h.notices f hf),
    fun hr => h'.resetting (h.resetting hr)⟩

theorem ComposingLink.Notified.place (l : ComposingLink) (f : Flag) (d : EventData) :
    l.Notified { l with sendQueue := placeNotice f d l.sendQueue } := by
  refine ⟨rfl, filter_isReply_placeNotice f d _, fun f' h => ?_, id⟩
  rw [length_filter_placeNotice]
  split <;> omega

theorem State.raise_notified (s : State) (f : Flag) (d : EventData) : s.link.Notified (s.raise f d).link := by
  obtain h | h := s.raise_link f d <;> rw [h]
  · exact .refl _
  · exact .place _ f d

theorem State.raiseAll_notified (s : State) (r : List (Flag × EventData)) : s.link.Notified (s.raiseAll r).link := by
  induction r generalizing s with
  | nil => exact .refl _
  | cons p r ih =>
    obtain ⟨f, d⟩ := p
    exact (s.raise_notified f d).trans (ih _)

@[simp] theorem State.select_link (s : State) : s.select.link = s.link := s.selectDue_link

theorem State.Act.notified_link {s t : State} (ha : s.Act t) : s.link.Notified t.link := by
  cases ha with
  | raised f d => exact s.raise_notified f d
  | notified f d => exact .place _ f d
  | works g r => exact State.raiseAll_notified (s.setGalley g r.gal) r.events
  | selected => exact .of_eq s.select_link
  | resetTaken => exact ⟨rfl, rfl, fun _ h => h, fun _ => rfl⟩
  | cleared | masked | sets | loads | pageOpened | pageClosed | changes | lineEnded | cutEnded | failed | due => exact .refl _

theorem State.Acts.notified_link {s t : State} (ha : s.Acts t) : s.link.Notified t.link := by
  induction ha with
  | refl => exact .refl _
  | tail _ h ih => exact ih.trans h.notified_link

/-! ### Frames taken, held and sent (R158, R161) -/

theorem ComposingLink.filter_isReply_of_canTake {l : ComposingLink} (h : l.canTake = true) :
    l.sendQueue.filter TxFrame.isReply = [] := by
  simp only [ComposingLink.canTake, Bool.and_eq_true, Bool.not_eq_true', List.any_eq_false] at h
  exact List.filter_eq_nil_iff.2 h.1

theorem ComposingLink.Law.held_eq_none {l : ComposingLink} (h : l.Law) (hc : l.canTake = true) : l.heldFrame = none := by
  obtain ⟨-, -, hheld⟩ := h
  cases hf : l.heldFrame with
  | none => rfl
  | some f => exact absurd (hheld (by simp [hf])) (by simp [hc])

theorem ComposingLink.canTake_eq_false_iff (l : ComposingLink) :
    l.canTake = false ↔ l.sendQueue.filter TxFrame.isReply ≠ [] ∨ l.resetPending = true := by
  rw [ComposingLink.canTake, Bool.and_eq_false_iff, Bool.not_eq_false', Bool.not_eq_false', List.any_eq_true, ne_eq,
    List.filter_eq_nil_iff]
  simp

/-- The acts of an event keep the law of the link. -/
theorem ComposingLink.Notified.law {l l' : ComposingLink} (hn : l.Notified l') (h : l.Law) : l'.Law := by
  obtain ⟨hreplies, hnotices, hheld⟩ := h
  refine ⟨by rwa [hn.replies], fun f => hn.notices f (hnotices f), fun hf => ?_⟩
  rw [hn.held] at hf
  have hc := hheld hf
  rw [ComposingLink.canTake_eq_false_iff] at hc ⊢
  rw [hn.replies]
  exact hc.imp_right hn.resetting

/-- A reply placed where none waited: the law holds behind it. -/
theorem Answer.place_linkLaw {l : ComposingLink} (a : Answer) (queued : Nat) (kind target : Byte) (hl : l.Law)
    (hc : l.canTake = true) (hn : l.Notified a.state.link) : (a.place queued kind target).link.Law := by
  have hreplies := hn.replies.trans (ComposingLink.filter_isReply_of_canTake hc)
  have hheld := hn.held.trans (hl.held_eq_none hc)
  have hfilter (p : TxFrame → Bool) :
      (a.place queued kind target).link.sendQueue.filter p
        = (a.state.link.sendQueue.take queued).filter p
          ++ (if p (.reply kind target a.result a.data) then [.reply kind target a.result a.data] else [])
          ++ (a.state.link.sendQueue.drop queued).filter p := by
    simp only [Answer.place, List.filter_append, List.filter_cons]
    split <;> simp
  obtain ⟨-, hnotices, -⟩ := hl
  refine ⟨?_, fun f => ?_, fun h => ?_⟩
  · have hlen := congrArg List.length hreplies
    rw [← List.take_append_drop queued a.state.link.sendQueue, List.filter_append, List.length_append] at hlen
    simp only [hfilter, TxFrame.isReply, if_true, List.length_append, List.length_singleton, List.length_nil] at hlen ⊢
    omega
  · have hlen := hn.notices f (hnotices f)
    rw [← List.take_append_drop queued a.state.link.sendQueue, List.filter_append, List.length_append] at hlen
    simpa [hfilter, TxFrame.isNoticeOf] using hlen
  · rw [show (a.place queued kind target).link.heldFrame = none from hheld] at h
    cases h

/-- A frame taken where it may be (R158): its reply comes to wait alone. -/
theorem State.takeFrame_linkLaw {s : State} (f : LinkFrame) (h : s.link.Law) (hc : s.link.canTake = true) :
    (s.takeFrame f).link.Law := by
  have placed (a : Answer) (ha : s.Acts a.state) (queued : Nat) (kind target : Byte) :
      (a.place queued kind target).link.Law := a.place_linkLaw queued kind target h hc ha.notified_link
  unfold State.takeFrame
  rw [State.noting_link]
  split
  · exact placed _ .refl _ _ _
  · split
    · exact placed _ (dispatch_acts s _ _ _) _ _ _
    · exact placed _ .refl _ _ _

theorem State.completeFrame_linkLaw {s : State} (f : LinkFrame) (h : s.link.Law) : (s.completeFrame f).link.Law := by
  unfold State.completeFrame
  dsimp only
  split
  · exact State.takeFrame_linkLaw f h ‹_›
  · obtain ⟨hreplies, hnotices, -⟩ := h
    exact ⟨hreplies, hnotices, fun _ => eq_false_of_ne_true ‹_›⟩

/-- A link with no two replies and no two notices of one flag waiting, behind the taking of its held frame (R158). -/
theorem State.takeHeldFrame_linkLaw {s : State} (hreplies : (s.link.sendQueue.filter TxFrame.isReply).length ≤ 1)
    (hnotices : ∀ f, (s.link.sendQueue.filter (TxFrame.isNoticeOf f)).length ≤ 1) : s.takeHeldFrame.link.Law := by
  unfold State.takeHeldFrame
  split
  · exact ⟨hreplies, hnotices, fun h => by simp_all⟩
  · split
    · exact State.takeFrame_linkLaw _ ⟨hreplies, hnotices, fun h => by cases h⟩ ‹_›
    · exact ⟨hreplies, hnotices, fun _ => eq_false_of_ne_true ‹_›⟩

theorem State.transmit_linkLaw {s : State} (h : s.link.Law) : s.transmit.link.Law := by
  unfold State.transmit
  split
  · exact h
  · split
    · exact h
    · rename_i x rest hq
      obtain ⟨hreplies, hnotices, -⟩ := h
      rw [hq] at hreplies
      simp only [hq] at hnotices
      have hle (p : TxFrame → Bool) : (rest.filter p).length ≤ ((x :: rest).filter p).length :=
        ((List.sublist_cons_self x rest).filter p).length_le
      exact State.takeHeldFrame_linkLaw ((hle _).trans hreplies) fun f => (hle _).trans (hnotices f)

theorem ComposingLink.reset_law (kind : ResetKind) : (ComposingLink.reset kind).Law := by
  refine ⟨by simp [ComposingLink.reset, TxFrame.isReply], fun f => ?_, fun h => ?_⟩
  · simp [ComposingLink.reset, TxFrame.isNoticeOf]
  · cases h

theorem ComposingLink.collect_law {l : ComposingLink} (b : Byte) (h : l.Law) : (l.collect b).1.Law := by
  unfold ComposingLink.collect
  split
  · split <;> exact h
  · dsimp only
    split <;> exact h

theorem exec_linkLaw {c : Instr} {s t : State} (h : s.link.Law) (he : exec c s = .next t) : t.link.Law := by
  obtain ha | ⟨f, rfl⟩ | ⟨b, rfl⟩ | rfl | rfl | ⟨early, rfl⟩ | rfl | rfl := exec_acts c s t he
  · exact ha.notified_link.law h
  · exact State.completeFrame_linkLaw f h
  · have hl := s.link.collect_law b h
    unfold State.linkByte
    split
    · rename_i hb
      rwa [hb] at hl
    · rename_i hb
      rw [hb] at hl
      exact State.completeFrame_linkLaw _ hl
  · exact State.transmit_linkLaw h
  · unfold State.resetEffect
    split
    · exact ComposingLink.reset_law .request
    · exact h
  · exact State.takeHeldFrame_linkLaw (by simp [TxFrame.isReply]) (by simp [TxFrame.isNoticeOf])
  · unfold ComposingLink.gapExpiry
    dsimp only
    split <;> exact h
  · exact h

end Sys2Proof.Machine
end

