-- ==== Sys2Proof/Proofs/DueLaw.lean ====
section
/-! The laws of the first QUERY (R177) and of the selection that is due (R134). -/

namespace Sys2Proof.Machine

/-! ### The first QUERY (R177) -/

@[simp] theorem UnitLink.ask_view (u : UnitLink) : u.ask.view = u.view := by
  unfold UnitLink.ask
  split <;> rfl

theorem UnitLink.ask_queryLaw {u : UnitLink} (h : u.QueryLaw) : u.ask.QueryLaw := by
  unfold UnitLink.ask
  split
  · exact h
  · rename_i hp
    exact fun hr => absurd hr hp

theorem UnitLink.Change.queryLaw {u u' : UnitLink} (hc : u.Change u') (h : u.QueryLaw) : u'.QueryLaw := by
  cases hc with
  | received => exact h
  | frameSent f rest hf =>
    intro hp
    obtain ⟨hmem, htimer⟩ := h hp
    have hsub : f :: rest <:+ u.transmit := hf ▸ List.dropWhile_suffix _
    exact ⟨fun hq => hmem (hsub.subset (List.mem_cons_of_mem _ hq)), htimer⟩
  | resumed => exact UnitLink.ask_queryLaw h
  | reported => exact fun hp => ⟨(h hp).1, rfl⟩
  | queried hq =>
    intro hp
    obtain ⟨-, htimer⟩ := h hp
    simp [htimer] at hq
  | queryOver => exact fun hp => ⟨(h hp).1, rfl⟩
  | pauseOver => intro hp; cases hp

/-- The frame of an order is no QUERY (R143, R144). -/
theorem UnitLink.send_queryLaw {u : UnitLink} (o : Order) {f : ExposureFrame} (hf : f ≠ .query) (h : u.QueryLaw) :
    (u.send o f).QueryLaw := by
  intro hp
  obtain ⟨hmem, htimer⟩ := h hp
  refine ⟨fun hq => ?_, htimer⟩
  obtain hq | hq := List.mem_append.1 hq
  · exact hmem hq
  · exact hf (List.mem_singleton.1 hq).symm

theorem State.select_queryLaw {s : State} (h : s.unit.QueryLaw) : s.select.unit.QueryLaw := by
  obtain he | ⟨-, -, he⟩ | ⟨-, -, g, l, -, -, he⟩ := s.select_cases <;> rw [he]
  · exact h
  · exact UnitLink.send_queryLaw _ (fun hf => by cases hf) h
  · exact UnitLink.send_queryLaw _ (fun hf => by cases hf) h

theorem State.Act.queryLaw {s t : State} (ha : s.Act t) (h : s.unit.QueryLaw) : t.unit.QueryLaw := by
  cases ha with
  | changes u hc => exact hc.queryLaw h
  | selected => exact State.select_queryLaw h
  | raised f d => rwa [State.raise_unit]
  | works g r => rwa [State.commit_unit]
  | lineEnded | cutEnded | failed => exact h
  | notified | cleared | masked | resetTaken | sets | loads | pageOpened | pageClosed | due => exact h

theorem UnitLink.reset_queryLaw : UnitLink.reset.QueryLaw := fun _ => ⟨by simp [UnitLink.reset], rfl⟩

theorem State.partLaw_queryLaw : State.PartLaw (fun s => s.unit.QueryLaw) where
  act _ _ ha h := ha.queryLaw h
  link _ _ h := h
  pending _ _ h := h
  partReset _ _ := UnitLink.reset_queryLaw
  powered _ _ _ := UnitLink.reset_queryLaw

/-! ### What a selection reads (R129, R131, R134) -/

theorem Galley.watched_eq_iff (x y : Galley) :
    x.watched = y.watched ↔ x.output = y.output ∧ x.frontier = y.frontier ∧ x.released = y.released ∧ x.state = y.state := by
  simp [Galley.watched]

theorem State.watched_eq_iff (s t : State) :
    t.watched = s.watched ↔
      t.unit.view = s.unit.view ∧ t.page.state = s.page.state ∧ ∀ g, (t.galley g).watched = (s.galley g).watched := by
  have hgalleys : t.galleys.toList.map Galley.watched = s.galleys.toList.map Galley.watched ↔
      ∀ g, (t.galley g).watched = (s.galley g).watched := by
    constructor
    · intro h g
      have := congrArg (·[g.val]?) h
      simpa [State.galley] using this
    · intro h
      apply List.ext_getElem
      · simp
      · intro i hi _
        simpa [State.galley] using h ⟨i, by simpa using hi⟩
  simp only [State.watched, Prod.mk.injEq, hgalleys]
  exact ⟨fun ⟨h1, h2, h3⟩ => ⟨h2, h3, h1⟩, fun ⟨h2, h3, h1⟩ => ⟨h1, h2, h3⟩⟩

/-- What a selection reads has changed exactly where the unit view, the page state or one of a galley's watched parts has. -/
theorem State.watched_ne_iff (s t : State) :
    t.watched ≠ s.watched ↔
      t.unit.view ≠ s.unit.view ∨ t.page.state ≠ s.page.state ∨
        ∃ g, (t.galley g).output ≠ (s.galley g).output ∨ (t.galley g).frontier ≠ (s.galley g).frontier ∨
          (t.galley g).released ≠ (s.galley g).released ∨ (t.galley g).state ≠ (s.galley g).state := by
  rw [ne_eq, State.watched_eq_iff, not_and_or, not_and_or, not_forall]
  simp only [Galley.watched_eq_iff, not_and_or, ne_eq]

/-- Whether a selection would issue an order: the cut of a CLOSING page, or a line of an OPEN one (R130 to R132, R137). -/
def State.Issues (s : State) : Prop :=
  s.unit.view.gateOpen = true ∧
    (s.page.state = .closing ∨
      s.page.state = .open ∧ ∃ g l, s.candidate = some (g, l) ∧ s.unrestrained l.depth = true)

/-- The gate is closed while an order is outstanding. -/
theorem UnitLink.send_gateOpen (u : UnitLink) (o : Order) (f : ExposureFrame) : (u.send o f).view.gateOpen = false := by
  simp [UnitLink.send, UnitView.gateOpen]

theorem State.select_of_gateOpen_false {s : State} (h : s.unit.view.gateOpen = false) : s.select = s := by
  simp [State.select, h]

/-- A selection leaves the part as it was exactly where it issues nothing: an order issued closes the gate. -/
theorem State.select_eq_self_iff (s : State) : s.select = s ↔ ¬s.Issues := by
  constructor
  · rintro h ⟨hgate, hpage⟩
    have hclosed : s.select.unit.view.gateOpen = false := by
      obtain hp | ⟨hp, g, l, hc, hu⟩ := hpage
      · rw [show s.select = s.issueCut by simp [State.select, hgate, hp]]
        exact UnitLink.send_gateOpen _ _ _
      · rw [show s.select = s.issueLine g l by simp [State.select, hgate, hp, hc, hu]]
        exact UnitLink.send_gateOpen _ _ _
    rw [h, hgate] at hclosed
    cases hclosed
  · intro h
    obtain he | ⟨hgate, hp, -⟩ | ⟨hgate, hp, g, l, hc, hu, -⟩ := s.select_cases
    · exact he
    · exact absurd ⟨hgate, .inl hp⟩ h
    · exact absurd ⟨hgate, .inr ⟨hp, g, l, hc, hu⟩⟩ h

theorem candidateOf_congr {s t : State} (h : ∀ g, (t.galley g).output = (s.galley g).output) (gs : List GalleyId) :
    candidateOf t gs = candidateOf s gs := by
  induction gs with
  | nil => rfl
  | cons g gs ih => simp only [candidateOf, h, ih]

/-- Whether a selection would issue an order follows from what it reads. -/
theorem State.Issues.congr {s t : State} (h : t.watched = s.watched) (ht : t.Issues) : s.Issues := by
  obtain ⟨hview, hpage, hgalleys⟩ := (State.watched_eq_iff s t).1 h
  simp only [Galley.watched_eq_iff] at hgalleys
  obtain ⟨hgate, hissue⟩ := ht
  refine ⟨hview ▸ hgate, hissue.imp (hpage ▸ ·) ?_⟩
  rintro ⟨hp, g, l, hc, hu⟩
  refine ⟨hpage ▸ hp, g, l, ?_, ?_⟩
  · rw [← hc]
    exact (candidateOf_congr (fun g => (hgalleys g).1) _).symm
  · rw [State.unrestrained_iff] at hu ⊢
    intro g hr ho
    obtain ⟨hout, hfrontier, hrel, hstate⟩ := hgalleys g
    rw [← hfrontier]
    exact hu g (by rwa [Galley.restraining, hstate, hrel]) (by rwa [hout])

/-! ### The selection that is due (R134) -/

/-- A selection is due behind an event where one was due before, or where the event changed what a selection reads. -/
def State.Noted (s t : State) : Prop := t.selectionDue = (s.selectionDue || decide (t.watched ≠ s.watched))

theorem State.Noted.of_same {s t : State} (h : t.watched = s.watched) (hd : t.selectionDue = s.selectionDue) : s.Noted t := by
  simp [State.Noted, h, hd]

theorem State.Noted.noting {s r : State} (t : State) (h : r.watched = s.watched) (hd : r.selectionDue = s.selectionDue) :
    s.Noted (r.noting t) := by
  rw [State.Noted, State.noting_selectionDue, State.noting_watched, h, hd]

theorem State.Noted.dueLaw {s t : State} (hn : s.Noted t) (h : s.DueLaw) : t.DueLaw := by
  intro hdue
  rw [hn, Bool.or_eq_false_iff, decide_eq_false_iff_not, not_not] at hdue
  obtain ⟨hquiet, hsame⟩ := hdue
  rw [State.select_eq_self_iff]
  exact fun hissues => (State.select_eq_self_iff s).1 (h hquiet) (hissues.congr hsame)

/-- An event whose parts change only what no selection reads, before it notes. -/
theorem State.Noted.after {s r t : State} (hn : r.Noted t) (h : r.watched = s.watched) (hd : r.selectionDue = s.selectionDue) :
    s.Noted t := by
  rw [State.Noted, hn, h, hd]

theorem completeFrame_noted (s : State) (f : LinkFrame) : s.Noted (s.completeFrame f) := by
  unfold State.completeFrame
  dsimp only
  split
  · exact .noting _ rfl rfl
  · exact .of_same rfl rfl

theorem linkByte_noted (s : State) (b : Byte) : s.Noted (s.linkByte b) := by
  unfold State.linkByte
  split
  · exact .of_same rfl rfl
  · exact (completeFrame_noted _ _).after rfl rfl

theorem takeHeldFrame_noted (s : State) : s.Noted s.takeHeldFrame := by
  unfold State.takeHeldFrame
  split
  · exact .of_same rfl rfl
  · split
    · exact .noting _ rfl rfl
    · exact .of_same rfl rfl

theorem transmit_noted (s : State) : s.Noted s.transmit := by
  unfold State.transmit
  split
  · exact .of_same rfl rfl
  · split
    · exact .of_same rfl rfl
    · exact (takeHeldFrame_noted _).after rfl rfl

theorem galleyProceeds_noted (s : State) (g : GalleyId) : s.Noted (galleyProceeds s g) := .noting _ rfl rfl

theorem consumeEvent_noted (s : State) (g : GalleyId) (want : Item → Bool) : s.Noted (consumeEvent s g want) := by
  unfold consumeEvent
  dsimp only
  split
  · exact .of_same rfl rfl
  · split
    · exact galleyProceeds_noted s g
    · exact .of_same rfl rfl

theorem tagMarkHalt_noted (s : State) (g : GalleyId) : s.Noted (tagMarkHalt s g) := by
  unfold tagMarkHalt
  dsimp only
  split
  · exact galleyProceeds_noted s g
  · exact .of_same rfl rfl

theorem queueEmpties_noted (s : State) (g : GalleyId) : s.Noted (queueEmpties s g) := by
  unfold queueEmpties
  dsimp only
  split
  · exact galleyProceeds_noted s g
  · exact .of_same rfl rfl

theorem drainEnd_noted (s : State) (g : GalleyId) : s.Noted (drainEnd s g) := by
  unfold drainEnd
  dsimp only
  split
  · exact galleyProceeds_noted s g
  · exact .of_same rfl rfl

theorem idleExpiry_noted (s : State) (g : GalleyId) : s.Noted (idleExpiry s g) := by
  unfold idleExpiry
  dsimp only
  split
  · exact .noting _ rfl rfl
  · exact .of_same rfl rfl

theorem silenceExpiry_noted (s : State) (n : SlotId) : s.Noted (silenceExpiry s n) := by
  unfold silenceExpiry
  dsimp only
  split
  · exact .of_same (by rw [State.raise_watched]; rfl) (by rw [State.raise_selectionDue]; rfl)
  · exact .of_same rfl rfl

theorem takeDone_noted (s : State) (n : Byte) : s.Noted (s.takeDone n) := by
  unfold State.takeDone
  split
  · exact .of_same rfl rfl
  · split
    · exact .noting _ rfl rfl
    · exact .of_same rfl rfl

theorem takeFault_noted (s : State) (n code : Byte) : s.Noted (s.takeFault n code) := by
  unfold State.takeFault
  split
  · exact .of_same rfl rfl
  · split
    · exact .noting _ rfl rfl
    · exact .of_same rfl rfl

theorem orderExpiry_noted (s : State) : s.Noted s.orderExpiry := by
  unfold State.orderExpiry
  split
  · exact .of_same rfl rfl
  · split
    · exact .noting _ rfl rfl
    · exact .of_same rfl rfl

theorem takeReport_noted (s : State) (r : Report) : s.Noted (s.takeReport r) := by
  cases r with
  | done n => exact takeDone_noted s n
  | fault n code => exact takeFault_noted s n code
  | ready | held => exact .noting _ rfl rfl

theorem exposureFrameDone_noted (s : State) (bytes : List Byte) : s.Noted (s.exposureFrameDone bytes) := by
  unfold State.exposureFrameDone
  split
  · exact .of_same rfl rfl
  · exact (takeReport_noted _ _).after rfl rfl

theorem exposureByte_noted (s : State) (b : Byte) : s.Noted (s.exposureByte b) := by
  unfold State.exposureByte
  split
  · split <;> exact .of_same rfl rfl
  · dsimp only
    split
    · exact exposureFrameDone_noted s _
    · exact .of_same rfl rfl

theorem frameSent_noted (s : State) : s.Noted s.frameSent := by
  unfold State.frameSent
  split <;> exact .of_same rfl rfl

theorem exposureGap_noted (s : State) : s.Noted s.exposureGap := by
  unfold State.exposureGap
  split <;> exact .of_same rfl rfl

theorem queryExpiry_noted (s : State) : s.Noted s.queryExpiry := by
  unfold State.queryExpiry
  split
  · split <;> exact .of_same rfl rfl
  · exact .of_same rfl rfl

theorem pauseEnds_noted (s : State) : s.Noted s.pauseEnds := by
  unfold State.pauseEnds
  split <;> exact .of_same rfl rfl

/-- Every command notes, but for SELECTION and the two resets (R134). -/
theorem exec_noted {c : Instr} {s t : State} (h : exec c s = .next t) (hsel : c ≠ .selection) (hreset : c ≠ .partResetEffect)
    (hpower : ∀ early, c ≠ .powerOn early) : s.Noted t := by
  cases c <;> cases h
  case powerOn early => exact absurd rfl (hpower early)
  case partResetEffect => exact absurd rfl hreset
  case selection => exact absurd rfl hsel
  case transmitStart => exact transmit_noted s
  case gapTimerExpiry | breakCondition => exact .of_same rfl rfl
  case byteCollected b => exact linkByte_noted s b
  case silenceTimerExpiry n => exact silenceExpiry_noted s n
  case idleTimerExpiry g => exact idleExpiry_noted s g
  case tagMarkHalt g => exact tagMarkHalt_noted s g
  case queueEmpties g => exact queueEmpties_noted s g
  case drainEnd g => exact drainEnd_noted s g
  case orderFrameSent => exact frameSent_noted s
  case exposureGapExpiry => exact exposureGap_noted s
  case exposureFrameDiscard bytes => exact exposureFrameDone_noted s bytes
  case doneReport n => exact (takeDone_noted _ n).after rfl rfl
  case faultReport n code => exact (takeFault_noted _ n code).after rfl rfl
  case orderTimeout => exact orderExpiry_noted s
  case stateReady => exact (takeReport_noted _ .ready).after rfl rfl
  case stateHeld => exact (takeReport_noted _ .held).after rfl rfl
  case queryTimerExpiry => exact queryExpiry_noted s
  case queryAfterReset => exact pauseEnds_noted s
  case exposureByteCollected b => exact exposureByte_noted s b
  case char g | space g | fixed g | para g | fontN g | size g | track g | shift g | dirLtr g | dirRtl g | disc g =>
    exact consumeEvent_noted s g _
  all_goals exact completeFrame_noted s _

/-- Behind a selection none would issue anything: it has issued an order, or it found nothing to issue. -/
theorem State.selectDue_dueLaw (s : State) : s.selectDue.DueLaw := by
  intro _
  obtain he | ⟨-, -, he⟩ | ⟨-, -, g, l, -, -, he⟩ := s.select_cases
  · rw [State.select_eq_self_iff]
    have hsame : s.selectDue.watched = s.watched := by
      rw [State.selectDue, he]
      rfl
    exact fun hissues => (State.select_eq_self_iff s).1 he (hissues.congr hsame)
  · exact State.select_of_gateOpen_false (by rw [State.selectDue, he]; exact UnitLink.send_gateOpen _ _ _)
  · exact State.select_of_gateOpen_false (by rw [State.selectDue, he]; exact UnitLink.send_gateOpen _ _ _)

theorem State.dueLaw_of_gateOpen_false {s : State} (h : s.unit.view.gateOpen = false) : s.DueLaw :=
  fun _ => State.select_of_gateOpen_false h

theorem exec_dueLaw {c : Instr} {s t : State} (h : s.DueLaw) (he : exec c s = .next t) : t.DueLaw := by
  by_cases hsel : c = .selection
  · subst hsel
    cases he
    exact s.selectDue_dueLaw
  by_cases hreset : c = .partResetEffect
  · subst hreset
    cases he
    unfold State.resetEffect
    split
    · exact State.dueLaw_of_gateOpen_false rfl
    · exact h
  by_cases hpower : ∃ early, c = .powerOn early
  · obtain ⟨early, rfl⟩ := hpower
    cases he
    exact (takeHeldFrame_noted _).dueLaw (State.dueLaw_of_gateOpen_false rfl)
  · exact (exec_noted he hsel hreset fun early hc => hpower ⟨early, hc⟩).dueLaw h

/-! ### Every step -/

theorem step_linkLaw {s t : State} (hs : s.link.Law) (h : step s = .next t) : t.link.Law :=
  step_keeps_of_exec (P := fun s => s.link.Law) (fun _ _ _ => exec_linkLaw) (fun _ _ h => h) hs h

theorem step_dueLaw {s t : State} (hs : s.DueLaw) (h : step s = .next t) : t.DueLaw :=
  step_keeps_of_exec (fun _ _ _ => exec_dueLaw)
    (fun s _ h => State.Noted.dueLaw (s := s) (.of_same rfl rfl) h) hs h

/-- Settles O58: the acts keep the font store's law and the QUERY's, one reply at most is placed at a time, and each command notes what it
changes. -/
theorem fontStoreLinkAndSelectionLawsAreKept : Obligations.FontStoreLinkAndSelectionLawsAreKept := by
  refine ⟨fun s t hs h => State.partLaw_fontLaw.step hs h, fun s t hs h => step_linkLaw hs h,
    fun s t hs h => State.partLaw_queryLaw.step hs h, fun s t hs h => step_dueLaw hs h, ?_⟩
  intro c s t hsel hreset hpower h
  have hnoted := exec_noted h hsel hreset hpower
  rw [hnoted, Bool.or_eq_true, decide_eq_true_iff, State.watched_ne_iff]

end Sys2Proof.Machine
end

