-- ==== Sys2Proof/Proofs/Work.lean ====
section
/-! A galley's controller at work (4.4 to 4.7): its halts, line starts, line closes and consumptions keep the laws of its galley, and raise
events whose data is of their kind. -/

namespace Sys2Proof.Machine

/-! ### The laws of a galley on its page -/

/-- The current values lie in their ranges (R3, R50, R57). -/
def Galley.InRange (x : Galley) : Prop :=
  16 ≤ x.size ∧ x.size ≤ 576 ∧ -32 ≤ x.track ∧ x.track ≤ 31 ∧ -1200 ≤ x.shift ∧ x.shift ≤ 1200

/-- The laws of a galley that do not read its state, on a page of a depth with H at `high`. -/
structure Galley.Kept (depth high : Nat) (x : Galley) : Prop where
  latch : x.LatchLaw
  queue : x.QueueLaw
  fill : x.fill ≤ Config.storyCapacity
  values : x.InRange
  timer : x.idleTimer = true → x.interval ≠ 0 ∧ x.released = false
  lines : ∀ l ∈ x.closedLines, l.depth ≤ depth
  line : ∀ d ∈ x.builder.lineDepth, d ≤ depth
  band : x.released = false → high ≤ x.frontier + Config.reverseAllowance

/-- The laws of a galley but those of its builder, and what the laws of restraint and of the page's depth say of it. -/
structure Galley.Stands (depth high : Nat) (x : Galley) : Prop where
  halt : x.HaltLaw
  states : x.StateLaw
  latch : x.LatchLaw
  queue : x.QueueLaw
  value : x.ValueLaw
  timer : x.TimerLaw
  lines : ∀ l ∈ x.closedLines, l.depth ≤ depth
  line : ∀ d ∈ x.builder.lineDepth, d ≤ depth
  band : x.restraining = true → high ≤ x.frontier + Config.reverseAllowance

theorem GalleyState.ne_off_of_mayRestrain {st : GalleyState} (h : st.mayRestrain = true) : st ≠ .off := by
  rintro rfl
  cases h

theorem Galley.Stands.kept {depth high : Nat} {x : Galley} (h : x.Stands depth high) (hst : x.state.mayRestrain = true) :
    x.Kept depth high where
  latch := h.latch
  queue := h.queue
  fill := h.value.1
  values := h.value.2 (GalleyState.ne_off_of_mayRestrain hst)
  timer hi := ⟨(h.timer hi).1, (h.timer hi).2.2⟩
  lines := h.lines
  line := h.line
  band hr := h.band (by simp [Galley.restraining, hst, hr])

theorem Galley.Kept.stands {depth high : Nat} {x : Galley} (h : x.Kept depth high) (hhalt : x.HaltLaw) (hstates : x.StateLaw)
    (hoff : x.state ≠ .off) : x.Stands depth high where
  halt := hhalt
  states := hstates
  latch := h.latch
  queue := h.queue
  value := ⟨h.fill, fun _ => h.values⟩
  timer hi := ⟨(h.timer hi).1, hoff, (h.timer hi).2⟩
  lines := h.lines
  line := h.line
  band hr := h.band (by simpa [Galley.restraining] using (Bool.and_eq_true_iff.1 hr).2)

/-- The next line lies no higher than the line closed last (R60). -/
theorem Galley.lastDepth_le_nextDepth (x : Galley) : x.lastDepth.getD x.topDepth ≤ x.nextDepth := by
  unfold Galley.nextDepth
  split <;> simp_all

theorem Galley.frontier_of_unstarted {x : Galley} (h : x.builder.lineDepth = none) : x.frontier = x.nextDepth := by
  simp [Galley.frontier, h]

theorem Galley.frontier_of_lineDepth {x : Galley} {d : Nat} (h : x.builder.lineDepth = some d) : x.frontier = d := by
  simp [Galley.frontier, h]

theorem Galley.exists_lineDepth {x : Galley} (h : x.started = true) : ∃ d, x.builder.lineDepth = some d :=
  Option.isSome_iff_exists.1 h

theorem Galley.lineDepth_of_unstarted {x : Galley} (h : x.started = false) : x.builder.lineDepth = none := by
  simpa [Galley.started] using h

/-- No line that is closed lies below the frontier (R127, R62). -/
theorem Galley.QueueLaw.depth_le_frontier {x : Galley} (h : x.QueueLaw) {l : LineRecord} (hl : l ∈ x.closedLines) :
    l.depth ≤ x.frontier := by
  obtain ⟨-, -, hlines⟩ := h
  obtain ⟨hlast, hline⟩ := hlines l hl
  cases hd : x.builder.lineDepth with
  | none =>
    rw [Galley.frontier_of_unstarted hd]
    exact hlast.trans x.lastDepth_le_nextDepth
  | some d =>
    rw [Galley.frontier_of_lineDepth hd]
    exact hline d hd

/-! ### A galley within an event -/

/-- The states of a galley that is at work: it goes on, or has stopped. -/
def GalleyState.working : GalleyState → Bool
  | .setting | .draining | .halted | .blocked => true
  | _ => false

theorem GalleyState.mayRestrain_of_working {st : GalleyState} (h : st.working = true) : st.mayRestrain = true := by
  cases st <;> simp [GalleyState.working, GalleyState.mayRestrain] at h ⊢

/-- What a galley's work keeps at each of its points, `x` being the galley the work began with. -/
structure Run.Sound (c : Ctx) (high : Nat) (x : Galley) (r : Run) : Prop where
  kept : r.gal.Kept c.pageDepth high
  halt : r.gal.HaltLaw
  working : r.gal.state.working = true
  blocked : r.gal.state = .blocked → r.gal.held.isSome = true
  held : r.gal.held.isSome = true → r.gal.state = .blocked ∨ r.gal.state = .halted
  going : r.stopped = false → r.gal.held = none ∧ r.gal.state = x.state
  events : ∀ p ∈ r.events, p.1.holds p.2 = true
  grown : r.gal.output = [] → x.output = []

/-- What a galley's work leaves. -/
structure Run.Settled (c : Ctx) (high : Nat) (x : Galley) (r : Run) : Prop where
  stands : r.gal.Stands c.pageDepth high
  events : ∀ p ∈ r.events, p.1.holds p.2 = true
  grown : r.gal.output = [] → x.output = []

/-- What each state of a galley at work holds (R56). -/
theorem Galley.stateLaw_of_working {x : Galley} (hw : x.state.working = true) (hb : x.state = .blocked → x.held.isSome = true)
    (hh : x.held.isSome = true → x.state = .blocked ∨ x.state = .halted) : x.StateLaw := by
  refine ⟨fun h => ?_, fun h => ?_, hb, hh, fun h => ?_, fun h => ?_, fun h => ?_⟩
  · rw [h] at hw; cases hw
  · rw [h] at hw; cases hw
  · obtain h | h := h <;> rw [h] at hw <;> cases hw
  · rw [h] at hw; cases hw
  · rw [h] at hw; cases hw

theorem Run.Sound.settled {c : Ctx} {high : Nat} {x : Galley} {r : Run} (h : r.Sound c high x) : r.Settled c high x where
  stands := h.kept.stands h.halt (Galley.stateLaw_of_working h.working h.blocked h.held)
    (GalleyState.ne_off_of_mayRestrain (GalleyState.mayRestrain_of_working h.working))
  events := h.events
  grown := h.grown

section Work

variable {c : Ctx} {high : Nat} {x : Galley} {r : Run}

/-! ### Halts, exceptions and line starts (R60, R65, R79) -/

/-- A galley halted for a cause other than BEHIND. -/
theorem Galley.haltLaw_haltedWith (y : Galley) {cause : HaltCause} (h : cause = .behind → y.released = true) :
    (y.haltedWith cause).HaltLaw := by
  refine ⟨by simp [Galley.haltedWith], by simp [Galley.haltedWith], fun hc => h ?_⟩
  exact Option.some.inj hc

theorem Run.Sound.halts (h : r.Sound c high x) {cause : HaltCause} (hc : cause ≠ .behind) : (r.halt c cause).Sound c high x where
  kept := { h.kept with }
  halt := Galley.haltLaw_haltedWith _ fun hb => absurd hb hc
  working := rfl
  blocked hb := by cases hb
  held _ := .inr rfl
  going hs := by cases hs
  events p hp := by
    obtain hp | hp := List.mem_append.1 hp
    · exact h.events p hp
    · rw [List.mem_singleton.1 hp]
      rfl
  grown := h.grown

/-- A line given to its galley touches the latch, its count and the events alone. -/
theorem Run.giveException_eq (c : Ctx) (r : Run) (l : LineRecord) :
    ∃ latch count events, r.giveException c l
        = { r with gal := { r.gal with latch := latch, excCount := count }, events := r.events ++ events } ∧
      (r.gal.LatchLaw → ({ r.gal with latch := latch, excCount := count } : Galley).LatchLaw) ∧
      ∀ p ∈ events, p.1.holds p.2 = true := by
  obtain ⟨-, h⟩ | ⟨-, hl, h⟩ | ⟨-, ⟨e, hl⟩, h⟩ := r.giveException_cases c l
  · exact ⟨r.gal.latch, r.gal.excCount, [], by rw [h, List.append_nil], id, by simp⟩
  · exact ⟨_, _, _, h, fun hlaw => ⟨hlaw.1, fun hn => by cases hn⟩, fun p hp => by rw [List.mem_singleton.1 hp]; rfl⟩
  · refine ⟨r.gal.latch, _, [], by rw [h, List.append_nil], fun _ => ⟨Nat.min_le_right _ _, fun hn => ?_⟩, by simp⟩
    rw [show r.gal.latch = none from hn] at hl
    cases hl

theorem Run.Sound.giveException (h : r.Sound c high x) (l : LineRecord) : (r.giveException c l).Sound c high x := by
  obtain ⟨latch, count, events, he, hlatch, hevents⟩ := r.giveException_eq c l
  rw [he]
  exact
    { kept := { h.kept with latch := hlatch h.kept.latch }
      halt := h.halt
      working := h.working
      blocked := h.blocked
      held := h.held
      going := h.going
      events := fun p hp => (List.mem_append.1 hp).elim (h.events p) (hevents p)
      grown := h.grown }

/-- A line start on the page: the line is fixed at the frontier (R60, R62). -/
theorem Run.Sound.starts (h : r.Sound c high x) {y : Galley} {byPara : Bool} (hs : r.gal.started = false)
    (hy : startLine c r.gal byPara = some y) : ({ r with gal := y } : Run).Sound c high x := by
  have hdepth : r.gal.nextDepth ≤ c.pageDepth := by
    by_contra hlt
    rw [(startLine_none c r.gal byPara).2 (Nat.lt_of_not_le hlt)] at hy
    cases hy
  obtain ⟨clampPending, clampMark, rfl⟩ := startLine_eq_some hy
  have hk := h.kept
  obtain ⟨hlen, hsorted, hlines⟩ := hk.queue
  have hfrontier := Galley.frontier_of_unstarted (Galley.lineDepth_of_unstarted hs)
  exact
    { kept :=
        { hk with
          queue := ⟨hlen, hsorted, fun l hl => ⟨(hlines l hl).1, fun d hd => by
            rw [← Option.mem_some_iff.1 hd]
            exact (hlines l hl).1.trans r.gal.lastDepth_le_nextDepth⟩⟩
          line := fun d hd => by rwa [← Option.mem_some_iff.1 hd]
          band := fun hr => hfrontier ▸ hk.band hr }
      halt := h.halt
      working := h.working
      blocked := h.blocked
      held := h.held
      going := h.going
      events := h.events
      grown := h.grown }

/-! ### Items that change values or entries (R48 to R53, R84) -/

/-- A galley with other current values in their ranges, another direction state, and a builder whose line stands where it stood. -/
inductive Galley.Tuned (y : Galley) : Galley → Prop where
  | mk (slot : SlotId) (size : Nat) (track shift : Int) (direction : Dir) (nextDirection : Option Dir)
      (hasEntries clampPending : Bool) (mark : StopMark) (builder : Builder) (hb : builder.lineDepth = y.builder.lineDepth)
      (hv : y.InRange → 16 ≤ size ∧ size ≤ 576 ∧ -32 ≤ track ∧ track ≤ 31 ∧ -1200 ≤ shift ∧ shift ≤ 1200) :
      Tuned y { y with
        slot := slot, size := size, track := track, shift := shift, direction := direction, nextDirection := nextDirection
        hasEntries := hasEntries, clampPending := clampPending, mark := mark, builder := builder }

theorem Galley.Kept.tuned {depth : Nat} {y z : Galley} (h : y.Kept depth high) (ht : y.Tuned z) : z.Kept depth high := by
  obtain ⟨slot, size, track, shift, direction, nextDirection, hasEntries, clampPending, mark, builder, hb, hv⟩ := ht
  obtain ⟨hlen, hsorted, hlines⟩ := h.queue
  refine { h with queue := ⟨hlen, hsorted, ?_⟩, values := hv h.values, line := ?_, band := ?_ }
  · dsimp only
    rw [hb]
    exact hlines
  · dsimp only
    rw [hb]
    exact h.line
  · have hf : Galley.frontier { y with
        slot := slot, size := size, track := track, shift := shift, direction := direction, nextDirection := nextDirection
        hasEntries := hasEntries, clampPending := clampPending, mark := mark, builder := builder } = y.frontier := by
      simp only [Galley.frontier, hb]
      rfl
    rw [hf]
    exact h.band

theorem Run.Sound.tuned (h : r.Sound c high x) {y : Galley} (ht : r.gal.Tuned y) : ({ r with gal := y } : Run).Sound c high x := by
  have hk := h.kept.tuned ht
  obtain ⟨slot, size, track, shift, direction, nextDirection, hasEntries, clampPending, mark, builder, -, -⟩ := ht
  exact { h with kept := hk }

/-- A galley past its front item (R48). -/
theorem Galley.fill_take_le (y : Galley) : y.take.fill ≤ y.fill := by
  unfold Galley.fill storyUnits Galley.take
  cases y.story with
  | nil => exact Nat.le_refl _
  | cons i rest => simp

theorem Run.Sound.takes (h : r.Sound c high x) {y : Galley} (ht : r.gal.Tuned y) : (r.take y).Sound c high x :=
  have hy := h.tuned ht
  { hy with kept := { hy.kept with fill := y.fill_take_le.trans hy.kept.fill } }

/-! ### Line close (R61, R100) -/

/-- A line close, before its record goes anywhere (R61, R100 step 6). -/
theorem Galley.afterClose_eq (y : Galley) (carry : List Entry) (opps : List Opp) :
    y.afterClose carry opps =
      { y with
        lineNumber := y.lineNumber + 1
        lastDepth := some (y.builder.lineDepth.getD y.nextDepth)
        builder := carryBuilder carry opps
        idleTimer := if y.released then y.idleTimer else y.timerStarted } := rfl

/-- The line number and the depth advance, and the carry stays without a started line (R61). -/
theorem Run.Sound.advances (h : r.Sound c high x) (hs : r.gal.started = true) (carry : List Entry) (opps : List Opp)
    (mark : StopMark) (clampPending : Bool) :
    ({ r with gal := { r.gal.afterClose carry opps with mark := mark, clampPending := clampPending } } : Run).Sound c high x := by
  obtain ⟨d, hd⟩ := Galley.exists_lineDepth hs
  have hk := h.kept
  obtain ⟨hlen, hsorted, hlines⟩ := hk.queue
  have hlast : r.gal.builder.lineDepth.getD r.gal.nextDepth = d := by rw [hd]; rfl
  refine
    { kept := { hk with queue := ⟨hlen, hsorted, fun l hl => ⟨?_, ?_⟩⟩, timer := ?_, line := ?_, band := ?_ }
      halt := h.halt, working := h.working, blocked := h.blocked, held := h.held, going := h.going, events := h.events
      grown := h.grown }
  · simp only [Galley.afterClose, Galley.retrigger, Option.getD_some, hlast]
    exact (hlines l hl).2 d hd
  · intro d' hd'
    cases hd'
  · intro hi
    rw [Galley.afterClose_eq] at hi ⊢
    cases hr : r.gal.released with
    | true =>
      have hidle : r.gal.idleTimer = true := by simpa [hr] using hi
      exact absurd (hk.timer hidle).2 (by simp [hr])
    | false =>
      have hint : r.gal.timerStarted = true := by simpa [hr] using hi
      exact ⟨of_decide_eq_true hint, rfl⟩
  · intro d' hd'
    cases hd'
  · intro hr
    have hold := hk.band hr
    rw [Galley.frontier_of_lineDepth hd] at hold
    rw [Galley.afterClose_eq, Galley.frontier_of_unstarted rfl]
    refine hold.trans (Nat.add_le_add_right ?_ _)
    refine Nat.le_trans (Nat.le_of_eq ?_) (Galley.lastDepth_le_nextDepth _)
    exact hlast.symm

/-- The lines of a galley with a line closed behind them, at the depth of the line closed last. -/
theorem Galley.QueueLaw.closed {y : Galley} (h : y.QueueLaw) (hheld : y.held = none) {l : LineRecord}
    (hlast : y.lastDepth = some l.depth) :
    ((y.output ++ [l]).map LineRecord.depth).Pairwise (· ≤ ·) ∧ ∀ l' ∈ y.output ++ [l], l'.depth ≤ l.depth := by
  have hclosed : y.closedLines = y.output := by simp [Galley.closedLines, hheld]
  obtain ⟨-, hsorted, hlines⟩ := h
  rw [hclosed] at hsorted hlines
  have hle : ∀ l' ∈ y.output, l'.depth ≤ l.depth := fun l' hl' => by simpa [hlast] using (hlines l' hl').1
  refine ⟨?_, fun l' hl' => ?_⟩
  · rw [List.map_append, List.pairwise_append]
    refine ⟨hsorted, List.pairwise_singleton _ _, ?_⟩
    simpa using hle
  · obtain hl' | hl' := List.mem_append.1 hl'
    · exact hle l' hl'
    · rw [List.mem_singleton.1 hl']

/-- A closed line joins the output queue (R61). -/
theorem Run.Sound.queues (h : r.Sound c high x) (hgo : r.stopped = false) {l : LineRecord} (hd : r.gal.builder.lineDepth = none)
    (hlast : r.gal.lastDepth = some l.depth) (hpage : l.depth ≤ c.pageDepth)
    (hroom : r.gal.output.length < Config.outputCapacity) :
    ({ r with gal := { r.gal with output := r.gal.output ++ [l] } } : Run).Sound c high x := by
  obtain ⟨hheld, -⟩ := h.going hgo
  obtain ⟨hsorted, hle⟩ := h.kept.queue.closed hheld hlast
  have hclosed : ({ r.gal with output := r.gal.output ++ [l] } : Galley).closedLines = r.gal.output ++ [l] := by
    simp [Galley.closedLines, hheld]
  refine { h with kept := { h.kept with queue := ⟨?_, ?_, fun l' hl' => ⟨?_, ?_⟩⟩, lines := ?_ }, grown := ?_ }
  · simpa using hroom
  · rwa [hclosed]
  · rw [hclosed] at hl'
    simpa [hlast] using hle l' hl'
  · intro d' hd'
    rw [hd] at hd'
    cases hd'
  · intro l' hl'
    rw [hclosed] at hl'
    exact (hle l' hl').trans hpage
  · intro hnil
    simp at hnil

/-- A closed line stays with its galley where the output queue is full: the galley is BLOCKED (R61). -/
theorem Run.Sound.holds (h : r.Sound c high x) (hgo : r.stopped = false) {l : LineRecord} (hd : r.gal.builder.lineDepth = none)
    (hlast : r.gal.lastDepth = some l.depth) (hpage : l.depth ≤ c.pageDepth) (n : Nat) (deferred : Option Deferred) :
    ({ r with
        gal := { r.gal with held := some { record := l, entries := n }, state := .blocked, cause := none, deferred := deferred }
        stopped := true } : Run).Sound c high x := by
  obtain ⟨hheld, -⟩ := h.going hgo
  obtain ⟨hsorted, hle⟩ := h.kept.queue.closed hheld hlast
  refine
    { kept := { h.kept with queue := ⟨h.kept.queue.1, hsorted, fun l' hl' => ⟨?_, ?_⟩⟩, lines := ?_ }
      halt := ⟨by simp, fun _ => rfl, fun hc => by cases hc⟩
      working := rfl
      blocked := fun _ => rfl
      held := fun _ => .inl rfl
      going := fun hs => by cases hs
      events := h.events
      grown := h.grown }
  · simpa [hlast] using hle l' hl'
  · intro d' hd'
    rw [hd] at hd'
    cases hd'
  · exact fun l' hl' => (hle l' hl').trans hpage

/-- The close of a started line (R61, R70, R100). -/
theorem Run.Sound.closes (h : r.Sound c high x) (hgo : r.stopped = false) (hs : r.gal.started = true) (entries : List Entry)
    (forced wide last : Bool) (carry : List Entry) (opps : List Opp) :
    (closeLine c r entries forced wide last carry opps).Sound c high x := by
  obtain ⟨d, hd⟩ := Galley.exists_lineDepth hs
  have hpage : d ≤ c.pageDepth := h.kept.line d hd
  have hlast : r.gal.builder.lineDepth.getD r.gal.nextDepth = d := by rw [hd]; rfl
  have halted (acts : Bool) (q : Run) (hq : q.Sound c high x) : (if acts then q.halt c .mark else q).Sound c high x := by
    split
    · exact hq.halts (by simp)
    · exact hq
  unfold closeLine
  dsimp only
  generalize hacts : r.gal.mark.acts (r.gal.afterClose carry opps).builder.entries = acts
  obtain ⟨mark, hmark⟩ : ∃ mark,
      (if acts then
        { r.gal.afterClose carry opps with mark := { (r.gal.afterClose carry opps).mark with state := .disarmed } }
      else r.gal.afterClose carry opps) = { r.gal.afterClose carry opps with mark := mark } := by
    split
    · exact ⟨_, rfl⟩
    · exact ⟨_, rfl⟩
  rw [hmark]
  split
  · exact halted _ _ (h.advances hs carry opps mark _)
  · generalize hrecord : closeRecord c.id r.gal.lineNumber _ = record
    have hdepth : record.depth = d := by rw [← hrecord]; exact hlast
    have hq := (h.advances hs carry opps mark (r.gal.afterClose carry opps).clampPending).giveException record
    obtain ⟨latch, count, events, he, -, -⟩ :=
      Run.giveException_eq c { r with gal := { r.gal.afterClose carry opps with mark := mark } } record
    replace hq : (Run.giveException c { r with gal := { r.gal.afterClose carry opps with mark := mark } } record).Sound c high x := hq
    rw [he] at hq ⊢
    have hlastDepth : (some (r.gal.builder.lineDepth.getD r.gal.nextDepth)) = some record.depth := by rw [hlast, hdepth]
    split
    · exact halted _ _ (hq.queues hgo rfl hlastDepth (hdepth ▸ hpage) ‹_›)
    · exact hq.holds hgo rfl hlastDepth (hdepth ▸ hpage) _ _

theorem Run.Sound.closesFull (h : r.Sound c high x) (hgo : r.stopped = false) (hs : r.gal.started = true) (incoming : Nat) :
    (closeFull c r incoming).Sound c high x := by
  obtain ⟨k, forced, -, he⟩ | ⟨wide, he⟩ := closeFull_cases c r incoming <;> rw [he]
  · exact h.closes hgo hs _ _ _ _ _ _
  · exact h.closes hgo hs _ _ _ _ _ _

/-! ### The chain of closes and starts (R95, R102) -/

theorem Galley.started_of_not_fits {y : Galley} (h : y.fits = false) : y.started = true := by
  cases hs : y.started with
  | true => rfl
  | false => simp [Galley.fits, hs] at h

theorem Run.Sound.fitChain (h : r.Sound c high x) (n : Nat) : (Machine.fitChain c n r).Sound c high x := by
  induction n generalizing r with
  | zero => exact h
  | succ n ih =>
    unfold Machine.fitChain
    split
    · exact h
    · rename_i hgo
      obtain ⟨hgo, hfits⟩ := Bool.or_eq_false_iff.1 (eq_false_of_ne_true hgo)
      have hclosed := h.closesFull hgo (Galley.started_of_not_fits hfits) 0
      dsimp only
      split
      · exact hclosed
      · split
        · exact hclosed.halts (by simp)
        · rename_i y hy
          have hunstarted : (closeFull c r 0).gal.started = false := by
            simp [Galley.started, closeFull_unstarted]
          exact ih (hclosed.starts hunstarted hy)

theorem Run.Sound.startCarry (h : r.Sound c high x) : (Machine.startCarry c r).Sound c high x := by
  unfold Machine.startCarry
  split
  · exact h
  · rename_i hcarry
    obtain ⟨-, hcarry⟩ := Bool.or_eq_false_iff.1 (eq_false_of_ne_true hcarry)
    have hunstarted : r.gal.started = false := by
      simp only [Galley.hasCarry, Bool.not_eq_false', Bool.and_eq_true, Bool.not_eq_true'] at hcarry
      exact hcarry.1
    split
    · exact h.halts (by simp)
    · exact (h.starts hunstarted ‹_›).fitChain _

theorem Run.Sound.endCourse (h : r.Sound c high x) (limited : Bool) : (Machine.endCourse c r limited).Sound c high x := by
  unfold Machine.endCourse
  split
  · exact h.startCarry
  · exact h.fitChain _

/-- A line found or started for an item (R84 step 2). -/
theorem Run.Sound.needsLine (h : r.Sound c high x) {y : Galley} {byPara : Bool} (hy : needLine c r.gal byPara = some y) :
    ({ r with gal := y } : Run).Sound c high x ∧ y.started = true := by
  obtain ⟨hs, rfl⟩ | ⟨hs, hy⟩ := needLine_eq_some hy
  · exact ⟨h, hs⟩
  · exact ⟨h.starts hs hy, startLine_started hy⟩

/-- The entry limit closes a started line (R103). -/
theorem Run.Sound.limitClose (h : r.Sound c high x) (hgo : r.stopped = false) (n : Nat)
    (hs : 160 < r.gal.builder.entries.length + n → r.gal.started = true) : (Machine.limitClose c r n).1.Sound c high x := by
  unfold Machine.limitClose
  split
  · exact h.closesFull hgo (hs ‹_›) n
  · exact h

/-! ### The consumption of an item (R48) -/

/-- A builder with other content for the line that stands. -/
theorem Galley.Tuned.builds (y : Galley) {b : Builder} (hasEntries : Bool) (hb : b.lineDepth = y.builder.lineDepth) :
    y.Tuned { y with builder := b, hasEntries := hasEntries } :=
  .mk _ _ _ _ _ _ _ _ _ _ hb id

/-- The course of an item behind its lookup: a line is found or started, closed first where it is full, and takes the item's entry (R84). -/
theorem Run.Sound.enters (h : r.Sound c high x) (hgo : r.stopped = false) {y : Galley} (hy : needLine c r.gal false = some y)
    (n : Nat) (b : Galley → Builder) (made : Galley → Bool) (hb : ∀ z, (b z).lineDepth = z.builder.lineDepth) :
    (Machine.endCourse c
      ((Machine.limitClose c { r with gal := y } n).1.take
        { (Machine.limitClose c { r with gal := y } n).1.gal with
          builder := b (Machine.limitClose c { r with gal := y } n).1.gal
          hasEntries := made (Machine.limitClose c { r with gal := y } n).1.gal })
      (Machine.limitClose c { r with gal := y } n).2).Sound c high x := by
  obtain ⟨hsound, hstarted⟩ := h.needsLine hy
  exact ((hsound.limitClose hgo n fun _ => hstarted).takes (.builds _ _ (hb _))).endCourse _

theorem Run.Sound.char (h : r.Sound c high x) (hgo : r.stopped = false) (code : CodeUnit) :
    (consumeChar c r code).Sound c high x := by
  unfold consumeChar
  split
  · exact h.halts (by simp)
  · rename_i hit _
    split
    · exact h.halts (by simp)
    · exact h.enters hgo ‹_› _ (fun z => z.builder.enter c.fonts (z.prepare code none hit))
        (fun z => z.hasEntries || !(z.prepare code none hit).dropped z.builder.entries) fun _ => rfl

theorem Run.Sound.space (h : r.Sound c high x) (hgo : r.stopped = false) : (consumeSpace c r).Sound c high x := by
  unfold consumeSpace
  split
  · exact h.halts (by simp)
  · rename_i hd _
    split
    · exact h.halts (by simp)
    · exact h.enters hgo ‹_› 1 (fun z => z.builder.addSpace c.fonts (z.plainEntry 0xF000 (hd.spaceBody z.size)))
        (fun _ => true) fun _ => rfl

theorem Run.Sound.fixed (h : r.Sound c high x) (hgo : r.stopped = false) : (consumeFixed c r).Sound c high x := by
  unfold consumeFixed
  split
  · exact h.halts (by simp)
  · rename_i hd _
    split
    · exact h.halts (by simp)
    · exact h.enters hgo ‹_› 1 (fun z => z.builder.addFixed c.fonts (z.plainEntry 0xF001 (hd.fixedBody z.size)))
        (fun _ => true) fun _ => rfl

/-- The course of a PARA (R101). -/
theorem Run.Sound.para (h : r.Sound c high x) (hgo : r.stopped = false) : (consumePara c r).Sound c high x := by
  unfold consumePara
  split
  · exact h.halts (by simp)
  · rename_i y hy
    obtain ⟨hsound, hstarted⟩ := h.needsLine hy
    have htaken : (r.take y).Sound c high x := hsound.takes (.mk _ _ _ _ _ _ _ _ _ _ rfl id)
    have hclosed := htaken.closes hgo hstarted y.builder.entries false false true [] []
    exact hclosed.tuned (.mk _ _ _ _ _ _ _ _ _ _ rfl id)

/-- The course of a DISC, which finds no carry in hand (R94). -/
theorem Run.Sound.disc (h : r.Sound c high x) (hgo : r.stopped = false) (hcarry : r.gal.hasCarry = false)
    (pre post noBreak : List CodeUnit) : (consumeDisc c r pre post noBreak).Sound c high x := by
  unfold consumeDisc
  dsimp only
  split
  case h_2 => exact h.halts (by simp)
  case h_1 pres posts texts _ _ _ htexts =>
    split
    case h_1 => exact h.halts (by simp)
    case h_2 y hy =>
      have hfound : ({ r with gal := y } : Run).Sound c high x ∧
          (160 < y.builder.entries.length + texts.length → y.started = true) := by
        split at hy
        · rename_i hnone
          obtain rfl := Option.some.inj hy
          refine ⟨h, fun hlong => ?_⟩
          by_contra hs
          have hempty := Galley.entries_eq_nil_of_unstarted _ (eq_false_of_ne_true hs) hcarry
          simp [hempty, prepareText_length c _ _ _ _ htexts, List.isEmpty_iff.1 hnone] at hlong
        · obtain ⟨hsound, hstarted⟩ := h.needsLine hy
          exact ⟨hsound, fun _ => hstarted⟩
      obtain ⟨hsound, hstarted⟩ := hfound
      have hlimit := hsound.limitClose hgo texts.length hstarted
      generalize Machine.limitClose c { r with gal := y } texts.length = ql at hlimit
      obtain ⟨q, limited⟩ := ql
      have built (record : Bool) (o : Opp) :
          (if record then { texts.foldl (Builder.enter c.fonts) q.gal.builder with
              opps := pushOpp (texts.foldl (Builder.enter c.fonts) q.gal.builder).opps o }
            else texts.foldl (Builder.enter c.fonts) q.gal.builder).lineDepth = q.gal.builder.lineDepth := by
        split <;> simp
      have htaken := fun made record o => hlimit.takes (.builds q.gal made (built record o))
      dsimp only
      split
      · exact (htaken _ _ _).endCourse limited
      · exact htaken _ _ _

/-- A clamped operand is brought into its range (R50). -/
theorem clampInt_mem {lo hi v : Int} (h : lo ≤ hi) : lo ≤ clampInt lo hi v ∧ clampInt lo hi v ≤ hi := by
  unfold clampInt
  split
  · omega
  · split <;> omega

theorem Galley.Tuned.clamped {y z : Galley} (h : y.Tuned z) (was : Bool) : y.Tuned (z.clamped was) := by
  obtain ⟨slot, size, track, shift, direction, nextDirection, hasEntries, clampPending, mark, builder, hb, hv⟩ := h
  unfold Galley.clamped
  split
  · split
    · exact .mk _ _ _ _ _ _ _ _ _ _ hb hv
    · exact .mk _ _ _ _ _ _ _ _ _ _ hb hv
  · exact .mk _ _ _ _ _ _ _ _ _ _ hb hv

theorem Galley.tuned_setSize (y : Galley) (q : CodeUnit) : y.Tuned (y.setSize q) := by
  obtain ⟨hlo, hhi⟩ := clampInt_mem (v := q.toNat) (show (16 : Int) ≤ 576 by decide)
  refine Galley.Tuned.clamped (.mk _ _ _ _ _ _ _ _ _ _ rfl fun hv => ⟨?_, ?_, hv.2.2⟩) _
  · exact (Int.le_toNat (by omega)).2 hlo
  · exact Int.toNat_le.2 hhi

theorem Galley.tuned_setTrack (y : Galley) (t : CodeUnit) : y.Tuned (y.setTrack t) := by
  obtain ⟨hlo, hhi⟩ := clampInt_mem (v := t.toInt) (show (-32 : Int) ≤ 31 by decide)
  exact Galley.Tuned.clamped (.mk _ _ _ _ _ _ _ _ _ _ rfl fun hv => ⟨hv.1, hv.2.1, hlo, hhi, hv.2.2.2.2⟩) _

theorem Galley.tuned_setShift (y : Galley) (s : CodeUnit) : y.Tuned (y.setShift s) := by
  obtain ⟨hlo, hhi⟩ := clampInt_mem (v := s.toInt) (show (-1200 : Int) ≤ 1200 by decide)
  exact Galley.Tuned.clamped (.mk _ _ _ _ _ _ _ _ _ _ rfl fun hv => ⟨hv.1, hv.2.1, hv.2.2.1, hv.2.2.2.1, hlo, hhi⟩) _

theorem Galley.tuned_setDirection (y : Galley) (d : Dir) : y.Tuned (y.setDirection d) := by
  unfold Galley.setDirection
  split
  · exact .mk _ _ _ _ _ _ _ _ _ _ rfl id
  · exact .mk _ _ _ _ _ _ _ _ _ _ rfl id

/-- The item at the front of the queue (R48). -/
theorem Run.Sound.consumes (h : r.Sound c high x) (hgo : r.stopped = false) (hcarry : r.gal.hasCarry = false) :
    (consumeItem c r).Sound c high x := by
  unfold consumeItem
  split
  · exact h
  · exact h.char hgo _
  · exact h.space hgo
  · exact h.fixed hgo
  · exact h.para hgo
  · exact h.takes (.mk _ _ _ _ _ _ _ _ _ _ rfl id)
  · exact h.takes (Galley.tuned_setSize _ _)
  · exact h.takes (Galley.tuned_setTrack _ _)
  · exact h.takes (Galley.tuned_setShift _ _)
  · exact h.takes (Galley.tuned_setDirection _ _)
  · exact h.takes (Galley.tuned_setDirection _ _)
  · exact h.disc hgo hcarry _ _ _

end Work

end Sys2Proof.Machine
end

