-- ==== Sys2Proof/Proofs/Proceed.lean ====
section
/-! How a galley proceeds, drains, closes, and goes on when the head of its queue has left (R61 to R64, R67, R68, R76, R77, R135, R136): each
leaves a galley that has its laws. -/

namespace Sys2Proof.Machine

section Proceeding

variable {c : Ctx} {high : Nat} {x : Galley} {r : Run}

/-! ### Line close: what it leaves of the story, and of a carry -/

theorem closeLine_story (c : Ctx) (r : Run) (es : List Entry) (forced wide last : Bool) (carry : List Entry) (opps : List Opp) :
    (closeLine c r es forced wide last carry opps).gal.story = r.gal.story := by
  have given (q : Run) (l : LineRecord) : (q.giveException c l).gal.story = q.gal.story := by
    obtain ⟨latch, count, events, he, -, -⟩ := q.giveException_eq c l
    rw [he]
  unfold closeLine
  dsimp only
  cases r.gal.mark.acts (r.gal.afterClose carry opps).builder.entries <;>
  · simp only [Bool.false_eq_true, if_false, if_true]
    split
    · rfl
    · split <;> exact given _ _

/-- A galley that goes on behind the start of its carry holds none (R63 step 2). -/
theorem startCarry_hasCarry (c : Ctx) (r : Run) (hgo : (startCarry c r).stopped = false) : (startCarry c r).gal.hasCarry = false := by
  revert hgo
  unfold startCarry
  split
  · rename_i hnone
    intro hgo
    simpa [hgo] using hnone
  · rename_i hcarry
    obtain ⟨hgo', -⟩ := Bool.or_eq_false_iff.1 (eq_false_of_ne_true hcarry)
    split
    · intro hgo
      cases hgo
    · rename_i y hy
      intro hgo
      obtain ⟨-, hchain⟩ := fitChain_fitLaw c chainFuel { r with gal := y } hgo' (chainFuel_outlasts _)
      exact (hchain (startLine_started hy)).resolve_left (by simp [hgo])

/-! ### Drain and CLOSING (R76, R77) -/

/-- A galley outside HALTED and BLOCKED has no cause and no deferred one (R56). -/
theorem Galley.haltLaw_of_none {y : Galley} (hs : y.state ≠ .halted) (hc : y.cause = none) (hd : y.deferred = none) :
    y.HaltLaw := by
  refine ⟨?_, ?_, ?_⟩ <;> simp [hs, hc, hd]

theorem Galley.stateLaw_off {y : Galley} (hs : y.state = .off)
    (he : y.story = [] ∧ y.started = false ∧ y.builder.entries = []) (hh : y.held = none) (ho : y.output = []) :
    y.StateLaw := by
  refine ⟨?_, ?_, ?_, ?_, fun _ => he, fun _ => ho, ?_⟩ <;> simp [hs, hh]

theorem Galley.stateLaw_closing {y : Galley} (hs : y.state = .closing)
    (he : y.story = [] ∧ y.started = false ∧ y.builder.entries = []) (hh : y.held = none) (ho : y.output ≠ []) :
    y.StateLaw := by
  refine ⟨?_, ?_, ?_, ?_, fun _ => he, ?_, fun _ => ho⟩ <;> simp [hs, hh]

theorem Galley.stateLaw_starved {y : Galley} (hs : y.state = .starved) (he : y.story = [] ∧ y.started = true)
    (hh : y.held = none) : y.StateLaw := by
  refine ⟨?_, fun _ => he, ?_, ?_, ?_, ?_, ?_⟩ <;> simp [hs, hh]

theorem Galley.stateLaw_ready {y : Galley} (hs : y.state = .ready)
    (he : y.story = [] ∧ y.started = false ∧ y.builder.entries = []) (hh : y.held = none) : y.StateLaw := by
  refine ⟨fun _ => he, ?_, ?_, ?_, ?_, ?_, ?_⟩ <;> simp [hs, hh]

/-- A galley that enters CLOSING with nothing of its story or its line left (R77). Its frontier restrains no more. -/
theorem Run.enterClosing_settled (hk : r.gal.Kept c.pageDepth 0) (hstory : r.gal.story = []) (hstarted : r.gal.started = false)
    (hentries : r.gal.builder.entries = []) (hheld : r.gal.held = none) (hevents : ∀ p ∈ r.events, p.1.holds p.2 = true)
    (hgrown : r.gal.output = [] → x.output = []) : (r.enterClosing c).Settled c high x := by
  have hempty : r.gal.story = [] ∧ r.gal.started = false ∧ r.gal.builder.entries = [] := ⟨hstory, hstarted, hentries⟩
  unfold Run.enterClosing Run.offWhenEmpty
  split
  · rename_i hoff
    refine
      { stands :=
          { hk with
            halt := Galley.haltLaw_of_none (fun h => by cases h) rfl rfl
            states := Galley.stateLaw_off rfl hempty hheld hoff.2
            value := ⟨hk.fill, fun _ => hk.values⟩
            timer := fun hi => by cases hi
            band := fun hr => by cases hr }
        events := fun p hp => ?_
        grown := hgrown }
    obtain hp | hp := List.mem_append.1 hp
    · exact hevents p hp
    · rw [List.mem_singleton.1 hp]
      rfl
  · rename_i hoff
    exact
      { stands :=
          { hk with
            halt := Galley.haltLaw_of_none (fun h => by cases h) rfl rfl
            states := Galley.stateLaw_closing rfl hempty hheld fun hn => hoff ⟨rfl, hn⟩
            value := ⟨hk.fill, fun _ => hk.values⟩
            timer := fun hi => ⟨(hk.timer hi).1, (fun h => by cases h), (hk.timer hi).2⟩
            band := fun hr => by cases hr }
        events := hevents
        grown := hgrown }

/-- Where H is the top of the page, no galley lies above the band. -/
theorem Galley.Kept.unbound {depth : Nat} {y : Galley} (h : y.Kept depth high) : y.Kept depth 0 :=
  { h with band := fun _ => Nat.zero_le _ }

theorem Run.Sound.endsDrain (h : r.Sound c high x) (hgo : r.stopped = false) (hcarry : r.gal.hasCarry = false)
    (hstory : r.gal.story = []) : (endDrain c r).Settled c high x := by
  unfold endDrain
  cases hs : r.gal.started with
  | false =>
    simp only [Bool.false_eq_true, if_false, hgo]
    exact Run.enterClosing_settled h.kept.unbound hstory hs (Galley.entries_eq_nil_of_unstarted _ hs hcarry)
      (h.going hgo).1 h.events h.grown
  | true =>
    have hclosed := h.closes hgo hs r.gal.builder.entries false false true [] []
    simp only [if_true]
    split
    · exact hclosed.settled
    · rename_i hstop
      have hbuilder := closeLine_builder c r r.gal.builder.entries false false true [] []
      refine Run.enterClosing_settled hclosed.kept.unbound ?_ ?_ ?_ (hclosed.going (eq_false_of_ne_true hstop)).1
        hclosed.events hclosed.grown
      · rw [closeLine_story, hstory]
      · rw [Galley.started, hbuilder]
        rfl
      · rw [hbuilder]
        rfl

/-! ### Proceeding (R63) -/

/-- A galley whose story has run out waits for more, its line started or not (R63 step 4). -/
theorem Run.Sound.rests (h : r.Sound c high x) (hgo : r.stopped = false) (hcarry : r.gal.hasCarry = false)
    (hstory : r.gal.story = []) (hhalted : r.gal.state ≠ .halted) :
    ({ r with gal := { r.gal with state := if r.gal.started then .starved else .ready } } : Run).Settled c high x := by
  obtain ⟨hheld, -⟩ := h.going hgo
  obtain ⟨hcause, hdeferred, hbehind⟩ := h.halt
  have hnone : r.gal.cause = none := by simpa [hhalted] using hcause
  have hnodeferred : r.gal.deferred = none := by
    cases hd : r.gal.deferred with
    | none => rfl
    | some d => simpa [hheld] using h.blocked (hdeferred (by simp [hd]))
  refine ⟨?_, h.events, h.grown⟩
  cases hs : r.gal.started with
  | true =>
    exact Galley.Kept.stands (x := { r.gal with state := .starved }) { h.kept with }
      (Galley.haltLaw_of_none (fun h => by cases h) hnone hnodeferred)
      (Galley.stateLaw_starved rfl ⟨hstory, hs⟩ hheld) (fun h => by cases h)
  | false =>
    exact Galley.Kept.stands (x := { r.gal with state := .ready }) { h.kept with }
      (Galley.haltLaw_of_none (fun h => by cases h) hnone hnodeferred)
      (Galley.stateLaw_ready rfl ⟨hstory, hs, Galley.entries_eq_nil_of_unstarted _ hs hcarry⟩ hheld) (fun h => by cases h)

theorem Run.Sound.proceedsQueue (h : r.Sound c high x) (hgo : r.stopped = false) (hcarry : r.gal.hasCarry = false)
    (hhalted : r.gal.state ≠ .halted) : (proceedQueue c r).Settled c high x := by
  unfold proceedQueue
  split
  · rename_i hstory
    have hnil := List.isEmpty_iff.1 hstory
    split
    · exact h.endsDrain hgo hcarry hnil
    · exact h.rests hgo hcarry hnil hhalted
  · split
    · have htuned : ({ r with gal := { r.gal with mark := { r.gal.mark with state := .disarmed } } } : Run).Sound c high x :=
        h.tuned (.mk _ _ _ _ _ _ _ _ _ _ rfl id)
      exact (htuned.halts (by simp)).settled
    · exact (h.consumes hgo hcarry).settled

theorem Run.Sound.proceeds (h : r.Sound c high x) (hgo : r.stopped = false) : (proceed c r).Settled c high x := by
  unfold proceed
  split
  · exact h.settled
  · rename_i hproceeding
    split
    · rename_i hheld
      simp [(h.going hgo).1] at hheld
    · have hs := h.startCarry
      dsimp only
      split
      · exact hs.settled
      · rename_i hstop
        have hgo' := eq_false_of_ne_true hstop
        refine hs.proceedsQueue hgo' (startCarry_hasCarry c r hgo') fun hhalted => ?_
        rw [(hs.going hgo').2, ← (h.going hgo).2] at hhalted
        simp [Galley.proceeding, hhalted] at hproceeding

/-- What a run is judged by at its end is its galley's laws, its events, and the output queue it began with. -/
theorem Run.Settled.of_output {y : Galley} (h : r.Settled c high y) (he : y.output = x.output) : r.Settled c high x :=
  ⟨h.stands, h.events, fun hn => he ▸ h.grown hn⟩

/-- A galley at work at the beginning of an event, holding no closed line. -/
theorem Galley.Kept.sound {y : Galley} (hk : y.Kept c.pageDepth high) (hhalt : y.HaltLaw)
    (hst : y.state = .setting ∨ y.state = .draining ∨ y.state = .halted) (hheld : y.held = none) :
    (Run.start y).Sound c high y where
  kept := hk
  halt := hhalt
  working := by obtain h | h | h := hst <;> simp [h, GalleyState.working]
  blocked hb := by
    have hb : y.state = .blocked := hb
    simp [hb] at hst
  held hh := by simp [hheld] at hh
  going _ := ⟨hheld, rfl⟩
  events p hp := by cases hp
  grown hn := hn

/-- A galley that is to proceed with a closed line in hand is BLOCKED (R63 step 1). -/
theorem proceed_of_held (c : Ctx) (r : Run) (hp : r.gal.proceeding = true) (hheld : r.gal.held.isSome = true) :
    proceed c r = { r with gal := { r.gal with state := .blocked }, stopped := true } := by
  simp [proceed, hp, hheld]

/-- A galley brought to SETTING or DRAINING goes on, whatever it was halted for (R61, R67). -/
theorem Run.goOn_settled (hk : r.gal.Kept c.pageDepth high) (hgo : r.stopped = false)
    (hevents : ∀ p ∈ r.events, p.1.holds p.2 = true) (hgrown : r.gal.output = [] → x.output = []) :
    (r.goOn c).Settled c high x := by
  unfold Run.goOn
  generalize hst : (if r.gal.drain then GalleyState.draining else GalleyState.setting) = st
  have hst' : st = .setting ∨ st = .draining := by
    rw [← hst]
    split
    · exact .inr rfl
    · exact .inl rfl
  have hhalt : ({ r.gal with state := st, cause := none, deferred := none } : Galley).HaltLaw :=
    Galley.haltLaw_of_none (by obtain h | h := hst' <;> simp [h]) rfl rfl
  cases hheld : r.gal.held with
  | none =>
    have hsound : ({ r with gal := { r.gal with state := st, cause := none, deferred := none } } : Run).Sound c high
        { x with state := st } :=
      { kept := { hk with }
        halt := hhalt
        working := by obtain h | h := hst' <;> simp [h, GalleyState.working]
        blocked := fun hb => absurd (show st = .blocked from hb) (by obtain h | h := hst' <;> simp [h])
        held := fun hh => by simp [hheld] at hh
        going := fun _ => ⟨hheld, rfl⟩
        events := hevents
        grown := hgrown }
    exact (hsound.proceeds hgo).of_output rfl
  | some l =>
    rw [proceed_of_held _ _ (by obtain h | h := hst' <;> simp [Galley.proceeding, h]) (by simp [hheld])]
    exact
      ⟨Galley.Kept.stands (x := { r.gal with state := .blocked, cause := none, deferred := none }) { hk with }
        (Galley.haltLaw_of_none (fun h => by cases h) rfl rfl)
        (Galley.stateLaw_of_working rfl (fun _ => by simp [hheld]) fun _ => .inl rfl) (fun h => by cases h), hevents, hgrown⟩

/-! ### STEP and HALT (R66, R68) -/

theorem Galley.Stands.steps (h : x.Stands c.pageDepth high) (hst : x.state = .halted) (hheld : x.held = none) :
    (stepGalley c x).Settled c high x := by
  have hs := (Galley.Kept.sound (h.kept (by simp [hst, GalleyState.mayRestrain])) h.halt (.inr (.inr hst)) hheld).startCarry
  have finish {q : Run} (hq : q.Sound c high x) : (if q.stopped then q else q.halt c .step).Settled c high x := by
    split
    · exact hq.settled
    · exact (hq.halts (by simp)).settled
  unfold stepGalley
  dsimp only
  cases hstop : (startCarry c (Run.start x)).stopped with
  | true => exact finish (q := startCarry c (Run.start x)) hs
  | false => exact finish (hs.consumes hstop (startCarry_hasCarry c _ hstop))

/-- A galley halted, for BEHIND only where it is released (R65, R66). -/
theorem Galley.Kept.halts {depth : Nat} {y : Galley} (hk : y.Kept depth high) {cause : HaltCause}
    (hc : cause = .behind → y.released = true) : (y.haltedWith cause).Stands depth high :=
  Galley.Kept.stands { hk with } (y.haltLaw_haltedWith hc)
    (Galley.stateLaw_of_working rfl (fun hb => by cases hb) fun _ => .inr rfl) (by simp [Galley.haltedWith])

theorem Run.halt_settled (hk : r.gal.Kept c.pageDepth high) {cause : HaltCause} (hc : cause = .behind → r.gal.released = true)
    (hevents : ∀ p ∈ r.events, p.1.holds p.2 = true) (hgrown : r.gal.output = [] → x.output = []) :
    (r.halt c cause).Settled c high x where
  stands := hk.halts hc
  events p hp := by
    obtain hp | hp := List.mem_append.1 hp
    · exact hevents p hp
    · rw [List.mem_singleton.1 hp]
      rfl
  grown := hgrown

/-! ### The arrival of story (R64) -/

theorem aboveBand_eq_false_iff (high depth : Nat) : aboveBand high depth = false ↔ high ≤ depth + Config.reverseAllowance := by
  rw [aboveBand, decide_eq_false_iff_not, Nat.not_lt]

/-- Everything the un-release test can do (R64 step 2): it halts a released galley for BEHIND, or touches the idle timer and the released flag
alone. -/
theorem unreleaseTest_cases (c : Ctx) (high : Nat) (y : Galley) :
    (y.released = true ∧ unreleaseTest c high (Run.start y) = (Run.start y).halt c .behind) ∨
    ∃ idle released, unreleaseTest c high (Run.start y) = Run.start { y with idleTimer := idle, released := released } ∧
      (∀ depth, y.Kept depth high → ({ y with idleTimer := idle, released := released } : Galley).Kept depth high) ∧
      (y.HaltLaw → ({ y with idleTimer := idle, released := released } : Galley).HaltLaw) := by
  have same : unreleaseTest c high (Run.start y) = Run.start y →
      ∃ idle released, unreleaseTest c high (Run.start y) = Run.start { y with idleTimer := idle, released := released } ∧
        (∀ depth, y.Kept depth high → ({ y with idleTimer := idle, released := released } : Galley).Kept depth high) ∧
        (y.HaltLaw → ({ y with idleTimer := idle, released := released } : Galley).HaltLaw) :=
    fun h => ⟨y.idleTimer, y.released, h, fun _ hk => hk, id⟩
  revert same
  unfold unreleaseTest
  dsimp only [Run.start_gal]
  split
  · exact fun same => .inr (same rfl)
  · rename_i hreleased
    have hreleased : y.released = true := by simpa using hreleased
    split
    · split
      · exact fun same => .inr (same rfl)
      · exact fun _ => .inl ⟨hreleased, rfl⟩
    · rename_i hband
      have hband := (aboveBand_eq_false_iff _ _).1 (eq_false_of_ne_true hband)
      split
      · exact fun same => .inr (same rfl)
      · rename_i hbehind
        refine fun _ => .inr ⟨_, _, rfl, fun _ hk => ?_, fun ⟨hcause, hdeferred, _⟩ => ⟨hcause, hdeferred, fun hb => ?_⟩⟩
        · exact { hk with timer := fun hi => ⟨of_decide_eq_true hi, rfl⟩, band := fun _ => hband }
        · exact absurd ⟨hcause.1 (by simp [show y.cause = some .behind from hb]), hb⟩ hbehind

theorem storyUnits_append (p q : List Item) : storyUnits (p ++ q) = storyUnits p + storyUnits q := by simp [storyUnits]

theorem Item.length_pos (i : Item) : 0 < i.length := by cases i <;> simp [Item.length]

theorem storyUnits_pos {q : List Item} (h : q ≠ []) : 0 < storyUnits q := by
  obtain ⟨i, rest, rfl⟩ := List.exists_cons_of_ne_nil h
  have := i.length_pos
  simp only [storyUnits, List.map_cons, List.sum_cons]
  omega

/-- Story that has room in the queue, the idle timer retriggered (R47, R64). -/
theorem Galley.Kept.stored {depth : Nat} (hk : x.Kept depth high) {items : List Item} (hroom : storyUnits items ≤ x.storyFree) :
    (Galley.retrigger { x with story := x.story ++ items }).Kept depth high := by
  refine { hk with fill := ?_, timer := fun hi => ?_ }
  · have hfill := hk.fill
    simp only [Galley.fill, Galley.retrigger, storyUnits_append]
    simp only [Galley.storyFree, Galley.fill] at hroom hfill
    omega
  · have hi : (if x.released then x.idleTimer else x.timerStarted) = true := hi
    cases hr : x.released with
    | true =>
      have hidle : x.idleTimer = true := by simpa [hr] using hi
      exact absurd (hk.timer hidle).2 (by simp [hr])
    | false =>
      have hint : x.timerStarted = true := by simpa [hr] using hi
      exact ⟨of_decide_eq_true hint, rfl⟩

/-- An arrival of story at a galley that takes it. -/
theorem Galley.Stands.arrives (h : x.Stands c.pageDepth high) (hst : x.state.mayRestrain = true) {items : List Item}
    (hroom : storyUnits items ≤ x.storyFree) :
    (arrival c high (storyUnits items) { x with story := x.story ++ items }).Settled c high x := by
  have hk := (h.kept hst).stored hroom
  have hhalt : (Galley.retrigger { x with story := x.story ++ items }).HaltLaw := h.halt
  obtain ⟨hready, hstarved, hblocked, hheld, -, -, -⟩ := h.states
  unfold arrival
  dsimp only
  obtain ⟨hreleased, ht⟩ | ⟨idle, released, ht, hkept, hlaw⟩ :=
    unreleaseTest_cases c high (Galley.retrigger { x with story := x.story ++ items })
  · rw [ht, if_neg (by simp [Run.halt_eq, Galley.haltedWith])]
    exact Run.halt_settled hk (fun _ => hreleased) (fun p hp => by cases hp) id
  · rw [ht]
    have hk' := hkept _ hk
    have hhalt' := hlaw hhalt
    split
    · rename_i hgoes
      have hwait : x.state = .ready ∨ x.state = .starved := hgoes.2
      have hnoheld : x.held = none := by
        cases hh : x.held with
        | none => rfl
        | some l =>
          obtain hs | hs := hwait <;> simp [hs, hh] at hheld
      obtain ⟨hcause, hdeferred, -⟩ := hhalt'
      have hnone : x.cause = none := by
        have hx : x.cause.isSome = true ↔ x.state = .halted := hcause
        obtain hs | hs := hwait <;> simpa [hs] using hx
      have hnodeferred : x.deferred = none := by
        have hx : x.deferred.isSome = true → x.state = .blocked := hdeferred
        obtain hs | hs := hwait <;> simpa [hs] using hx
      have hsound := Galley.Kept.sound
        (y := { Galley.retrigger { x with story := x.story ++ items } with
          idleTimer := idle, released := released, state := .setting })
        { hk' with } (Galley.haltLaw_of_none (fun h => by cases h) hnone hnodeferred) (.inl rfl) hnoheld
      exact (hsound.proceeds rfl).of_output rfl
    · rename_i hstays
      refine ⟨hk'.stands hhalt' ?_ (GalleyState.ne_off_of_mayRestrain hst), (fun p hp => by cases hp), id⟩
      have hnothing : x.state = .ready ∨ x.state = .starved → items = [] := by
        intro hwait
        by_contra hne
        exact hstays ⟨storyUnits_pos hne, hwait⟩
      refine ⟨fun hs => ?_, fun hs => ?_, hblocked, hheld, fun hs => ?_, fun hs => ?_, fun hs => ?_⟩
      · obtain ⟨hstory, hrest⟩ := hready hs
        exact ⟨by simp [Galley.retrigger, hstory, hnothing (.inl hs)], hrest⟩
      · obtain ⟨hstory, hrest⟩ := hstarved hs
        exact ⟨by simp [Galley.retrigger, hstory, hnothing (.inr hs)], hrest⟩
      · have hs : x.state = .off ∨ x.state = .closing := hs
        obtain hs | hs := hs <;> simp [hs, GalleyState.mayRestrain] at hst
      · simp [show x.state = .off from hs, GalleyState.mayRestrain] at hst
      · simp [show x.state = .closing from hs, GalleyState.mayRestrain] at hst

/-! ### The head of the output queue leaves (R61, R135, R136) -/

/-- A galley some of whose closed lines have left. -/
theorem Galley.QueueLaw.of_sublist {y z : Galley} (h : y.QueueLaw) (hlen : z.output.length ≤ Config.outputCapacity)
    (hsub : z.closedLines.Sublist y.closedLines) (hlast : z.lastDepth = y.lastDepth) (htop : z.topDepth = y.topDepth)
    (hb : z.builder = y.builder) : z.QueueLaw := by
  obtain ⟨-, hsorted, hlines⟩ := h
  refine ⟨hlen, hsorted.sublist (hsub.map _), fun l hl => ?_⟩
  rw [hlast, htop, hb]
  exact hlines l (hsub.subset hl)

/-- The line a galley holds joins its queue, behind the head that has left. -/
theorem closedLines_joined_sublist (y : Galley) (l : HeldLine) (hl : y.held = some l) :
    (y.output.tail ++ [l.record]).Sublist y.closedLines := by
  have hclosed : y.closedLines = y.output ++ [l.record] := by simp [Galley.closedLines, hl]
  rw [hclosed]
  exact (List.tail_sublist _).append (List.Sublist.refl _)

/-- What a galley becomes when the head of its queue has left, its latch perhaps having taken that line (R61, R135, R136). -/
theorem Galley.Stands.headLeaves (h : x.Stands c.pageDepth high) {latch : Option ExceptionRecord} {count : Nat}
    (hlatch : ({ x with latch := latch, excCount := count } : Galley).LatchLaw)
    (hr : r.gal = { x with output := x.output.tail, latch := latch, excCount := count }) (hgo : r.stopped = false)
    (hevents : ∀ p ∈ r.events, p.1.holds p.2 = true) : (afterHeadLeaves c r).Settled c high Galley.reset := by
  have hgrown {q : Run} : q.gal.output = [] → Galley.reset.output = [] := fun _ => rfl
  obtain ⟨hlen, -, -⟩ := h.queue
  obtain ⟨hready, hstarved, hblocked, hheld, hempty, hoff, hclosing⟩ := h.states
  obtain ⟨y, events, stopped, consumed⟩ := r
  obtain rfl : y = _ := hr
  unfold afterHeadLeaves
  split
  · rename_i hx
    have hx : x.held = none := hx
    have hsub : ({ x with output := x.output.tail, latch := latch, excCount := count } : Galley).closedLines.Sublist x.closedLines := by
      simpa [Galley.closedLines, hx] using List.tail_sublist x.output
    have hqueue : ({ x with output := x.output.tail, latch := latch, excCount := count } : Galley).QueueLaw :=
      h.queue.of_sublist (by simpa using (Nat.sub_le _ _).trans hlen) hsub rfl rfl rfl
    have hlines : ∀ l ∈ ({ x with output := x.output.tail, latch := latch, excCount := count } : Galley).closedLines,
        l.depth ≤ c.pageDepth := fun l hl => h.lines l (hsub.subset hl)
    unfold Run.offWhenEmpty
    split
    · rename_i hout
      obtain ⟨hst, hnil⟩ := hout
      have hst : x.state = .closing := hst
      obtain ⟨hcause, hdeferred, -⟩ := h.halt
      have hnone : x.cause = none := by simpa [hst] using hcause
      have hnodeferred : x.deferred = none := by simpa [hst] using hdeferred
      refine ⟨?_, fun p hp => ?_, hgrown⟩
      · exact
          { h with
            halt := Galley.haltLaw_of_none (fun h => by cases h) hnone hnodeferred
            latch := hlatch, queue := hqueue, lines := hlines
            states := Galley.stateLaw_off rfl (hempty (.inr hst)) hx hnil
            value := ⟨h.value.1, fun hne => absurd rfl hne⟩
            timer := fun hi => by cases hi
            band := fun hb => by cases hb }
      · obtain hp | hp := List.mem_append.1 hp
        · exact hevents p hp
        · rw [List.mem_singleton.1 hp]
          rfl
    · rename_i hout
      have hnil : x.state = .off → x.output.tail = [] := fun hs => by rw [hoff hs]; rfl
      exact
        ⟨{ h with
            latch := hlatch, queue := hqueue, lines := hlines
            states := ⟨hready, hstarved, hblocked, hheld, hempty, hnil, fun hs hn => hout ⟨hs, hn⟩⟩ }, hevents, hgrown⟩
  · rename_i l hx
    have hx : x.held = some l := hx
    have hst := hheld (by simp [hx])
    have hmay : x.state.mayRestrain = true := by obtain hs | hs := hst <;> simp [hs, GalleyState.mayRestrain]
    have hsub := closedLines_joined_sublist x l hx
    have hclosed : ({ x with
        output := x.output.tail ++ [l.record], latch := latch, excCount := count, held := none } : Galley).closedLines
          = x.output.tail ++ [l.record] := by simp [Galley.closedLines]
    have hk : ({ x with
        output := x.output.tail ++ [l.record], latch := latch, excCount := count, held := none } : Galley).Kept
          c.pageDepth high :=
      { h.kept hmay with
        latch := hlatch
        queue := h.queue.of_sublist (by
            simp only [List.length_append, List.length_tail, List.length_singleton, Config.outputCapacity] at hlen ⊢
            omega) (by rwa [hclosed]) rfl rfl rfl
        lines := fun l' hl' => h.lines l' (hsub.subset (by rwa [hclosed] at hl')) }
    dsimp only
    split
    · split
      · exact Run.halt_settled hk (fun hb => by cases hb) hevents hgrown
      · exact Run.halt_settled hk (fun hb => by cases hb) hevents hgrown
      · exact Run.goOn_settled hk hgo hevents hgrown
    · rename_i hnot
      have hs : x.state = .halted := hst.resolve_left hnot
      refine ⟨hk.stands h.halt ?_ (by simp [hs]), hevents, hgrown⟩
      exact Galley.stateLaw_of_working (by simp [hs, GalleyState.working]) (fun hb => absurd hb (by simp [hs])) (by simp)

theorem Galley.Stands.retires (h : x.Stands c.pageDepth high) : (retireHead c x).Settled c high Galley.reset :=
  h.headLeaves h.latch rfl rfl fun p hp => by cases hp

theorem Galley.Stands.spoils (h : x.Stands c.pageDepth high) : (spoilHead c x).Settled c high Galley.reset := by
  unfold spoilHead
  dsimp only
  split
  · exact h.headLeaves h.latch rfl rfl fun p hp => by cases hp
  · rename_i l rest _
    obtain ⟨latch, count, events, he, hlatch, hevents⟩ :=
      Run.giveException_eq c (Run.start { x with output := x.output.tail })
        { l with exceptions := { l.exceptions with spoiled := true } }
    rw [he]
    exact h.headLeaves (hlatch h.latch) rfl rfl (by simpa using hevents)

/-! ### GALLEY CLOSE DISCARD (R77) -/

theorem Galley.Stands.discards (h : x.Stands c.pageDepth high) (hst : x.state.mayRestrain = true) :
    ((Run.start x.discarded).enterClosing c).Settled c high x := by
  have hk := h.kept hst
  have hclosed : x.discarded.closedLines = x.output := by simp [Galley.discarded, Galley.closedLines]
  have hsub : x.discarded.closedLines.Sublist x.closedLines := by
    rw [hclosed]
    exact List.sublist_append_left _ _
  obtain ⟨hlen, hsorted, hlines⟩ := hk.queue
  refine Run.enterClosing_settled
    { hk with
      queue := ⟨hlen, hsorted.sublist (hsub.map _), fun l hl => ⟨(hlines l (hsub.subset hl)).1, fun d hd => by cases hd⟩⟩
      fill := Nat.zero_le _
      lines := fun l hl => hk.lines l (hsub.subset hl)
      line := fun d hd => by cases hd
      band := fun _ => Nat.zero_le _ } rfl rfl rfl rfl (fun p hp => by cases hp) id

end Proceeding

end Sys2Proof.Machine
end

