-- ==== Sys2Proof/Proofs/Restraint.lean ====
section
/-! The laws of the galleys on the page, of the page, of the outstanding order and of the unit view (R56, R60, R123, R126 to R133, R142): every
act keeps them, and a reset has them. -/

namespace Sys2Proof.Machine

/-- The laws of the galleys on the page, of the page, of the outstanding order and of the unit view. -/
structure State.Core (s : State) : Prop where
  galleys : ∀ g, (s.galley g).Stands s.page.depth s.page.high
  page : s.PageLaw
  order : s.OrderLaw
  view : s.unit.view.Law
  high : s.page.high ≤ s.page.depth
  issued : s.page.lastIssued ≤ s.page.high

section Galleys

variable {depth high : Nat} {x : Galley}

/-! ### What requests and timers make of a galley -/

theorem Galley.reset_stands (depth high : Nat) : Galley.reset.Stands depth high where
  halt := Galley.haltLaw_of_none (fun h => by cases h) rfl rfl
  states := Galley.stateLaw_off rfl ⟨rfl, rfl, rfl⟩ rfl rfl
  latch := ⟨Nat.zero_le _, fun _ => rfl⟩
  queue := ⟨Nat.zero_le _, .nil, fun l hl => by cases hl⟩
  value := ⟨Nat.zero_le _, fun h => absurd rfl h⟩
  timer h := by cases h
  lines l hl := by cases hl
  line d hd := by cases hd
  band h := by cases h

/-- A galley that is opened is empty, and its frontier is its top depth (R57). -/
theorem Galley.opened_stands {p : Params} {top interval size : Nat} {slot : SlotId} {track : Int}
    (hsize : 16 ≤ size ∧ size ≤ 576) (htrack : -32 ≤ track ∧ track ≤ 31) (hband : aboveBand high top = false) :
    (x.opened p top interval slot size track).Stands depth high where
  halt := Galley.haltLaw_of_none (fun h => by cases h) rfl rfl
  states := Galley.stateLaw_ready rfl ⟨rfl, rfl, rfl⟩ rfl
  latch := ⟨Nat.zero_le _, fun _ => rfl⟩
  queue := ⟨Nat.zero_le _, .nil, fun l hl => by cases hl⟩
  value := ⟨Nat.zero_le _, fun _ => ⟨hsize.1, hsize.2, htrack.1, htrack.2, (by decide : (-1200 : Int) ≤ 0),
    (by decide : (0 : Int) ≤ 1200)⟩⟩
  timer h := ⟨of_decide_eq_true h, (fun h => by cases h), rfl⟩
  lines l hl := by cases hl
  line d hd := by cases hd
  band _ := (aboveBand_eq_false_iff _ _).1 hband

/-- A galley with other values, staged or active, whose frontier with them stays within the band (R58, R59). -/
theorem Galley.Stands.staged (h : x.Stands depth high) (active staged : Params) (pending : Bool)
    (hband : (x.restraining && aboveBand high
      ({ x with active := active, staged := staged, pendingFlag := pending } : Galley).frontier) = false) :
    ({ x with active := active, staged := staged, pendingFlag := pending } : Galley).Stands depth high :=
  { h with band := fun hr => (aboveBand_eq_false_iff _ _).1 (by simpa [show x.restraining = true from hr] using hband) }

/-- The depth of every line waiting, against a restart's top depth (R128). -/
theorem Galley.topAboveQueued_eq_false_iff (x : Galley) (top : Nat) :
    x.topAboveQueued top = false ↔ ∀ l ∈ x.closedLines, l.depth ≤ top := by
  unfold Galley.topAboveQueued Galley.closedLines
  cases x.held <;> simp [or_imp, forall_and]

/-- What a restart changes (R71). -/
theorem Galley.restarted_eq (x : Galley) (top : Nat) (column : Option (Nat × Nat)) :
    ∃ staged pending, x.restarted top column = { x with
      staged := staged, pendingFlag := pending, topDepth := top, lastDepth := none, released := false
      idleTimer := x.timerStarted, cause := if x.cause = some .behind then some .request else x.cause } := by
  cases column with
  | none => exact ⟨x.staged, x.pendingFlag, rfl⟩
  | some p => exact ⟨_, _, rfl⟩

theorem Galley.Stands.restarted (h : x.Stands depth high) {top : Nat} {column : Option (Nat × Nat)} (hst : x.state = .halted)
    (hstarted : x.started = false) (hband : aboveBand high top = false) (htop : x.topAboveQueued top = false) :
    (x.restarted top column).Stands depth high := by
  obtain ⟨staged, pending, he⟩ := x.restarted_eq top column
  obtain ⟨hlen, hsorted, -⟩ := h.queue
  obtain ⟨hcause, hdeferred, -⟩ := h.halt
  have hline := Galley.lineDepth_of_unstarted hstarted
  have hlines := (x.topAboveQueued_eq_false_iff top).1 htop
  rw [he]
  exact
    { h with
      halt := by
        refine ⟨?_, hdeferred, fun hb => ?_⟩
        · dsimp only
          split
          · simp [hst]
          · exact hcause
        · dsimp only at hb
          split at hb
          · cases hb
          · contradiction
      queue := ⟨hlen, hsorted, fun l hl => ⟨hlines l hl, (h.queue.2.2 l hl).2⟩⟩
      timer := fun hi => ⟨of_decide_eq_true hi, by simp [hst], rfl⟩
      band := fun _ => by
        refine ((aboveBand_eq_false_iff _ _).1 hband).trans_eq (congrArg (· + _) ?_)
        exact (Galley.frontier_of_unstarted (x := { x with
          staged := staged, pendingFlag := pending, topDepth := top, lastDepth := none }) hline).symm }

theorem Galley.Stands.abandoned (h : x.Stands depth high) (hst : x.state = .halted)
    (hband : (x.started && (x.restraining && aboveBand high ({ x with builder := Builder.empty } : Galley).frontier)) = false) :
    ({ x with builder := Builder.empty } : Galley).Stands depth high := by
  obtain ⟨hlen, hsorted, hlines⟩ := h.queue
  exact
    { h with
      states := by
        obtain ⟨-, -, hblocked, hheld, -, -, -⟩ := h.states
        exact ⟨by simp [hst], by simp [hst], hblocked, hheld, by simp [hst], by simp [hst], by simp [hst]⟩
      queue := ⟨hlen, hsorted, fun l hl => ⟨(hlines l hl).1, fun d hd => by cases hd⟩⟩
      line := fun d hd => by cases hd
      band := fun hr => by
        have hr : x.restraining = true := hr
        cases hs : x.started with
        | true => exact (aboveBand_eq_false_iff _ _).1 (by simpa [hs, hr] using hband)
        | false =>
          have hfrontier := h.band hr
          rwa [Galley.frontier_of_unstarted (Galley.lineDepth_of_unstarted hs)] at hfrontier }

theorem Galley.Stands.flushed (h : x.Stands depth high) (hst : x.state = .halted) :
    ({ x with story := [] } : Galley).Stands depth high :=
  { h with
    states := by
      obtain ⟨-, -, hblocked, hheld, -, -, -⟩ := h.states
      exact ⟨by simp [hst], by simp [hst], hblocked, hheld, by simp [hst], by simp [hst], by simp [hst]⟩
    value := ⟨Nat.zero_le _, h.value.2⟩ }

theorem Galley.Stands.released (h : x.Stands depth high) :
    ({ x with idleTimer := false, released := true } : Galley).Stands depth high :=
  { h with
    halt := ⟨h.halt.1, h.halt.2.1, fun _ => rfl⟩
    timer := fun hi => by cases hi
    band := fun hr => by simp [Galley.restraining] at hr }

theorem Galley.Stands.held_of_off (h : x.Stands depth high) (hst : x.state = .off) : x.held = none := by
  obtain ⟨-, -, -, hheld, -, -, -⟩ := h.states
  cases hh : x.held with
  | none => rfl
  | some l => simp [hst, hh] at hheld

theorem Galley.Stands.output_of_off (h : x.Stands depth high) (hst : x.state = .off) : x.output = [] := by
  obtain ⟨-, -, -, -, -, hoff, -⟩ := h.states
  exact hoff hst

/-- An OFF galley has no line, waiting or started. -/
theorem Galley.Stands.of_off (h : x.Stands depth high) (hst : x.state = .off) (depth' high' : Nat) : x.Stands depth' high' := by
  obtain ⟨-, -, -, -, hempty, -, -⟩ := h.states
  have hline := Galley.lineDepth_of_unstarted (hempty (.inl hst)).2.1
  exact
    { h with
      lines := fun l hl => by simp [Galley.closedLines, h.output_of_off hst, h.held_of_off hst] at hl
      line := fun d hd => by simp [hline] at hd
      band := fun hr => by simp [Galley.restraining, hst, GalleyState.mayRestrain] at hr }

/-- No line retires from an OFF galley: it stays OFF. -/
theorem afterHeadLeaves_off (c : Ctx) (r : Run) (hst : r.gal.state = .off) (hheld : r.gal.held = none) :
    (afterHeadLeaves c r).gal.state = .off := by
  unfold afterHeadLeaves Run.offWhenEmpty
  rw [hheld]
  dsimp only
  split
  · rfl
  · exact hst

end Galleys

/-! ### One act -/

theorem State.Core.congr {s t : State} (h : s.Core) (hg : t.galleys = s.galleys) (hp : t.page = s.page) (hu : t.unit = s.unit) :
    t.Core := by
  have hgalley (g : GalleyId) : t.galley g = s.galley g := by rw [State.galley, hg]; rfl
  refine ⟨fun g => ?_, fun ho g => ?_, ?_, ?_, ?_, ?_⟩
  · rw [hp, hgalley]
    exact h.galleys g
  · rw [hgalley]
    exact h.page (by rwa [hp] at ho) g
  · have horder := h.order
    unfold State.OrderLaw at horder ⊢
    simpa only [hu, hp, hgalley] using horder
  · rw [hu]
    exact h.view
  · rw [hp]
    exact h.high
  · rw [hp]
    exact h.issued

/-- A galley in place of another: OFF where the page is not OPEN, and with a line in its queue where an order of its own is outstanding. -/
theorem State.Core.setGalley {s : State} (h : s.Core) {g : GalleyId} {x : Galley} (hx : x.Stands s.page.depth s.page.high)
    (hoff : s.page.state ≠ .open → x.state = .off)
    (hgrown : s.unit.view.outstanding = none ∨ (x.output = [] → (s.galley g).output = [])) : (s.setGalley g x).Core := by
  refine ⟨fun g' => ?_, fun ho g' => ?_, ?_, h.view, h.high, h.issued⟩
  · rw [State.galley_setGalley]
    split
    · exact hx
    · exact h.galleys g'
  · rw [State.galley_setGalley]
    split
    · exact hoff ho
    · exact h.page ho g'
  · have horder := h.order
    unfold State.OrderLaw at horder ⊢
    show match s.unit.view.outstanding with | none => _ | some o => _
    cases ho : s.unit.view.outstanding with
    | none => simpa [ho] using horder
    | some o =>
      rw [ho] at horder hgrown
      obtain ⟨hkind, hunit⟩ := horder
      refine ⟨?_, hunit⟩
      cases hk : o.kind with
      | cut => simpa [hk] using hkind
      | line g' =>
        have hg' : (s.galley g').output ≠ [] := by simpa [hk] using hkind
        dsimp only
        rw [State.galley_setGalley]
        split
        · rename_i he
          subst he
          exact fun hn => hg' (hgrown.resolve_left (by simp) hn)
        · exact hg'

theorem State.Core.commit {s : State} (h : s.Core) {g : GalleyId} {c : Ctx} {x : Galley} {r : Run}
    (hc : c.pageDepth = s.page.depth) (hr : r.Settled c s.page.high x) (hoff : s.page.state ≠ .open → r.gal.state = .off)
    (hgrown : s.unit.view.outstanding = none ∨ (x.output = [] → (s.galley g).output = [])) : (s.commit g r).Core := by
  have hset : (s.setGalley g r.gal).Core := h.setGalley (hc ▸ hr.stands) hoff (hgrown.imp_right fun hx hn => hx (hr.grown hn))
  exact hset.congr (State.raiseAll_galleys _ _) (State.raiseAll_page _ _) (State.raiseAll_unit _ _)

/-- What each work of a galley leaves, judged by the output queue the work began with where an order is outstanding. -/
theorem State.Core.works {s : State} (h : s.Core) {g : GalleyId} {r : Run} (hw : s.Works g r) :
    ∃ c x, Ctx.pageDepth c = s.page.depth ∧ r.Settled c s.page.high x ∧ (s.page.state ≠ .open → r.gal.state = .off) ∧
      (s.unit.view.outstanding = none ∨ (x.output = [] → (s.galley g).output = [])) := by
  have hg := h.galleys g
  have hpage (st : GalleyState) (hst : (s.galley g).state = st) (hne : st ≠ .off) {y : GalleyState} :
      s.page.state ≠ .open → y = .off :=
    fun ho => absurd (hst.symm.trans (h.page ho g)) hne
  have hmay (hst : (s.galley g).state = .halted) : (s.galley g).state.mayRestrain = true := by rw [hst]; rfl
  have hmayOf (hst : ¬((s.galley g).state = .off ∨ (s.galley g).state = .closing)) : (s.galley g).state.mayRestrain = true := by
    cases hs : (s.galley g).state <;> simp [hs, GalleyState.mayRestrain] at hst ⊢
  cases hw with
  | halted hst =>
    have hst' := hmayOf fun h => hst (h.elim .inl fun h => .inr (.inl h))
    exact ⟨s.ctx g false, s.galley g, rfl,
      Run.halt_settled (r := Run.start (s.galley g)) (hg.kept hst') (fun hb => by cases hb) (fun p hp => by cases hp) id,
      hpage _ rfl (fun h => hst (.inl h)), .inr id⟩
  | arrived items hst hroom =>
    exact ⟨s.ctx g false, s.galley g, rfl, Galley.Stands.arrives (c := s.ctx g false) hg (hmayOf hst) hroom,
      hpage _ rfl (fun h => hst (.inl h)), .inr id⟩
  | resumed hst hband =>
    have hk := hg.kept (hmay hst)
    have hk' : ({ s.galley g with released := false, idleTimer := (s.galley g).timerStarted } : Galley).Kept
        s.page.depth s.page.high :=
      { hk with
        timer := fun hi => ⟨of_decide_eq_true hi, rfl⟩
        band := fun _ => by
          cases hr : (s.galley g).released with
          | false => exact hk.band hr
          | true =>
            have hfrontier : aboveBand s.page.high (s.galley g).frontier = false := by simpa [hr] using hband
            exact (aboveBand_eq_false_iff _ _).1 hfrontier }
    exact ⟨s.ctx g false, s.galley g, rfl,
      Run.goOn_settled (c := s.ctx g false) (r := Run.start _) hk' rfl (fun p hp => by cases hp) id,
      hpage _ hst (by simp), .inr id⟩
  | stepped hst hheld =>
    exact ⟨s.ctx g true, s.galley g, rfl, Galley.Stands.steps (c := s.ctx g true) hg hst (by simpa using hheld),
      hpage _ hst (by simp), .inr id⟩
  | drained hst =>
    have hst' : (s.galley g).state.mayRestrain = true := by obtain h | h | h := hst <;> rw [h] <;> rfl
    obtain ⟨hcause, hdeferred, -⟩ := hg.halt
    obtain ⟨-, -, -, hheld, -, -, -⟩ := hg.states
    have hnone : (s.galley g).held = none := by
      cases hh : (s.galley g).held with
      | none => rfl
      | some l => obtain h | h | h := hst <;> simp [h, hh] at hheld
    have hk : ({ s.galley g with drain := true, state := .draining } : Galley).Kept s.page.depth s.page.high :=
      { hg.kept hst' with }
    have hsound := Galley.Kept.sound (c := s.ctx g false) hk
      (Galley.haltLaw_of_none (fun h => by cases h) (by obtain h | h | h := hst <;> simpa [h] using hcause)
        (by obtain h | h | h := hst <;> simpa [h] using hdeferred)) (.inr (.inl rfl)) hnone
    exact ⟨s.ctx g false, s.galley g, rfl, (hsound.proceeds rfl).of_output rfl,
      hpage _ rfl (GalleyState.ne_off_of_mayRestrain hst'), .inr id⟩
  | discarded hst =>
    exact ⟨s.ctx g false, s.galley g, rfl, Galley.Stands.discards (c := s.ctx g false) hg (hmayOf hst),
      hpage _ rfl (fun h => hst (.inl h)), .inr id⟩
  | proceeded =>
    refine ⟨s.ctx g false, s.galley g, rfl, ?_, fun ho => ?_, .inr id⟩
    · cases hp : (s.galley g).proceeding with
      | false =>
        rw [show proceed (s.ctx g false) (Run.start (s.galley g)) = Run.start (s.galley g) by simp [proceed, hp]]
        exact ⟨hg, (fun p hp => by cases hp), id⟩
      | true =>
        have hst : (s.galley g).state = .setting ∨ (s.galley g).state = .draining := by
          simpa [Galley.proceeding] using hp
        obtain ⟨-, -, -, hheld, -, -, -⟩ := hg.states
        have hnone : (s.galley g).held = none := by
          cases hh : (s.galley g).held with
          | none => rfl
          | some l => obtain h | h := hst <;> simp [h, hh] at hheld
        have hmay : (s.galley g).state.mayRestrain = true := by obtain h | h := hst <;> rw [h] <;> rfl
        exact (Galley.Kept.sound (c := s.ctx g false) (hg.kept hmay) hg.halt (hst.imp_right .inl) hnone).proceeds rfl
    · have hoff := h.page ho g
      rw [show proceed (s.ctx g false) (Run.start (s.galley g)) = Run.start (s.galley g) by
        simp [proceed, Galley.proceeding, hoff]]
      exact hoff
  | retired hnone =>
    refine ⟨s.ctx g false, Galley.reset, rfl, Galley.Stands.retires (c := s.ctx g false) hg, fun ho => ?_, .inl hnone⟩
    exact afterHeadLeaves_off _ _ (h.page ho g) (hg.held_of_off (h.page ho g))
  | spoiled hnone =>
    refine ⟨s.ctx g false, Galley.reset, rfl, Galley.Stands.spoils (c := s.ctx g false) hg, fun ho => ?_, .inl hnone⟩
    have hoff := h.page ho g
    unfold spoilHead
    rw [show (s.galley g).output = [] from hg.output_of_off hoff]
    exact afterHeadLeaves_off _ _ hoff (hg.held_of_off hoff)

/-- What each request and each timer makes of a galley. -/
theorem State.Core.sets {s : State} (h : s.Core) {g : GalleyId} {x : Galley} (hs : s.Sets g x) : (s.setGalley g x).Core := by
  have hg := h.galleys g
  have hpage (hne : (s.galley g).state ≠ .off) : s.page.state ≠ .open → x.state = .off := fun ho => absurd (h.page ho g) hne
  have hhalted (hst : (s.galley g).state = .halted) : (s.galley g).state ≠ .off := by simp [hst]
  cases hs with
  | opened p top interval slot size track hopen hoff htop hsize htrack hband =>
    exact h.setGalley (Galley.opened_stands hsize htrack hband) (fun ho => absurd hopen ho) (.inr fun _ => hg.output_of_off hoff)
  | staged p hst hband => exact h.setGalley (hg.staged _ _ _ hband) (hpage hst) (.inr id)
  | activated p hst _ hband => exact h.setGalley (hg.staged _ _ _ hband) (hpage (hhalted hst)) (.inr id)
  | restarted top column hst hstarted hband htop =>
    obtain ⟨staged, pending, he⟩ := (s.galley g).restarted_eq top column
    exact h.setGalley (hg.restarted hst hstarted hband htop) (hpage (hhalted hst)) (.inr fun hn => by rwa [he] at hn)
  | abandoned hst hband => exact h.setGalley (hg.abandoned hst hband) (hpage (hhalted hst)) (.inr id)
  | flushed hst => exact h.setGalley (hg.flushed hst) (hpage (hhalted hst)) (.inr id)
  | marked m => exact h.setGalley { hg with } (fun ho => h.page ho g) (.inr id)
  | latched p => exact h.setGalley { hg with } (fun ho => h.page ho g) (.inr id)
  | reported => exact h.setGalley { hg with latch := ⟨Nat.zero_le _, fun _ => rfl⟩ } (fun ho => h.page ho g) (.inr id)
  | drainNoted => exact h.setGalley { hg with } (fun ho => h.page ho g) (.inr id)
  | released => exact h.setGalley hg.released (fun ho => h.page ho g) (.inr id)

/-- The unit link where the outstanding order stays, and with it what it needs of the unit view and of the order timer. -/
theorem State.Core.setUnit {s : State} (h : s.Core) {u : UnitLink} (hlaw : u.view.Law)
    (hout : u.view.outstanding = s.unit.view.outstanding)
    (hnone : s.unit.view.outstanding = none → s.unit.orderTimer = false → u.orderTimer = false)
    (hsome : s.unit.view.outstanding.isSome = true → s.unit.view.known = true → s.unit.view.faulted = false →
      s.unit.view.silent = false → u.view.known = true ∧ u.view.faulted = false ∧ u.view.silent = false) :
    ({ s with unit := u } : State).Core := by
  refine ⟨h.galleys, h.page, ?_, hlaw, h.high, h.issued⟩
  have horder := h.order
  unfold State.OrderLaw at horder ⊢
  show match u.view.outstanding with | none => _ | some o => _
  rw [hout]
  cases ho : s.unit.view.outstanding with
  | none =>
    rw [ho] at horder
    exact hnone ho horder
  | some o =>
    rw [ho] at horder hsome
    obtain ⟨hkind, hknown, hfaulted, hsilent⟩ := horder
    exact ⟨hkind, hsome rfl hknown hfaulted hsilent⟩

/-- Where an order is outstanding, the unit is neither faulted nor silent (R142). -/
theorem State.Core.unit_of_outstanding {s : State} (h : s.Core) {o : Order} (ho : s.unit.view.outstanding = some o) :
    s.unit.view.faulted = false ∧ s.unit.view.silent = false := by
  have horder := h.order
  unfold State.OrderLaw at horder
  rw [ho] at horder
  obtain ⟨-, -, hunit⟩ := horder
  exact hunit

/-- A cut is outstanding only while the page is CLOSING (R137). -/
theorem State.Core.closing_of_cut {s : State} (h : s.Core) {o : Order} (ho : s.unit.view.outstanding = some o) (hk : o.kind = .cut) :
    s.page.state = .closing := by
  have horder := h.order
  unfold State.OrderLaw at horder
  rw [ho] at horder
  obtain ⟨hkind, -⟩ := horder
  simpa [hk] using hkind

theorem UnitLink.query_core {s : State} {u : UnitLink} (h : ({ s with unit := u } : State).Core) :
    ({ s with unit := u.query } : State).Core :=
  h.setUnit (u := u.query) h.view rfl (fun _ ht => ht) fun _ hk hf hs => ⟨hk, hf, hs⟩

theorem State.Core.changes {s : State} (h : s.Core) {u : UnitLink} (hc : s.unit.Change u) : ({ s with unit := u } : State).Core := by
  have keep : s.unit.view.outstanding.isSome = true → s.unit.view.known = true → s.unit.view.faulted = false →
      s.unit.view.silent = false → s.unit.view.known = true ∧ s.unit.view.faulted = false ∧ s.unit.view.silent = false :=
    fun _ hk hf hs => ⟨hk, hf, hs⟩
  cases hc with
  | received r gap => exact h.setUnit h.view rfl (fun _ ht => ht) keep
  | frameSent f rest hf => exact h.setUnit h.view rfl (fun hn ht => by simp [hn, ht]) keep
  | resumed hu =>
    have hresumed : ({ s with unit := { s.unit with
        view := { s.unit.view with faulted := false, silent := false, lastFault := none, known := false } } } : State).Core :=
      h.setUnit ⟨by simp, by simp⟩ rfl (fun _ ht => ht) fun _ _ hf hs => by simp [hf, hs] at hu
    unfold UnitLink.ask
    split
    · exact hresumed
    · exact UnitLink.query_core hresumed
  | reported held => exact h.setUnit h.view rfl (fun _ ht => ht) fun _ _ hf hs => ⟨rfl, hf, hs⟩
  | queried => exact UnitLink.query_core h
  | queryOver => exact h.setUnit h.view rfl (fun _ ht => ht) keep
  | pauseOver =>
    exact UnitLink.query_core (u := { s.unit with resetPause := false }) (h.setUnit h.view rfl (fun _ ht => ht) keep)

/-- The end of the outstanding order: none is left, and the order timer is stopped (R138, R147). -/
theorem State.Core.withoutOrder {s : State} (h : s.Core) {v : UnitView} {transmit : List ExposureFrame}
    (hv : v.Law) (hnone : v.outstanding = none) {u : UnitLink}
    (hu : u = { s.unit with view := v, transmit := transmit, orderTimer := false }) :
    ({ s with unit := u } : State).Core := by
  subst hu
  refine ⟨h.galleys, h.page, ?_, hv, h.high, h.issued⟩
  unfold State.OrderLaw
  rw [show ({ s with unit := _ } : State).unit.view.outstanding = none from hnone]

theorem State.Core.failed {s : State} (h : s.Core) {o : Order} (fault : FaultCode) (ho : s.unit.view.outstanding = some o) :
    ({ s with unit := s.unit.failed o fault, free := s.free + 1 } : State).Core := by
  obtain ⟨hf, hs⟩ := h.unit_of_outstanding ho
  have hlaw : (s.unit.failed o fault).view.Law := by
    cases hfault : fault.isTimeout <;> simp [UnitView.Law, UnitLink.failed, UnitLink.without, hf, hs, hfault]
  exact (h.withoutOrder (transmit := s.unit.transmit) hlaw rfl rfl).congr rfl rfl rfl

/-! ### Selection (R130 to R133, R137) -/

/-- Through an open gate the unit's state is known, it is neither faulted nor silent, and no order is outstanding (R142). -/
theorem UnitView.of_gateOpen {v : UnitView} (h : v.gateOpen = true) :
    v.known = true ∧ v.faulted = false ∧ v.silent = false := by
  simp only [UnitView.gateOpen, Bool.and_eq_true, Bool.not_eq_true'] at h
  obtain ⟨⟨⟨⟨hknown, -⟩, hfaulted⟩, hsilent⟩, -⟩ := h
  exact ⟨hknown, hfaulted, hsilent⟩

/-- No restraining galley's frontier is left above the band by the issue of the candidate: one with an empty queue is what the issue condition
asks of, and the queue of another begins no higher than the candidate (R127, R131, R132). -/
theorem State.Core.candidate_le_frontier {s : State} (h : s.Core) {g : GalleyId} {l : LineRecord} (hc : s.candidate = some (g, l))
    (hu : s.unrestrained l.depth = true) {g' : GalleyId} (hr : (s.galley g').restraining = true) :
    l.depth ≤ (s.galley g').frontier + Config.reverseAllowance := by
  obtain ⟨-, hleast⟩ := candidateOf_some s allGalleys g l hc
  cases ho : (s.galley g').output with
  | nil => exact (s.unrestrained_iff l.depth).1 hu g' hr ho
  | cons l' rest =>
    have hl' : l' ∈ (s.galley g').closedLines := by simp [Galley.closedLines, ho]
    calc l.depth ≤ l'.depth := hleast g' (mem_allGalleys g') l' rest ho
      _ ≤ (s.galley g').frontier := (h.galleys g').queue.depth_le_frontier hl'
      _ ≤ _ := Nat.le_add_right _ _

theorem State.Core.issueLine {s : State} (h : s.Core) {g : GalleyId} {l : LineRecord} (hgate : s.unit.view.gateOpen = true)
    (hc : s.candidate = some (g, l)) (hu : s.unrestrained l.depth = true) : (s.issueLine g l).Core := by
  obtain ⟨⟨rest, ho⟩, -⟩ := candidateOf_some s allGalleys g l hc
  have hl : l ∈ (s.galley g).closedLines := by simp [Galley.closedLines, ho]
  have hdepth : l.depth ≤ s.page.depth := (h.galleys g).lines l hl
  have hhigh := h.high
  have hissue : issueDepth s.page.high l.depth ≤ s.page.depth := by
    unfold issueDepth
    omega
  exact
    { galleys := fun g' =>
        { h.galleys g' with
          band := fun hr => by
            have hold := (h.galleys g').band hr
            have hnew := h.candidate_le_frontier hc hu hr
            show max s.page.high (issueDepth s.page.high l.depth) ≤ (s.galley g').frontier + Config.reverseAllowance
            unfold issueDepth
            omega }
      page := h.page
      order := by
        refine ⟨?_, UnitView.of_gateOpen (v := s.unit.view) hgate⟩
        show (s.galley g).output ≠ []
        simp [ho]
      view := h.view
      high := Nat.max_le.2 ⟨hhigh, hissue⟩
      issued := Nat.le_max_right _ _ }

theorem State.Core.issueCut {s : State} (h : s.Core) (hgate : s.unit.view.gateOpen = true) (hp : s.page.state = .closing) :
    s.issueCut.Core where
  galleys g := (h.galleys g).of_off (h.page (by simp [hp]) g) _ _
  page := h.page
  order := ⟨hp, UnitView.of_gateOpen (v := s.unit.view) hgate⟩
  view := h.view
  high := Nat.le_refl _
  issued := Nat.le_refl _

theorem State.Core.select {s : State} (h : s.Core) : s.select.Core := by
  obtain he | ⟨hgate, hp, he⟩ | ⟨hgate, -, g, l, hc, hu, he⟩ := s.select_cases <;> rw [he]
  · exact h
  · exact h.issueCut hgate hp
  · exact h.issueLine hgate hc hu

/-! ### The page (R124 to R126) -/

theorem State.Core.pageOpened {s : State} (h : s.Core) (width depth : Nat) (hp : s.page.state = .noPage) :
    ({ s with page := { s.page with
      state := .open, number := s.page.number + 1, width := width, depth := depth, high := 0, lastIssued := 0 } } : State).Core where
  galleys g := (h.galleys g).of_off (h.page (by simp [hp]) g) _ _
  page ho := absurd rfl ho
  order := by
    have horder := h.order
    unfold State.OrderLaw at horder ⊢
    show match s.unit.view.outstanding with | none => _ | some o => _
    cases ho : s.unit.view.outstanding with
    | none => simpa [ho] using horder
    | some o =>
      rw [ho] at horder
      obtain ⟨hkind, -⟩ := horder
      cases hk : o.kind with
      | cut => simp [hk, hp] at hkind
      | line g =>
        have hg : (s.galley g).output ≠ [] := by simpa [hk] using hkind
        exact absurd ((h.galleys g).output_of_off (h.page (by simp [hp]) g)) hg
  view := h.view
  high := Nat.zero_le _
  issued := Nat.le_refl _

theorem State.Core.pageClosed {s : State} (h : s.Core) (hoff : s.allOff = true) :
    ({ s with page := { s.page with state := .closing } } : State).Core where
  galleys := h.galleys
  page _ := s.allOff_iff.1 hoff
  order := by
    have horder := h.order
    unfold State.OrderLaw at horder ⊢
    show match s.unit.view.outstanding with | none => _ | some o => _
    cases ho : s.unit.view.outstanding with
    | none => simpa [ho] using horder
    | some o =>
      rw [ho] at horder
      obtain ⟨hkind, hunit⟩ := horder
      refine ⟨?_, hunit⟩
      cases hk : o.kind with
      | cut => rfl
      | line g => simpa [hk] using hkind
  view := h.view
  high := h.high
  issued := h.issued

/-- The cut of a CLOSING page ends it (R138). -/
theorem State.Core.cutEnded {s : State} (h : s.Core) {o : Order} (ho : s.unit.view.outstanding = some o) (hk : o.kind = .cut) :
    ({ s with unit := s.unit.without, page := { s.page with state := .noPage } } : State).Core where
  galleys := h.galleys
  page _ := h.page (by simp [h.closing_of_cut ho hk])
  order := rfl
  view := h.view
  high := h.high
  issued := h.issued

theorem State.Act.core {s t : State} (ha : s.Act t) (h : s.Core) : t.Core := by
  cases ha with
  | raised f d => exact h.congr (State.raise_galleys s f d) (State.raise_page s f d) (State.raise_unit s f d)
  | notified | cleared | masked | resetTaken | loads | due => exact h.congr rfl rfl rfl
  | sets g x hs => exact h.sets hs
  | works g r hw =>
    obtain ⟨c, x, hc, hr, hoff, hgrown⟩ := h.works hw
    exact h.commit hc hr hoff hgrown
  | pageOpened width depth hp => exact h.pageOpened width depth hp
  | pageClosed _ hoff => exact h.pageClosed hoff
  | changes u hc => exact h.changes hc
  | lineEnded => exact h.withoutOrder (transmit := s.unit.transmit) (v := s.unit.without.view) h.view rfl rfl
  | cutEnded o ho hk => exact h.cutEnded ho hk
  | failed o fault ho => exact h.failed fault ho
  | selected => exact h.select

/-! ### A reset (R80, R139, R152) -/

/-- A part whose galleys, page and unit link are at their reset values. -/
theorem State.core_of_reset {s : State} (hg : s.galleys = Vector.replicate 4 Galley.reset) {number : Count16} {nextOrder : Byte}
    (hp : s.page = { Page.powerOn with number := number, nextOrder := nextOrder }) (hu : s.unit = UnitLink.reset) : s.Core := by
  have hgalley (g : GalleyId) : s.galley g = Galley.reset := by simp [State.galley, hg]
  refine ⟨fun g => ?_, fun _ g => ?_, ?_, ?_, ?_, ?_⟩
  · rw [hgalley]
    exact Galley.reset_stands _ _
  · rw [hgalley]
    rfl
  · unfold State.OrderLaw
    rw [hu]
    rfl
  · rw [hu]
    exact ⟨by simp [UnitLink.reset, UnitView.reset], by simp [UnitLink.reset, UnitView.reset]⟩
  · rw [hp]
    exact Nat.le_refl _
  · rw [hp]
    exact Nat.le_refl _

theorem State.partLaw_core : State.PartLaw State.Core where
  act _ _ ha h := ha.core h
  link _ _ h := h.congr rfl rfl rfl
  pending _ _ h := h.congr rfl rfl rfl
  partReset _ _ := State.core_of_reset rfl rfl rfl
  powered _ _ _ := State.core_of_reset rfl (number := 0) (nextOrder := 0) rfl rfl

/-! ### The laws of restraint and of the depth -/

/-- The laws of restraint (R129) and of the depth (R60, R126, R137), as the part states them. -/
theorem State.Core.restraintLaw {s : State} (h : s.Core) : s.RestraintLaw := fun _ g => (h.galleys g).band

theorem State.Core.depthLaw {s : State} (h : s.Core) : s.DepthLaw :=
  ⟨h.high, h.issued, fun g => ⟨(h.galleys g).lines, (h.galleys g).line⟩⟩

/-- The laws of the galleys, of the page and of the order, from those of the part: without a page no galley restrains (R123, R129). -/
theorem State.Good.core {s : State} (h : s.Good) : s.Core := by
  obtain ⟨-, hgalley, hpage, horder, hview, -, hrestraint, ⟨hhigh, hissued, hdepth⟩, -, -, -⟩ := h
  refine ⟨fun g => ?_, hpage, horder, hview, hhigh, hissued⟩
  obtain ⟨hhalt, hstates, hlatch, hqueue, -, -, hvalue, htimer⟩ := hgalley g
  obtain ⟨hlines, hline⟩ := hdepth g
  refine ⟨hhalt, hstates, hlatch, hqueue, hvalue, htimer, hlines, hline, fun hr => hrestraint (fun hp => ?_) g hr⟩
  have hoff := hpage (by simp [hp]) g
  simp [Galley.restraining, hoff, GalleyState.mayRestrain] at hr

end Sys2Proof.Machine
end

