-- ==== Sys2Proof/Proofs/AllLaws.lean ====
section
/-! The law of the event unit (R167), and all the laws of the part together: every step keeps them, and the part has them after power-on. -/

namespace Sys2Proof.Machine

/-! ### Acts and the event unit (R167, R168) -/

theorem mem_of_mem_placeNotice {f : Flag} {d : EventData} {q : List TxFrame} {x : TxFrame} (h : x ∈ placeNotice f d q) :
    x = .notice f d ∨ x ∈ q := by
  induction q with
  | nil => exact .inl (List.mem_singleton.1 h)
  | cons y q ih =>
    unfold placeNotice at h
    split at h
    · exact (List.mem_cons.1 h).imp_right (List.mem_cons_of_mem _)
    · obtain rfl | h := List.mem_cons.1 h
      · exact .inr List.mem_cons_self
      · exact (ih h).imp_right (List.mem_cons_of_mem _)

/-- A part whose flags and notices are those of another. -/
theorem State.EventLaw.of_sub {s t : State} (h : s.EventLaw) (he : t.events = s.events)
    (hq : ∀ f d, TxFrame.notice f d ∈ t.link.sendQueue → TxFrame.notice f d ∈ s.link.sendQueue) : t.EventLaw := by
  obtain ⟨hflags, hnotices⟩ := h
  exact ⟨fun f d hf => hflags f d (by rwa [he] at hf), fun f d hn => hnotices f d (hq f d hn)⟩

theorem State.EventLaw.congr {s t : State} (h : s.EventLaw) (he : t.events = s.events) (hl : t.link = s.link) : t.EventLaw :=
  h.of_sub he fun f d hn => by rwa [hl] at hn

theorem State.EventLaw.notify {s : State} (h : s.EventLaw) {f : Flag} {d : EventData} (hd : f.holds d = true) :
    (s.notify f d).EventLaw := by
  obtain ⟨hflags, hnotices⟩ := h
  refine ⟨hflags, fun f' d' hn => ?_⟩
  obtain he | hn := mem_of_mem_placeNotice hn
  · cases he
    exact hd
  · exact hnotices f' d' hn

theorem State.EventLaw.setFlag {s : State} (h : s.EventLaw) {f : Flag} {d : Option EventData} (hd : ∀ e ∈ d, f.holds e = true) :
    ({ s with events := s.events.setFlag f d } : State).EventLaw := by
  obtain ⟨hflags, hnotices⟩ := h
  refine ⟨fun f' d' hf => ?_, hnotices⟩
  by_cases he : f' = f
  · subst he
    exact hd d' (by simpa using hf)
  · exact hflags f' d' (by simpa [EventUnit.flag_setFlag_ne _ _ he] using hf)

theorem State.EventLaw.raise {s : State} (h : s.EventLaw) {f : Flag} {d : EventData} (hd : f.holds d = true) :
    (s.raise f d).EventLaw := by
  have hset := h.setFlag (f := f) (d := some d) fun e he => by rwa [← Option.mem_some_iff.1 he]
  obtain ⟨_, _, he⟩ | ⟨_, _, he⟩ | ⟨_, _, he⟩ := s.raise_cases f d <;> rw [he]
  · exact h
  · exact hset
  · exact hset.notify hd

theorem State.EventLaw.raiseAll {s : State} (h : s.EventLaw) {r : List (Flag × EventData)} (hr : ∀ p ∈ r, p.1.holds p.2 = true) :
    (s.raiseAll r).EventLaw := by
  induction r generalizing s with
  | nil => exact h
  | cons p r ih =>
    obtain ⟨f, d⟩ := p
    exact ih (h.raise (hr (f, d) List.mem_cons_self)) fun p hp => hr p (List.mem_cons_of_mem _ hp)

@[simp] theorem State.select_events (s : State) : s.select.events = s.events := s.selectDue_events

theorem State.Act.eventLaw {s t : State} (ha : s.Act t) (hc : s.Core) (h : s.EventLaw) : t.EventLaw := by
  cases ha with
  | raised f d hd => exact h.raise hd
  | notified f d hf => exact h.notify (h.1 f d hf)
  | cleared f => exact h.setFlag fun e he => by cases he
  | works g r hw =>
    obtain ⟨c, x, -, hr, -, -⟩ := hc.works hw
    have hset : (s.setGalley g r.gal).EventLaw := h
    exact hset.raiseAll hr.events
  | selected => exact h.congr s.select_events s.select_link
  | masked => exact h
  | resetTaken | sets | loads | pageOpened | pageClosed | changes | lineEnded | cutEnded | failed | due =>
    exact h.of_sub rfl fun _ _ hn => hn

theorem State.Acts.eventLaw {s t : State} (ha : s.Acts t) (hc : s.Core) (h : s.EventLaw) : t.EventLaw := by
  induction ha with
  | refl => exact h
  | tail hs hact ih => exact hact.eventLaw (State.partLaw_core.acts hs hc) ih

/-! ### Frames and resets (R158, R161, R174) -/

theorem Answer.place_eventLaw {a : Answer} (queued : Nat) (kind target : Byte) (h : a.state.EventLaw) :
    (a.place queued kind target).EventLaw := by
  refine h.of_sub rfl fun f d hn => ?_
  obtain hn | hn := List.mem_append.1 hn
  · exact List.mem_of_mem_take hn
  · obtain hn | hn := List.mem_cons.1 hn
    · cases hn
    · exact List.mem_of_mem_drop hn

theorem State.takeFrame_eventLaw {s : State} (f : LinkFrame) (hc : s.Core) (h : s.EventLaw) : (s.takeFrame f).EventLaw := by
  unfold State.takeFrame
  refine State.EventLaw.congr ?_ (s.noting_events _) (s.noting_link _)
  split
  · exact Answer.place_eventLaw _ _ _ h
  · split
    · exact Answer.place_eventLaw _ _ _ ((dispatch_acts s _ _ _).eventLaw hc h)
    · exact Answer.place_eventLaw _ _ _ h

theorem State.completeFrame_eventLaw {s : State} (f : LinkFrame) (hc : s.Core) (h : s.EventLaw) :
    (s.completeFrame f).EventLaw := by
  unfold State.completeFrame
  dsimp only
  split
  · exact State.takeFrame_eventLaw f (hc.congr rfl rfl rfl) h
  · exact h

theorem State.takeHeldFrame_eventLaw {s : State} (hc : s.Core) (h : s.EventLaw) : s.takeHeldFrame.EventLaw := by
  unfold State.takeHeldFrame
  split
  · exact h
  · split
    · exact State.takeFrame_eventLaw _ (hc.congr rfl rfl rfl) h
    · exact h

theorem ComposingLink.collect_sendQueue (l : ComposingLink) (b : Byte) : (l.collect b).1.sendQueue = l.sendQueue := by
  unfold ComposingLink.collect
  split
  · split <;> rfl
  · dsimp only
    split <;> rfl

/-- An event unit at its reset values, with no notice waiting (R174). -/
theorem State.eventLaw_of_reset {s : State} (he : s.events = EventUnit.reset)
    (hq : ∀ f d, TxFrame.notice f d ∉ s.link.sendQueue) : s.EventLaw :=
  ⟨fun f d hf => by simp [he, EventUnit.flag, EventUnit.reset] at hf, fun f d hn => absurd hn (hq f d)⟩

theorem exec_eventLaw {c : Instr} {s t : State} (hc : s.Core) (h : s.EventLaw) (he : exec c s = .next t) : t.EventLaw := by
  obtain ha | ⟨f, rfl⟩ | ⟨b, rfl⟩ | rfl | rfl | ⟨early, rfl⟩ | rfl | rfl := exec_acts c s t he
  · exact ha.eventLaw hc h
  · exact State.completeFrame_eventLaw f hc h
  · have hq := s.link.collect_sendQueue b
    have hl (l : ComposingLink) (hl : l.sendQueue = s.link.sendQueue) : ({ s with link := l } : State).EventLaw :=
      h.of_sub rfl fun f d hn => by rwa [← hl]
    unfold State.linkByte
    split
    · rename_i hb
      rw [hb] at hq
      exact hl _ hq
    · rename_i hb
      rw [hb] at hq
      exact State.completeFrame_eventLaw _ (hc.congr rfl rfl rfl) (hl _ hq)
  · unfold State.transmit
    split
    · exact h
    · split
      · exact h
      · rename_i hq
        exact State.takeHeldFrame_eventLaw (hc.congr rfl rfl rfl)
          (h.of_sub rfl fun f d hn => hq ▸ List.mem_cons_of_mem _ hn)
  · unfold State.resetEffect
    split
    · exact State.eventLaw_of_reset rfl (by simp [State.partReset, ComposingLink.reset])
    · exact h
  · exact State.takeHeldFrame_eventLaw (State.partLaw_core.powered _ _ _) (State.eventLaw_of_reset rfl (by simp))
  · refine h.of_sub rfl fun f d hn => ?_
    revert hn
    unfold ComposingLink.gapExpiry
    split <;> exact id
  · exact h

/-- The galleys' laws and the event unit's are kept together: what a galley's work raises is judged by its galley's laws. -/
theorem step_core_and_eventLaw {s t : State} (hc : s.Core) (h : s.EventLaw) (hs : step s = .next t) : t.Core ∧ t.EventLaw :=
  step_keeps_of_exec (P := fun s => s.Core ∧ s.EventLaw)
    (fun _ _ _ ⟨hc, h⟩ he => ⟨State.partLaw_core.exec hc he, exec_eventLaw hc h he⟩)
    (fun _ _ ⟨hc, h⟩ => ⟨hc.congr rfl rfl rfl, h⟩) ⟨hc, h⟩ hs

/-! ### All the laws -/

theorem Galley.Stands.law {depth high : Nat} {x : Galley} (h : x.Stands depth high) (hbuilder : x.BuilderLaw) (hfit : x.FitLaw) :
    x.Law :=
  ⟨h.halt, h.states, h.latch, h.queue, hbuilder, hfit, h.value, h.timer⟩

theorem State.Good.builder_fit {s : State} (h : s.Good) (g : GalleyId) : (s.galley g).BuilderLaw ∧ (s.galley g).FitLaw := by
  obtain ⟨-, hgalley, -⟩ := h
  obtain ⟨-, -, -, -, hbuilder, hfit, -, -⟩ := hgalley g
  exact ⟨hbuilder, hfit⟩

theorem State.Core.good {s : State} (h : s.Core) (hfont : s.FontLaw)
    (hbuilder : ∀ g, (s.galley g).BuilderLaw ∧ (s.galley g).FitLaw) (hquery : s.unit.QueryLaw) (hdue : s.DueLaw)
    (hlink : s.link.Law) (hevents : s.EventLaw) : s.Good :=
  ⟨hfont, fun g => (h.galleys g).law (hbuilder g).1 (hbuilder g).2, h.page, h.order, h.view, hquery, h.restraintLaw, h.depthLaw,
    hdue, hlink, hevents⟩

/-- Settles O59: the acts keep the laws of the galleys on their page, of the order and of restraint, and the event unit's law with them; the
other laws each have a proof of their own. -/
theorem everyStepKeepsTheLaws : Obligations.EveryStepKeepsTheLaws := by
  intro s t hs h
  have hbuilder := hs.builder_fit
  obtain ⟨hlaw, hfit⟩ := builderLawIsKeptAndLinesFit
  have hbuilt := hlaw s t (fun g => (hbuilder g).1) h
  have hfits := hfit s t hbuilder h
  have hcore := hs.core
  obtain ⟨hfont, -, -, -, -, hquery, -, -, hdue, hlink, hevents⟩ := hs
  obtain ⟨hcore', hevents'⟩ := step_core_and_eventLaw hcore hevents h
  exact hcore'.good (State.partLaw_fontLaw.step hfont h) (fun g => ⟨hbuilt g, hfits g⟩) (State.partLaw_queryLaw.step hquery h)
    (step_dueLaw hdue h) (step_linkLaw hlink h) hevents'

/-! ### Power-on -/

theorem Galley.reset_builderLaw : Galley.reset.BuilderLaw := ⟨rfl, rfl, rfl, Nat.zero_le _, fun _ => rfl⟩

theorem Galley.reset_fitLaw : Galley.reset.FitLaw := fun h => by cases h

/-- Settles O60: the part that power-on leaves has every law, each by the law's own fact about the reset values. -/
theorem resetKeepsTheLaws : Obligations.ResetKeepsTheLaws := by
  have hgalley (g : GalleyId) : State.reset.galley g = Galley.reset := by simp [State.galley, State.reset]
  have hcore : State.reset.Core := State.core_of_reset (number := 0) (nextOrder := 0) rfl rfl rfl
  refine hcore.good State.reset_fontLaw (fun g => ?_) UnitLink.reset_queryLaw (State.dueLaw_of_gateOpen_false rfl)
    (ComposingLink.reset_law .power) (State.eventLaw_of_reset rfl (by simp [State.reset, ComposingLink.reset]))
  rw [hgalley]
  exact ⟨Galley.reset_builderLaw, Galley.reset_fitLaw⟩

end Sys2Proof.Machine
end

