-- ==== Sys2Proof/Proofs/FontRequests.lean ====
section
/-! The font store's requests but FONT GLYPHS, and the timers (R25, R31 to R35, R74); and the values of power-on. -/

namespace Sys2Proof.Machine

/-! ### Bytes and the numbers they spell (9.7) -/

theorem byteOf_toNat {n : Nat} (h : n ≤ 255) : (byteOf n).toNat = n := by
  simp only [byteOf, BitVec.toNat_ofNat]
  omega

theorem unit16_be16 (u : CodeUnit) : unit16 (byteOf (u.toNat / 256)) (byteOf u.toNat) = u := by
  rw [unit16, nat16_be16 _ u.isLt, BitVec.ofNat_toNat, BitVec.setWidth_eq]

theorem isCharCode_iff (u : CodeUnit) : isCharCode u = true ↔ 0x20 ≤ u.toNat ∧ u.toNat ≤ 0xEFFF := by
  rw [isCharCode, Bool.and_eq_true, decide_eq_true_iff, decide_eq_true_iff]
  omega

/-- A signed number of one byte reads back (9.7). -/
theorem signedByte_toInt {i : Int} (h : -128 ≤ i ∧ i ≤ 127) : (signedByte i).toInt = i := by
  rw [signedByte, BitVec.toInt_ofInt]
  exact Int.bmod_eq_of_le (by omega) (by omega)

/-! ### A request of a font slot (R158 to R161) -/

section Slots

variable {s : State} {n : SlotId} {k : ReqKind} {body : List Byte}

/-- A request of a slot that its owner answers with the slot replaced: its reply stands at the back of the queue, and no selection comes to be
due. -/
theorem completeFrame_setFont (hcan : s.link.canTake = true) (hd : k.domain = .slot) (hl : k.lengthGood body = true) {f : Slot}
    {r : Result} {data : List Byte}
    (h : handle k { s with link := s.link.hunt } (byteOf n.val) body
      = { state := ({ s with link := s.link.hunt } : State).setFont n f, result := r, data := data }) :
    s.completeFrame (goodFrame k.code (byteOf n.val) body) = (s.setFont n f).answer k.code (byteOf n.val) r data := by
  rw [completeFrame_request s k _ body hcan (hd ▸ Domain.slot_holds n) hl, h, place_answer s _ r data _ _ rfl]
  exact State.noting_same _ _ rfl rfl

/-- A request of a slot that its owner answers with the part as it was. -/
theorem completeFrame_slot_same (hcan : s.link.canTake = true) (hd : k.domain = .slot) (hl : k.lengthGood body = true)
    {r : Result} {data : List Byte}
    (h : handle k { s with link := s.link.hunt } (byteOf n.val) body
      = { state := { s with link := s.link.hunt }, result := r, data := data }) :
    s.completeFrame (goodFrame k.code (byteOf n.val) body) = s.answer k.code (byteOf n.val) r data := by
  have hsame := completeFrame_setFont (n := n) (f := s.font n) hcan hd hl (h.trans (by
    rw [show s.font n = ({ s with link := s.link.hunt } : State).font n from rfl, State.setFont_font]))
  rwa [State.setFont_font] at hsame

/-- A request of a slot that raises a flag besides: the notice follows the reply (R161). -/
theorem completeFrame_setFont_raise (hcan : s.link.canTake = true) (hd : k.domain = .slot) (hl : k.lengthGood body = true)
    {f : Slot} {flag : Flag} {d : EventData} {r : Result} {data : List Byte}
    (h : handle k { s with link := s.link.hunt } (byteOf n.val) body
      = { state := (({ s with link := s.link.hunt } : State).setFont n f).raise flag d, result := r, data := data }) :
    s.completeFrame (goodFrame k.code (byteOf n.val) body)
      = ((s.setFont n f).answer k.code (byteOf n.val) r data).raise flag d := by
  have hplace := place_raise (({ s with link := s.link.hunt } : State).setFont n f) flag d r data k.code (byteOf n.val)
  rw [completeFrame_request s k _ body hcan (hd ▸ Domain.slot_holds n) hl, h]
  refine (congrArg s.noting hplace).trans ?_
  rw [State.noting_raise]
  exact congrArg (State.raise · flag d) (State.noting_same _ _ rfl rfl)

/-- The pool behind a slot replaced (R23). -/
theorem poolFree_setFont (s : State) (n : SlotId) (f : Slot) :
    poolFree (s.setFont n f).fonts = 4096 - (poolUse s.fonts - (s.font n).records.length + f.records.length) := by
  have hset := poolUse_set s n f
  have hle := records_le_poolUse s n
  rw [poolFree, Config.poolPlaces]
  omega

end Slots

/-! ### FONT BEGIN and FONT DROP (R25, R34) -/

/-- The tests of a header's own bytes are R25's of the header. -/
theorem handleFontBegin_body (s : State) (n : SlotId) (h : Header) (hnat : h.natural ≤ 255) (hmin : h.minimum ≤ 255)
    (hmax : h.maximum ≤ 255) (hdecl : h.declared ≤ 65535) :
    handleFontBegin s (byteOf n.val) h.body
      = if h.minimum ≤ h.natural ∧ h.natural ≤ h.maximum ∧ isCharCode h.missing = true ∧ 1 ≤ h.declared ∧ h.declared ≤ 1024 then
          (s.setFont n { Slot.empty with state := .loading, header := some h, silence := true }).accept
            (be16 (s.font n).records.length ++ be16 (4096 - (poolUse s.fonts - (s.font n).records.length)))
        else s.refuse .range := by
  have hpool := poolFree_setFont s n { Slot.empty with state := .loading, header := some h, silence := true }
  simp only [handleFontBegin, Header.body, be16, List.cons_append, List.nil_append, slotOf_byteOf, unit16_be16, byteOf_toNat hnat,
    byteOf_toNat hmin, byteOf_toNat hmax, nat16_be16 _ (Nat.lt_succ_of_le hdecl), hpool, Bool.and_eq_true, decide_eq_true_iff,
    and_assoc]
  rfl

/-- Settles O29: the header's bytes are read back, and the slot's records leave the pool. -/
theorem fontBeginStartsALoad : Obligations.FontBeginStartsALoad := by
  refine ⟨fun s n h hcan hgood => ?_, fun s n h hcan hnat hmin hmax hdecl hbad => ?_⟩
  · obtain ⟨hlo, hhi, hmax, hcode, hone, hmany⟩ := hgood
    refine congrArg Host.Outcome.next (completeFrame_setFont (k := .fontBegin) hcan rfl rfl ?_)
    rw [handle, handleFontBegin_body _ n h (hhi.trans hmax) (hlo.trans (hhi.trans hmax)) hmax (hmany.trans (by decide)),
      if_pos ⟨hlo, hhi, hcode, hone, hmany⟩]
    rfl
  · refine congrArg Host.Outcome.next (completeFrame_slot_same (k := .fontBegin) hcan rfl rfl ?_)
    rw [handle, handleFontBegin_body _ n h hnat hmin hmax hdecl, if_neg]
    · rfl
    · rw [isCharCode_iff]
      omega

/-- Settles O30: the slot's records leave the pool. -/
theorem fontDropEmptiesTheSlot : Obligations.FontDropEmptiesTheSlot := by
  intro s n b hcan
  refine congrArg Host.Outcome.next (completeFrame_setFont (k := .fontDrop) hcan rfl rfl ?_)
  have hpool := poolFree_setFont { s with link := s.link.hunt } n Slot.empty
  simp only [handle, handleFontDrop, slotOf_byteOf, hpool]
  rfl

/-! ### FONT END (R32) -/

theorem Slot.missingHeld_of_header {f : Slot} {h : Header} (hh : f.header = some h) :
    f.missingHeld = decide (h.missing ∈ f.records.map GlyphRecord.code) := by
  rw [Slot.missingHeld, hh, Bool.eq_iff_iff, decide_eq_true_iff]
  exact Slot.find_isSome f h.missing

/-- The three conditions of R32. -/
theorem Slot.loadGood_iff {f : Slot} {h : Header} (hh : f.header = some h) :
    f.loadGood = true ↔ f.records.length = h.declared ∧ f.rejected = [] ∧ f.overflow = false ∧
      h.missing ∈ f.records.map GlyphRecord.code := by
  simp only [Slot.loadGood, Slot.missingHeld_of_header hh, hh, Bool.and_eq_true, beq_iff_eq, List.isEmpty_iff, Bool.not_eq_true',
    decide_eq_true_iff, and_assoc]

/-- FONT END of a LOADING slot, by its judgement. -/
theorem exec_fontEnd (s : State) (n : SlotId) (b : Byte) (h : Header) (hcan : s.link.canTake = true)
    (hst : (s.font n).state = .loading) (hh : (s.font n).header = some h) :
    exec (.fontEnd (byteOf n.val) [b]) s
      = .next (((s.setFont n
            { s.font n with state := if (s.font n).loadGood then .valid else .provisional, silence := false }).answer
          0x23 (byteOf n.val) .done
          ([flagByte (s.font n).loadGood] ++ be16 (s.font n).records.length ++ be16 h.declared
            ++ [byteOf (s.font n).rejected.length, flagByte (s.font n).overflow, flagByte (s.font n).missingHeld])).raise
          .fontDone (.fontDone n (s.font n).loadGood)) := by
  refine congrArg Host.Outcome.next (completeFrame_setFont_raise (k := .fontEnd) hcan rfl rfl ?_)
  have hst' : ({ s with link := s.link.hunt } : State).font n = s.font n := rfl
  simp only [handle, handleFontEnd, slotOf_byteOf, hst', hst, Slot.declared, hh, ne_eq, not_true, if_false]
  rfl

/-- Settles O34: FONT END judges by the three conditions of R32, and its notice follows the reply. -/
theorem fontEndJudgesTheLoad : Obligations.FontEndJudgesTheLoad := by
  refine ⟨fun s n b h hcan hst hh hlen hrej hover hmiss => ?_, fun s n b h hcan hst hh hbad => ?_, fun s n b hcan hst => ?_⟩
  · have hgood : (s.font n).loadGood = true := (Slot.loadGood_iff hh).2 ⟨hlen, hrej, hover, hmiss⟩
    rw [exec_fontEnd s n b h hcan hst hh, hgood, Slot.missingHeld_of_header hh, hlen, hrej, hover, decide_eq_true hmiss]
    rfl
  · have hgood : (s.font n).loadGood = false := eq_false_of_ne_true fun hg => hbad ((Slot.loadGood_iff hh).1 hg)
    rw [exec_fontEnd s n b h hcan hst hh, hgood, Slot.missingHeld_of_header hh]
    rfl
  · refine congrArg Host.Outcome.next (completeFrame_slot_same (k := .fontEnd) hcan rfl rfl ?_)
    have hst' : (({ s with link := s.link.hunt } : State).font n).state ≠ .loading := hst
    simp only [handle, handleFontEnd, slotOf_byteOf, if_pos hst']
    rfl

/-! ### FONT KERN (R31) -/

/-- What rows written to a kern table leave at a place: a row's value where the row is among those written (R31). -/
theorem writeRows_at (rows : List (Vector Int 16)) (t : KernTable) (row : Nat) (hrow : row + rows.length ≤ 16)
    (hgood : ∀ r ∈ rows, ∀ v ∈ r.toList, -32 ≤ v ∧ v ≤ 31) (a b : Fin 16) :
    (writeRows t row (rows.map (fun r => r.toList.map signedByte)).flatten rows.length).at a b
      = if row ≤ a.val ∧ a.val < row + rows.length then (rows.getD (a.val - row) (Vector.replicate 16 0))[b] else t.at a b := by
  induction rows generalizing t row with
  | nil => simp [writeRows]
  | cons r rows ih =>
    have hlen : (r.toList.map signedByte).length = 16 := by simp
    have hkern : kernRow (r.toList.map signedByte) = r := by
      ext i hi
      have hv := hgood r List.mem_cons_self r[i] (by simp)
      simp only [kernRow, Vector.getElem_ofFn, List.getElem?_map, Vector.getElem?_toList, Vector.getElem?_eq_getElem hi,
        Option.map_some, Option.getD_some]
      exact signedByte_toInt ⟨by omega, by omega⟩
    have hrest := ih (t.setIfInBounds row r) (row + 1) (by simp only [List.length_cons] at hrow; omega)
      fun r' hr' => hgood r' (List.mem_cons_of_mem _ hr')
    simp only [List.map_cons, List.flatten_cons, List.length_cons, writeRows, List.take_left' hlen, List.drop_left' hlen, hkern,
      hrest, KernTable.at_setIfInBounds]
    by_cases ha : a.val = row
    · simp [ha]
    · by_cases hlt : row < a.val
      · have hi' : a.val - row = (a.val - (row + 1)) + 1 := by omega
        simp only [hi', List.getD_cons_succ, Ne.symm ha, if_false]
        congr 1
        simp only [eq_iff_iff]
        omega
      · rw [if_neg (by omega), if_neg (Ne.symm ha), if_neg (by omega)]

/-- The values of whole rows in range, as bytes, pass the test of R31. -/
theorem kernGood_rows {rows : List (Vector Int 16)} (hgood : ∀ r ∈ rows, ∀ v ∈ r.toList, -32 ≤ v ∧ v ≤ 31) :
    (rows.map (fun r => r.toList.map signedByte)).flatten.all kernGood = true := by
  rw [List.all_eq_true]
  intro b hb
  obtain ⟨bytes, hbytes, hb⟩ := List.mem_flatten.1 hb
  obtain ⟨r, hr, rfl⟩ := List.mem_map.1 hbytes
  obtain ⟨v, hv, rfl⟩ := List.mem_map.1 hb
  obtain ⟨hlo, hhi⟩ := hgood r hr v hv
  rw [kernGood, signedByte_toInt ⟨by omega, by omega⟩, decide_eq_true hlo, decide_eq_true hhi]
  rfl

theorem length_kernRows (rows : List (Vector Int 16)) :
    (rows.map (fun r => r.toList.map signedByte)).flatten.length = rows.length * 16 := by
  induction rows with
  | nil => rfl
  | cons r rows ih => simp only [List.map_cons, List.flatten_cons, List.length_append, ih, List.length_map, Vector.length_toList,
      List.length_cons]; omega

/-- FONT KERN of a LOADING slot: the rows pass, or the whole frame is refused (R31, R33). -/
theorem handleFontKern_loading (s : State) (n : SlotId) (row count : Byte) (values : List Byte) (hst : (s.font n).state = .loading) :
    handleFontKern s (byteOf n.val) (row :: count :: values)
      = if row.toNat < 16 ∧ 1 ≤ count.toNat ∧ count.toNat ≤ 16 ∧ row.toNat + count.toNat ≤ 16
            ∧ values.length = count.toNat * 16 ∧ values.all kernGood then
          (s.setFont n { s.font n with
            kern := writeRows (s.font n).kern row.toNat values count.toNat, silence := true }).accept []
        else (s.setFont n { s.font n with silence := true }).refuse .range := by
  simp only [handleFontKern, slotOf_byteOf, hst, ne_eq, not_true, if_false]

/-- Settles O33: the rows are written one after another, each over one row of the table. -/
theorem fontKernWritesWholeRows : Obligations.FontKernWritesWholeRows := by
  refine ⟨fun s n row rows hcan hst hone hrow hgood => ⟨_, writeRows_at rows (s.font n).kern row hrow hgood, ?_⟩,
    fun s n row count values hcan hst hbad => ?_, fun s n body hcan hst => ?_⟩
  · refine congrArg Host.Outcome.next (completeFrame_setFont (k := .fontKern) hcan rfl rfl ?_)
    simp only [handle, List.cons_append, List.nil_append]
    rw [handleFontKern_loading { s with link := s.link.hunt } n _ _ _ hst, byteOf_toNat (by omega), byteOf_toNat (by omega),
      if_pos ⟨by omega, hone, by omega, hrow, length_kernRows rows, kernGood_rows hgood⟩]
    rfl
  · refine congrArg Host.Outcome.next (completeFrame_setFont (k := .fontKern) hcan rfl rfl ?_)
    simp only [handle]
    rw [handleFontKern_loading { s with link := s.link.hunt } n _ _ _ hst, if_neg]
    · rfl
    · rintro ⟨hrow, hone, hmany, hsum, hlen, hvalues⟩
      obtain h | h | h | h | h | ⟨v, hv, h⟩ := hbad
      · omega
      · omega
      · omega
      · omega
      · exact h hlen
      · have hv := List.all_eq_true.1 hvalues v hv
        rw [kernGood, Bool.and_eq_true, decide_eq_true_iff, decide_eq_true_iff] at hv
        omega
  · refine congrArg Host.Outcome.next (completeFrame_slot_same (k := .fontKern) hcan rfl rfl ?_)
    have hst' : (({ s with link := s.link.hunt } : State).font n).state ≠ .loading := hst
    simp only [handle, handleFontKern, slotOf_byteOf, if_pos hst']
    rfl

/-! ### FONT QUERY (R35) -/

/-- A slot's header as FONT QUERY returns it (9.7). -/
def Slot.headerBytes (f : Slot) : List Byte :=
  match f.header with
  | none => [0, 0, 0, 0, 0, 0, 0, 0]
  | some h => h.body

/-- A slot's kern table as FONT QUERY returns it (9.7). -/
def Slot.kernBytes (f : Slot) : List Byte := (f.kern.toList.map Vector.toList).flatten.map signedByte

/-- A slot's rejected codes as FONT QUERY returns them (9.7). -/
def Slot.rejectedBytes (f : Slot) : List Byte := (f.rejected.map (fun c => be16 c.toNat)).flatten

/-- The reply of FONT QUERY, in the order of 9.7. -/
def Slot.queryBytes (f : Slot) (use : Nat) : List Byte :=
  (byteOf f.state.code :: f.headerBytes) ++ (f.kernBytes ++
    ((be16 f.records.length ++ [flagByte f.missingHeld, byteOf f.rejected.length]) ++
      ((f.rejectedBytes ++ List.replicate (32 - f.rejectedBytes.length) 0) ++ ([flagByte f.overflow] ++ be16 use))))

theorem handleFontQuery_eq (s : State) (n : SlotId) (body : List Byte) :
    handleFontQuery s (byteOf n.val) body = s.accept ((s.font n).queryBytes (poolUse s.fonts)) := by
  simp only [handleFontQuery, slotOf_byteOf, Slot.queryBytes, Slot.kernBytes, Slot.rejectedBytes, List.append_assoc]
  unfold Slot.headerBytes
  cases (s.font n).header <;> rfl

theorem Slot.length_headerBytes (f : Slot) : f.headerBytes.length = 8 := by
  unfold Slot.headerBytes
  split <;> rfl

/-- Rows of one length: what stands from a row's beginning on. -/
theorem drop_flatten_rows {α : Type} {m : Nat} (rows : List (List α)) (h : ∀ row ∈ rows, row.length = m) (i : Nat) :
    rows.flatten.drop (m * i) = (rows.drop i).flatten := by
  induction rows generalizing i with
  | nil => simp
  | cons row rows ih =>
    cases i with
    | zero => rfl
    | succ i =>
      have hlen := h row List.mem_cons_self
      rw [List.flatten_cons, Nat.mul_succ, Nat.add_comm, ← List.drop_drop, List.drop_left' hlen,
        ih fun row' hr => h row' (List.mem_cons_of_mem _ hr)]
      rfl

theorem length_flatten_rows {α : Type} {m : Nat} (rows : List (List α)) (h : ∀ row ∈ rows, row.length = m) :
    rows.flatten.length = m * rows.length := by
  rw [List.length_flatten, List.map_congr_left h, List.map_const', List.sum_replicate, smul_eq_mul, Nat.mul_comm]

theorem Slot.length_kernBytes (f : Slot) : f.kernBytes.length = 256 := by
  rw [Slot.kernBytes, List.length_map, length_flatten_rows (m := 16) _ (by simp)]
  simp

/-- A kern value's place among the bytes (9.7). -/
theorem Slot.kernBytes_getElem? (f : Slot) (i j : Fin 16) : f.kernBytes[16 * i.val + j.val]? = some (signedByte (f.kern.at i j)) := by
  have hrow : (f.kern.toList.map Vector.toList).drop i.val
      = f.kern[i].toList :: (f.kern.toList.map Vector.toList).drop (i.val + 1) := by
    rw [List.drop_eq_getElem_cons (by simp)]
    simp
  rw [Slot.kernBytes, List.getElem?_map, ← List.getElem?_drop, drop_flatten_rows _ (by simp), hrow, List.flatten_cons,
    List.getElem?_append_left (by simp)]
  simp [KernTable.at]

theorem Slot.length_rejectedBytes (f : Slot) : f.rejectedBytes.length = 2 * f.rejected.length := by
  rw [Slot.rejectedBytes, length_flatten_rows (m := 2) _ (by simp), List.length_map]

/-- A rejected code's place among the bytes, whatever follows them (9.7). -/
theorem Slot.rejectedBytes_drop_take (f : Slot) (rest : List Byte) {i : Nat} {c : CodeUnit} (h : f.rejected[i]? = some c) :
    ((f.rejectedBytes ++ rest).drop (2 * i)).take 2 = be16 c.toNat := by
  obtain ⟨hi, hc⟩ := List.getElem?_eq_some_iff.1 h
  have hcode : (f.rejected.map (fun c => be16 c.toNat)).drop i
      = be16 c.toNat :: (f.rejected.map (fun c => be16 c.toNat)).drop (i + 1) := by
    rw [List.drop_eq_getElem_cons (by simpa using hi), List.getElem_map, hc]
  rw [List.drop_append_of_le_length (by rw [f.length_rejectedBytes]; omega), Slot.rejectedBytes, drop_flatten_rows _ (by simp), hcode]
  rfl

/-- Settles O35: each field stands behind the fields before it, whose lengths are known. -/
theorem fontQueryReturnsTheSlot : Obligations.FontQueryReturnsTheSlot := by
  intro s n b hcan hrejected
  refine ⟨(s.font n).queryBytes (poolUse s.fonts), ?_, ?_⟩
  · refine congrArg Host.Outcome.next (completeFrame_slot_same (k := .fontQuery) hcan rfl rfl ?_)
    exact handleFontQuery_eq { s with link := s.link.hunt } n [b]
  · generalize s.font n = f at hrejected ⊢
    have hhead : (byteOf f.state.code :: f.headerBytes).length = 9 := congrArg (· + 1) f.length_headerBytes
    have hkern := f.length_kernBytes
    have hcodes := f.length_rejectedBytes
    have hpad : (f.rejectedBytes ++ List.replicate (32 - f.rejectedBytes.length) 0).length = 32 := by
      rw [List.length_append, List.length_replicate]
      omega
    have hcounts : (be16 f.records.length ++ [flagByte f.missingHeld, byteOf f.rejected.length]).length = 4 := rfl
    have hbehind (k : Nat) : (f.queryBytes (poolUse s.fonts)).drop (265 + k)
        = ((be16 f.records.length ++ [flagByte f.missingHeld, byteOf f.rejected.length]) ++
          ((f.rejectedBytes ++ List.replicate (32 - f.rejectedBytes.length) 0)
            ++ ([flagByte f.overflow] ++ be16 (poolUse s.fonts)))).drop k := by
      rw [← List.drop_drop, Slot.queryBytes, ← List.append_assoc, List.drop_left' (by rw [List.length_append, hhead, hkern])]
    refine ⟨?_, List.take_left' hhead, fun i j => ?_, ?_, fun i c hc => ?_, ?_⟩
    · rw [Slot.queryBytes, List.length_append, hhead, List.length_append, hkern, List.length_append, hcounts,
        List.length_append, hpad]
      rfl
    · rw [Slot.queryBytes, Nat.add_assoc, List.getElem?_append_right (by omega), hhead, Nat.add_sub_cancel_left,
        List.getElem?_append_left (by omega), f.kernBytes_getElem?]
    · rw [hbehind 0]
      rfl
    · rw [show 269 + 2 * i = 265 + (4 + 2 * i) by omega, hbehind, ← List.drop_drop, List.drop_left' hcounts, List.append_assoc]
      exact f.rejectedBytes_drop_take _ hc
    · rw [show 301 = 265 + (4 + 32) by rfl, hbehind, ← List.drop_drop, List.drop_left' hcounts, List.drop_left' hpad]

/-! ### The timers (R33, R74) -/

/-- Settles O36: an expiry acts where its timer runs, and not elsewhere. -/
theorem timersExpire : Obligations.TimersExpire := by
  refine ⟨fun s n h => ?_, fun s n h => ?_, fun s g h => ?_, fun s g h => ?_⟩
  · exact congrArg Host.Outcome.next (if_pos h)
  · exact congrArg Host.Outcome.next (if_neg (by simp [h]))
  · exact congrArg Host.Outcome.next (if_pos h)
  · exact congrArg Host.Outcome.next (if_neg (by simp [h]))

/-! ### Power-on (R18, R39, R53, R55, R80, R81, R123, R142, R152, R164, R174) -/

/-- Settles O12: every slot, every galley and every flag is at its reset value, and the rest is read off `State.reset`. -/
theorem resetValuesAreTheManuals : Obligations.ResetValuesAreTheManuals := by
  have hfont (n : SlotId) : State.reset.font n = Slot.empty := by simp [State.font, State.reset]
  have hgalley (g : GalleyId) : State.reset.galley g = Galley.reset := by simp [State.galley, State.reset]
  refine ⟨rfl, rfl, rfl, rfl, fun n => ?_, fun g => ?_, rfl, rfl, rfl, rfl, rfl, rfl, rfl, fun f => ?_⟩
  · rw [hfont]
    exact ⟨rfl, rfl, rfl, KernTable.zero_at, rfl, rfl, rfl⟩
  · rw [hgalley]
    simp [Galley.reset, Builder.empty]
  · simp [State.reset, EventUnit.reset, EventUnit.flag, EventUnit.masked]

end Sys2Proof.Machine
end

