-- ==== Sys2Proof/Proofs/GlyphRecords.lean ====
section
/-! Glyph records as bytes (R20 to R22), and FONT GLYPHS (R26 to R30). -/

namespace Sys2Proof.Machine

/-! ### The parts of a record (9.7) -/

theorem takeImage_imageBytes {i : Option Image} (rest : List Byte) (hgood : imageGood i = true) (hadv : ∀ m ∈ i, m.advance ≤ 255) :
    takeImage i.isSome (imageBytes i ++ rest) = (i, rest) := by
  cases i with
  | none => cases rest <;> rfl
  | some m =>
    obtain ⟨glyph, advance⟩ := m
    have hglyph : glyph ≤ 4095 := of_decide_eq_true hgood
    have hadvance : advance ≤ 255 := hadv _ rfl
    show (some (Image.mk (nat16 (byteOf (glyph / 256)) (byteOf glyph)) (byteOf advance).toNat), rest) = _
    rw [nat16_be16 _ (by omega), byteOf_toNat hadvance]

/-- An optional anchor part's bytes (9.7). -/
def anchorBytes : Option Anchor → List Byte
  | none => []
  | some a => [signedByte a.dx, signedByte a.dy]

/-- An optional mark offset part's bytes (9.7). -/
def markOffsetBytes : Option MarkOffset → List Byte
  | none => []
  | some o => [signedByte o.dx, signedByte o.dy, signedByte o.stack]

theorem takeAnchor_anchorBytes {a : Option Anchor} (rest : List Byte) (hgood : ∀ b ∈ a, signedGood b.dx ∧ signedGood b.dy) :
    takeAnchor a.isSome (anchorBytes a ++ rest) = (a, rest) := by
  cases a with
  | none => cases rest <;> rfl
  | some b =>
    obtain ⟨hdx, hdy⟩ := hgood b rfl
    show (some (Anchor.mk (signedByte b.dx).toInt (signedByte b.dy).toInt), rest) = _
    rw [signedByte_toInt hdx, signedByte_toInt hdy]

theorem takeMarkOffset_markOffsetBytes {o : Option MarkOffset}
    (hgood : ∀ m ∈ o, signedGood m.dx ∧ signedGood m.dy ∧ signedGood m.stack) :
    takeMarkOffset o.isSome (markOffsetBytes o) = o := by
  cases o with
  | none => rfl
  | some m =>
    obtain ⟨hdx, hdy, hstack⟩ := hgood m rfl
    show some (MarkOffset.mk (signedByte m.dx).toInt (signedByte m.dy).toInt (signedByte m.stack).toInt) = _
    rw [signedByte_toInt hdx, signedByte_toInt hdy, signedByte_toInt hstack]

theorem readDirClass_classes (dir : DirClass) (j : Joining) : readDirClass ((byteOf (16 * dir.code + j.code)).toNat / 16) = some dir := by
  cases dir <;> cases j <;> rfl

theorem readJoining_classes (dir : DirClass) (j : Joining) : readJoining ((byteOf (16 * dir.code + j.code)).toNat % 16) = some j := by
  cases dir <;> cases j <;> rfl

theorem byteOf_kernClass (k : Fin 16) : (byteOf k.val).toNat < 16 ∧ Fin.ofNat 16 (byteOf k.val).toNat = k := by
  revert k
  decide

/-- The presence byte of six parts present or not (9.7). -/
def presenceOf (b0 b1 b2 b3 b4 b5 : Bool) : Byte :=
  byteOf (b0.toNat + 2 * b1.toNat + 4 * b2.toNat + 8 * b3.toNat + 16 * b4.toNat + 32 * b5.toNat)

/-- The bits of the presence byte are the six parts', and its other bits are 0. -/
theorem presenceOf_bits : ∀ b0 b1 b2 b3 b4 b5 : Bool,
    (presenceOf b0 b1 b2 b3 b4 b5).getLsbD 0 = b0 ∧ (presenceOf b0 b1 b2 b3 b4 b5).getLsbD 1 = b1 ∧
    (presenceOf b0 b1 b2 b3 b4 b5).getLsbD 2 = b2 ∧ (presenceOf b0 b1 b2 b3 b4 b5).getLsbD 3 = b3 ∧
    (presenceOf b0 b1 b2 b3 b4 b5).getLsbD 4 = b4 ∧ (presenceOf b0 b1 b2 b3 b4 b5).getLsbD 5 = b5 ∧
    (presenceOf b0 b1 b2 b3 b4 b5).toNat < 64 := by
  decide

theorem GlyphRecord.presence_bits (r : GlyphRecord) :
    r.presence.getLsbD 0 = r.initial.isSome ∧ r.presence.getLsbD 1 = r.medial.isSome ∧ r.presence.getLsbD 2 = r.final.isSome ∧
    r.presence.getLsbD 3 = r.mirror.isSome ∧ r.presence.getLsbD 4 = r.anchor.isSome ∧
    r.presence.getLsbD 5 = r.markOffset.isSome ∧ r.presence.toNat < 64 :=
  presenceOf_bits _ _ _ _ _ _

/-! ### A record's bytes (9.7) -/

theorem GlyphRecord.optionalBytes_eq (r : GlyphRecord) :
    r.optionalBytes = imageBytes r.initial ++ (imageBytes r.medial ++ (imageBytes r.final ++ (imageBytes r.mirror
      ++ (anchorBytes r.anchor ++ markOffsetBytes r.markOffset)))) := by
  simp only [GlyphRecord.optionalBytes, List.append_assoc]
  cases r.anchor <;> cases r.markOffset <;> rfl

theorem GlyphRecord.bytes_eq (r : GlyphRecord) :
    ∃ check, r.bytes = byteOf (r.code.toNat / 256) :: byteOf r.code.toNat :: r.presence :: byteOf (r.base.glyph / 256)
      :: byteOf r.base.glyph :: byteOf r.base.advance :: byteOf (16 * r.direction.code + r.joining.code)
      :: byteOf r.kernClass.val :: check :: r.optionalBytes :=
  ⟨_, rfl⟩

/-- The check stands within the record, and makes the sum of all its bytes 0 (R22). -/
theorem GlyphRecord.byteSum_bytes (r : GlyphRecord) : byteSum r.bytes = 0 := by
  unfold GlyphRecord.bytes
  simp only [byteSum_append, byteSum_singleton, checkOf]
  generalize byteSum (be16 r.code.toNat) = a
  generalize byteSum r.optionalBytes = b
  bv_omega

theorem length_imageBytes (i : Option Image) : (imageBytes i).length = if i.isSome then 3 else 0 := by cases i <;> rfl

theorem length_anchorBytes (a : Option Anchor) : (anchorBytes a).length = if a.isSome then 2 else 0 := by cases a <;> rfl

theorem length_markOffsetBytes (o : Option MarkOffset) : (markOffsetBytes o).length = if o.isSome then 3 else 0 := by
  cases o <;> rfl

theorem GlyphRecord.length_bytes (r : GlyphRecord) : r.bytes.length = recordLength r.presence := by
  obtain ⟨check, hbytes⟩ := r.bytes_eq
  obtain ⟨h0, h1, h2, h3, h4, h5, -⟩ := r.presence_bits
  rw [hbytes]
  simp only [List.length_cons, r.optionalBytes_eq, List.length_append, length_imageBytes, length_anchorBytes,
    length_markOffsetBytes, recordLength, h0, h1, h2, h3, h4, h5]
  omega

/-- The images of a record whose content is good (R21). -/
theorem GlyphRecord.imagesGood {r : GlyphRecord} (h : r.contentGood = true) :
    r.base.glyph ≤ 4095 ∧ imageGood r.initial = true ∧ imageGood r.medial = true ∧ imageGood r.final = true ∧
      imageGood r.mirror = true := by
  simp only [GlyphRecord.contentGood, Bool.and_eq_true] at h
  obtain ⟨⟨⟨⟨⟨⟨⟨⟨⟨⟨-, hbase⟩, hinitial⟩, hmedial⟩, hfinal⟩, hmirror⟩, -⟩, -⟩, -⟩, -⟩, -⟩ := h
  exact ⟨of_decide_eq_true hbase, hinitial, hmedial, hfinal, hmirror⟩

theorem GlyphRecord.readRecord_bytes {r : GlyphRecord} (h : r.contentGood = true) (hr : r.Ranges) : readRecord r.bytes = some r := by
  obtain ⟨hbase, hinitial, hmedial, hfinal, hmirror⟩ := GlyphRecord.imagesGood h
  obtain ⟨hadv, himages, hanchor, hoffset⟩ := hr
  obtain ⟨check, hbytes⟩ := r.bytes_eq
  obtain ⟨h0, h1, h2, h3, h4, h5, hpresence⟩ := r.presence_bits
  obtain ⟨hkern, hclass⟩ := byteOf_kernClass r.kernClass
  have hsum := r.byteSum_bytes
  rw [hbytes, r.optionalBytes_eq] at hsum
  rw [hbytes]
  unfold readRecord
  simp only [h0, h1, h2, h3, h4, h5, r.optionalBytes_eq,
    takeImage_imageBytes _ hinitial (himages _ (by simp)), takeImage_imageBytes _ hmedial (himages _ (by simp)),
    takeImage_imageBytes _ hfinal (himages _ (by simp)), takeImage_imageBytes _ hmirror (himages _ (by simp)),
    takeAnchor_anchorBytes _ hanchor, takeMarkOffset_markOffsetBytes hoffset, readDirClass_classes, readJoining_classes,
    unit16_be16, nat16_be16 _ (show r.base.glyph < 65536 by omega), byteOf_toNat hadv, hclass]
  rw [if_pos (by simp [hsum, hpresence, hkern, h])]

/-- Settles O32: part by part, the reader takes what the layout wrote. -/
theorem glyphRecordsReadBack : Obligations.GlyphRecordsReadBack :=
  fun r h hr => ⟨GlyphRecord.readRecord_bytes h hr, r.length_bytes⟩

/-! ### The records of a frame (R26) -/

theorem GlyphRecord.bytes_getElem?_two (r : GlyphRecord) : r.bytes[2]? = some r.presence := by
  obtain ⟨check, hbytes⟩ := r.bytes_eq
  rw [hbytes]
  rfl

/-- The first record of a succession is split off by the length its presence byte gives. -/
theorem splitRecords_succ (n : Nat) {bs more : List Byte} {presence : Byte} (hp : bs[2]? = some presence)
    (hlen : bs.length = recordLength presence) :
    splitRecords (n + 1) (bs ++ more) = (splitRecords n more).map (bs :: ·) := by
  obtain ⟨h2, -⟩ := List.getElem?_eq_some_iff.1 hp
  have hp' : (bs ++ more)[2]? = some presence := by rwa [List.getElem?_append_left h2]
  simp only [splitRecords, hp', ← hlen, List.length_append, List.take_left, List.drop_left]
  rw [if_neg (by omega)]

/-- The bytes of records are split into the records' own, and what follows them is split further. -/
theorem splitRecords_append (rs : List GlyphRecord) (n : Nat) (more : List Byte) :
    splitRecords (rs.length + n) ((rs.map GlyphRecord.bytes).flatten ++ more)
      = (splitRecords n more).map (rs.map GlyphRecord.bytes ++ ·) := by
  induction rs with
  | nil => simp
  | cons r rs ih =>
    rw [List.length_cons, Nat.add_right_comm, List.map_cons, List.flatten_cons, List.append_assoc,
      splitRecords_succ _ r.bytes_getElem?_two r.length_bytes, ih, Option.map_map]
    rfl

theorem splitRecords_bytes (rs : List GlyphRecord) :
    splitRecords rs.length (rs.map GlyphRecord.bytes).flatten = some (rs.map GlyphRecord.bytes) := by
  simpa [splitRecords] using splitRecords_append rs 0 []

theorem splitRecords_one {bs : List Byte} {presence : Byte} (hp : bs[2]? = some presence)
    (hlen : bs.length = recordLength presence) : splitRecords 1 bs = some [bs] := by
  simpa [splitRecords] using splitRecords_succ 0 (more := []) hp hlen

/-- A body that ends before or behind its last counted record is split in no way. -/
theorem splitRecords_none {rs : List GlyphRecord} {count : Nat} {more : List Byte}
    (h : (count = rs.length ∧ more ≠ []) ∨
      (count = rs.length + 1 ∧ (more.length < 3 ∨ ∃ presence ∈ more[2]?, more.length < recordLength presence))) :
    splitRecords count ((rs.map GlyphRecord.bytes).flatten ++ more) = none := by
  obtain ⟨rfl, hmore⟩ | ⟨rfl, hmore⟩ := h
  · obtain ⟨b, rest, rfl⟩ := List.exists_cons_of_ne_nil hmore
    exact splitRecords_append rs 0 (b :: rest)
  · rw [splitRecords_append rs 1 more, Option.map_eq_none_iff]
    obtain hshort | ⟨presence, hp, hshort⟩ := hmore
    · simp [splitRecords, List.getElem?_eq_none (Nat.le_of_lt_succ hshort)]
    · simp [splitRecords, Option.mem_def.1 hp, hshort]

/-! ### The examination of records (R27 to R29) -/

/-- A slot's examination as a frame's first record meets it. -/
def Slot.examination (f : Slot) (free : Nat) : Examination :=
  { slot := { f with silence := true }, free := free, stored := 0, rejected := 0, firstRejected := 0, full := 0 }

section Examining

variable {e : Examination} {bs : List Byte}

theorem readRecord_of_byteSum (h : byteSum bs ≠ 0) : readRecord bs = none := by
  have hsum : (byteSum bs == 0) = false := beq_eq_false_iff_ne.2 h
  unfold readRecord
  simp only [hsum, Bool.false_and, Bool.false_eq_true, if_false]
  split
  · split <;> rfl
  · rfl

/-- A record that does not read (R27). -/
theorem examine_rejects (position : Nat) (hfull : e.full = 0) (hr : readRecord bs = none) :
    examine e position bs = { e with
      slot := e.slot.reject (recordCode bs), rejected := e.rejected + 1
      firstRejected := if e.firstRejected = 0 then position else e.firstRejected } := by
  rw [examine, if_neg (by simp [hfull]), hr]

variable {r : GlyphRecord}

/-- The record of a code that its slot holds (R28). -/
theorem examine_replaces (position : Nat) (hfull : e.full = 0) (hr : readRecord bs = some r)
    (hheld : r.code ∈ e.slot.records.map GlyphRecord.code) :
    examine e position bs = { e with
      slot := { e.slot with records := replaceRecord r e.slot.records }.heal r.code, stored := e.stored + 1 } := by
  rw [examine, if_neg (by simp [hfull]), hr]
  exact if_pos ((Slot.find_isSome _ _).2 hheld)

/-- A record of a new code with a place (R28, R29). -/
theorem examine_stores (position : Nat) (hfull : e.full = 0) (hr : readRecord bs = some r)
    (hnew : r.code ∉ e.slot.records.map GlyphRecord.code) (hfree : 0 < e.free) (hlen : e.slot.records.length < 1024) :
    examine e position bs = { e with
      slot := { e.slot with records := e.slot.records ++ [r] }.heal r.code, free := e.free - 1, stored := e.stored + 1 } := by
  rw [examine, if_neg (by simp [hfull]), hr]
  exact (if_neg fun h => hnew ((Slot.find_isSome _ _).1 h)).trans (if_pos ⟨hfree, hlen⟩)

/-- A record of a new code with no place (R29). -/
theorem examine_fills (position : Nat) (hfull : e.full = 0) (hr : readRecord bs = some r)
    (hnew : r.code ∉ e.slot.records.map GlyphRecord.code) (hplace : e.free = 0 ∨ 1024 ≤ e.slot.records.length) :
    examine e position bs = { e with full := position } := by
  rw [examine, if_neg (by simp [hfull]), hr]
  refine (if_neg fun h => hnew ((Slot.find_isSome _ _).1 h)).trans (if_neg ?_)
  rw [Config.slotRecords]
  omega

end Examining

/-- Good records of new codes are stored one behind another, each healing its code. -/
theorem examineAll_stores (rs : List GlyphRecord) (e : Examination) (position : Nat) (hfull : e.full = 0)
    (hgood : ∀ r ∈ rs, r.contentGood = true ∧ r.Ranges) (hnodup : (rs.map GlyphRecord.code).Nodup)
    (hnew : ∀ r ∈ rs, ∀ x ∈ e.slot.records, x.code ≠ r.code) (hfree : rs.length ≤ e.free)
    (hlen : e.slot.records.length + rs.length ≤ 1024) :
    examineAll e position (rs.map GlyphRecord.bytes) = { e with
      slot := { e.slot with
        records := e.slot.records ++ rs
        rejected := e.slot.rejected.filter (fun c => !(rs.map GlyphRecord.code).contains c) }
      free := e.free - rs.length, stored := e.stored + rs.length } := by
  induction rs generalizing e position with
  | nil => simp [examineAll, List.filter_true]
  | cons r rs ih =>
    obtain ⟨hcontent, hranges⟩ := hgood r List.mem_cons_self
    obtain ⟨hcode, hnodup⟩ := List.nodup_cons.1 hnodup
    rw [List.length_cons] at hfree hlen
    have hstored := examine_stores position hfull (GlyphRecord.readRecord_bytes hcontent hranges) (e := e)
      (by simpa using fun x hx => hnew r List.mem_cons_self x hx) (by omega) (by omega)
    rw [List.map_cons, examineAll, hstored, ih _ _ (by exact hfull) (fun r' hr' => hgood r' (List.mem_cons_of_mem _ hr')) hnodup]
    · have hhealed : (e.slot.rejected.filter (fun c => c != r.code)).filter (fun c => !(rs.map GlyphRecord.code).contains c)
          = e.slot.rejected.filter (fun c => !((r :: rs).map GlyphRecord.code).contains c) := by
        rw [List.filter_filter]
        refine List.filter_congr fun c _ => ?_
        rw [List.map_cons, List.contains_cons, Bool.not_or, Bool.and_comm]
        rfl
      simp only [Slot.heal, hhealed, List.append_assoc, List.singleton_append, List.length_cons, Examination.mk.injEq, true_and,
        and_true]
      omega
    · intro r' hr' x hx
      obtain hx | hx := List.mem_append.1 hx
      · exact hnew r' (List.mem_cons_of_mem _ hr') x hx
      · rw [List.mem_singleton.1 hx]
        exact fun he => hcode (he ▸ List.mem_map_of_mem hr')
    · exact Nat.le_sub_of_add_le hfree
    · simp only [Slot.heal, List.length_append, List.length_singleton]
      omega

/-! ### FONT GLYPHS (R26 to R30) -/

/-- FONT GLYPHS of a LOADING slot whose body is no whole frame of records (R26, R33). -/
theorem exec_fontGlyphs_refused {s : State} {n : SlotId} {count : Byte} {bytes : List Byte} (hcan : s.link.canTake = true)
    (hst : (s.font n).state = .loading)
    (hbad : (count.toNat < 1 ∨ 32 < count.toNat) ∨ splitRecords count.toNat bytes = none) :
    exec (.fontGlyphs (byteOf n.val) (count :: bytes)) s
      = .next ((s.setFont n { s.font n with silence := true }).answer 0x21 (byteOf n.val) .range []) := by
  refine congrArg Host.Outcome.next (completeFrame_setFont (k := .fontGlyphs) hcan rfl rfl ?_)
  have hfont : ({ s with link := s.link.hunt } : State).font n = s.font n := rfl
  simp only [handle, handleFontGlyphs, slotOf_byteOf, hfont, hst, ne_eq, not_true, if_false]
  split
  · rfl
  · rename_i hcount
    rw [hbad.resolve_left hcount]
    rfl

/-- FONT GLYPHS of a LOADING slot, its records examined. -/
theorem exec_fontGlyphs_examined {s : State} {n : SlotId} {count : Byte} {bytes : List Byte} {records : List (List Byte)}
    {e : Examination} (hcan : s.link.canTake = true) (hst : (s.font n).state = .loading) (hone : 1 ≤ count.toNat)
    (hmany : count.toNat ≤ 32) (hsplit : splitRecords count.toNat bytes = some records)
    (he : examineAll ((s.font n).examination (poolFree s.fonts)) 1 records = e) :
    exec (.fontGlyphs (byteOf n.val) (count :: bytes)) s
      = .next ((s.setFont n e.slot).answer 0x21 (byteOf n.val) (if e.full = 0 then .done else .storeFull)
          ([byteOf e.stored, byteOf e.rejected, byteOf e.firstRejected, byteOf e.full] ++ be16 e.slot.records.length
            ++ be16 (4096 - (poolUse s.fonts - (s.font n).records.length + e.slot.records.length)))) := by
  refine congrArg Host.Outcome.next (completeFrame_setFont (k := .fontGlyphs) hcan rfl rfl ?_)
  have hfont : ({ s with link := s.link.hunt } : State).font n = s.font n := rfl
  have hcount : ¬(count.toNat < 1 ∨ 32 < count.toNat) := by omega
  have hpool := poolFree_setFont { s with link := s.link.hunt } n e.slot
  rw [Slot.examination] at he
  simp only [handle, handleFontGlyphs, slotOf_byteOf, hfont]
  rw [if_neg (not_not.2 hst), if_neg hcount, hsplit]
  simp only [he, hpool]
  rfl

/-- FONT GLYPHS with one record, examined at position 1. -/
theorem exec_fontGlyphs_one {s : State} {n : SlotId} {bs : List Byte} {presence : Byte} {e : Examination}
    (hcan : s.link.canTake = true) (hst : (s.font n).state = .loading) (hp : bs[2]? = some presence)
    (hlen : bs.length = recordLength presence) (he : examine ((s.font n).examination (poolFree s.fonts)) 1 bs = e) :
    exec (.fontGlyphs (byteOf n.val) (1 :: bs)) s
      = .next ((s.setFont n e.slot).answer 0x21 (byteOf n.val) (if e.full = 0 then .done else .storeFull)
          ([byteOf e.stored, byteOf e.rejected, byteOf e.firstRejected, byteOf e.full] ++ be16 e.slot.records.length
            ++ be16 (4096 - (poolUse s.fonts - (s.font n).records.length + e.slot.records.length)))) :=
  exec_fontGlyphs_examined hcan hst (by decide) (by decide) (splitRecords_one hp hlen) he

/-- A slot whose number of records stays leaves the pool as it was. -/
theorem poolUse_of_length_eq (s : State) (n : SlotId) {k : Nat} (h : k = (s.font n).records.length) :
    poolUse s.fonts - (s.font n).records.length + k = poolUse s.fonts := by
  have := records_le_poolUse s n
  omega

/-- Settles O31: the body is split into its records, and each record is examined by its own rule. -/
theorem fontGlyphsStoresGoodRecords : Obligations.FontGlyphsStoresGoodRecords := by
  refine ⟨fun s n rs hcan hst hone hmany hgood hnodup hnew hpool hlen => ?_, fun s n r hcan hst hcontent hranges hheld => ?_,
    fun s n c1 c0 presence more hcan hst hlen hsum => ?_, fun s n r hcan hst hcontent hranges hnew hplace => ?_,
    fun s n count more hcan hst hbad => exec_fontGlyphs_refused hcan hst (.inl hbad),
    fun s n rs count more hcan hst hgood hbad => exec_fontGlyphs_refused hcan hst (.inr (splitRecords_none hbad)),
    fun s n body hcan hst => ?_⟩
  · have hbyte : (byteOf rs.length).toNat = rs.length := byteOf_toNat (by omega)
    have hfree : rs.length ≤ poolFree s.fonts := by
      rw [poolFree, Config.poolPlaces]
      omega
    have hall := examineAll_stores rs ((s.font n).examination (poolFree s.fonts)) 1 rfl hgood hnodup hnew hfree hlen
    rw [exec_fontGlyphs_examined hcan hst (by omega) (by omega) (by rw [hbyte]; exact splitRecords_bytes rs) hall]
    have huse : poolUse s.fonts - (s.font n).records.length + ((s.font n).records.length + rs.length)
        = poolUse s.fonts + rs.length := by
      have := records_le_poolUse s n
      omega
    simp only [Slot.examination, if_true, List.length_append, huse, Nat.zero_add]
    rfl
  · have hone := examine_replaces 1 (e := (s.font n).examination (poolFree s.fonts)) rfl
      (GlyphRecord.readRecord_bytes hcontent hranges) hheld
    rw [exec_fontGlyphs_one hcan hst r.bytes_getElem?_two r.length_bytes hone]
    simp only [Slot.examination, Slot.heal, if_true, replaceRecord_length, poolUse_of_length_eq s n rfl]
    rfl
  · have hone := examine_rejects 1 (e := (s.font n).examination (poolFree s.fonts)) rfl (readRecord_of_byteSum hsum)
    rw [exec_fontGlyphs_one hcan hst (bs := c1 :: c0 :: presence :: more) rfl (by rw [← hlen]; simp; omega) hone]
    have hslot : ((s.font n).examination (poolFree s.fonts)).slot.reject (recordCode (c1 :: c0 :: presence :: more))
        = if unit16 c1 c0 ∈ (s.font n).rejected then { s.font n with silence := true }
          else if (s.font n).rejected.length < 16 then
            { s.font n with rejected := (s.font n).rejected ++ [unit16 c1 c0], silence := true }
          else { s.font n with overflow := true, silence := true } := by
      obtain ⟨hin, he⟩ | ⟨hout, hroom, he⟩ | ⟨hout, hroom, he⟩ :=
        ((s.font n).examination (poolFree s.fonts)).slot.reject_cases (unit16 c1 c0)
      · exact he.trans (if_pos hin).symm
      · exact he.trans ((if_pos hroom).symm.trans (if_neg hout).symm)
      · exact he.trans ((if_neg (Nat.not_lt.2 hroom)).symm.trans (if_neg hout).symm)
    dsimp only
    rw [poolUse_of_length_eq s n (by rw [Slot.reject_records]; rfl), Slot.reject_records, hslot]
    rfl
  · have hfree : ((s.font n).examination (poolFree s.fonts)).free = 0 ∨ 1024 ≤ (s.font n).records.length := by
      refine hplace.imp_left fun h => ?_
      show poolFree s.fonts = 0
      rw [poolFree, Config.poolPlaces]
      omega
    have hone := examine_fills 1 (e := (s.font n).examination (poolFree s.fonts)) rfl
      (GlyphRecord.readRecord_bytes hcontent hranges) hnew hfree
    rw [exec_fontGlyphs_one hcan hst r.bytes_getElem?_two r.length_bytes hone]
    dsimp only
    rw [poolUse_of_length_eq s n (k := ((s.font n).examination (poolFree s.fonts)).slot.records.length) rfl]
    rfl
  · refine congrArg Host.Outcome.next (completeFrame_slot_same (k := .fontGlyphs) hcan rfl rfl ?_)
    have hst' : (({ s with link := s.link.hunt } : State).font n).state ≠ .loading := hst
    simp only [handle, handleFontGlyphs, slotOf_byteOf, if_pos hst']
    rfl

end Sys2Proof.Machine
end

