-- ==== Sys2Proof/Proofs/Chars.lean ====
section
/-! CHAR in the line (R84), and the halts of a CHAR that finds no font or no line. -/

namespace Sys2Proof.Machine

/-- The event of an item whose course gives the builder `b`, where the line still fits with it, whether or not it made an entry. -/
theorem consumeEvent_entersLine (s : State) (g : GalleyId) (want : Item → Bool) (i : Item) (rest : List Item) (b : Builder)
    (made : Bool) (hready : (s.galley g).ReadyToConsume) (hs : (s.galley g).story = i :: rest) (hw : want i = true)
    (hitem : consumeItem (s.ctx g false) (Run.start (s.galley g))
      = endCourse (s.ctx g false)
          ((Run.start (s.galley g)).take { (s.galley g).withLine with builder := b, hasEntries := made }) false)
    (hdepth : b.lineDepth = (s.galley g).withLine.builder.lineDepth) (hfit : (s.galley g).withLine.FitsWith b) :
    consumeEvent s g want
      = s.setGalley g (({ (s.galley g).withLine with builder := b, hasEntries := made } : Galley).past rest) := by
  obtain ⟨-, -, -, hstory⟩ := (s.galley g).withLine_frame
  have hfits : ({ (s.galley g).withLine with builder := b, hasEntries := made } : Galley).take.fits = true :=
    (Galley.fits_iff _).2 fun _ => hfit
  have hpast := Galley.take_eq_past { (s.galley g).withLine with builder := b, hasEntries := made } i rest (hstory.trans hs)
  have hwatched : (({ (s.galley g).withLine with builder := b, hasEntries := made } : Galley).past rest).watched
      = (s.galley g).watched := Galley.withLine_past_watched _ b rest hdepth
  rw [consumeEvent_ready s g want i rest hready hs hw, hitem, endCourse, if_neg Bool.false_ne_true, fitChain_fits _ _ _ hfits,
    State.commit, Run.take_gal, hpast]
  exact State.noting_same _ _ (State.watched_setGalley _ _ _ hwatched) rfl

/-- The event of an item that halts its galley before anything is done of it (R65). -/
theorem consumeEvent_halts (s : State) (g : GalleyId) (want : Item → Bool) (i : Item) (rest : List Item) (cause : HaltCause)
    (hready : (s.galley g).ReadyToConsume) (hs : (s.galley g).story = i :: rest) (hw : want i = true)
    (hitem : consumeItem (s.ctx g false) (Run.start (s.galley g)) = (Run.start (s.galley g)).halt (s.ctx g false) cause) :
    consumeEvent s g want
      = s.noting ((s.setGalley g ((s.galley g).haltedWith cause)).raise (.halted g) (.halted cause)) := by
  rw [consumeEvent_ready s g want i rest hready hs hw, hitem]
  rfl

section Char

variable {s : State} {g : GalleyId} {u : CodeUnit} {rest : List Item}

/-- A CHAR whose line has room for what it makes: a dropped mark makes no entry (R84, R89). -/
theorem consumeChar_room {h : Header} {r : GlyphRecord} {sub : Bool} {p : Prepared}
    (hs : (s.galley g).story = .char u :: rest) (hfinds : (s.font (s.galley g).slot).Finds u h r sub)
    (hstands : (s.galley g).LineStands s.page.depth) (hp : p = (s.galley g).withLine.prepare u none (r, h.matrix, sub))
    (hroom : (s.galley g).withLine.builder.entries.length < 160 ∨
      ((s.galley g).withLine.builder.entries.length = 160 ∧ p.dropped (s.galley g).withLine.builder.entries = true)) :
    consumeItem (s.ctx g false) (Run.start (s.galley g))
      = endCourse (s.ctx g false)
          ((Run.start (s.galley g)).take
            { (s.galley g).withLine with
              builder := (s.galley g).withLine.builder.enter s.fonts p
              hasEntries := (s.galley g).withLine.hasEntries || !p.dropped (s.galley g).withLine.builder.entries }) false := by
  have hlookup : lookup (s.ctx g false).fonts (s.galley g).slot u = some (r, h.matrix, sub) := lookup_finds _ _ _ h r sub hfinds
  have hline : needLine (s.ctx g false) (s.galley g) false = some (s.galley g).withLine := needLine_stands _ _ hstands
  have hlimit := limitClose_room (s.ctx g false) { Run.start (s.galley g) with gal := (s.galley g).withLine }
    (if p.dropped (s.galley g).withLine.builder.entries then 0 else 1) (by
      dsimp only
      obtain hroom | ⟨hroom, hdropped⟩ := hroom
      · split <;> omega
      · rw [if_pos hdropped, hroom])
  simp only [consumeItem, Run.start_gal, hs, consumeChar, hlookup, hline, ← hp, hlimit]
  rfl

theorem consumeChar_noFont (hs : (s.galley g).story = .char u :: rest) (hv : (s.font (s.galley g).slot).state ≠ .valid) :
    consumeItem (s.ctx g false) (Run.start (s.galley g)) = (Run.start (s.galley g)).halt (s.ctx g false) .noFont := by
  have hlookup : lookup (s.ctx g false).fonts (s.galley g).slot u = none := lookup_invalid _ _ _ hv
  simp only [consumeItem, Run.start_gal, hs, consumeChar, hlookup]

theorem consumeChar_overmatter {h : Header} {r : GlyphRecord} {sub : Bool} (hs : (s.galley g).story = .char u :: rest)
    (hfinds : (s.font (s.galley g).slot).Finds u h r sub) (hstarted : (s.galley g).started = false)
    (hbelow : s.page.depth < (s.galley g).nextDepth) :
    consumeItem (s.ctx g false) (Run.start (s.galley g)) = (Run.start (s.galley g)).halt (s.ctx g false) .overmatter := by
  have hlookup : lookup (s.ctx g false).fonts (s.galley g).slot u = some (r, h.matrix, sub) := lookup_finds _ _ _ h r sub hfinds
  have hline : needLine (s.ctx g false) (s.galley g) false = none := needLine_below _ _ _ hstarted hbelow
  simp only [consumeItem, Run.start_gal, hs, consumeChar, hlookup, hline]

end Char

/-- Settles O38: the three courses of a CHAR. -/
theorem charEntersTheLine : Obligations.CharEntersTheLine := by
  refine ⟨?_, ?_, ?_⟩
  · rintro s g u rest h r sub y p hready hs hfinds hstands rfl hp hroom hfit
    exact congrArg Host.Outcome.next (consumeEvent_entersLine s g _ (.char u) rest _ _ hready hs rfl
      (consumeChar_room hs hfinds hstands hp hroom) (Builder.enter_lineDepth _ _ _) hfit)
  · intro s g u rest hready hs hv
    exact congrArg Host.Outcome.next (consumeEvent_halts s g _ (.char u) rest .noFont hready hs rfl (consumeChar_noFont hs hv))
  · intro s g u rest h r sub hready hs hfinds hstarted hbelow
    exact congrArg Host.Outcome.next (consumeEvent_halts s g _ (.char u) rest .overmatter hready hs rfl
      (consumeChar_overmatter hs hfinds hstarted hbelow))

end Sys2Proof.Machine
end

