-- ==== Sys2Proof/Proofs/Shaping.lean ====
section
/-! Joined forms by each letter's neighbours, the pending letter, and kerning (R37, R85 to R87, R91, R98). -/

namespace Sys2Proof.Machine

/-! ### The classes on either side of an entry (R85) -/

/-- The class behind a succession of entries, `prev` being the class before it: marks are passed over. -/
def classBehind (prev : Joining) (es : List Entry) : Joining := es.foldl (fun c e => if e.isMark then c else e.joiningClass) prev

/-- An entry shaped by the classes of its neighbours. -/
def Entry.shapedBy (prev : Joining) (next : Option Joining) (e : Entry) : Entry :=
  match e.body with
  | .glyph p => { e with body := .glyph (shapeGlyph prev next e p) }
  | _ => e

theorem Entry.joiningClass_of_glyph {e : Entry} {p : GlyphPart} (h : e.body = .glyph p) : e.joiningClass = p.joining := by
  rw [Entry.joiningClass, h]
  rfl

theorem shapeFrom_cons (isOpen : Bool) (prev : Joining) (e : Entry) (es : List Entry) :
    shapeFrom isOpen prev (e :: es)
      = e.shapedBy prev (nextJoining isOpen es) :: shapeFrom isOpen (if e.isMark then prev else e.joiningClass) es := by
  cases hb : e.body <;> simp [shapeFrom, Entry.shapedBy, Entry.isMark, Entry.joiningClass, GlyphPart.joining, hb]

/-- Each entry of a shaped list is shaped by its own neighbours. -/
theorem shapeFrom_getElem? (isOpen : Bool) (prev : Joining) (es : List Entry) (i : Nat) :
    (shapeFrom isOpen prev es)[i]?
      = es[i]?.map (Entry.shapedBy (classBehind prev (es.take i)) (nextJoining isOpen (es.drop (i + 1)))) := by
  induction es generalizing prev i with
  | nil => rfl
  | cons e es ih =>
    rw [shapeFrom_cons]
    cases i with
    | zero => rfl
    | succ i => exact ih _ i

theorem prevClass_eq (es : List Entry) (i : Nat) : prevClass es i = classBehind .none (es.take i) := by
  unfold prevClass
  generalize es.take i = before
  induction before using List.reverseRecOn with
  | nil => rfl
  | append_singleton before e ih =>
    rw [List.reverse_append, classBehind, List.foldl_append]
    cases hm : e.isMark with
    | true => simpa [hm, classBehind] using ih
    | false => simp [hm]

theorem nextJoining_eq (isOpen : Bool) (es : List Entry) :
    nextJoining isOpen es
      = match es.find? (fun e => !e.isMark) with
        | some e => some e.joiningClass
        | none => if isOpen then none else some .none := by
  induction es with
  | nil => rfl
  | cons e es ih => cases hb : e.body <;> simp [nextJoining, Entry.isMark, Entry.joiningClass, GlyphPart.joining, hb, ih]

theorem nextClass_eq (isOpen : Bool) (es : List Entry) (i : Nat) :
    nextClass isOpen es i = nextJoining isOpen (es.drop (i + 1)) := (nextJoining_eq isOpen _).symm

/-- Only at the end of an open list is there no next class yet (R87). -/
theorem nextJoining_eq_none_iff (isOpen : Bool) (es : List Entry) :
    nextJoining isOpen es = none ↔ isOpen = true ∧ ∀ m ∈ es, m.isMark = true := by
  rw [nextJoining_eq]
  cases hf : es.find? (fun e => !e.isMark) with
  | some e =>
    have hmem := List.mem_of_find?_eq_some hf
    have hmark : e.isMark = false := by simpa using List.find?_some hf
    simp only [reduceCtorEq, false_iff, not_and]
    exact fun _ hall => by simp [hall e hmem] at hmark
  | none =>
    have hall : ∀ m ∈ es, m.isMark = true := by simpa using hf
    cases isOpen <;> simp_all

/-! ### Forms (R85, R86) -/

/-- The form a letter is set in is the one the tables of R85 and R86 give. -/
theorem formSet_formSought (r : GlyphRecord) (own prev : Joining) (next : Option Joining) :
    (if own == .trail || own == .dual then r.formSet (formSought (linksBack own prev) (linksForward own next)) else .none)
      = formFor r own prev next := by
  unfold formFor
  by_cases hletter : own = .trail ∨ own = .dual
  · have hback : linksBack own prev = decide (prev = .dual ∨ prev = .link) := by
      obtain rfl | rfl := hletter <;> cases prev <;> rfl
    have hforward : linksForward own next = decide (own = .dual ∧ (next = some .dual ∨ next = some .trail ∨ next = some .link)) := by
      simp [linksForward, Bool.or_assoc, Bool.decide_and, Bool.decide_or, Bool.beq_eq_decide_eq]
    rw [if_pos (by simpa using hletter), hback, hforward, if_neg (by tauto)]
    cases decide (prev = .dual ∨ prev = .link) <;>
      cases decide (own = .dual ∧ (next = some .dual ∨ next = some .trail ∨ next = some .link)) <;>
      simp [formSought, GlyphRecord.formSet]
  · rw [if_neg (by simpa using hletter), if_pos (by tauto)]

/-- A letter shaped by its neighbours: its form, whether it is resolved, and its advance (R5, R6, R85 to R87). -/
theorem shapeGlyph_eq (prev : Joining) (next : Option Joining) (e : Entry) (p : GlyphPart) :
    shapeGlyph prev next e p = { p with
      form := formFor p.record p.joining prev next
      resolved := !decide (p.joining = .dual ∧ next = none)
      advance := glyphAdvance (p.record.image (formFor p.record p.joining prev next)).advance e.track p.kern e.size } := by
  have hresolved : (!(p.joining == .dual && next == none)) = !decide (p.joining = .dual ∧ next = none) := by
    simp only [Bool.decide_and, Bool.beq_eq_decide_eq]
  simp only [shapeGlyph, formSet_formSought, GlyphPart.remeasure, hresolved]

/-! ### The pending letter (R81, R87) -/

/-- Whether an entry is a letter of unresolved form. -/
def Entry.unresolved (e : Entry) : Bool :=
  match e.body with
  | .glyph p => !p.resolved
  | _ => false

theorem pendingOf_eq (es : List Entry) : pendingOf es = es.findIdx? Entry.unresolved := rfl

theorem Entry.shapedBy_unresolved (prev : Joining) (next : Option Joining) (e : Entry) :
    (e.shapedBy prev next).unresolved = decide (e.joiningClass = .dual ∧ next = none) := by
  cases hb : e.body with
  | glyph p => simp [Entry.shapedBy, Entry.unresolved, Entry.joiningClass_of_glyph hb, hb, shapeGlyph_eq]
  | space | fixed | mark => simp [Entry.shapedBy, Entry.unresolved, Entry.joiningClass, hb]

theorem shape_getElem?_unresolved (isOpen : Bool) (es : List Entry) (i : Nat) :
    (shape isOpen es)[i]?.map Entry.unresolved
      = es[i]?.map (fun e => decide (e.joiningClass = .dual ∧ isOpen = true ∧ ∀ m ∈ es.drop (i + 1), m.isMark = true)) := by
  rw [shape, shapeFrom_getElem?, Option.map_map]
  refine congrArg (Option.map · es[i]?) (funext fun e => ?_)
  rw [Function.comp_apply, Entry.shapedBy_unresolved]
  simp only [nextJoining_eq_none_iff]

theorem Entry.isMark_of_joiningClass {e : Entry} (h : e.joiningClass = .dual) : e.isMark = false := by
  cases hb : e.body <;> simp_all [Entry.joiningClass, Entry.isMark]

theorem pendingOf_shape_closed (es : List Entry) : pendingOf (shape false es) = none := by
  rw [pendingOf_eq, List.findIdx?_eq_none_iff_findIdx_eq, List.findIdx_eq_length]
  intro e he
  obtain ⟨i, hi⟩ := List.getElem?_of_mem he
  have hshaped := shape_getElem?_unresolved false es i
  rw [hi] at hshaped
  cases hes : es[i]? <;> simp_all

/-- The pending letter is the DUAL letter behind which an open list holds marks alone. -/
theorem pendingOf_shape_open (es : List Entry) (i : Nat) :
    pendingOf (shape true es) = some i ↔
      ∃ e, es[i]? = some e ∧ e.joiningClass = .dual ∧ ∀ m ∈ es.drop (i + 1), m.isMark = true := by
  have hunresolved (j : Nat) (hj : j < (shape true es).length) :
      (shape true es)[j].unresolved = true ↔
        ∃ e, es[j]? = some e ∧ e.joiningClass = .dual ∧ ∀ m ∈ es.drop (j + 1), m.isMark = true := by
    have hshaped := shape_getElem?_unresolved true es j
    rw [List.getElem?_eq_getElem hj, Option.map_some] at hshaped
    cases hes : es[j]? with
    | none => simp [hes] at hshaped
    | some e =>
      rw [hes, Option.map_some, Option.some.injEq] at hshaped
      rw [hshaped, decide_eq_true_iff]
      simp
  rw [pendingOf_eq, List.findIdx?_eq_some_iff_getElem]
  constructor
  · rintro ⟨hi, hletter, -⟩
    exact (hunresolved i hi).1 hletter
  · rintro ⟨e, he, hdual, hmarks⟩
    obtain ⟨hi, rfl⟩ := List.getElem?_eq_some_iff.1 he
    refine ⟨by simpa using hi, (hunresolved i _).2 ⟨_, he, hdual, hmarks⟩, fun j hj hletter => ?_⟩
    obtain ⟨_, -, -, hbehind⟩ := (hunresolved j _).1 hletter
    have hmem : es[i] ∈ es.drop (j + 1) :=
      List.mem_drop_iff_getElem.2 ⟨i - (j + 1), by omega, by simp [show j + 1 + (i - (j + 1)) = i by omega]⟩
    exact absurd (hbehind _ hmem) (by simp [Entry.isMark_of_joiningClass hdual])

/-! ### Kerning (R37, R91, R98) -/

theorem modifyHeadGlyph_marks (f : Entry → GlyphPart → GlyphPart) {marks : List Entry} (hm : ∀ m ∈ marks, m.isMark = true)
    (es : List Entry) : modifyHeadGlyph f (marks ++ es) = marks ++ modifyHeadGlyph f es := by
  induction marks with
  | nil => rfl
  | cons m marks ih =>
    have hrest := ih fun m' hm' => hm m' (List.mem_cons_of_mem _ hm')
    have hmark := hm m List.mem_cons_self
    cases hb : m.body <;> simp_all [Entry.isMark, modifyHeadGlyph]

/-- The last base of a list, a GLYPH with its marks behind it, is what is changed. -/
theorem modifyLastGlyph_base (f : Entry → GlyphPart → GlyphPart) (before : List Entry) {marks : List Entry} {e : Entry}
    {p : GlyphPart} (he : e.body = .glyph p) (hm : ∀ m ∈ marks, m.isMark = true) :
    modifyLastGlyph f (before ++ e :: marks) = before ++ { e with body := .glyph (f e p) } :: marks := by
  have hreverse : (before ++ e :: marks).reverse = marks.reverse ++ e :: before.reverse := by simp
  rw [modifyLastGlyph, hreverse, modifyHeadGlyph_marks f fun m hmem => hm m (List.mem_reverse.1 hmem)]
  simp [modifyHeadGlyph, he]

/-- A list whose first base is no GLYPH is not changed. -/
theorem modifyHeadGlyph_same (f : Entry → GlyphPart → GlyphPart) {es : List Entry}
    (h : ∀ e ∈ (es.dropWhile Entry.isMark).head?, e.isGlyph = false) : modifyHeadGlyph f es = es := by
  induction es with
  | nil => rfl
  | cons e es ih =>
    cases hb : e.body with
    | mark m =>
      rw [List.dropWhile_cons_of_pos (by simp [Entry.isMark, hb])] at h
      simp [modifyHeadGlyph, hb, ih h]
    | glyph p =>
      rw [List.dropWhile_cons_of_neg (by simp [Entry.isMark, hb])] at h
      have hglyph := h e rfl
      simp [Entry.isGlyph, hb] at hglyph
    | space | fixed => simp [modifyHeadGlyph, hb]

theorem endsInGlyph_eq_false_iff (es : List Entry) :
    endsInGlyph es = false ↔ ∀ e ∈ (es.reverse.dropWhile Entry.isMark).head?, e.isGlyph = false := by
  unfold endsInGlyph
  cases es.reverse.dropWhile Entry.isMark <;> simp

/-- A list whose last base is no GLYPH is not kerned (R91). -/
theorem kernWith_of_not_endsInGlyph (fonts : Vector Slot 16) {es : List Entry} (follower : Option Entry) (h : endsInGlyph es = false) :
    kernWith fonts es follower = es := by
  rw [kernWith, modifyLastGlyph, modifyHeadGlyph_same _ ((endsInGlyph_eq_false_iff es).1 h), List.reverse_reverse]

/-- The kern of a base with what follows it (R37, R91). -/
def kernBefore (fonts : Vector Slot 16) (e : Entry) (p : GlyphPart) (f : Entry) : Int :=
  match f.body with
  | .glyph q => kernOf fonts e p f q
  | _ => 0

theorem kernWith_base (fonts : Vector Slot 16) (before : List Entry) {marks : List Entry} {e : Entry} {p : GlyphPart}
    (he : e.body = .glyph p) (hm : ∀ m ∈ marks, m.isMark = true) (f : Entry) :
    kernWith fonts (before ++ e :: marks) (some f)
      = before ++ { e with body := .glyph { p with kern := kernBefore fonts e p f } } :: marks :=
  modifyLastGlyph_base _ before he hm

/-- The kern is the table's where both are GLYPHs of one slot and size and neither class is 0, and 0 otherwise. -/
theorem kernBefore_eq {fonts : Vector Slot 16} {e f : Entry} {p : GlyphPart} {k : Int}
    (h : (∃ q, f.body = .glyph q ∧ e.slot = f.slot ∧ e.size = f.size ∧ p.record.kernClass ≠ 0 ∧ q.record.kernClass ≠ 0 ∧
        k = (fonts[f.slot]).kern.at p.record.kernClass q.record.kernClass) ∨
      (k = 0 ∧ ∀ q, f.body = .glyph q →
        e.slot ≠ f.slot ∨ e.size ≠ f.size ∨ p.record.kernClass = 0 ∨ q.record.kernClass = 0)) : kernBefore fonts e p f = k := by
  unfold kernBefore
  obtain ⟨q, hq, hslot, hsize, hp, hclass, rfl⟩ | ⟨rfl, hzero⟩ := h
  · rw [hq]
    exact (if_pos ⟨hslot, hsize⟩).trans (if_neg (by tauto))
  · split
    · rename_i q hq
      unfold kernOf
      split
      · rename_i hsame
        exact if_pos (((hzero q hq).resolve_left (not_not.2 hsame.1)).resolve_left (not_not.2 hsame.2))
      · rfl
    · rfl

/-- Settles O40: each entry is shaped by the classes of its own neighbours; the pending letter is the one DUAL letter with marks alone behind
it; and a kern is set on the last base of a list. -/
theorem formsAndKernsFollowTheNeighbours : Obligations.FormsAndKernsFollowTheNeighbours := by
  refine ⟨fun isOpen es => ⟨shape_length _ _, fun i e he => ?_⟩, pendingOf_shape_closed, pendingOf_shape_open,
    fun fonts before marks e f p k he hm hk => ?_, fun fonts before marks e p he hm => ?_, fun fonts es f h => ?_⟩
  · have hshaped : (shape isOpen es)[i]? = some (e.shapedBy (prevClass es i) (nextClass isOpen es i)) := by
      rw [shape, shapeFrom_getElem?, he, prevClass_eq, nextClass_eq]
      rfl
    refine ⟨fun hplain => ?_, fun p hp => ?_⟩
    · rw [hshaped]
      cases hb : e.body <;> simp [Entry.shapedBy, hb, Entry.isGlyph] at hplain ⊢
    · rw [hshaped, Entry.shapedBy, hp]
      simp only [shapeGlyph_eq, Entry.joiningClass_of_glyph hp]
  · have hkern := kernWith_base fonts before he hm f
    rw [kernBefore_eq hk] at hkern
    exact ⟨congrArg (· ++ [f]) hkern, congrArg (· ++ [f]) hkern⟩
  · exact congrArg (shape false) (modifyLastGlyph_base _ before he hm)
  · exact ⟨congrArg (· ++ [f]) (kernWith_of_not_endsInGlyph fonts _ h),
      congrArg (shape false) (kernWith_of_not_endsInGlyph fonts _ h)⟩

end Sys2Proof.Machine
end

