-- ==== Sys2Proof/Proofs/StoryItems.lean ====
section
/-! Story items as code units and bytes (R40 to R45). -/

namespace Sys2Proof.Machine

/-! ### Bytes and code units (9.7) -/

/-- Code units sent as bytes read back, and a lone last byte is seen (R45). -/
theorem storyUnitsOf_unitBytes (us : List CodeUnit) (lone : List Byte) (h : lone.length ≤ 1) :
    storyUnitsOf (unitBytes us ++ lone) = (us, !lone.isEmpty) := by
  induction us with
  | nil =>
    match lone, h with
    | [], _ => rfl
    | [_], _ => rfl
  | cons u us ih =>
    show (let (vs, odd) := storyUnitsOf (unitBytes us ++ lone); (unit16 (byteOf (u.toNat / 256)) (byteOf u.toNat) :: vs, odd)) = _
    rw [ih, unit16_be16]

/-! ### One item (R40 to R42) -/

theorem readItems_nil (fuel off : Nat) : readItems fuel off [] = .ok [] := by cases fuel <;> rfl

/-- A unit below 0x0020 at an item's beginning is dropped (R40). -/
theorem readItems_dropped (fuel off : Nat) {u : CodeUnit} (us : List CodeUnit) (h : u.toNat < 0x20) :
    readItems (fuel + 1) off (u :: us) = readItems fuel (off + 1) us :=
  if_pos h

/-- A character code is an item of its own (R40). -/
theorem readItems_char (fuel off : Nat) {u : CodeUnit} (us : List CodeUnit) (h : isCharCode u = true) :
    readItems (fuel + 1) off (u :: us) = (readItems fuel (off + 1) us).map (Item.char u :: ·) :=
  (if_neg (Nat.not_lt.2 ((isCharCode_iff u).1 h).1)).trans (if_pos h)

/-- The codes of 0xF000 and above that stand for an item of one kind each (R41, R42). -/
def kindCodes : List Nat := [0xF000, 0xF001, 0xF002, 0xF020, 0xF021, 0xF022, 0xF030, 0xF031, 0xF040]

/-- Any other code from 0xF000 on is a FONT's or undefined (R41, R45). -/
theorem readItems_other (fuel off : Nat) {u : CodeUnit} (us : List CodeUnit) (h : 0xF000 ≤ u.toNat) (hother : u.toNat ∉ kindCodes) :
    readItems (fuel + 1) off (u :: us)
      = if 0xF010 ≤ u.toNat ∧ u.toNat ≤ 0xF01F then
          (readItems fuel (off + 1) us).map (Item.font (Fin.ofNat 16 (u.toNat - 0xF010)) :: ·)
        else .error (.undefined, off) := by
  have hlow : ¬u.toNat < 0x20 := by omega
  have hchar : ¬isCharCode u = true := by rw [isCharCode_iff]; omega
  rw [readItems.eq_def]
  simp only [if_neg hlow, if_neg hchar]
  split
  case h_10 => rfl
  all_goals exact absurd (by simp [kindCodes, *]) hother

/-- The number of codes of each text stands in the count unit (R42). -/
theorem discCount_parts {p q n : Nat} (hp : p ≤ 4) (hq : q ≤ 4) (hn : n ≤ 4) :
    (BitVec.ofNat 16 (p * 256 + q * 16 + n)).toNat / 256 % 16 = p ∧ (BitVec.ofNat 16 (p * 256 + q * 16 + n)).toNat / 16 % 16 = q ∧
      (BitVec.ofNat 16 (p * 256 + q * 16 + n)).toNat % 16 = n := by
  rw [BitVec.toNat_ofNat]
  omega

/-- What follows a DISC code and its count unit, with the counts of its three texts (R42, R45). -/
theorem readItems_disc (fuel off : Nat) (c : CodeUnit) (texts : List CodeUnit) :
    readItems (fuel + 1) off (0xF040 :: c :: texts)
      = if ¬discCountsGood c then .error (.count, off)
        else if (texts.take (discCodes c)).all isCharCode = false then .error (.textCode, off)
        else if texts.length < discCodes c then .error (.split, off)
        else
          (readItems fuel (off + 2 + discCodes c) (texts.drop (discCodes c))).map
            (Item.disc (texts.take (c.toNat / 256 % 16)) ((texts.drop (c.toNat / 256 % 16)).take (c.toNat / 16 % 16))
              ((texts.drop (c.toNat / 256 % 16 + c.toNat / 16 % 16)).take (c.toNat % 16)) :: ·) := by
  show (if 4 < c.toNat / 256 % 16 ∨ 4 < c.toNat / 16 % 16 ∨ 4 < c.toNat % 16 then _ else _) = _
  simp only [← not_le, ← not_and_or, Bool.not_eq_true']
  rfl

/-- An item's code units read back as the item (R40 to R42). -/
theorem readItems_item (fuel off : Nat) {i : Item} (us : List CodeUnit) (h : i.wellFormed = true) :
    readItems (fuel + 1) off (i.units ++ us) = (readItems fuel (off + i.units.length) us).map (i :: ·) := by
  cases i with
  | char c => exact readItems_char fuel off us h
  | font n =>
    have hn : (BitVec.ofNat 16 (0xF010 + n.val)).toNat = 0xF010 + n.val := by rw [BitVec.toNat_ofNat]; omega
    have hother : (BitVec.ofNat 16 (0xF010 + n.val)).toNat ∉ kindCodes := by
      simp only [hn, kindCodes, List.mem_cons, List.not_mem_nil, or_false]
      omega
    have hread := readItems_other fuel off us (by omega) hother
    rw [if_pos (by omega), hn, Nat.add_sub_cancel_left, Fin.ofNat_val_eq_self] at hread
    exact hread
  | disc pre post nb =>
    simp only [Item.wellFormed, Bool.and_eq_true, decide_eq_true_iff] at h
    obtain ⟨⟨⟨⟨⟨hpre, hpost⟩, hnb⟩, hpreCodes⟩, hpostCodes⟩, hnbCodes⟩ := h
    have hcodes : (pre ++ post ++ nb).all isCharCode = true := by simp only [List.all_append, hpreCodes, hpostCodes, hnbCodes, Bool.and_self]
    obtain ⟨hpreCount, hpostCount, hnbCount⟩ := discCount_parts hpre hpost hnb
    have hread := readItems_disc fuel off (BitVec.ofNat 16 (pre.length * 256 + post.length * 16 + nb.length))
      ((pre ++ post ++ nb) ++ us)
    simp only [discCountsGood, discCodes, hpreCount, hpostCount, hnbCount] at hread
    rw [← List.length_append, ← List.length_append, List.take_left, List.drop_left, if_neg (not_not.2 ⟨hpre, hpost, hnb⟩),
      if_neg (Bool.not_eq_false _ ▸ hcodes), if_neg (by simp)] at hread
    rw [List.append_assoc, List.append_assoc, List.take_left, List.drop_left, List.take_left, ← List.append_assoc, List.drop_left,
      List.take_left] at hread
    simpa [Item.units, List.length_append, ← Nat.add_assoc, Nat.add_right_comm] using hread
  | _ => rfl

/-! ### A succession of pieces (R45) -/

theorem Item.units_ne_nil (i : Item) : i.units ≠ [] := by cases i <;> simp [Item.units]

theorem Piece.units_pos (p : Piece) : 0 < p.units.length := by
  cases p with
  | dropped u => exact Nat.one_pos
  | item i => exact List.length_pos_iff.2 i.units_ne_nil

/-- Each piece takes one unit at least, so the reader's fuel outlasts them. -/
theorem length_le_pieceUnits (ps : List Piece) : ps.length ≤ (pieceUnits ps).length := by
  induction ps with
  | nil => exact Nat.le_refl _
  | cons p ps ih =>
    have := p.units_pos
    simp only [pieceUnits, List.map_cons, List.flatten_cons, List.length_append, List.length_cons] at ih ⊢
    omega

/-- A good piece reads as the item it is, if it is one. -/
theorem readItems_piece (fuel off : Nat) {p : Piece} (us : List CodeUnit) (h : p.good = true) :
    readItems (fuel + 1) off (p.units ++ us) = (readItems fuel (off + p.units.length) us).map (p.item?.toList ++ ·) := by
  cases p with
  | dropped u => exact (readItems_dropped fuel off us (of_decide_eq_true h)).trans (congrFun Except.map_id _).symm
  | item i => exact readItems_item fuel off us h

/-- Good pieces read as their items, and what stands behind them is read on, at its own offset. -/
theorem readItems_pieces (fuel off : Nat) {ps : List Piece} (us : List CodeUnit) (h : ∀ p ∈ ps, p.good = true) :
    readItems (ps.length + fuel) off (pieceUnits ps ++ us)
      = (readItems fuel (off + (pieceUnits ps).length) us).map (pieceItems ps ++ ·) := by
  induction ps generalizing off with
  | nil =>
    rw [List.length_nil, Nat.zero_add]
    exact (congrFun Except.map_id _).symm
  | cons p ps ih =>
    have hunits : pieceUnits (p :: ps) = p.units ++ pieceUnits ps := rfl
    have hitems : pieceItems (p :: ps) = p.item?.toList ++ pieceItems ps := by
      cases hp : p.item? <;> simp [pieceItems, hp]
    rw [List.length_cons, Nat.add_right_comm, hunits, hitems, List.append_assoc, readItems_piece _ _ _ (h p (by simp)),
      ih _ fun q hq => h q (by simp [hq]), List.length_append, Nat.add_assoc]
    cases readItems fuel (off + (p.units.length + (pieceUnits ps).length)) us <;> simp [Except.map]

/-- A body of good pieces alone reads as their items; a lone byte behind them is refused with ODD, at its offset (R45). -/
theorem readStory_pieces {ps : List Piece} {lone : List Byte} (h : ∀ p ∈ ps, p.good = true) (hl : lone.length ≤ 1) :
    readStory (unitBytes (pieceUnits ps) ++ lone)
      = if lone.isEmpty then .ok (pieceItems ps) else .error (.odd, (pieceUnits ps).length) := by
  have hread := readItems_pieces ((pieceUnits ps).length - ps.length) 0 [] h
  rw [List.append_nil, Nat.add_sub_cancel' (length_le_pieceUnits ps), readItems_nil] at hread
  simp only [readStory, storyUnitsOf_unitBytes _ _ hl, hread, Except.map, List.append_nil]
  cases lone.isEmpty <;> rfl

theorem readStory_unitBytes {ps : List Piece} (h : ∀ p ∈ ps, p.good = true) :
    readStory (unitBytes (pieceUnits ps)) = .ok (pieceItems ps) := by
  simpa using readStory_pieces (lone := []) h (Nat.zero_le 1)

/-- The pieces a list of items is. -/
theorem pieceUnits_items (items : List Item) : pieceUnits (items.map .item) = (items.map Item.units).flatten := by
  rw [pieceUnits, List.map_map]
  rfl

theorem pieceItems_items (items : List Item) : pieceItems (items.map .item) = items := by
  rw [pieceItems, List.filterMap_map]
  exact List.filterMap_some

/-- Settles O17: a list of items is a succession of good pieces. -/
theorem storyReadsBackItsItems : Obligations.StoryReadsBackItsItems := by
  intro items h
  have hread := readStory_unitBytes (ps := items.map .item) (by simpa [Piece.good] using h)
  rwa [pieceUnits_items, pieceItems_items] at hread

/-! ### Refusals (R45) -/

/-- What is refused at an item's beginning is refused there with its reason. -/
theorem readItems_metAt (fuel off : Nat) {us : List CodeUnit} {why : BadReason} (h : why.MetAt us) :
    readItems (fuel + 1) off us = .error (why, off) := by
  cases why with
  | odd => exact h.elim
  | undefined =>
    obtain ⟨u, rest, rfl, hhigh, hother, hfont⟩ := h
    rw [readItems_other fuel off rest hhigh hother, if_neg hfont]
  | split =>
    obtain rfl | rfl | rfl | rfl | ⟨c, texts, rfl, hcounts, hshort, hcodes⟩ := h
    · rfl
    · rfl
    · rfl
    · rfl
    · rw [readItems_disc, if_neg (not_not.2 hcounts), if_neg, if_pos hshort]
      simpa [List.take_of_length_le hshort.le] using hcodes
  | count =>
    obtain ⟨c, texts, rfl, hcounts⟩ := h
    rw [readItems_disc, if_pos hcounts]
  | textCode =>
    obtain ⟨c, texts, rfl, hcounts, u, hu, hbad⟩ := h
    rw [readItems_disc, if_neg (not_not.2 hcounts), if_pos (List.all_eq_false.2 ⟨u, hu, by simp [hbad]⟩)]

theorem BadReason.MetAt.ne_nil {why : BadReason} {us : List CodeUnit} (h : why.MetAt us) : us ≠ [] := by
  rintro rfl
  cases why <;> simp [BadReason.MetAt] at h

/-- A body whose first refusal stands behind good pieces is refused with its reason and offset. -/
theorem readStory_metAt {ps : List Piece} {us : List CodeUnit} {lone : List Byte} {why : BadReason}
    (h : ∀ p ∈ ps, p.good = true) (hwhy : why.MetAt us) (hl : lone.length ≤ 1) :
    readStory (unitBytes (pieceUnits ps ++ us) ++ lone) = .error (why, (pieceUnits ps).length) := by
  obtain ⟨fuel, hfuel⟩ : ∃ fuel, (pieceUnits ps ++ us).length = ps.length + (fuel + 1) := by
    have hps := length_le_pieceUnits ps
    have hus := List.length_pos_iff.2 hwhy.ne_nil
    exact ⟨(pieceUnits ps).length + us.length - ps.length - 1, by rw [List.length_append]; omega⟩
  have hread := readItems_pieces (fuel + 1) 0 us h
  rw [readItems_metAt fuel _ hwhy, ← hfuel, Nat.zero_add] at hread
  simp only [readStory, storyUnitsOf_unitBytes _ _ hl, hread, Except.map]

end Sys2Proof.Machine
end

