-- ==== Sys2Proof/Proofs/ValueItems.lean ====
section
/-! Items that make no entry and close no line: FONT, SIZE, TRACK, SHIFT and the direction items (R49 to R51, R53). -/

namespace Sys2Proof.Machine

/-! ### An item that is passed with nothing else done (R48) -/

/-- A galley that has consumed one item within its event, has raised nothing and has not stopped. -/
abbrev Run.afterItem (y : Galley) : Run := { gal := y, events := [], stopped := false, consumed := 1 }

/-- The run of a galley that became `y` otherwise and is past its front item. -/
theorem Run.take_start (x : Galley) {y : Galley} {i : Item} {rest : List Item} (hy : y.story = i :: rest) :
    (Run.start x).take y = Run.afterItem (y.past rest) := by
  rw [Run.take, Galley.take_eq_past y i rest hy]
  rfl

theorem proceed_passes (c : Ctx) {x y : Galley} {i : Item} {rest : List Item} (hready : x.ReadyToConsume) (hs : x.story = i :: rest)
    (hy : y.story = i :: rest) (hitem : consumeItem c (Run.start x) = (Run.start x).take y) :
    proceed c (Run.start x) = Run.afterItem (y.past rest) := by
  rw [proceed_consumes c x hready (by simp [hs]), hitem, Run.take_start x hy]

/-- The event of an item that leaves the galley as `y` otherwise, with what a selection reads as it was: the galley is past the item, and
nothing else happens (R48, R134). -/
theorem consumeEvent_passes (s : State) (g : GalleyId) (want : Item → Bool) (i : Item) (rest : List Item) {y : Galley}
    (hready : (s.galley g).ReadyToConsume) (hs : (s.galley g).story = i :: rest) (hw : want i = true) (hy : y.story = i :: rest)
    (hwatched : (y.past rest).watched = (s.galley g).watched)
    (hitem : consumeItem (s.ctx g false) (Run.start (s.galley g)) = (Run.start (s.galley g)).take y) :
    consumeEvent s g want = s.setGalley g (y.past rest) := by
  rw [consumeEvent_ready s g want i rest hready hs hw, hitem, Run.take_start _ hy]
  exact State.noting_same _ _ (State.watched_setGalley _ _ _ hwatched) rfl

/-! ### The values (R49 to R51, R53) -/

theorem clampInt_eq {lo hi : Int} (h : lo ≤ hi) (v : Int) : clampInt lo hi v = min hi (max lo v) := by
  unfold clampInt
  split_ifs <;> omega

/-- A value brought into its range is another one exactly where it lay outside. -/
theorem clampInt_bne {lo hi : Int} (h : lo ≤ hi) (v : Int) : (clampInt lo hi v != v) = decide (v < lo ∨ hi < v) := by
  rw [Bool.eq_iff_iff, bne_iff_ne, decide_eq_true_iff, clampInt_eq h]
  omega

theorem Galley.clamped_eq (x : Galley) (was : Bool) : x.clamped was = x.noteClamp was := by
  cases was <;> rfl

theorem Galley.setSize_eq (x : Galley) (q : CodeUnit) :
    x.setSize q = { x with size := min 576 (max 16 q.toNat) }.noteClamp (decide (q.toNat < 16 ∨ 576 < q.toNat)) := by
  have hrange : (16 : Int) ≤ 576 := by decide
  have hvalue : (clampInt 16 576 q.toNat).toNat = min 576 (max 16 q.toNat) := by rw [clampInt_eq hrange]; omega
  have hout : (clampInt 16 576 q.toNat != q.toNat) = decide (q.toNat < 16 ∨ 576 < q.toNat) := by
    rw [clampInt_bne hrange]
    norm_cast
  rw [Galley.setSize, hvalue, hout, Galley.clamped_eq]

theorem Galley.setTrack_eq (x : Galley) (t : CodeUnit) :
    x.setTrack t = { x with track := min 31 (max (-32) t.toInt) }.noteClamp (decide (t.toInt < -32 ∨ 31 < t.toInt)) := by
  have hrange : (-32 : Int) ≤ 31 := by decide
  rw [Galley.setTrack, clampInt_bne hrange, clampInt_eq hrange, Galley.clamped_eq]

theorem Galley.setShift_eq (x : Galley) (h : CodeUnit) :
    x.setShift h
      = { x with shift := min 1200 (max (-1200) h.toInt) }.noteClamp (decide (h.toInt < -1200 ∨ 1200 < h.toInt)) := by
  have hrange : (-1200 : Int) ≤ 1200 := by decide
  rw [Galley.setShift, clampInt_bne hrange, clampInt_eq hrange, Galley.clamped_eq]

/-- Noting a clamp touches nothing of the story, nor what a selection reads (R51, R134). -/
theorem Galley.noteClamp_frame (x : Galley) (outside : Bool) :
    (x.noteClamp outside).story = x.story ∧ ∀ rest, ((x.noteClamp outside).past rest).watched = x.watched := by
  unfold Galley.noteClamp
  split
  · exact ⟨rfl, fun _ => rfl⟩
  · split <;> exact ⟨rfl, fun _ => rfl⟩

theorem Galley.steered_frame (x : Galley) (d : Dir) :
    (x.steered d).story = x.story ∧ ∀ rest, ((x.steered d).past rest).watched = x.watched := by
  unfold Galley.steered
  split <;> exact ⟨rfl, fun _ => rfl⟩

theorem consumeItem_font (c : Ctx) {x : Galley} {n : SlotId} {rest : List Item} (hs : x.story = .font n :: rest) :
    consumeItem c (Run.start x) = (Run.start x).take { x with slot := n } := by
  simp only [consumeItem, Run.start_gal, hs]

theorem consumeItem_size (c : Ctx) {x : Galley} {q : CodeUnit} {rest : List Item} (hs : x.story = .size q :: rest) :
    consumeItem c (Run.start x) = (Run.start x).take (x.setSize q) := by
  simp only [consumeItem, Run.start_gal, hs]

theorem consumeItem_track (c : Ctx) {x : Galley} {t : CodeUnit} {rest : List Item} (hs : x.story = .track t :: rest) :
    consumeItem c (Run.start x) = (Run.start x).take (x.setTrack t) := by
  simp only [consumeItem, Run.start_gal, hs]

theorem consumeItem_shift (c : Ctx) {x : Galley} {h : CodeUnit} {rest : List Item} (hs : x.story = .shift h :: rest) :
    consumeItem c (Run.start x) = (Run.start x).take (x.setShift h) := by
  simp only [consumeItem, Run.start_gal, hs]

theorem consumeItem_dirLtr (c : Ctx) {x : Galley} {rest : List Item} (hs : x.story = .dirLtr :: rest) :
    consumeItem c (Run.start x) = (Run.start x).take (x.steered .ltr) := by
  simp only [consumeItem, Run.start_gal, hs]
  rfl

theorem consumeItem_dirRtl (c : Ctx) {x : Galley} {rest : List Item} (hs : x.story = .dirRtl :: rest) :
    consumeItem c (Run.start x) = (Run.start x).take (x.steered .rtl) := by
  simp only [consumeItem, Run.start_gal, hs]
  rfl

/-- The event of an item that sets a value and may note a clamp (R50, R51). -/
theorem consumeEvent_clamps (s : State) (g : GalleyId) (want : Item → Bool) (i : Item) (rest : List Item) {x y : Galley} {outside : Bool}
    (hready : (s.galley g).ReadyToConsume) (hs : (s.galley g).story = i :: rest) (hw : want i = true)
    (hitem : consumeItem (s.ctx g false) (Run.start (s.galley g)) = (Run.start (s.galley g)).take x) (hx : x = y.noteClamp outside)
    (hstory : y.story = (s.galley g).story) (hwatched : y.watched = (s.galley g).watched) :
    consumeEvent s g want = s.setGalley g ((y.noteClamp outside).past rest) := by
  obtain ⟨hstory', hwatched'⟩ := y.noteClamp_frame outside
  exact consumeEvent_passes s g want i rest hready hs hw (hstory'.trans (hstory.trans hs)) ((hwatched' rest).trans hwatched)
    (hx ▸ hitem)

/-- The event of a direction item (R53). -/
theorem consumeEvent_steers (s : State) (g : GalleyId) (want : Item → Bool) (i : Item) (rest : List Item) {d : Dir}
    (hready : (s.galley g).ReadyToConsume) (hs : (s.galley g).story = i :: rest) (hw : want i = true)
    (hitem : consumeItem (s.ctx g false) (Run.start (s.galley g)) = (Run.start (s.galley g)).take ((s.galley g).steered d)) :
    consumeEvent s g want = s.setGalley g (((s.galley g).steered d).past rest) := by
  obtain ⟨hstory, hwatched⟩ := (s.galley g).steered_frame d
  exact consumeEvent_passes s g want i rest hready hs hw (hstory.trans hs) (hwatched rest) hitem

/-- Settles O37: each item is passed with its value set, and none of the values is one that a selection reads. -/
theorem valueItemsSetTheCurrentValues : Obligations.ValueItemsSetTheCurrentValues := by
  refine ⟨?_, ?_, ?_, ?_, ?_, ?_⟩
  · intro s g n rest hready hs
    exact congrArg Host.Outcome.next (consumeEvent_passes s g _ (.font n) rest hready hs rfl hs rfl (consumeItem_font _ hs))
  · intro s g q rest hready hs
    exact congrArg Host.Outcome.next
      (consumeEvent_clamps s g _ (.size q) rest hready hs rfl (consumeItem_size _ hs) (Galley.setSize_eq _ q) rfl rfl)
  · intro s g t rest hready hs
    exact congrArg Host.Outcome.next
      (consumeEvent_clamps s g _ (.track t) rest hready hs rfl (consumeItem_track _ hs) (Galley.setTrack_eq _ t) rfl rfl)
  · intro s g h rest hready hs
    exact congrArg Host.Outcome.next
      (consumeEvent_clamps s g _ (.shift h) rest hready hs rfl (consumeItem_shift _ hs) (Galley.setShift_eq _ h) rfl rfl)
  · intro s g rest hready hs
    exact congrArg Host.Outcome.next (consumeEvent_steers s g _ .dirLtr rest hready hs rfl (consumeItem_dirLtr _ hs))
  · intro s g rest hready hs
    exact congrArg Host.Outcome.next (consumeEvent_steers s g _ .dirRtl rest hready hs rfl (consumeItem_dirRtl _ hs))

end Sys2Proof.Machine
end

