-- ==== Sys2Proof/Proofs/Stories.lean ====
section
/-! STORY and FLUSH: the requests of a galley's story queue (R44 to R47, R54, R64). -/

namespace Sys2Proof.Machine

/-! ### A request of a galley (R158 to R161) -/

section Galleys

variable {s : State} {g : GalleyId} {k : ReqKind} {body : List Byte}

/-- A request of a galley that its owner answers with the galley replaced: its reply stands at the back of the queue. -/
theorem completeFrame_setGalley (hcan : s.link.canTake = true) (hd : k.domain = .galley) (hl : k.lengthGood body = true) {x : Galley}
    {r : Result} {data : List Byte}
    (h : handle k { s with link := s.link.hunt } (galleyByte g) body
      = { state := ({ s with link := s.link.hunt } : State).setGalley g x, result := r, data := data }) :
    s.completeFrame (goodFrame k.code (galleyByte g) body)
      = s.noting ((s.setGalley g x).answer k.code (galleyByte g) r data) := by
  rw [completeFrame_request s k _ body hcan (hd ▸ Domain.galley_holds g) hl, h, place_answer s _ r data _ _ rfl]
  rfl

/-- Where the galley's watched part is as it was, no selection comes to be due (R134). -/
theorem completeFrame_setGalley_quiet (hcan : s.link.canTake = true) (hd : k.domain = .galley) (hl : k.lengthGood body = true)
    {x : Galley} (hx : x.watched = (s.galley g).watched) {r : Result} {data : List Byte}
    (h : handle k { s with link := s.link.hunt } (galleyByte g) body
      = { state := ({ s with link := s.link.hunt } : State).setGalley g x, result := r, data := data }) :
    s.completeFrame (goodFrame k.code (galleyByte g) body) = (s.setGalley g x).answer k.code (galleyByte g) r data := by
  rw [completeFrame_setGalley hcan hd hl h]
  exact State.noting_same _ _ (State.watched_setGalley s g x hx) rfl

/-- A request of a galley that its owner answers with the part as it was. -/
theorem completeFrame_galley_same (hcan : s.link.canTake = true) (hd : k.domain = .galley) (hl : k.lengthGood body = true)
    {r : Result} {data : List Byte}
    (h : handle k { s with link := s.link.hunt } (galleyByte g) body
      = { state := { s with link := s.link.hunt }, result := r, data := data }) :
    s.completeFrame (goodFrame k.code (galleyByte g) body) = s.answer k.code (galleyByte g) r data := by
  have hsame := completeFrame_setGalley_quiet (g := g) (x := s.galley g) hcan hd hl rfl (h.trans (by
    rw [show s.galley g = ({ s with link := s.link.hunt } : State).galley g from rfl, State.setGalley_galley]))
  rwa [State.setGalley_galley] at hsame

/-- A request whose target is no galley is refused with RANGE before its owner sees it (R159 step 2). -/
theorem completeFrame_no_galley (hcan : s.link.canTake = true) (hd : k.domain = .galley) {target : Byte} (ht : 4 ≤ target.toNat) :
    s.completeFrame (goodFrame k.code target body) = s.answer k.code target .range [] := by
  have hholds : k.domain.holds target = false := by
    rw [hd]
    exact decide_eq_false (Nat.not_lt.2 ht)
  rw [completeFrame_good s _ _ _ hcan, dispatch, ReqKind.requestKind_code]
  simp only [hholds, Bool.not_false, if_true]
  rw [place_refuse, noting_answer]

end Galleys

/-! ### FLUSH (R54) -/

theorem handleFlush_halted (s : State) (g : GalleyId) (body : List Byte) (h : (s.galley g).state = .halted) :
    handleFlush s (galleyByte g) body
      = (s.setGalley g { s.galley g with story := [] }).accept
          (be16 (storyUnits (s.galley g).story) ++ be16 (s.galley g).story.length) := by
  simp only [handleFlush, galleyOf_galleyByte, h, ne_eq, not_true, if_false, Galley.fill]

theorem handleFlush_refused (s : State) (g : GalleyId) (body : List Byte) (h : (s.galley g).state ≠ .halted) :
    handleFlush s (galleyByte g) body = s.refuse .state := by
  simp only [handleFlush, galleyOf_galleyByte, ne_eq, h, not_false_eq_true, if_true]

/-- Settles O20: what FLUSH empties is nothing that a selection reads. -/
theorem flushEmptiesTheQueue : Obligations.FlushEmptiesTheQueue := by
  refine ⟨fun s g b hcan hst => ?_, fun s g b hcan hst => ?_, fun s target b hcan ht => ?_⟩
  · refine congrArg Host.Outcome.next (completeFrame_setGalley_quiet (k := .flush) hcan rfl rfl ?_ ?_)
    · rfl
    · exact handleFlush_halted { s with link := s.link.hunt } g [b] hst
  · exact congrArg Host.Outcome.next (completeFrame_galley_same (k := .flush) hcan rfl rfl
      (handleFlush_refused { s with link := s.link.hunt } g [b] hst))
  · exact congrArg Host.Outcome.next (completeFrame_no_galley (k := .flush) hcan rfl ht)

/-! ### STORY (R44 to R46, R64) -/

/-- Story at a galley that is not released and does not wait for any is stored, and the idle timer starts afresh (R64). -/
theorem arrival_stored (c : Ctx) (high units : Nat) {x : Galley} (hr : x.released = false) (hst : x.state ∉ [.ready, .starved]) :
    arrival c high units x = Run.start x.timerAfresh := by
  rw [List.mem_pair] at hst
  have hretrigger : x.retrigger = x.timerAfresh := by simp [Galley.timerRetriggered, hr]
  have hstate : ¬(x.timerAfresh.state = .ready ∨ x.timerAfresh.state = .starved) := hst
  have hreleased : x.timerAfresh.released = false := hr
  simp only [arrival, unreleaseTest, hretrigger, Run.start_gal, hreleased, Bool.not_false, if_true, hstate, and_false, if_false]

/-- Story at a READY or STARVED galley that is not released brings it to SETTING, and it takes its first step (R64 step 3). -/
theorem arrival_proceeds (c : Ctx) (high : Nat) {units : Nat} {x : Galley} (hu : 0 < units) (hr : x.released = false)
    (hst : x.state ∈ [.ready, .starved]) :
    arrival c high units x = proceed c (Run.start { x.timerAfresh with state := .setting }) := by
  rw [List.mem_pair] at hst
  have hretrigger : x.retrigger = x.timerAfresh := by simp [Galley.timerRetriggered, hr]
  have hstate : x.timerAfresh.state = .ready ∨ x.timerAfresh.state = .starved := hst
  have hreleased : x.timerAfresh.released = false := hr
  simp only [arrival, unreleaseTest, hretrigger, Run.start_gal, hreleased, Bool.not_false, if_true, hstate, hu, and_self]
  rfl

section Story

variable (s : State) (g : GalleyId) {body : List Byte}

theorem handleStory_refused (h : (s.galley g).state ∈ [.off, .closing]) : handleStory s (galleyByte g) body = s.refuse .state := by
  rw [List.mem_pair] at h
  simp only [handleStory, galleyOf_galleyByte, h, if_true]

variable (h : (s.galley g).state ∉ [.off, .closing])

include h

theorem handleStory_bad {why : BadReason} {offset : Nat} (hread : readStory body = .error (why, offset)) :
    handleStory s (galleyByte g) body = { state := s, result := .badItem, data := byteOf why.code :: be16 offset } := by
  rw [List.mem_pair] at h
  simp only [handleStory, galleyOf_galleyByte, h, if_false, hread]

theorem handleStory_full {items : List Item} (hread : readStory body = .ok items) (hfull : (s.galley g).storyFree < storyUnits items) :
    handleStory s (galleyByte g) body = { state := s, result := .full, data := be16 (s.galley g).storyFree } := by
  rw [List.mem_pair] at h
  simp only [handleStory, galleyOf_galleyByte, h, if_false, hread, hfull, if_true]

/-- Story that has room is stored, and the galley's work of the arrival follows (R64). -/
theorem handleStory_stored {items : List Item} (hread : readStory body = .ok items)
    (hroom : (s.galley g).fill + storyUnits items ≤ 1024) {r : Run}
    (hr : arrival (s.ctx g false) s.page.high (storyUnits items) { s.galley g with story := (s.galley g).story ++ items } = r) :
    handleStory s (galleyByte g) body
      = (s.commit g r).accept (be16 (storyUnits items) ++ be16 items.length ++ be16 r.gal.storyFree) := by
  have hfree : ¬(s.galley g).storyFree < storyUnits items := by
    rw [Galley.storyFree, Config.storyCapacity]
    omega
  rw [List.mem_pair] at h
  simp only [handleStory, galleyOf_galleyByte, h, if_false, hread, hfree, hr]

end Story

theorem not_mem_of_mem {st : GalleyState} {as bs : List GalleyState} (h : st ∈ as) (hbs : ∀ t ∈ as, t ∉ bs := by decide) : st ∉ bs :=
  hbs _ h

/-- The free count behind stored story (R43). -/
theorem Galley.storyFree_of_story {x y : Galley} {items : List Item} (h : y.story = x.story ++ items) :
    y.storyFree = 1024 - (x.fill + storyUnits items) := by
  rw [Galley.storyFree, Galley.fill, h, storyUnits_append]
  rfl

/-- The first step of a galley brought to SETTING by story that a FONT item leads (R49, R64). -/
theorem arrival_font (c : Ctx) (high : Nat) {units : Nat} {x : Galley} {n : SlotId} {rest : List Item} (hu : 0 < units)
    (hr : x.released = false) (hst : x.state ∈ [.ready, .starved]) (hstory : x.story = .font n :: rest) (hheld : x.held = none)
    (hcarry : x.hasCarry = false) (hmark : x.mark.state = .disarmed) :
    arrival c high units x
      = Run.afterItem ({ x.timerAfresh with state := .setting, slot := n }.past rest) := by
  have hready : ({ x.timerAfresh with state := .setting } : Galley).ReadyToConsume :=
    ⟨.inl rfl, hheld, hcarry, fun ⟨_, harmed, _⟩ => by simp [Galley.timerAfresh, hmark] at harmed⟩
  exact (arrival_proceeds c high hu hr hst).trans (proceed_passes c hready hstory hstory (consumeItem_font c hstory))

/-- Settles O18: the body is read piece by piece, and what it reads as decides between the refusals and the arrival. -/
theorem storyIsStoredWhole : Obligations.StoryIsStoredWhole := by
  refine ⟨?_, ?_, fun s g body hcan hst => ?_, ?_, ?_, ?_⟩
  · rintro s g ps items hcan hgood rfl hst hreleased hroom
    have harrival := arrival_stored (s.ctx g false) s.page.high (storyUnits (pieceItems ps))
      (x := { s.galley g with story := (s.galley g).story ++ pieceItems ps }) hreleased (not_mem_of_mem hst)
    refine congrArg Host.Outcome.next (completeFrame_setGalley_quiet (k := .story) hcan rfl rfl ?_ ?_)
    · rfl
    · refine (handleStory_stored { s with link := s.link.hunt } g (not_mem_of_mem hst) (readStory_unitBytes hgood) hroom harrival).trans ?_
      rw [Run.start_gal, Galley.storyFree_of_story (x := s.galley g) rfl]
      rfl
  · intro s g n items hcan hwell hst hreleased hstory hheld hcarry hmark hroom
    have hread := storyReadsBackItsItems (.font n :: items) (by simpa [Item.wellFormed] using hwell)
    have hunits : storyUnits (.font n :: items) = 1 + storyUnits items := rfl
    have hfill : (s.galley g).fill + storyUnits (.font n :: items) ≤ 1024 := by
      rw [Galley.fill, hstory, hunits]
      exact (Nat.zero_add _).trans_le hroom
    have harrival := arrival_font (s.ctx g false) s.page.high (units := storyUnits (.font n :: items))
      (x := { s.galley g with story := (s.galley g).story ++ .font n :: items }) (by omega) hreleased hst (by rw [hstory]; rfl)
      hheld hcarry hmark
    refine congrArg Host.Outcome.next (completeFrame_setGalley (k := .story) hcan rfl rfl ?_)
    refine (handleStory_stored { s with link := s.link.hunt } g (not_mem_of_mem hst) hread hfill harrival).trans ?_
    rw [hunits, List.length_cons, Nat.add_comm items.length 1]
    rfl
  · exact congrArg Host.Outcome.next (completeFrame_galley_same (k := .story) hcan rfl rfl
      (handleStory_refused { s with link := s.link.hunt } g hst))
  · rintro s g ps items hcan hgood rfl hst hfill hfull
    have hfree : (s.galley g).storyFree < storyUnits (pieceItems ps) := by
      rw [Galley.storyFree, Config.storyCapacity]
      omega
    exact congrArg Host.Outcome.next (completeFrame_galley_same (k := .story) hcan rfl rfl
      (handleStory_full { s with link := s.link.hunt } g hst (readStory_unitBytes hgood) hfree))
  · intro s g ps us lone why hcan hst hgood hwhy hlone
    exact congrArg Host.Outcome.next (completeFrame_galley_same (k := .story) hcan rfl rfl
      (handleStory_bad { s with link := s.link.hunt } g hst (readStory_metAt hgood hwhy hlone)))
  · intro s g ps lone hcan hst hgood
    exact congrArg Host.Outcome.next (completeFrame_galley_same (k := .story) hcan rfl rfl
      (handleStory_bad { s with link := s.link.hunt } g hst (readStory_pieces (lone := [lone]) hgood (Nat.le_refl 1))))

end Sys2Proof.Machine
end

