-- ==== Sys2Proof/Proofs/Discs.lean ====
section
/-! DISC in the line: the copies of its texts, its no-break entries and its opportunity (R52, R94). -/

namespace Sys2Proof.Machine

/-! ### The copies of a text (R52, R94) -/

/-- The copies that a lookup returns for a text's codes, with the current values, are the text prepared (R94 steps 1 to 3). -/
theorem Galley.prepareText_copies (c : Ctx) (x : Galley) (role : DiscRole) (h : Header) {ps : List Prepared} {us : List CodeUnit}
    (hcodes : ps.map Prepared.code = us)
    (hps : ∀ p ∈ ps, (c.fonts[x.slot]).Finds p.code h p.record p.substituted ∧ p.matrix = h.matrix ∧ p.slot = x.slot ∧
      p.size = x.size ∧ p.track = x.track ∧ p.shift = x.shift ∧ p.index = x.itemIndex)
    (hdisc : ∀ p ∈ ps, p.disc = some { number := x.itemIndex, role := role }) : x.prepareText c role us = some ps := by
  subst hcodes
  induction ps with
  | nil => rfl
  | cons p ps ih =>
    obtain ⟨hfinds, hmatrix, hslot, hsize, htrack, hshift, hindex⟩ := hps p (by simp)
    have hcopy : x.prepare p.code (some { number := x.itemIndex, role := role }) (p.record, h.matrix, p.substituted) = p := by
      rw [Galley.prepare, ← hdisc p (by simp), ← hmatrix, ← hslot, ← hsize, ← htrack, ← hshift, ← hindex]
    have hrest := ih (fun q hq => hps q (by simp [hq])) fun q hq => hdisc q (by simp [hq])
    simp only [List.map_cons, Galley.prepareText, lookup_finds _ _ _ h p.record p.substituted hfinds, hrest, hcopy]

/-- A text whose every code a lookup finds is prepared (R36, R94). -/
theorem Galley.exists_prepareText (c : Ctx) (x : Galley) (role : DiscRole) {us : List CodeUnit}
    (h : ∀ u ∈ us, ∃ h r sub, (c.fonts[x.slot]).Finds u h r sub) : ∃ ps, x.prepareText c role us = some ps := by
  induction us with
  | nil => exact ⟨[], rfl⟩
  | cons u us ih =>
    obtain ⟨header, r, sub, hfinds⟩ := h u (by simp)
    obtain ⟨ps, hps⟩ := ih fun v hv => h v (by simp [hv])
    exact ⟨_, by simp only [Galley.prepareText, lookup_finds _ _ _ header r sub hfinds, hps]; rfl⟩

/-! ### The course of a DISC (R94) -/

/-- The galley with a DISC's no-break entries made, which give the builder `b`, and its opportunity added before them, where hyphenation is on
and the line held entries (R93, R94). -/
def Galley.withDisc (y : Galley) (pre post : List Prepared) (b : Builder) : Galley :=
  { y with
    hasEntries := y.hasEntries || decide (y.builder.entries.length < b.entries.length)
    builder :=
      if y.active.hyphenation = true ∧ y.builder.entries ≠ [] then
        { b with
          opps := pushOpp b.opps
            { place := y.builder.entries.length
              kind := .disc y.itemIndex pre post (b.entries.length - y.builder.entries.length) } }
      else b }

/-- The opportunity touches neither the depth, nor the entries, nor the sums. -/
theorem Galley.withDisc_builder (y : Galley) (pre post : List Prepared) (b : Builder) :
    (y.withDisc pre post b).builder.lineDepth = b.lineDepth ∧ (y.withDisc pre post b).builder.sums = b.sums := by
  unfold Galley.withDisc
  dsimp only
  split <;> exact ⟨rfl, rfl⟩

/-- Neither the entries nor the opportunity are read by a selection (R134). -/
theorem Galley.withDisc_past_watched (y : Galley) (pre post : List Prepared) {b : Builder} (rest : List Item)
    (hb : b.lineDepth = y.builder.lineDepth) : ((y.withDisc pre post b).past rest).watched = y.watched := by
  obtain ⟨hdepth, -⟩ := y.withDisc_builder pre post b
  have hfrontier : ((y.withDisc pre post b).past rest).frontier = y.frontier := by
    rw [Galley.frontier, show ((y.withDisc pre post b).past rest).builder.lineDepth = y.builder.lineDepth from hdepth.trans hb]
    rfl
  rw [Galley.watched, hfrontier]
  rfl

/-- A DISC without entries of its own adds its opportunity at the end of the line, and nothing else. -/
theorem Galley.withDisc_same (y : Galley) (pre post : List Prepared) :
    y.withDisc pre post y.builder
      = if y.active.hyphenation = true ∧ y.builder.entries ≠ [] then
          { y with
            builder := { y.builder with
              opps := pushOpp y.builder.opps
                { place := y.builder.entries.length, kind := .disc y.itemIndex pre post 0 } } }
        else y := by
  unfold Galley.withDisc
  split <;> simp

/-- A DISC whose texts are prepared, in a line that has room for its no-break entries and fits with those it made (R94). -/
theorem consumeDisc_room (c : Ctx) {x y : Galley} {pre post noBreak : List CodeUnit} {h : Header} {cs ds ns : List Prepared}
    {b : Builder} (hheader : lookupHeader c.fonts x.slot = some h) (hpre : x.prepareText c .pre pre = some cs)
    (hpost : x.prepareText c .post post = some ds) (hnoBreak : x.prepareText c .noBreak noBreak = some ns)
    (hline : (if noBreak.isEmpty then some x else needLine c x false) = some y)
    (hroom : y.builder.entries.length + ns.length ≤ 160) (hb : b = ns.foldl (Builder.enter c.fonts) y.builder)
    (hfit : b.entries.length = y.builder.entries.length ∨ y.FitsWith b) :
    consumeDisc c (Run.start x) pre post noBreak = (Run.start x).take (y.withDisc cs ds b) := by
  have hlimit := limitClose_room c { Run.start x with gal := y } ns.length hroom
  have hopp : (y.active.hyphenation && decide (0 < y.builder.entries.length)) = true ↔
      y.active.hyphenation = true ∧ y.builder.entries ≠ [] := by
    rw [Bool.and_eq_true, decide_eq_true_iff, List.length_pos_iff]
  have hcourse : consumeDisc c (Run.start x) pre post noBreak
      = if decide (y.builder.entries.length < b.entries.length) then
          endCourse c ((Run.start x).take (y.withDisc cs ds b)) false
        else (Run.start x).take (y.withDisc cs ds b) := by
    simp only [consumeDisc, Run.start_gal, hheader, hpre, hpost, hnoBreak, hline, hlimit, ← hb, hopp, Nat.sub_pos_iff_lt,
      Bool.false_or]
    rfl
  rw [hcourse]
  split
  case isFalse => rfl
  case isTrue hmade =>
    obtain ⟨-, hsums⟩ := y.withDisc_builder cs ds b
    have hfits : (y.withDisc cs ds b).take.fits = true :=
      (Galley.fits_iff _).2 fun _ => by
        rw [Galley.take_builder, hsums]
        exact hfit.resolve_left (of_decide_eq_true hmade).ne'
    rw [endCourse, if_neg Bool.false_ne_true, fitChain_fits _ _ _ hfits]

theorem consumeDisc_overmatter (c : Ctx) {x : Galley} {pre post noBreak : List CodeUnit} (hne : noBreak ≠ [])
    (hv : (c.fonts[x.slot]).state = .valid) (hheader : (c.fonts[x.slot]).header.isSome = true)
    (hfinds : ∀ u ∈ pre ++ post ++ noBreak, ∃ h r sub, (c.fonts[x.slot]).Finds u h r sub) (hs : x.started = false)
    (hbelow : c.pageDepth < x.nextDepth) : consumeDisc c (Run.start x) pre post noBreak = (Run.start x).halt c .overmatter := by
  obtain ⟨h, hh⟩ := Option.isSome_iff_exists.1 hheader
  obtain ⟨cs, hcs⟩ := x.exists_prepareText c .pre (us := pre) fun u hu => hfinds u (by simp [hu])
  obtain ⟨ds, hds⟩ := x.exists_prepareText c .post (us := post) fun u hu => hfinds u (by simp [hu])
  obtain ⟨ns, hns⟩ := x.exists_prepareText c .noBreak (us := noBreak) fun u hu => hfinds u (by simp [hu])
  simp only [consumeDisc, Run.start_gal, lookupHeader_valid _ _ h hv hh, hcs, hds, hns, List.isEmpty_eq_false_iff.2 hne,
    needLine_below c x false hs hbelow, Bool.false_eq_true, if_false]

theorem consumeDisc_noFont (c : Ctx) {x : Galley} (pre post noBreak : List CodeUnit) (hv : (c.fonts[x.slot]).state ≠ .valid) :
    consumeDisc c (Run.start x) pre post noBreak = (Run.start x).halt c .noFont := by
  simp only [consumeDisc, Run.start_gal, lookupHeader_invalid _ _ hv]

theorem consumeItem_disc (c : Ctx) {x : Galley} {pre post noBreak : List CodeUnit} {rest : List Item}
    (hs : x.story = .disc pre post noBreak :: rest) :
    consumeItem c (Run.start x) = consumeDisc c (Run.start x) pre post noBreak := by
  simp only [consumeItem, Run.start_gal, hs]

/-- A line start leaves the story and what a selection reads (R60, R134). -/
theorem Galley.withLine_unread (x : Galley) : x.withLine.story = x.story ∧ x.withLine.watched = x.watched := by
  obtain ⟨hout, hreleased, hstate, hstory⟩ := x.withLine_frame
  have hfrontier : x.withLine.frontier = x.frontier := by rw [Galley.frontier, x.withLine_lineDepth]
  exact ⟨hstory, (Galley.watched_eq_iff _ _).2 ⟨hout, hfrontier, hreleased, hstate⟩⟩

/-- Settles O42: the courses of a DISC with a no-break text and without one, and the halts of one that finds no line or no font. -/
theorem discAddsAnOpportunity : Obligations.DiscAddsAnOpportunity := by
  refine ⟨?_, ?_, ?_, ?_⟩
  · intro s g rest pre post h cs ds hready hs hcs hds hcopies hcsDisc hdsDisc hv hh hroom
    have hpre := Galley.prepareText_copies (s.ctx g false) (s.galley g) .pre h hcs (fun p hp => hcopies p (by simp [hp])) hcsDisc
    have hpost := Galley.prepareText_copies (s.ctx g false) (s.galley g) .post h hds (fun p hp => hcopies p (by simp [hp])) hdsDisc
    have hitem := consumeDisc_room (s.ctx g false) (lookupHeader_valid _ _ h hv hh) hpre hpost (noBreak := []) (ns := []) rfl rfl hroom
      rfl (.inl rfl)
    refine Eq.trans (congrArg Host.Outcome.next (consumeEvent_passes s g _ (.disc pre post []) rest
      (y := (s.galley g).withDisc cs ds (s.galley g).builder) hready hs rfl hs (Galley.withDisc_past_watched _ cs ds rest rfl)
      ((consumeItem_disc _ hs).trans hitem))) ?_
    rw [Galley.withDisc_same]
  · rintro s g rest pre post noBreak h cs ds ns y b hready hs hne hcs hds hns hcopies hcsDisc hdsDisc hnsDisc hstands rfl hroom rfl hfit
    have hpre := Galley.prepareText_copies (s.ctx g false) (s.galley g) .pre h hcs (fun p hp => hcopies p (by simp [hp])) hcsDisc
    have hpost := Galley.prepareText_copies (s.ctx g false) (s.galley g) .post h hds (fun p hp => hcopies p (by simp [hp])) hdsDisc
    have hnoBreak := Galley.prepareText_copies (s.ctx g false) (s.galley g) .noBreak h hns (fun p hp => hcopies p (by simp [hp]))
      hnsDisc
    obtain ⟨hstory, hwatched⟩ := (s.galley g).withLine_unread
    have hline : (if noBreak.isEmpty then some (s.galley g) else needLine (s.ctx g false) (s.galley g) false)
        = some (s.galley g).withLine := by
      rw [if_neg (by simpa using hne)]
      exact needLine_stands _ _ hstands
    obtain ⟨p, ns', rfl⟩ : ∃ p ns', ns = p :: ns' := List.exists_cons_of_ne_nil (by rintro rfl; exact hne hns.symm)
    obtain ⟨⟨hv, hh, -⟩, -⟩ := hcopies p (by simp)
    have hlength : (p :: ns').length = noBreak.length := by rw [← hns, List.length_map]
    have hitem := consumeDisc_room (s.ctx g false) (lookupHeader_valid _ _ h hv hh) hpre hpost hnoBreak hline (hlength ▸ hroom) rfl hfit
    exact congrArg Host.Outcome.next (consumeEvent_passes s g _ (.disc pre post noBreak) rest hready hs rfl (hstory.trans hs)
      ((Galley.withDisc_past_watched _ cs ds rest (Builder.foldl_enter_lineDepth _ _ _)).trans hwatched)
      ((consumeItem_disc _ hs).trans hitem))
  · intro s g rest pre post noBreak hready hs hne hv hheader hfinds hstarted hbelow
    exact congrArg Host.Outcome.next (consumeEvent_halts s g _ (.disc pre post noBreak) rest .overmatter hready hs rfl
      ((consumeItem_disc _ hs).trans (consumeDisc_overmatter (s.ctx g false) hne hv hheader hfinds hstarted hbelow)))
  · intro s g rest pre post noBreak hready hs hv
    exact congrArg Host.Outcome.next (consumeEvent_halts s g _ (.disc pre post noBreak) rest .noFont hready hs rfl
      ((consumeItem_disc _ hs).trans (consumeDisc_noFont (s.ctx g false) pre post noBreak hv)))

end Sys2Proof.Machine
end

