-- ==== Sys2Proof/Proofs/Paragraphs.lean ====
section
/-! PARA: the close of the started line as a paragraph last line (R53, R61, R70, R79, R101, R122). -/

namespace Sys2Proof.Machine

/-! ### The galley past the close of a line that leaves no carry (R61) -/

theorem Galley.lineDone_eq (x : Galley) (d : Nat) :
    x.lineDone d
      = { x with
          lineNumber := x.lineNumber + 1, lastDepth := some d, builder := Builder.empty
          idleTimer := if x.released then x.idleTimer else decide (x.interval ≠ 0) } := by
  cases h : x.released <;> simp [Galley.lineDone, Galley.timerRetriggered, Galley.timerAfresh, h]

theorem Galley.lineDone_entries (x : Galley) (d : Nat) : (x.lineDone d).builder.entries = [] := by rw [Galley.lineDone_eq]; rfl
theorem Galley.lineDone_mark (x : Galley) (d : Nat) : (x.lineDone d).mark = x.mark := by rw [Galley.lineDone_eq]
theorem Galley.lineDone_output (x : Galley) (d : Nat) : (x.lineDone d).output = x.output := by rw [Galley.lineDone_eq]
theorem Galley.lineDone_latch (x : Galley) (d : Nat) : (x.lineDone d).latch = x.latch := by rw [Galley.lineDone_eq]

theorem Galley.afterClose_last {x : Galley} {d : Nat} (hd : x.builder.lineDepth = some d) : x.afterClose [] [] = x.lineDone d := by
  rw [Galley.afterClose, Galley.retrigger_eq, hd]
  rfl

/-- The close of a line touches neither the story nor the mark, so the item may as well be passed behind it (R48, R61). -/
theorem Galley.past_lineDone (x : Galley) (rest : List Item) (d : Nat) : (x.past rest).lineDone d = (x.lineDone d).past rest := by
  rw [Galley.lineDone_eq, Galley.lineDone_eq]
  rfl

/-- A FORCE mark acts at the close that PARA makes exactly where it is due then (R70). -/
theorem Galley.past_mark_acts (x : Galley) (rest : List Item) : (x.past rest).mark.acts [] = decide x.ForceDue := by
  rw [Bool.eq_iff_iff, decide_eq_true_iff, Galley.past, StopMark.acts, Galley.ForceDue]
  dsimp only
  split
  · rename_i hnamed
    obtain ⟨harmed, hindex⟩ := hnamed
    cases hk : x.mark.kind <;> simp [harmed, hindex]
  · rename_i hnamed
    simp [hnamed]

/-- Passing the item leaves the mark's kind and index (R69, R70). -/
theorem Galley.past_mark (x : Galley) (rest : List Item) (st : MarkState) :
    ({ (x.past rest).mark with state := st } : StopMark) = { x.mark with state := st } := by
  unfold Galley.past
  dsimp only
  split <;> rfl

theorem Galley.past_mark_acts_eq_false (x : Galley) (rest : List Item) (h : ¬x.ForceDue) : (x.past rest).mark.acts [] = false := by
  rw [Galley.past_mark_acts, decide_eq_false h]

/-! ### The close of a line that leaves no carry (R61, R100) -/

@[simp] theorem Run.giveException_output (c : Ctx) (r : Run) (l : LineRecord) : (r.giveException c l).gal.output = r.gal.output := by
  obtain ⟨latch, count, events, h, -, -⟩ := r.giveException_eq c l
  rw [h]

/-- A record without exceptions leaves its galley as it was (R122). -/
theorem Run.giveException_none (c : Ctx) (q : Run) {l : LineRecord} (h : l.exceptions = ExcSet.none) : q.giveException c l = q := by
  rw [Run.giveException, h]
  rfl

/-- The first record with exceptions fills the latch and raises EXCEPTION (R79). -/
theorem Run.giveException_latches (c : Ctx) (q : Run) {l : LineRecord} (h : l.exceptions ≠ ExcSet.none) (hlatch : q.gal.latch = none) :
    q.giveException c l
      = { q with gal := { q.gal with latch := some l.exception }, events := q.events ++ [(.exception c.id, .exception l.exception)] } := by
  obtain ⟨hnone, -⟩ | ⟨-, -, hgiven⟩ | ⟨-, ⟨e, hfull⟩, -⟩ := q.giveException_cases c l
  · exact absurd hnone h
  · exact hgiven
  · rw [hlatch] at hfull
    cases hfull

section Close

variable (c : Ctx) {r : Run} {d : Nat} (hd : r.gal.builder.lineDepth = some d)

include hd

/-- An empty line gives no record; its clamp stays pending (R51, R100 step 4). -/
theorem closeLine_empty (hact : r.gal.mark.acts [] = false)
    (hbody : dropTrailingSpaces (sealLine c.fonts r.gal.builder.entries) = []) :
    closeLine c r r.gal.builder.entries false false true [] []
      = { r with gal := { r.gal.lineDone d with clampPending := (r.gal.lineDone d).clampPending || r.gal.builder.clampMark } } := by
  simp only [closeLine, Galley.afterClose_last hd, Galley.lineDone_entries, hact, hbody, List.isEmpty_nil, if_true,
    Bool.false_eq_true, if_false]

variable {l : LineRecord} (hbody : dropTrailingSpaces (sealLine c.fonts r.gal.builder.entries) ≠ [])
  (hl : l = r.gal.lastLine c.fonts c.id c.pageWidth d)

include hbody hl

/-- Where no mark acts, the record is given to the galley and joins an output queue that has room (R61, R122). -/
theorem closeLine_joins (hact : r.gal.mark.acts [] = false) (hroom : r.gal.output.length < 4) {q : Run}
    (hq : ({ r with gal := r.gal.lineDone d } : Run).giveException c l = q) :
    closeLine c r r.gal.builder.entries false false true [] [] = { q with gal := { q.gal with output := r.gal.output ++ [l] } } := by
  subst hl hq
  simp only [closeLine, Galley.afterClose_last hd, Galley.lineDone_entries, hact, hd, Option.getD_some,
    List.isEmpty_eq_false_iff.2 hbody, Bool.false_eq_true, if_false]
  refine (if_pos ?_).trans ?_
  · rw [Run.giveException_output, Galley.lineDone_output]
    exact hroom
  · rw [Run.giveException_output, Galley.lineDone_output]
    rfl

/-- Where no mark acts and the output queue is full, the galley holds the line, BLOCKED (R61). -/
theorem closeLine_holds (hact : r.gal.mark.acts [] = false) (hfull : ¬r.gal.output.length < 4) {q : Run}
    (hq : ({ r with gal := r.gal.lineDone d } : Run).giveException c l = q) :
    closeLine c r r.gal.builder.entries false false true [] []
      = { q with
          gal := { q.gal with
            held := some { record := l, entries := (dropTrailingSpaces (sealLine c.fonts r.gal.builder.entries)).length }
            state := .blocked, cause := none, deferred := if c.stepping then some .step else none }
          stopped := true } := by
  subst hl hq
  simp only [closeLine, Galley.afterClose_last hd, Galley.lineDone_entries, hact, hd, Option.getD_some,
    List.isEmpty_eq_false_iff.2 hbody, Bool.false_eq_true, if_false]
  refine (if_neg ?_).trans ?_
  · rw [Run.giveException_output, Galley.lineDone_output]
    exact hfull
  · rfl

/-- A mark that acts is disarmed, and halts the galley behind the record (R70). -/
theorem closeLine_halts (hact : r.gal.mark.acts [] = true) (hroom : r.gal.output.length < 4) {q : Run}
    (hq : ({ r with gal := { r.gal.lineDone d with mark := { r.gal.mark with state := .disarmed } } } : Run).giveException c l = q) :
    closeLine c r r.gal.builder.entries false false true [] []
      = Run.halt c { q with gal := { q.gal with output := r.gal.output ++ [l] } } .mark := by
  subst hl hq
  simp only [closeLine, Galley.afterClose_last hd, Galley.lineDone_entries, Galley.lineDone_mark, hact, hd, Option.getD_some,
    List.isEmpty_eq_false_iff.2 hbody, Bool.false_eq_true, if_false, if_true]
  refine (if_pos ?_).trans ?_
  · rw [Run.giveException_output, Galley.lineDone_output]
    exact hroom
  · rw [Run.giveException_output, Galley.lineDone_output]
    rfl

end Close

/-! ### The course of a PARA (R53, R101) -/

/-- A PARA whose line stands in the galley `y` closes it, past the item, and the next paragraph begins. -/
theorem consumePara_closes (c : Ctx) {x y : Galley} {rest : List Item} (hs : x.story = .para :: rest) (hline : needLine c x true = some y)
    (hy : y.story = .para :: rest) {t : Run}
    (ht : closeLine c (Run.afterItem (y.past rest)) y.builder.entries false false true [] []
      = t) : consumeItem c (Run.start x) = { t with gal := t.gal.paragraph } := by
  simp only [consumeItem, Run.start_gal, hs, consumePara, hline, Run.take_start x hy, ht]
  rfl

theorem consumePara_started (c : Ctx) {x : Galley} {rest : List Item} {d : Nat} (hs : x.story = .para :: rest)
    (hd : x.builder.lineDepth = some d) {t : Run}
    (ht : closeLine c (Run.afterItem (x.past rest)) x.builder.entries false false true [] []
      = t) : consumeItem c (Run.start x) = { t with gal := t.gal.paragraph } :=
  consumePara_closes c hs (by rw [needLine, Galley.started, hd]; rfl) hs ht

section Para

variable (c : Ctx) {x : Galley} {rest : List Item} {d : Nat} {l : LineRecord} (hs : x.story = .para :: rest)
  (hd : x.builder.lineDepth = some d) (hbody : dropTrailingSpaces (sealLine c.fonts x.builder.entries) ≠ [])
  (hl : l = x.lastLine c.fonts c.id c.pageWidth d)

include hs hd hbody hl

/-- No mark acts, and the output queue has room: `events` tell what the giving of the record made of its exceptions. -/
theorem consumePara_joins (hforce : ¬x.ForceDue) (hroom : x.output.length < 4) {y : Galley} {events : List (Flag × EventData)}
    (hgiven : (Run.afterItem ((x.lineDone d).past rest)).giveException c l
      = { gal := y, events := events, stopped := false, consumed := 1 }) :
    consumeItem c (Run.start x)
      = { gal := { y with output := x.output ++ [l] }.paragraph, events := events, stopped := false, consumed := 1 } :=
  consumePara_started c hs hd (closeLine_joins c hd hbody hl (x.past_mark_acts_eq_false rest hforce) hroom (x.past_lineDone rest d ▸ hgiven))

theorem consumePara_holds (hforce : ¬x.ForceDue) (hfull : ¬x.output.length < 4) (hexc : l.exceptions = ExcSet.none)
    (hstep : c.stepping = false) :
    consumeItem c (Run.start x)
      = { gal := ({ (x.lineDone d).past rest with
            held := some { record := l, entries := (dropTrailingSpaces (sealLine c.fonts x.builder.entries)).length }
            state := .blocked, cause := none, deferred := none } : Galley).paragraph
          events := [], stopped := true, consumed := 1 } := by
  have hact := x.past_mark_acts_eq_false rest hforce
  refine (consumePara_started c hs hd (closeLine_holds c hd hbody hl hact hfull (Run.giveException_none c _ hexc))).trans ?_
  simp only [Galley.past_lineDone, hstep]
  rfl

/-- A FORCE mark that is due disarms and halts the galley behind a line without exceptions (R70). -/
theorem consumePara_halts (hforce : x.ForceDue) (hexc : l.exceptions = ExcSet.none) (hroom : x.output.length < 4) :
    consumeItem c (Run.start x)
      = { gal := ({ ((x.lineDone d).paragraph.past rest) with
            output := x.output ++ [l], mark := { x.mark with state := .disarmed } } : Galley).haltedWith .mark
          events := [(.halted c.id, .halted .mark)], stopped := true, consumed := 1 } := by
  have hact : (x.past rest).mark.acts [] = true := by rw [Galley.past_mark_acts, decide_eq_true hforce]
  refine (consumePara_started c hs hd (closeLine_halts c hd hbody hl hact hroom (Run.giveException_none c _ hexc))).trans ?_
  simp only [Galley.past_lineDone, Galley.past_mark]
  rfl

end Para

/-- The galley with a line that PARA started on an empty builder: a pending clamp does not pass to it (R51, R60). -/
def Galley.withParaLine (x : Galley) : Galley :=
  { x with
    active := x.nextParams
    pendingFlag := false
    builder := { x.builder with lineDepth := some x.nextDepth, clampMark := false } }

theorem needLine_para (c : Ctx) {x : Galley} (hstarted : x.started = false) (hempty : x.builder.entries = [])
    (hdepth : x.nextDepth ≤ c.pageDepth) : needLine c x true = some x.withParaLine := by
  simp [needLine, hstarted, startLine, Nat.not_lt.2 hdepth, hempty, Galley.withParaLine]

/-- On an empty builder PARA starts a line and closes it empty, which passes one line of leading; a clamp stays pending (R51, R101). -/
theorem consumePara_empty (c : Ctx) {x : Galley} {rest : List Item} (hs : x.story = .para :: rest) (hstarted : x.started = false)
    (hcarry : x.hasCarry = false) (hdepth : x.nextDepth ≤ c.pageDepth) (hforce : ¬x.ForceDue) :
    consumeItem c (Run.start x)
      = Run.afterItem (({ x with active := x.nextParams, pendingFlag := false }.lineDone x.nextDepth).paragraph.past rest) := by
  have hempty := x.entries_eq_nil_of_unstarted hstarted hcarry
  have hact : (x.withParaLine.past rest).mark.acts [] = false := Galley.past_mark_acts_eq_false _ rest hforce
  have hbody : dropTrailingSpaces (sealLine c.fonts x.withParaLine.builder.entries) = [] := by
    rw [show x.withParaLine.builder.entries = [] from hempty]
    rfl
  have hclose := closeLine_empty c (r := Run.afterItem (x.withParaLine.past rest)) rfl hact
    hbody
  refine (consumePara_closes c hs (needLine_para c hstarted hempty hdepth) hs hclose).trans ?_
  have hclamp : (x.withParaLine.past rest).builder.clampMark = false := rfl
  simp only [hclamp, Bool.or_false, Galley.lineDone_eq]
  rfl

/-! ### The event (R134) -/

section Event

variable {s : State} {g : GalleyId} {want : Item → Bool} {i : Item} {rest : List Item} {y : Galley} {stopped : Bool} {consumed : Nat}
  (hready : (s.galley g).ReadyToConsume) (hs : (s.galley g).story = i :: rest) (hw : want i = true)

include hready hs hw

theorem consumeEvent_quiet (hitem : consumeItem (s.ctx g false) (Run.start (s.galley g))
    = { gal := y, events := [], stopped := stopped, consumed := consumed }) : consumeEvent s g want = s.noting (s.setGalley g y) := by
  rw [consumeEvent_ready s g want i rest hready hs hw, hitem]
  rfl

theorem consumeEvent_raises {f : Flag} {e : EventData} (hitem : consumeItem (s.ctx g false) (Run.start (s.galley g))
    = { gal := y, events := [(f, e)], stopped := stopped, consumed := consumed }) :
    consumeEvent s g want = s.noting ((s.setGalley g y).raise f e) := by
  rw [consumeEvent_ready s g want i rest hready hs hw, hitem]
  rfl

end Event

/-- Settles O45: the course of a PARA on an empty builder, and the outcomes of the close of a started line. -/
theorem paraClosesTheLine : Obligations.ParaClosesTheLine := by
  refine ⟨?_, ?_, ?_, ?_, ?_⟩
  · intro s g rest hready hs hstarted hdepth hforce
    have ⟨_, _, hcarry, _⟩ := hready
    exact congrArg Host.Outcome.next (consumeEvent_quiet hready hs rfl
      (consumePara_empty (s.ctx g false) hs hstarted hcarry hdepth hforce))
  · intro s g rest d l hready hs hd hforce hbody hl hexc hroom
    have hgiven := Run.giveException_none (s.ctx g false) (Run.afterItem (((s.galley g).lineDone d).past rest)) hexc
    exact congrArg Host.Outcome.next (consumeEvent_quiet hready hs rfl
      (consumePara_joins (s.ctx g false) hs hd hbody hl hforce hroom hgiven))
  · intro s g rest d l hready hs hd hforce hbody hl hexc hlatch hroom
    have hgiven := Run.giveException_latches (s.ctx g false) (Run.afterItem (((s.galley g).lineDone d).past rest)) hexc
      (((s.galley g).lineDone_latch d).trans hlatch)
    exact congrArg Host.Outcome.next (consumeEvent_raises hready hs rfl
      (consumePara_joins (s.ctx g false) hs hd hbody hl hforce hroom hgiven))
  · intro s g rest d l hready hs hd hforce hbody hl hexc hfull
    exact congrArg Host.Outcome.next (consumeEvent_quiet hready hs rfl
      (consumePara_holds (s.ctx g false) hs hd hbody hl hforce (by omega) hexc rfl))
  · intro s g rest d l hready hs hd hforce hbody hl hexc hroom
    exact congrArg Host.Outcome.next (consumeEvent_raises hready hs rfl
      (consumePara_halts (s.ctx g false) hs hd hbody hl hforce hexc hroom))

end Sys2Proof.Machine
end

