-- ==== Sys2Proof/Proofs/Readings.lean ====
section
/-! SNAPSHOT, POSITION, GALLEY REPORT, PEEK and ABANDON (R72, R73, R78, R79). -/

namespace Sys2Proof.Machine

/-! ### Galley requests that raise an event besides (R161) -/

section Raising

variable {s : State} {g : GalleyId} {k : ReqKind} {body : List Byte}

/-- A request of a galley that replaces the galley and raises an event: the notice follows the reply (R161). -/
theorem completeFrame_setGalley_raise (hcan : s.link.canTake = true) (hd : k.domain = .galley) (hl : k.lengthGood body = true)
    {x : Galley} {flag : Flag} {d : EventData} {r : Result} {data : List Byte}
    (h : handle k { s with link := s.link.hunt } (galleyByte g) body
      = { state := (({ s with link := s.link.hunt } : State).setGalley g x).raise flag d, result := r, data := data }) :
    s.completeFrame (goodFrame k.code (galleyByte g) body)
      = s.noting (((s.setGalley g x).answer k.code (galleyByte g) r data).raise flag d) := by
  have hplace := place_raise (({ s with link := s.link.hunt } : State).setGalley g x) flag d r data k.code (galleyByte g)
  rw [completeFrame_request s k _ body hcan (hd ▸ Domain.galley_holds g) hl, h]
  exact congrArg s.noting hplace

/-- The same where the galley's watched part is as it was: no selection comes to be due (R134). -/
theorem completeFrame_setGalley_raise_quiet (hcan : s.link.canTake = true) (hd : k.domain = .galley) (hl : k.lengthGood body = true)
    {x : Galley} (hx : x.watched = (s.galley g).watched) {flag : Flag} {d : EventData} {r : Result} {data : List Byte}
    (h : handle k { s with link := s.link.hunt } (galleyByte g) body
      = { state := (({ s with link := s.link.hunt } : State).setGalley g x).raise flag d, result := r, data := data }) :
    s.completeFrame (goodFrame k.code (galleyByte g) body)
      = ((s.setGalley g x).answer k.code (galleyByte g) r data).raise flag d := by
  rw [completeFrame_setGalley_raise hcan hd hl h, State.noting_raise]
  exact congrArg (State.raise · flag d) (State.noting_same _ _ (State.watched_setGalley s g x hx) rfl)

end Raising

/-! ### POSITION and GALLEY REPORT (R78, R79) -/

theorem handlePosition_latched (s : State) (g : GalleyId) (body : List Byte) {p : PositionRecord}
    (h : (s.galley g).snapshot = some p) :
    handlePosition s (galleyByte g) body = (s.setGalley g { s.galley g with snapshot := none }).accept (1 :: p.bytes) := by
  simp only [handlePosition, galleyOf_galleyByte, h]

theorem handlePosition_live (s : State) (g : GalleyId) (body : List Byte) (h : (s.galley g).snapshot = none) :
    handlePosition s (galleyByte g) body = s.accept (0 :: (s.galley g).position.bytes) := by
  simp only [handlePosition, galleyOf_galleyByte, h]

theorem handleGalleyReport_eq (s : State) (g : GalleyId) (body : List Byte) :
    handleGalleyReport s (galleyByte g) body
      = (s.setGalley g { s.galley g with latch := none, excCount := 0 }).accept
          ((match (s.galley g).latch with
            | none => [0, 0, 0, 0, 0, 0, 0, 0, 0, 0]
            | some e => [1] ++ be16 e.number.toNat ++ [e.exceptions.byte] ++ be32 e.first.toNat ++ be16 e.amount)
            ++ [byteOf (s.galley g).excCount]) := by
  simp only [handleGalleyReport, galleyOf_galleyByte]
  cases (s.galley g).latch <;> rfl

theorem PositionRecord.bytes_length (p : PositionRecord) : p.bytes.length = 22 := rfl

/-! ### SNAPSHOT (R78) -/

/-- A galley past a SNAPSHOT that names it or not: it latches where it is named and holds no latch. -/
def Galley.snapped (x : Galley) (named : Bool) : Galley :=
  if named = true ∧ x.snapshot = none then { x with snapshot := some x.position } else x

/-- A galley that has latched holds a latch, and a second naming leaves it alone. -/
theorem Galley.snapped_snapped (x : Galley) (named : Bool) : (x.snapped named).snapped named = x.snapped named := by
  by_cases h : named = true ∧ x.snapshot = none
  · simp [Galley.snapped, h]
  · simp only [Galley.snapped, h, if_false]

theorem Galley.snapped_watched (x : Galley) (named : Bool) : (x.snapped named).watched = x.watched := by
  unfold Galley.snapped
  split <;> rfl

theorem State.latch_eq (set : Byte) (s : State) (g : GalleyId) :
    s.latch set g = s.setGalley g ((s.galley g).snapped (set.getLsbD g.val)) := by
  have hlatches : s.latches set g = true ↔ set.getLsbD g.val = true ∧ (s.galley g).snapshot = none := by
    rw [State.latches, Bool.and_eq_true, Option.isNone_iff_eq_none]
  by_cases h : s.latches set g = true
  · rw [State.latch, if_pos h, Galley.snapped, if_pos (hlatches.1 h)]
  · rw [State.latch, if_neg h, Galley.snapped, if_neg (mt hlatches.2 h), State.setGalley_galley]

/-- A pass over galleys changes no block but the galleys, and of these nothing that a selection reads. -/
theorem State.foldl_latch_frame (set : Byte) (s : State) (gs : List GalleyId) :
    (∃ xs, gs.foldl (State.latch set) s = { s with galleys := xs }) ∧ (gs.foldl (State.latch set) s).watched = s.watched := by
  induction gs generalizing s with
  | nil => exact ⟨⟨s.galleys, rfl⟩, rfl⟩
  | cons g gs ih =>
    obtain ⟨⟨xs, hxs⟩, hwatched⟩ := ih (s.latch set g)
    have hlatch : (s.latch set g).watched = s.watched := by
      rw [State.latch_eq]
      exact State.watched_setGalley s g _ (Galley.snapped_watched _ _)
    refine ⟨⟨xs, ?_⟩, hwatched.trans hlatch⟩
    rw [List.foldl_cons, hxs, State.latch_eq]
    rfl

theorem State.foldl_latch_galley (set : Byte) (s : State) (gs : List GalleyId) (g : GalleyId) :
    (gs.foldl (State.latch set) s).galley g
      = if g ∈ gs then (s.galley g).snapped (set.getLsbD g.val) else s.galley g := by
  induction gs generalizing s with
  | nil => rfl
  | cons h gs ih =>
    rw [List.foldl_cons, ih, State.latch_eq, State.galley_setGalley]
    by_cases hg : g = h
    · subst hg
      simp [Galley.snapped_snapped]
    · simp [hg]

theorem mem_galleys (g : GalleyId) : g ∈ ([0, 1, 2, 3] : List GalleyId) := by revert g; decide

/-- A set of galleys as a byte: bit n for galley n, and nothing above bit 3 (R78). -/
theorem galleySet_bits (b : GalleyId → Bool) :
    let listed := byteOf ((if b 0 then 2 ^ 0 else 0) + (if b 1 then 2 ^ 1 else 0) + (if b 2 then 2 ^ 2 else 0)
      + (if b 3 then 2 ^ 3 else 0))
    (∀ g : GalleyId, listed.getLsbD g.val = b g) ∧ listed.toNat < 16 := by
  have hbits : ∀ b0 b1 b2 b3 : Bool,
      let listed := byteOf ((if b0 then 2 ^ 0 else 0) + (if b1 then 2 ^ 1 else 0) + (if b2 then 2 ^ 2 else 0)
        + (if b3 then 2 ^ 3 else 0))
      (listed.getLsbD 0 = b0 ∧ listed.getLsbD 1 = b1 ∧ listed.getLsbD 2 = b2 ∧ listed.getLsbD 3 = b3) ∧
        listed.toNat < 16 := by decide
  obtain ⟨⟨h0, h1, h2, h3⟩, hlt⟩ := hbits (b 0) (b 1) (b 2) (b 3)
  refine ⟨fun g => ?_, hlt⟩
  fin_cases g
  · exact h0
  · exact h1
  · exact h2
  · exact h3

/-- A SNAPSHOT that may be taken: the galleys are passed in order, and the reply lists those that latched. -/
theorem completeFrame_snapshot (s : State) (set : Byte) (hcan : s.link.canTake = true) {t : State}
    (ht : [0, 1, 2, 3].foldl (State.latch set) s = t) {listed : Byte}
    (hlisted : listed = byteOf ((if s.latches set 0 then 2 ^ 0 else 0) + (if s.latches set 1 then 2 ^ 1 else 0)
      + (if s.latches set 2 then 2 ^ 2 else 0) + (if s.latches set 3 then 2 ^ 3 else 0))) :
    s.completeFrame (goodFrame ReqKind.snapshot.code 0xFF [set])
      = { t with link := (s.answer 0x03 0xFF .done [listed]).link } := by
  subst ht hlisted
  obtain ⟨⟨xs, hxs⟩, -⟩ := State.foldl_latch_frame set { s with link := s.link.hunt } [0, 1, 2, 3]
  obtain ⟨⟨ys, hys⟩, hwatched⟩ := State.foldl_latch_frame set s [0, 1, 2, 3]
  have hgalleys : xs = ys := by
    have hx := fun g => State.foldl_latch_galley set { s with link := s.link.hunt } [0, 1, 2, 3] g
    have hy := fun g => State.foldl_latch_galley set s [0, 1, 2, 3] g
    rw [hxs] at hx
    rw [hys] at hy
    refine Vector.ext fun i hi => ?_
    exact (hx ⟨i, hi⟩).trans (hy ⟨i, hi⟩).symm
  have hanswer : handle .snapshot { s with link := s.link.hunt } 0xFF [set]
      = { state := { s with link := s.link.hunt, galleys := ys }, result := .done,
          data := [byteOf ((if s.latches set 0 then 2 ^ 0 else 0) + (if s.latches set 1 then 2 ^ 1 else 0)
            + (if s.latches set 2 then 2 ^ 2 else 0) + (if s.latches set 3 then 2 ^ 3 else 0))] } := by
    rw [handle, handleSnapshot, List.headD_cons, hxs, hgalleys]
    rfl
  rw [completeFrame_request s .snapshot 0xFF [set] hcan rfl rfl, hanswer, place_answer s _ _ _ _ _ rfl, hys]
  refine State.noting_same _ _ ?_ rfl
  rw [hys] at hwatched
  exact hwatched

/-- Settles O16. -/
theorem readingsAreLatchedAndReturned : Obligations.ReadingsAreLatchedAndReturned := by
  refine ⟨fun s g b p hcan hp => ?_, fun s g b hcan hp => ?_, PositionRecord.bytes_length, fun s g b hcan => ?_,
    fun s set hcan => ?_⟩
  · exact congrArg Host.Outcome.next (completeFrame_setGalley_quiet (k := .position) hcan rfl rfl (by rfl)
      (handlePosition_latched { s with link := s.link.hunt } g [b] hp))
  · exact congrArg Host.Outcome.next (completeFrame_galley_same (k := .position) hcan rfl rfl
      (handlePosition_live { s with link := s.link.hunt } g [b] hp))
  · exact congrArg Host.Outcome.next (completeFrame_setGalley_quiet (k := .galleyReport) hcan rfl rfl (by rfl)
      (handleGalleyReport_eq { s with link := s.link.hunt } g [b]))
  · obtain ⟨hbits, hlt⟩ := galleySet_bits (s.latches set)
    obtain ⟨⟨xs, hxs⟩, -⟩ := State.foldl_latch_frame set s [0, 1, 2, 3]
    have hgalley := State.foldl_latch_galley set s [0, 1, 2, 3]
    rw [hxs] at hgalley
    refine ⟨_, _, congrArg Host.Outcome.next (completeFrame_snapshot s set hcan hxs rfl), fun g => ?_, hbits, hlt, rfl, rfl,
      rfl, rfl, rfl, rfl, rfl, rfl⟩
    exact (hgalley g).trans (if_pos (mem_galleys g))

/-! ### PEEK and ABANDON (R72, R73) -/

theorem Entry.peekBytes_length (e : Entry) : e.peekBytes.length = 21 := by
  unfold Entry.peekBytes
  cases e.body <;> rfl

section Halted

variable (s : State) (g : GalleyId)

theorem handlePeek_shows (offset : Byte) (hst : (s.galley g).state = .halted)
    (hoff : offset.toNat ≤ (s.galley g).builder.entries.length) :
    handlePeek s (galleyByte g) [offset]
      = s.accept ([byteOf (s.galley g).builder.entries.length,
            byteOf (min 40 ((s.galley g).builder.entries.length - offset.toNat))]
          ++ ((((s.galley g).builder.entries.drop offset.toNat).take 40).map Entry.peekBytes).flatten) := by
  simp only [handlePeek, galleyOf_galleyByte, List.headD_cons, hst, ne_eq, not_true, if_false, Nat.not_lt.2 hoff,
    Config.peekEntries, List.length_take, List.length_drop]

theorem handlePeek_beyond (offset : Byte) (hst : (s.galley g).state = .halted)
    (hoff : (s.galley g).builder.entries.length < offset.toNat) : handlePeek s (galleyByte g) [offset] = s.refuse .range := by
  simp only [handlePeek, galleyOf_galleyByte, List.headD_cons, hst, ne_eq, not_true, if_false, hoff, if_true]

theorem handlePeek_refused (body : List Byte) (hst : (s.galley g).state ≠ .halted) :
    handlePeek s (galleyByte g) body = s.refuse .state := by
  simp only [handlePeek, galleyOf_galleyByte, ne_eq, hst, not_false_eq_true, if_true]

theorem handleAbandon_refused (body : List Byte) (hst : (s.galley g).state ≠ .halted) :
    handleAbandon s (galleyByte g) body = s.refuse .state := by
  simp only [handleAbandon, galleyOf_galleyByte, ne_eq, hst, not_false_eq_true, if_true]

/-- Whether ABANDON is refused with BEHIND: the frontier falls back to the depth of the next line (R72). -/
theorem abandon_refusedBehind (s : State) (x : Galley) :
    refusedBehind s x { x with builder := Builder.empty } = true ↔ x.restraining = true ∧ x.nextDepth + 1200 < s.page.high := by
  rw [refusedBehind, Bool.and_eq_true, aboveBand, decide_eq_true_iff]
  rfl

theorem handleAbandon_empties (body : List Byte) (hst : (s.galley g).state = .halted)
    (h : (s.galley g).started = true → (s.galley g).restraining = true → s.page.high ≤ (s.galley g).nextDepth + 1200) :
    handleAbandon s (galleyByte g) body
      = (s.setGalley g { s.galley g with builder := Builder.empty }).accept [byteOf (s.galley g).builder.entries.length] := by
  have hpass : ((s.galley g).started && refusedBehind s (s.galley g) { s.galley g with builder := Builder.empty }) ≠ true := by
    rw [Ne, Bool.and_eq_true, abandon_refusedBehind]
    rintro ⟨hs, hr, hlt⟩
    exact absurd hlt (Nat.not_lt.2 (h hs hr))
  rw [handleAbandon, galleyOf_galleyByte]
  exact (if_neg (not_not.2 hst)).trans (if_neg hpass)

theorem handleAbandon_behind (body : List Byte) (hst : (s.galley g).state = .halted) (hs : (s.galley g).started = true)
    (hr : (s.galley g).restraining = true) (hlt : (s.galley g).nextDepth + 1200 < s.page.high) :
    handleAbandon s (galleyByte g) body = s.refuse .behind := by
  rw [handleAbandon, galleyOf_galleyByte]
  refine (if_neg (not_not.2 hst)).trans (if_pos ?_)
  exact Bool.and_eq_true_iff.2 ⟨hs, (abandon_refusedBehind s (s.galley g)).2 ⟨hr, hlt⟩⟩

end Halted

/-- Settles O28. -/
theorem peekShowsAndAbandonEmpties : Obligations.PeekShowsAndAbandonEmpties := by
  refine ⟨fun s g offset hcan hst hoff => ?_, Entry.peekBytes_length, fun s g offset hcan hst hoff => ?_,
    fun s g b hcan hst => ⟨?_, ?_⟩, fun s g b hcan hst h => ?_, fun s g b hcan hst hs hr hlt => ?_⟩
  · exact congrArg Host.Outcome.next (completeFrame_galley_same (k := .peek) hcan rfl rfl
      (handlePeek_shows { s with link := s.link.hunt } g offset hst hoff))
  · exact congrArg Host.Outcome.next (completeFrame_galley_same (k := .peek) hcan rfl rfl
      (handlePeek_beyond { s with link := s.link.hunt } g offset hst hoff))
  · exact congrArg Host.Outcome.next (completeFrame_galley_same (k := .peek) hcan rfl rfl
      (handlePeek_refused { s with link := s.link.hunt } g [b] hst))
  · exact congrArg Host.Outcome.next (completeFrame_galley_same (k := .abandon) hcan rfl rfl
      (handleAbandon_refused { s with link := s.link.hunt } g [b] hst))
  · exact congrArg Host.Outcome.next (completeFrame_setGalley (k := .abandon) hcan rfl rfl
      (handleAbandon_empties { s with link := s.link.hunt } g [b] hst h))
  · exact congrArg Host.Outcome.next (completeFrame_galley_same (k := .abandon) hcan rfl rfl
      (handleAbandon_behind { s with link := s.link.hunt } g [b] hst hs hr hlt))

end Sys2Proof.Machine
end

