-- ==== Sys2Proof/Proofs/Parameters.lean ====
section
/-! GALLEY OPEN, PARAM, PARAM NOW, RESTART, HALT and the stop marks: requests that set a galley's values (R57 to R59, R66, R69, R71, R128). -/

namespace Sys2Proof.Machine

theorem aboveBand_iff (high depth : Nat) : aboveBand high depth = true ↔ depth + 1200 < high := decide_eq_true_iff

/-! ### Coded fields (9.7) -/

theorem readAlign_byte (a : Align) : readAlign a.byte = some a := by cases a <;> rfl
theorem readDir_byte (d : Dir) : readDir d.byte = some d := by cases d <;> rfl
theorem readHyphenation_flagByte (b : Bool) : readHyphenation (flagByte b) = some b := by cases b <;> rfl
theorem readMarkKind_byte (k : MarkKind) : readMarkKind k.byte = some k := by cases k <;> rfl

theorem readAlign_lt {b : Byte} {a : Align} (h : readAlign b = some a) : b.toNat < 4 := by
  unfold readAlign at h
  split at h
  case h_5 => cases h
  all_goals omega

theorem readDir_lt {b : Byte} {d : Dir} (h : readDir b = some d) : b.toNat < 2 := by
  unfold readDir at h
  split at h
  case h_3 => cases h
  all_goals omega

theorem readHyphenation_lt {b : Byte} {v : Bool} (h : readHyphenation b = some v) : b.toNat < 2 := by
  unfold readHyphenation at h
  split at h
  case h_3 => cases h
  all_goals omega

theorem readMarkKind_none {b : Byte} (h : 2 ≤ b.toNat) : readMarkKind b = none := by
  unfold readMarkKind
  split
  · omega
  · omega
  · rfl

/-- A parameter set reads back from its fields (9.7). -/
theorem readParams_coded (p : Params) :
    readParams p.measure p.xOffset p.leading p.align.byte p.direction.byte (flagByte p.hyphenation) = some p := by
  simp only [readParams, readAlign_byte, readDir_byte, readHyphenation_flagByte]

/-- What is read has the numbers that were sent, and its coded values are those 9.7 gives. -/
theorem readParams_eq_some {measure xOffset leading : Nat} {align dir hyph : Byte} {p : Params}
    (h : readParams measure xOffset leading align dir hyph = some p) :
    p.measure = measure ∧ p.xOffset = xOffset ∧ p.leading = leading ∧ align.toNat < 4 ∧ dir.toNat < 2 ∧ hyph.toNat < 2 := by
  unfold readParams at h
  split at h
  · rename_i ha hd hh
    obtain rfl := Option.some.inj h
    exact ⟨rfl, rfl, rfl, readAlign_lt ha, readDir_lt hd, readHyphenation_lt hh⟩
  · cases h

theorem columnGood_iff (width xOffset measure : Nat) :
    columnGood width xOffset measure = true ↔ 60 ≤ measure ∧ measure ≤ 16000 ∧ xOffset + measure ≤ width := by
  rw [columnGood, Bool.and_eq_true, Bool.and_eq_true, decide_eq_true_iff, decide_eq_true_iff, decide_eq_true_iff, and_assoc]

theorem Params.inRange_iff (p : Params) (width : Nat) :
    p.inRange width = true ↔ (60 ≤ p.measure ∧ p.measure ≤ 16000 ∧ p.xOffset + p.measure ≤ width) ∧ p.leading ≤ 4800 := by
  rw [Params.inRange, Bool.and_eq_true, columnGood_iff, decide_eq_true_iff]

theorem Params.Good.inRange {p : Params} {width : Nat} (h : p.Good width) : p.inRange width = true := by
  obtain ⟨hlo, hhi, hlead, hcol, -⟩ := h
  exact (p.inRange_iff width).2 ⟨⟨hlo, hhi, hcol⟩, hlead⟩

/-- The numbers of a set in range fit two bytes each. -/
theorem Params.Good.fit {p : Params} {width : Nat} (h : p.Good width) :
    p.measure < 65536 ∧ p.xOffset < 65536 ∧ p.leading < 65536 := by
  obtain ⟨hlo, hhi, hlead, hcol, hwidth⟩ := h
  omega

/-- Fields out of range, or coded values that 9.7 does not give, read as no set or as one out of range. -/
theorem readParams_bad {measure xOffset leading width : Nat} {align dir hyph : Byte}
    (h : measure < 60 ∨ 16000 < measure ∨ 4800 < leading ∨ width < xOffset + measure ∨ 4 ≤ align.toNat ∨ 2 ≤ dir.toNat ∨
      2 ≤ hyph.toNat) :
    ∀ p, readParams measure xOffset leading align dir hyph = some p → p.inRange width = false := by
  intro p hp
  obtain ⟨hmeasure, hoffset, hleading, halign, hdir, hhyph⟩ := readParams_eq_some hp
  rw [← Bool.not_eq_true, Params.inRange_iff, hmeasure, hoffset, hleading]
  omega

/-! ### PARAM and PARAM NOW (R58, R59) -/

theorem readParamBody_fields {measure xOffset leading : Nat} (align dir hyph : Byte) (hm : measure < 65536) (hx : xOffset < 65536)
    (hl : leading < 65536) :
    readParamBody (be16 measure ++ be16 xOffset ++ be16 leading ++ [align, dir, hyph])
      = readParams measure xOffset leading align dir hyph := by
  simp only [be16, List.cons_append, List.nil_append, readParamBody, nat16_be16 _ hm, nat16_be16 _ hx, nat16_be16 _ hl]

theorem readParamBody_body {p : Params} {width : Nat} (h : p.Good width) : readParamBody p.body = some p := by
  obtain ⟨hm, hx, hl⟩ := h.fit
  exact (readParamBody_fields _ _ _ hm hx hl).trans (readParams_coded p)

/-- What PARAM and PARAM NOW do with a body once the galley's state lets them, `written` being the galley with a set written to it
(R58, R59). -/
def State.takeParams (s : State) (g : GalleyId) (written : Params → Galley) (body : List Byte) : Answer :=
  match readParamBody body with
  | none => s.refuse .range
  | some p =>
    if !p.inRange s.page.width then s.refuse .range
    else if refusedBehind s (s.galley g) (written p) then s.refuse .behind
    else (s.setGalley g (written p)).accept []

theorem handleParam_open (s : State) (g : GalleyId) (body : List Byte) (h : (s.galley g).state ≠ .off) :
    handleParam s (galleyByte g) body = s.takeParams g (fun p => { s.galley g with staged := p, pendingFlag := true }) body := by
  rw [handleParam, galleyOf_galleyByte]
  exact if_neg h

theorem handleParam_off (s : State) (g : GalleyId) (body : List Byte) (h : (s.galley g).state = .off) :
    handleParam s (galleyByte g) body = s.refuse .state := by
  rw [handleParam, galleyOf_galleyByte]
  exact if_pos h

theorem handleParamNow_halted (s : State) (g : GalleyId) (body : List Byte) (h : (s.galley g).state = .halted)
    (hs : (s.galley g).started = false) :
    handleParamNow s (galleyByte g) body
      = s.takeParams g (fun p => { s.galley g with active := p, pendingFlag := false }) body := by
  rw [handleParamNow, galleyOf_galleyByte]
  exact (if_neg (not_not.2 h)).trans (if_neg (by simp [hs]))

theorem handleParamNow_lineOpen (s : State) (g : GalleyId) (body : List Byte) (h : (s.galley g).state = .halted)
    (hs : (s.galley g).started = true) : handleParamNow s (galleyByte g) body = s.refuse .lineOpen := by
  rw [handleParamNow, galleyOf_galleyByte]
  exact (if_neg (not_not.2 h)).trans (if_pos hs)

theorem handleParamNow_refused (s : State) (g : GalleyId) (body : List Byte) (h : (s.galley g).state ≠ .halted) :
    handleParamNow s (galleyByte g) body = s.refuse .state := by
  rw [handleParamNow, galleyOf_galleyByte]
  exact if_pos h

section Taking

variable (s : State) (g : GalleyId) (written : Params → Galley)

theorem State.takeParams_range {body : List Byte} (h : ∀ p, readParamBody body = some p → p.inRange s.page.width = false) :
    s.takeParams g written body = s.refuse .range := by
  unfold State.takeParams
  cases hread : readParamBody body with
  | none => rfl
  | some p => exact if_pos (by simp [h p hread])

theorem refusedBehind_iff (before after : Galley) :
    refusedBehind s before after = true ↔ before.restraining = true ∧ after.frontier + 1200 < s.page.high := by
  rw [refusedBehind, Bool.and_eq_true, aboveBand_iff]

variable {p : Params} (hgood : p.Good s.page.width)

include hgood

theorem State.takeParams_behind (hr : (s.galley g).restraining = true) (hlt : (written p).frontier + 1200 < s.page.high) :
    s.takeParams g written p.body = s.refuse .behind := by
  rw [State.takeParams, readParamBody_body hgood]
  exact (if_neg (by simp [hgood.inRange])).trans (if_pos ((refusedBehind_iff s _ _).2 ⟨hr, hlt⟩))

theorem State.takeParams_done (h : (s.galley g).restraining = true → s.page.high ≤ (written p).frontier + 1200) :
    s.takeParams g written p.body = (s.setGalley g (written p)).accept [] := by
  rw [State.takeParams, readParamBody_body hgood]
  refine (if_neg (by simp [hgood.inRange])).trans (if_neg fun hbehind => ?_)
  obtain ⟨hr, hlt⟩ := (refusedBehind_iff s _ _).1 hbehind
  exact absurd (h hr) (Nat.not_le.2 hlt)

end Taking

/-- Settles O21: both requests take a set alike; they differ in the states that let them and in where the set is written. -/
theorem parametersAreStagedOrTakenAtOnce : Obligations.ParametersAreStagedOrTakenAtOnce := by
  refine ⟨fun s g p hcan hst hgood hband => ?_, fun s g p hcan hst hgood hr hlt => ?_,
    fun s g measure xOffset leading align dir hyph hcan hm hx hl hbad => ⟨fun hst => ?_, fun hst hs => ?_⟩,
    fun s g p hcan hst hs hgood hr hlt => ?_, fun s g p hcan hst => ?_, fun s g p hcan hst hs hgood hband => ?_,
    fun s g p hcan hst hs => ?_, fun s g p hcan hst => ?_⟩
  · refine congrArg Host.Outcome.next (completeFrame_setGalley (k := .param) hcan rfl rfl ?_)
    exact (handleParam_open { s with link := s.link.hunt } g _ hst).trans (State.takeParams_done _ g _ hgood hband)
  · refine congrArg Host.Outcome.next (completeFrame_galley_same (k := .param) hcan rfl rfl ?_)
    exact (handleParam_open { s with link := s.link.hunt } g _ hst).trans (State.takeParams_behind _ g _ hgood hr hlt)
  · refine congrArg Host.Outcome.next (completeFrame_galley_same (k := .param) hcan rfl rfl ?_)
    refine (handleParam_open { s with link := s.link.hunt } g _ hst).trans (State.takeParams_range _ g _ ?_)
    rw [readParamBody_fields _ _ _ hm hx hl]
    exact readParams_bad hbad
  · refine congrArg Host.Outcome.next (completeFrame_galley_same (k := .paramNow) hcan rfl rfl ?_)
    refine (handleParamNow_halted { s with link := s.link.hunt } g _ hst hs).trans (State.takeParams_range _ g _ ?_)
    rw [readParamBody_fields _ _ _ hm hx hl]
    exact readParams_bad hbad
  · refine congrArg Host.Outcome.next (completeFrame_galley_same (k := .paramNow) hcan rfl rfl ?_)
    exact (handleParamNow_halted { s with link := s.link.hunt } g _ hst hs).trans (State.takeParams_behind _ g _ hgood hr hlt)
  · exact congrArg Host.Outcome.next (completeFrame_galley_same (k := .param) hcan rfl rfl
      (handleParam_off { s with link := s.link.hunt } g _ hst))
  · refine congrArg Host.Outcome.next (completeFrame_setGalley (k := .paramNow) hcan rfl rfl ?_)
    exact (handleParamNow_halted { s with link := s.link.hunt } g _ hst hs).trans (State.takeParams_done _ g _ hgood hband)
  · exact congrArg Host.Outcome.next (completeFrame_galley_same (k := .paramNow) hcan rfl rfl
      (handleParamNow_lineOpen { s with link := s.link.hunt } g _ hst hs))
  · exact congrArg Host.Outcome.next (completeFrame_galley_same (k := .paramNow) hcan rfl rfl
      (handleParamNow_refused { s with link := s.link.hunt } g _ hst))

/-! ### GALLEY OPEN (R57) -/

/-- The body of a GALLEY OPEN, field by field (9.7). -/
abbrev openBody (top xOffset measure leading : Nat) (align dir hyph : Byte) (interval : Nat) (font : Byte) (size : Nat)
    (track : Byte) : List Byte :=
  be16 top ++ be16 xOffset ++ be16 measure ++ be16 leading ++ [align, dir, hyph] ++ be16 interval ++ [font] ++ be16 size ++ [track]

/-- The ranges of R57 as the request's bytes give them. -/
abbrev OpenFieldsGood (s : State) (p : Params) (top interval : Nat) (font : Byte) (size : Nat) (track : Byte) : Prop :=
  p.inRange s.page.width = true ∧ top < s.page.depth ∧ font.toNat < 16 ∧ 16 ≤ size ∧ size ≤ 576 ∧ -32 ≤ track.toInt ∧
    track.toInt ≤ 31 ∧ interval ≤ 255

section Opening

variable (s : State) (g : GalleyId)

theorem handleGalleyOpen_noPage (body : List Byte) (h : s.page.state ≠ .open) :
    handleGalleyOpen s (galleyByte g) body = s.refuse .noPage := by
  unfold handleGalleyOpen
  rw [galleyOf_galleyByte]
  exact if_pos h

theorem handleGalleyOpen_refused (body : List Byte) (hp : s.page.state = .open) (h : (s.galley g).state ≠ .off) :
    handleGalleyOpen s (galleyByte g) body = s.refuse .state := by
  unfold handleGalleyOpen
  rw [galleyOf_galleyByte]
  exact (if_neg (not_not.2 hp)).trans (if_pos h)

variable (hp : s.page.state = .open) (hst : (s.galley g).state = .off) {top xOffset measure leading interval size : Nat}
  (align dir hyph font track : Byte) (htop : top < 65536) (hx : xOffset < 65536) (hm : measure < 65536) (hl : leading < 65536)
  (hi : interval < 65536) (hq : size < 65536)

include hp hst htop hx hm hl hi hq

/-- The checks of an opening behind those of page and state: the coded values, the ranges, and the band (R57). -/
theorem handleGalleyOpen_fields :
    handleGalleyOpen s (galleyByte g) (openBody top xOffset measure leading align dir hyph interval font size track)
      = (readParams measure xOffset leading align dir hyph).elim (s.refuse .range) fun p =>
          if OpenFieldsGood s p top interval font size track then
            if aboveBand s.page.high top then s.refuse .behind
            else (s.setGalley g ((s.galley g).opened p top interval (slotOf font) size track.toInt)).accept []
          else s.refuse .range := by
  unfold handleGalleyOpen
  rw [galleyOf_galleyByte]
  refine ((if_neg (not_not.2 hp)).trans (if_neg (not_not.2 hst))).trans ?_
  simp only [openBody, be16, List.cons_append, List.nil_append, nat16_be16 _ htop, nat16_be16 _ hx, nat16_be16 _ hm,
    nat16_be16 _ hl, nat16_be16 _ hi, nat16_be16 _ hq]
  cases readParams measure xOffset leading align dir hyph with
  | none => rfl
  | some p => simp only [Option.elim_some, OpenFieldsGood, Bool.and_eq_true, decide_eq_true_iff, and_assoc]

theorem handleGalleyOpen_range
    (hbad : s.page.depth ≤ top ∨ measure < 60 ∨ 16000 < measure ∨ 4800 < leading ∨ s.page.width < xOffset + measure ∨
      4 ≤ align.toNat ∨ 2 ≤ dir.toNat ∨ 2 ≤ hyph.toNat ∨ 255 < interval ∨ 16 ≤ font.toNat ∨ size < 16 ∨ 576 < size ∨
      track.toInt < -32 ∨ 31 < track.toInt) :
    handleGalleyOpen s (galleyByte g) (openBody top xOffset measure leading align dir hyph interval font size track)
      = s.refuse .range := by
  rw [handleGalleyOpen_fields s g hp hst align dir hyph font track htop hx hm hl hi hq]
  cases hread : readParams measure xOffset leading align dir hyph with
  | none => rfl
  | some p =>
    refine if_neg ?_
    obtain ⟨hmeasure, hoffset, hleading, halign, hdir, hhyph⟩ := readParams_eq_some hread
    rw [OpenFieldsGood, Params.inRange_iff, hmeasure, hoffset, hleading]
    omega

end Opening

/-- An opening in range, as its bytes are read back (9.7). -/
theorem handleGalleyOpen_good (s : State) (g : GalleyId) (hp : s.page.state = .open) (hst : (s.galley g).state = .off) {o : Opening}
    (hgood : o.Good s.page) :
    handleGalleyOpen s (galleyByte g) o.body
      = if aboveBand s.page.high o.top then s.refuse .behind
        else (s.setGalley g ((s.galley g).opened o.params o.top o.interval o.slot o.size o.track)).accept [] := by
  obtain ⟨hparams, htop, hdepth, hinterval, hlo, hhi, htlo, hthi⟩ := hgood
  obtain ⟨hm, hx, hl⟩ := hparams.fit
  have htrack : (signedByte o.track).toInt = o.track := signedByte_toInt (by omega)
  have hread := handleGalleyOpen_fields s g hp hst (top := o.top) (interval := o.interval) (size := o.size) o.params.align.byte
    o.params.direction.byte (flagByte o.params.hyphenation) (byteOf o.slot.val) (signedByte o.track) (by omega) hx hm hl (by omega)
    (by omega)
  rw [readParams_coded] at hread
  refine hread.trans ((if_pos ?_).trans ?_)
  · rw [OpenFieldsGood, htrack]
    exact ⟨hparams.inRange, htop, slotByte_toNat_lt o.slot, hlo, hhi, htlo, hthi, hinterval⟩
  · rw [htrack, slotOf_byteOf]

/-- Settles O23. -/
theorem openingSetsUpTheGalley : Obligations.OpeningSetsUpTheGalley := by
  refine ⟨fun s g o hcan hp hst hgood hband => ?_, fun s g o hcan hp hst hgood hband => ?_, ?_, fun s g o hcan hp hst => ?_,
    fun s g o hcan hp => ?_⟩
  · refine congrArg Host.Outcome.next (completeFrame_setGalley (k := .galleyOpen) hcan rfl rfl ?_)
    refine (handleGalleyOpen_good { s with link := s.link.hunt } g hp hst hgood).trans (if_neg ?_)
    rw [aboveBand_iff]
    exact Nat.not_lt.2 hband
  · refine congrArg Host.Outcome.next (completeFrame_galley_same (k := .galleyOpen) hcan rfl rfl ?_)
    exact (handleGalleyOpen_good { s with link := s.link.hunt } g hp hst hgood).trans (if_pos ((aboveBand_iff _ _).2 hband))
  · intro s g top xOffset measure leading interval size align dir hyph font track hcan hp hst htop hx hm hl hi hq hbad
    exact congrArg Host.Outcome.next (completeFrame_galley_same (k := .galleyOpen) hcan rfl rfl
      (handleGalleyOpen_range { s with link := s.link.hunt } g hp hst align dir hyph font track htop hx hm hl hi hq hbad))
  · exact congrArg Host.Outcome.next (completeFrame_galley_same (k := .galleyOpen) hcan rfl rfl
      (handleGalleyOpen_refused { s with link := s.link.hunt } g o.body hp hst))
  · exact congrArg Host.Outcome.next (completeFrame_galley_same (k := .galleyOpen) hcan rfl rfl
      (handleGalleyOpen_noPage { s with link := s.link.hunt } g o.body hp))

/-! ### RESTART (R71, R128) -/

theorem readRestart_top {top : Nat} (h : top < 65536) : readRestart (be16 top) = some (top, none) := by
  simp only [be16, readRestart, nat16_be16 _ h]

theorem readRestart_column {top xOffset measure : Nat} (h : top < 65536) (hx : xOffset < 65536) (hm : measure < 65536) :
    readRestart (be16 top ++ be16 xOffset ++ be16 measure) = some (top, some (xOffset, measure)) := by
  simp only [be16, List.cons_append, List.nil_append, readRestart, nat16_be16 _ h, nat16_be16 _ hx, nat16_be16 _ hm]

theorem readRestart_length {body : List Byte} {r : Nat × Option (Nat × Nat)} (h : readRestart body = some r) :
    body.length = 2 ∨ body.length = 6 := by
  unfold readRestart at h
  split at h
  · exact .inl rfl
  · exact .inr rfl
  · cases h

theorem Galley.topAboveQueued_iff (x : Galley) (top : Nat) : x.topAboveQueued top = true ↔ ∃ l ∈ x.closedLines, top < l.depth := by
  rw [← Bool.not_eq_false, Galley.topAboveQueued_eq_false_iff]
  simp

section Restarting

variable (s : State) (g : GalleyId) (body : List Byte)

theorem handleRestart_refused (h : (s.galley g).state ≠ .halted) : handleRestart s (galleyByte g) body = s.refuse .state := by
  rw [handleRestart, galleyOf_galleyByte]
  exact if_pos h

variable (hst : (s.galley g).state = .halted)

include hst

theorem handleRestart_noPage (h : s.page.state ≠ .open) : handleRestart s (galleyByte g) body = s.refuse .noPage := by
  rw [handleRestart, galleyOf_galleyByte]
  exact (if_neg (not_not.2 hst)).trans (if_pos h)

variable (hp : s.page.state = .open)

include hp

theorem handleRestart_lineOpen (h : (s.galley g).started = true) : handleRestart s (galleyByte g) body = s.refuse .lineOpen := by
  rw [handleRestart, galleyOf_galleyByte]
  exact (if_neg (not_not.2 hst)).trans ((if_neg (not_not.2 hp)).trans (if_pos h))

variable {body} (hs : (s.galley g).started = false)

include hs

theorem handleRestart_unread (h : readRestart body = none) : handleRestart s (galleyByte g) body = s.refuse .range := by
  rw [handleRestart, galleyOf_galleyByte]
  refine (if_neg (not_not.2 hst)).trans ((if_neg (not_not.2 hp)).trans ((if_neg (by simp [hs])).trans ?_))
  rw [h]

/-- The checks of a restart whose body reads: its ranges, then the band and the lines not yet exposed (R71, R128). -/
theorem handleRestart_reads {top : Nat} {column : Option (Nat × Nat)} (h : readRestart body = some (top, column)) :
    handleRestart s (galleyByte g) body
      = if s.page.depth ≤ top ∨ ∃ xm ∈ column, columnGood s.page.width xm.1 xm.2 = false then s.refuse .range
        else if aboveBand s.page.high top || (s.galley g).topAboveQueued top then s.refuse .behind
        else (s.setGalley g ((s.galley g).restarted top column)).accept [] := by
  rw [handleRestart, galleyOf_galleyByte]
  refine (if_neg (not_not.2 hst)).trans ((if_neg (not_not.2 hp)).trans ((if_neg (by simp [hs])).trans ?_))
  rw [h]
  cases column <;> simp

theorem handleRestart_range {top : Nat} {column : Option (Nat × Nat)} (h : readRestart body = some (top, column))
    (hbad : s.page.depth ≤ top ∨ ∃ xm ∈ column, columnGood s.page.width xm.1 xm.2 = false) :
    handleRestart s (galleyByte g) body = s.refuse .range := by
  rw [handleRestart_reads s g hst hp hs h, if_pos hbad]

theorem handleRestart_behind {top : Nat} (h : readRestart body = some (top, none)) (htop : top < s.page.depth)
    (hbehind : top + 1200 < s.page.high ∨ ∃ l ∈ (s.galley g).closedLines, top < l.depth) :
    handleRestart s (galleyByte g) body = s.refuse .behind := by
  rw [handleRestart_reads s g hst hp hs h, if_neg (by simpa using htop), if_pos]
  rwa [Bool.or_eq_true, aboveBand_iff, Galley.topAboveQueued_iff]

theorem handleRestart_done {top : Nat} {column : Option (Nat × Nat)} (h : readRestart body = some (top, column))
    (htop : top < s.page.depth) (hcolumn : ∀ xm ∈ column, columnGood s.page.width xm.1 xm.2 = true)
    (hband : s.page.high ≤ top + 1200) (hlines : ∀ l ∈ (s.galley g).closedLines, l.depth ≤ top) :
    handleRestart s (galleyByte g) body = (s.setGalley g ((s.galley g).restarted top column)).accept [] := by
  rw [handleRestart_reads s g hst hp hs h, if_neg, if_neg]
  · rw [Bool.or_eq_true, aboveBand_iff, Galley.topAboveQueued_iff]
    rintro (hlt | ⟨l, hl, hlt⟩)
    · omega
    · exact absurd (hlines l hl) (Nat.not_le.2 hlt)
  · rintro (hdeep | ⟨xm, hxm, hbad⟩)
    · omega
    · rw [hcolumn xm hxm] at hbad
      cases hbad

end Restarting

/-- A restart with a column stages it beside the other values that would transfer (R60, R71). -/
theorem Galley.restarted_some (x : Galley) (top xOffset measure : Nat) :
    x.restarted top (some (xOffset, measure))
      = { x.timerAfresh with
          topDepth := top, lastDepth := none, released := false
          cause := if x.cause = some .behind then some .request else x.cause
          staged :=
            if x.pendingFlag then { x.staged with xOffset := xOffset, measure := measure }
            else { x.active with xOffset := xOffset, measure := measure }
          pendingFlag := true } := by
  cases h : x.pendingFlag <;> simp only [Galley.restarted, Galley.nextParams, h] <;> rfl

/-- Settles O27. -/
theorem restartGivesANewTop : Obligations.RestartGivesANewTop := by
  refine ⟨fun s g top hcan hst hp hs htop hfit hband hlines => ?_, ?_,
    fun s g top hcan hst hp hs htop hfit hbehind => ?_, fun s g top hcan hst hp hs hdeep hfit => ?_,
    fun s g top xOffset measure hcan hst hp hs hfit hx hm hbad => ?_, fun s g body hcan hst hp hs h2 h6 => ?_,
    fun s g body hcan hst hp hs => ?_, fun s g body hcan hst hp => ?_, fun s g body hcan hst => ?_⟩
  · refine congrArg Host.Outcome.next (completeFrame_setGalley (k := .restart) hcan rfl rfl ?_)
    exact handleRestart_done { s with link := s.link.hunt } g hst hp hs (readRestart_top hfit) htop (fun _ h => by cases h) hband
      hlines
  · intro s g top xOffset measure hcan hst hp hs htop hfit hband hlines hlo hhi hcol hwidth
    refine congrArg Host.Outcome.next (completeFrame_setGalley (k := .restart) hcan rfl rfl ?_)
    rw [← Galley.restarted_some]
    refine handleRestart_done { s with link := s.link.hunt } g hst hp hs
      (readRestart_column hfit (by omega) (by omega)) htop (fun xm hxm => ?_) hband hlines
    obtain rfl := Option.mem_some_iff.1 hxm
    exact (columnGood_iff _ _ _).2 ⟨hlo, hhi, hcol⟩
  · exact congrArg Host.Outcome.next (completeFrame_galley_same (k := .restart) hcan rfl rfl
      (handleRestart_behind { s with link := s.link.hunt } g hst hp hs (readRestart_top hfit) htop hbehind))
  · exact congrArg Host.Outcome.next (completeFrame_galley_same (k := .restart) hcan rfl rfl
      (handleRestart_range { s with link := s.link.hunt } g hst hp hs (readRestart_top hfit) (.inl hdeep)))
  · refine congrArg Host.Outcome.next (completeFrame_galley_same (k := .restart) hcan rfl rfl
      (handleRestart_range { s with link := s.link.hunt } g hst hp hs (readRestart_column hfit hx hm)
        (hbad.imp id fun hcol => ⟨_, rfl, ?_⟩)))
    rw [← Bool.not_eq_true, columnGood_iff]
    dsimp only
    omega
  · refine congrArg Host.Outcome.next (completeFrame_galley_same (k := .restart) hcan rfl rfl
      (handleRestart_unread { s with link := s.link.hunt } g hst hp hs ?_))
    cases hread : readRestart body with
    | none => rfl
    | some r => exact absurd (readRestart_length hread) (by omega)
  · exact congrArg Host.Outcome.next (completeFrame_galley_same (k := .restart) hcan rfl rfl
      (handleRestart_lineOpen { s with link := s.link.hunt } g body hst hp hs))
  · exact congrArg Host.Outcome.next (completeFrame_galley_same (k := .restart) hcan rfl rfl
      (handleRestart_noPage { s with link := s.link.hunt } g body hst hp))
  · exact congrArg Host.Outcome.next (completeFrame_galley_same (k := .restart) hcan rfl rfl
      (handleRestart_refused { s with link := s.link.hunt } g body hst))

/-! ### HALT, MARK SET and MARK CLEAR (R66, R69) -/

/-- Four bytes, high first, spell the number they were made from, when it fits (9.7). -/
theorem nat32_be32 {n : Nat} (h : n < 2 ^ 32) :
    nat32 (byteOf (n / 65536 / 256)) (byteOf (n / 65536)) (byteOf (n / 256)) (byteOf n) = n := by
  simp only [nat32, nat16, byteOf, BitVec.toNat_ofNat]
  omega

section Marks

variable (s : State) (g : GalleyId)

theorem handleHalt_halts (body : List Byte) (h : (s.galley g).state ∉ [.off, .closing, .halted]) :
    handleHalt s (galleyByte g) body
      = ((s.setGalley g ((s.galley g).haltedWith .request)).raise (.halted g) (.halted .request)).accept [] := by
  rw [handleHalt, galleyOf_galleyByte]
  exact if_neg (by simpa using h)

theorem handleHalt_refused (body : List Byte) (h : (s.galley g).state ∈ [.off, .closing, .halted]) :
    handleHalt s (galleyByte g) body = s.refuse .state := by
  rw [handleHalt, galleyOf_galleyByte]
  exact if_pos (by simpa using h)

theorem handleMarkSet_refused (body : List Byte) (h : (s.galley g).state ∈ [.off, .closing]) :
    handleMarkSet s (galleyByte g) body = s.refuse .state := by
  unfold handleMarkSet
  rw [galleyOf_galleyByte]
  exact if_pos (List.mem_pair.1 h)

theorem handleMarkSet_kind {k : Byte} (i : StoryIndex) (h : (s.galley g).state ∉ [.off, .closing]) (hk : 2 ≤ k.toNat) :
    handleMarkSet s (galleyByte g) (k :: be32 i.toNat) = s.refuse .range := by
  unfold handleMarkSet
  rw [galleyOf_galleyByte]
  refine (if_neg (mt List.mem_pair.2 h)).trans ?_
  simp only [be32, be16, List.cons_append, List.nil_append, readMarkKind_none hk]

theorem handleMarkSet_reads (k : MarkKind) (i : StoryIndex) (h : (s.galley g).state ∉ [.off, .closing]) :
    handleMarkSet s (galleyByte g) (k.byte :: be32 i.toNat)
      = if i.toNat < (s.galley g).itemIndex.toNat then s.refuse .range
        else (s.setGalley g { s.galley g with mark := { kind := k, index := i, state := .armed } }).accept [] := by
  unfold handleMarkSet
  rw [galleyOf_galleyByte]
  refine (if_neg (mt List.mem_pair.2 h)).trans ?_
  simp only [be32, be16, List.cons_append, List.nil_append, readMarkKind_byte, nat32_be32 i.isLt, BitVec.ofNat_toNat,
    BitVec.setWidth_eq]

theorem handleMarkClear_disarms (body : List Byte) (h : (s.galley g).state ≠ .off) :
    handleMarkClear s (galleyByte g) body
      = (s.setGalley g { s.galley g with mark := { (s.galley g).mark with state := .disarmed } }).accept [] := by
  rw [handleMarkClear, galleyOf_galleyByte]
  exact if_neg h

theorem handleMarkClear_refused (body : List Byte) (h : (s.galley g).state = .off) :
    handleMarkClear s (galleyByte g) body = s.refuse .state := by
  rw [handleMarkClear, galleyOf_galleyByte]
  exact if_pos h

end Marks

/-- Settles O22. -/
theorem haltAndMarksAct : Obligations.HaltAndMarksAct := by
  refine ⟨fun s g b hcan hst => ?_, fun s g b hcan hst => ?_, fun s g k i hcan hst hi => ?_, fun s g k i hcan hst hi => ?_,
    fun s g k i hcan hst hk => ?_, fun s g k i hcan hst => ?_, fun s g b hcan hst => ?_, fun s g b hcan hst => ?_⟩
  · exact congrArg Host.Outcome.next (completeFrame_setGalley_raise (k := .halt) hcan rfl rfl
      (handleHalt_halts { s with link := s.link.hunt } g [b] (not_mem_of_mem hst)))
  · exact congrArg Host.Outcome.next (completeFrame_galley_same (k := .halt) hcan rfl rfl
      (handleHalt_refused { s with link := s.link.hunt } g [b] hst))
  · exact congrArg Host.Outcome.next (completeFrame_setGalley_quiet (k := .markSet) hcan rfl rfl (by rfl)
      ((handleMarkSet_reads { s with link := s.link.hunt } g k i hst).trans (if_neg (Nat.not_lt.2 hi))))
  · exact congrArg Host.Outcome.next (completeFrame_galley_same (k := .markSet) hcan rfl rfl
      ((handleMarkSet_reads { s with link := s.link.hunt } g k i hst).trans (if_pos hi)))
  · exact congrArg Host.Outcome.next (completeFrame_galley_same (k := .markSet) hcan rfl rfl
      (handleMarkSet_kind { s with link := s.link.hunt } g i hst hk))
  · exact congrArg Host.Outcome.next (completeFrame_galley_same (k := .markSet) hcan rfl rfl
      (handleMarkSet_refused { s with link := s.link.hunt } g (k.byte :: be32 i.toNat) hst))
  · exact congrArg Host.Outcome.next (completeFrame_setGalley_quiet (k := .markClear) hcan rfl rfl (by rfl)
      (handleMarkClear_disarms { s with link := s.link.hunt } g [b] hst))
  · exact congrArg Host.Outcome.next (completeFrame_galley_same (k := .markClear) hcan rfl rfl
      (handleMarkClear_refused { s with link := s.link.hunt } g [b] hst))

end Sys2Proof.Machine
end

