-- ==== Sys2Proof/Proofs/Halted.lean ====
section
/-! RESUME, STEP, the two forms of GALLEY CLOSE, and story at a released galley; the stops at marks and ends; the retiring of a line
(R61, R63, R64, R67 to R69, R76, R77, R135, R138, R146, R148). -/

namespace Sys2Proof.Machine

/-! ### How a galley proceeds (R63) -/

theorem Galley.proceeding_iff (x : Galley) : x.proceeding = true ↔ x.state = .setting ∨ x.state = .draining := by
  rw [Galley.proceeding, Bool.or_eq_true, beq_iff_eq, beq_iff_eq]

theorem Galley.tagNames_iff (x : Galley) :
    x.tagNames = true ↔ x.mark.kind = .tag ∧ x.mark.state = .armed ∧ x.mark.index = x.itemIndex := by
  rw [Galley.tagNames, Bool.and_eq_true, Bool.and_eq_true, beq_iff_eq, beq_iff_eq, beq_iff_eq, and_assoc]

section Proceeding

variable (c : Ctx) {x : Galley} (hp : x.state = .setting ∨ x.state = .draining)

include hp

/-- A galley that holds a closed line goes no further (R63 step 1). -/
theorem proceed_blocks (hheld : x.held.isSome = true) :
    proceed c (Run.start x) = { gal := { x with state := .blocked }, events := [], stopped := true, consumed := 0 } :=
  proceed_of_held c (Run.start x) (x.proceeding_iff.2 hp) hheld

variable (hheld : x.held = none) (hcarry : x.hasCarry = false)

include hheld hcarry

theorem proceed_queue : proceed c (Run.start x) = proceedQueue c (Run.start x) := by
  simp [proceed, x.proceeding_iff.2 hp, hheld, startCarry_none c (Run.start x) hcarry]

/-- An empty queue stops a galley that does not drain (R63 step 4). -/
theorem proceed_waits (hstory : x.story = []) (hst : x.state ≠ .draining) :
    proceed c (Run.start x) = Run.start { x with state := if x.started then .starved else .ready } := by
  rw [proceed_queue c hp hheld hcarry, proceedQueue]
  exact (if_pos (by simp [hstory])).trans (if_neg hst)

theorem proceed_ends (hstory : x.story = []) (hst : x.state = .draining) : proceed c (Run.start x) = endDrain c (Run.start x) := by
  rw [proceed_queue c hp hheld hcarry, proceedQueue]
  exact (if_pos (by simp [hstory])).trans (if_pos hst)

/-- An armed TAG mark that names the front item halts the galley before it (R69). -/
theorem proceed_tagged (hstory : x.story ≠ []) (htag : x.tagNames = true) :
    proceed c (Run.start x)
      = (Run.start { x with mark := { x.mark with state := .disarmed } }).halt c .mark := by
  rw [proceed_queue c hp hheld hcarry, proceedQueue]
  exact (if_neg (by simpa using hstory)).trans (if_pos htag)

end Proceeding

/-- A FONT item at the front is passed (R49). -/
theorem proceed_font (c : Ctx) {x : Galley} {n : SlotId} {rest : List Item} (hready : x.ReadyToConsume)
    (hstory : x.story = .font n :: rest) : proceed c (Run.start x) = Run.afterItem ({ x with slot := n }.past rest) :=
  proceed_passes c hready hstory hstory (consumeItem_font c hstory)

/-! ### CLOSING and OFF (R77) -/

theorem Run.offWhenEmpty_stays (c : Ctx) {r : Run} (h : r.gal.state ≠ .closing ∨ r.gal.output ≠ []) : r.offWhenEmpty c = r :=
  if_neg fun ⟨hst, hout⟩ => h.elim (· hst) (· hout)

theorem Run.offWhenEmpty_off (c : Ctx) {r : Run} (hst : r.gal.state = .closing) (hout : r.gal.output = []) :
    r.offWhenEmpty c
      = { r with
          gal := r.gal.atOff
          events := r.events ++ [(.closed c.id, .closed r.gal.lineNumber r.gal.itemIndex)] } :=
  if_pos ⟨hst, hout⟩

theorem Run.enterClosing_stays (c : Ctx) {r : Run} (hout : r.gal.output ≠ []) :
    r.enterClosing c = { r with gal := r.gal.atClosing, stopped := true } :=
  Run.offWhenEmpty_stays c (.inr hout)

theorem Run.enterClosing_off (c : Ctx) {r : Run} (hout : r.gal.output = []) :
    r.enterClosing c
      = { r with
          gal := r.gal.atClosing.atOff
          events := r.events ++ [(.closed c.id, .closed r.gal.lineNumber r.gal.itemIndex)]
          stopped := true } :=
  Run.offWhenEmpty_off c rfl hout

theorem endDrain_unstarted (c : Ctx) {x : Galley} (hs : x.started = false) :
    endDrain c (Run.start x) = (Run.start x).enterClosing c := by
  simp [endDrain, hs]

/-- A draining galley with nothing left to set goes CLOSING (R63 step 4, R76). -/
theorem proceed_closes (c : Ctx) {x : Galley} (hst : x.state = .draining) (hheld : x.held = none) (hs : x.started = false)
    (hentries : x.builder.entries = []) (hstory : x.story = []) :
    proceed c (Run.start x) = (Run.start x).enterClosing c := by
  rw [proceed_ends c (.inr hst) hheld (x.hasCarry_of_empty hentries) hstory hst, endDrain_unstarted c hs]

/-! ### RESUME (R67) -/

/-- A galley as RESUME lets it proceed (R67). -/
abbrev Galley.resumed (x : Galley) : Galley :=
  { x.timerAfresh with
    released := false, state := if x.drain then .draining else .setting, cause := none, deferred := none }

theorem Galley.resumed_state (x : Galley) : x.resumed.state = .setting ∨ x.resumed.state = .draining := by
  cases h : x.drain <;> simp [h]

section Resuming

variable (s : State) (g : GalleyId) (body : List Byte)

theorem handleResume_refused (h : (s.galley g).state ≠ .halted) : handleResume s (galleyByte g) body = s.refuse .state := by
  rw [handleResume, galleyOf_galleyByte]
  exact if_pos h

variable (hst : (s.galley g).state = .halted)

include hst

theorem handleResume_behind (hr : (s.galley g).released = true) (hlt : (s.galley g).frontier + 1200 < s.page.high) :
    handleResume s (galleyByte g) body = s.refuse .behind := by
  rw [handleResume, galleyOf_galleyByte]
  exact (if_neg (not_not.2 hst)).trans (if_pos (Bool.and_eq_true_iff.2 ⟨hr, (aboveBand_iff _ _).2 hlt⟩))

theorem handleResume_proceeds (hband : (s.galley g).released = false ∨ s.page.high ≤ (s.galley g).frontier + 1200) {r : Run}
    (hr : proceed (s.ctx g false) (Run.start (s.galley g).resumed) = r) :
    handleResume s (galleyByte g) body = (s.commit g r).accept [byteOf r.gal.state.code, causeByte r.gal.cause] := by
  subst hr
  rw [handleResume, galleyOf_galleyByte]
  refine (if_neg (not_not.2 hst)).trans (if_neg ?_)
  rw [Bool.and_eq_true, aboveBand_iff]
  rintro ⟨hr, hlt⟩
  obtain hband | hband := hband
  · simp [hr] at hband
  · omega

end Resuming

theorem waiting_code (started : Bool) :
    byteOf (if started then GalleyState.starved else .ready).code = if started then 3 else 1 := by
  cases started <;> rfl

theorem going_code (drain : Bool) :
    byteOf (if drain then GalleyState.draining else .setting).code = if drain then 6 else 2 := by
  cases drain <;> rfl

/-- Settles O25. -/
theorem resumeProceeds : Obligations.ResumeProceeds := by
  refine ⟨fun s g b hcan hst hband hheld => ?_, fun s g b hcan hst hband hheld hstory hcarry hdrain => ?_,
    fun s g b n rest hcan hst hband hheld hcarry hstory hmark => ?_, fun s g b hcan hst hr hlt => ?_, fun s g b hcan hst => ?_⟩
  · exact congrArg Host.Outcome.next (completeFrame_setGalley (k := .resume) hcan rfl rfl
      (handleResume_proceeds { s with link := s.link.hunt } g [b] hst hband
        (proceed_blocks _ (s.galley g).resumed_state hheld)))
  · refine congrArg Host.Outcome.next (completeFrame_setGalley (k := .resume) hcan rfl rfl
      ((handleResume_proceeds { s with link := s.link.hunt } g [b] hst hband
        (proceed_waits _ (s.galley g).resumed_state hheld hcarry hstory (by simp [hdrain]))).trans ?_))
    exact congrArg (fun b => Answer.mk _ _ [b, 0]) (waiting_code (s.galley g).started)
  · have hready : (s.galley g).resumed.ReadyToConsume := ⟨(s.galley g).resumed_state, hheld, hcarry, hmark⟩
    refine congrArg Host.Outcome.next (completeFrame_setGalley (k := .resume) hcan rfl rfl
      ((handleResume_proceeds { s with link := s.link.hunt } g [b] hst hband
        (proceed_font _ hready hstory)).trans ?_))
    exact congrArg (fun b => Answer.mk _ _ [b, 0]) (going_code (s.galley g).drain)
  · exact congrArg Host.Outcome.next (completeFrame_galley_same (k := .resume) hcan rfl rfl
      (handleResume_behind { s with link := s.link.hunt } g [b] hst hr hlt))
  · exact congrArg Host.Outcome.next (completeFrame_galley_same (k := .resume) hcan rfl rfl
      (handleResume_refused { s with link := s.link.hunt } g [b] hst))

/-! ### STEP (R68) -/

section Stepping

variable (s : State) (g : GalleyId) (body : List Byte)

theorem handleStep_refused (h : (s.galley g).state ≠ .halted) : handleStep s (galleyByte g) body = s.refuse .state := by
  rw [handleStep, galleyOf_galleyByte]
  exact if_pos h

variable (hst : (s.galley g).state = .halted)

include hst

theorem handleStep_full (hheld : (s.galley g).held.isSome = true) : handleStep s (galleyByte g) body = s.refuse .full := by
  rw [handleStep, galleyOf_galleyByte]
  exact (if_neg (not_not.2 hst)).trans (if_pos hheld)

theorem handleStep_empty (hheld : (s.galley g).held = none) (hstory : (s.galley g).story = []) :
    handleStep s (galleyByte g) body = s.refuse .empty := by
  rw [handleStep, galleyOf_galleyByte]
  exact (if_neg (not_not.2 hst)).trans ((if_neg (by simp [hheld])).trans (if_pos (by simp [hstory])))

/-- A STEP over an item that leaves the galley as `y` otherwise: the galley halts again behind it. -/
theorem handleStep_passes (hheld : (s.galley g).held = none) (hcarry : (s.galley g).hasCarry = false) {i : Item} {rest : List Item}
    (hstory : (s.galley g).story = i :: rest) {y : Galley} (hy : y.story = i :: rest)
    (hitem : consumeItem (s.ctx g true) (Run.start (s.galley g)) = (Run.start (s.galley g)).take y) :
    handleStep s (galleyByte g) body
      = ((s.setGalley g ((y.past rest).haltedWith .step)).raise (.halted g) (.halted .step)).accept [5, 3, 1] := by
  have hstep : stepGalley (s.ctx g true) (s.galley g) = (Run.afterItem (y.past rest)).halt (s.ctx g true) .step := by
    simp [stepGalley, startCarry_none _ (Run.start (s.galley g)) hcarry, hitem, Run.take_start _ hy]
  rw [handleStep, galleyOf_galleyByte]
  refine (if_neg (not_not.2 hst)).trans ((if_neg (by simp [hheld])).trans ((if_neg (by simp [hstory])).trans ?_))
  rw [hstep]
  rfl

end Stepping

/-- A halt of a halted galley changes nothing that a selection reads (R131). -/
theorem Galley.haltedWith_watched {x y : Galley} (hst : x.state = .halted) (hy : y.watched = x.watched) (cause : HaltCause) :
    (y.haltedWith cause).watched = x.watched := by
  calc (y.haltedWith cause).watched
    _ = { y.watched with state := .halted } := rfl
    _ = { x.watched with state := x.state } := by rw [hy, hst]
    _ = x.watched := rfl

theorem Galley.setSize_within (x : Galley) {q : CodeUnit} (hlo : 16 ≤ q.toNat) (hhi : q.toNat ≤ 576) :
    x.setSize q = { x with size := q.toNat } := by
  rw [Galley.setSize_eq, Nat.max_eq_right hlo, Nat.min_eq_right hhi, decide_eq_false (by omega)]
  rfl

/-- Settles O26. -/
theorem stepConsumesOneItem : Obligations.StepConsumesOneItem := by
  refine ⟨fun s g b n rest hcan hst hheld hcarry hstory => ?_, fun s g b q rest hcan hst hheld hcarry hstory hlo hhi => ?_,
    fun s g b hcan hst hheld => ?_, fun s g b hcan hst hheld hstory => ?_, fun s g b hcan hst => ?_⟩
  · exact congrArg Host.Outcome.next (completeFrame_setGalley_raise_quiet (k := .step) hcan rfl rfl
      (Galley.haltedWith_watched hst (by rfl) _)
      (handleStep_passes { s with link := s.link.hunt } g [b] hst hheld hcarry hstory (y := { s.galley g with slot := n }) hstory
        (consumeItem_font _ hstory)))
  · exact congrArg Host.Outcome.next (completeFrame_setGalley_raise_quiet (k := .step) hcan rfl rfl
      (Galley.haltedWith_watched hst (by rfl) _)
      (handleStep_passes { s with link := s.link.hunt } g [b] hst hheld hcarry hstory (y := { s.galley g with size := q.toNat })
        hstory ((consumeItem_size _ hstory).trans (by rw [Galley.setSize_within _ hlo hhi]; rfl))))
  · exact congrArg Host.Outcome.next (completeFrame_galley_same (k := .step) hcan rfl rfl
      (handleStep_full { s with link := s.link.hunt } g [b] hst hheld))
  · exact congrArg Host.Outcome.next (completeFrame_galley_same (k := .step) hcan rfl rfl
      (handleStep_empty { s with link := s.link.hunt } g [b] hst hheld hstory))
  · exact congrArg Host.Outcome.next (completeFrame_galley_same (k := .step) hcan rfl rfl
      (handleStep_refused { s with link := s.link.hunt } g [b] hst))

/-! ### GALLEY CLOSE (R76, R77) -/

theorem handleGalleyClose_drain (s : State) (g : GalleyId) : handleGalleyClose s (galleyByte g) [0] = drainGalley s g := by
  rw [handleGalleyClose, galleyOf_galleyByte]
  rfl

theorem handleGalleyClose_discard (s : State) (g : GalleyId) : handleGalleyClose s (galleyByte g) [1] = discardGalley s g := by
  rw [handleGalleyClose, galleyOf_galleyByte]
  rfl

theorem handleGalleyClose_form (s : State) (target : Byte) {form : Byte} (h0 : form ≠ 0) (h1 : form ≠ 1) :
    handleGalleyClose s target [form] = s.refuse .range := by
  rw [handleGalleyClose, List.headD_cons]
  split
  · rename_i h
    exact absurd (BitVec.eq_of_toNat_eq h) h0
  · rename_i h
    exact absurd (BitVec.eq_of_toNat_eq h) h1
  · rfl

section Closing

variable (s : State) (g : GalleyId)

theorem drainGalley_refused (h : (s.galley g).state ∈ [.off, .closing] ∨ (s.galley g).drain = true) :
    drainGalley s g = s.refuse .state :=
  if_pos (by rwa [List.mem_pair, or_assoc] at h)

theorem drainGalley_later (hst : (s.galley g).state ∈ [.blocked, .halted]) (hd : (s.galley g).drain = false) :
    drainGalley s g = (s.setGalley g { s.galley g with drain := true }).accept [] := by
  unfold drainGalley
  obtain hst | hst := List.mem_pair.1 hst <;> simp [hst, hd] <;> rfl

theorem drainGalley_now (hst : (s.galley g).state ∈ [.ready, .setting, .starved]) (hd : (s.galley g).drain = false) {r : Run}
    (hr : proceed (s.ctx g false) (Run.start { s.galley g with drain := true, state := .draining }) = r) :
    drainGalley s g = (s.commit g r).accept [] := by
  subst hr
  have hgo : (s.galley g).state = .ready ∨ (s.galley g).state = .setting ∨ (s.galley g).state = .starved := by simpa using hst
  have hopen : ¬((s.galley g).state = .off ∨ (s.galley g).state = .closing ∨ (s.galley g).drain = true) := by
    obtain h | h | h := hgo <;> simp [h, hd]
  exact (if_neg hopen).trans (congrArg (fun r => (s.commit g r).accept []) (if_pos hgo))

theorem discardGalley_refused (h : (s.galley g).state ∈ [.off, .closing]) : discardGalley s g = s.refuse .state :=
  if_pos (List.mem_pair.1 h)

theorem discardGalley_drops (h : (s.galley g).state ∉ [.off, .closing]) {r : Run}
    (hr : (Run.start (s.galley g).discarded).enterClosing (s.ctx g false) = r) :
    discardGalley s g
      = (s.commit g r).accept (be16 (storyUnits (s.galley g).story)
          ++ be16 ((s.galley g).builder.entries.length + ((s.galley g).held.map HeldLine.entries).getD 0)) := by
  subst hr
  refine (if_neg (mt List.mem_pair.2 h)).trans ?_
  cases (s.galley g).held <;> rfl

end Closing

/-- Settles O24. -/
theorem galleyCloseDrainsOrDiscards : Obligations.GalleyCloseDrainsOrDiscards := by
  refine ⟨fun s g hcan hst hd => ?_, fun s g hcan hst hd hstory hs hentries hheld hout => ?_,
    fun s g hcan hst hd hstory hs hentries hheld hout => ?_, fun s g hcan hst => ?_, fun s g form hcan h0 h1 => ?_,
    fun s g hcan hst hout => ?_, fun s g hcan hst hout => ?_, fun s g hcan hst => ?_⟩
  · exact congrArg Host.Outcome.next (completeFrame_setGalley_quiet (k := .galleyClose) hcan rfl rfl (by rfl)
      ((handleGalleyClose_drain _ g).trans (drainGalley_later { s with link := s.link.hunt } g hst hd)))
  · have hcloses := proceed_closes (s.ctx g false) (x := { s.galley g with drain := true, state := .draining }) rfl hheld hs
      hentries hstory
    exact congrArg Host.Outcome.next (completeFrame_setGalley (k := .galleyClose) hcan rfl rfl
      ((handleGalleyClose_drain _ g).trans (drainGalley_now { s with link := s.link.hunt } g hst hd
        (hcloses.trans (Run.enterClosing_stays _ hout)))))
  · have hcloses := proceed_closes (s.ctx g false) (x := { s.galley g with drain := true, state := .draining }) rfl hheld hs
      hentries hstory
    exact congrArg Host.Outcome.next (completeFrame_setGalley_raise (k := .galleyClose) hcan rfl rfl
      ((handleGalleyClose_drain _ g).trans (drainGalley_now { s with link := s.link.hunt } g hst hd
        (hcloses.trans (Run.enterClosing_off _ hout)))))
  · exact congrArg Host.Outcome.next (completeFrame_galley_same (k := .galleyClose) hcan rfl rfl
      ((handleGalleyClose_drain _ g).trans (drainGalley_refused { s with link := s.link.hunt } g hst)))
  · exact congrArg Host.Outcome.next (completeFrame_galley_same (k := .galleyClose) hcan rfl rfl
      (handleGalleyClose_form { s with link := s.link.hunt } (galleyByte g) h0 h1))
  · exact congrArg Host.Outcome.next (completeFrame_setGalley (k := .galleyClose) hcan rfl rfl
      ((handleGalleyClose_discard _ g).trans (discardGalley_drops { s with link := s.link.hunt } g hst
        (Run.enterClosing_stays _ hout))))
  · exact congrArg Host.Outcome.next (completeFrame_setGalley_raise (k := .galleyClose) hcan rfl rfl
      ((handleGalleyClose_discard _ g).trans (discardGalley_drops { s with link := s.link.hunt } g hst
        (Run.enterClosing_off _ hout))))
  · exact congrArg Host.Outcome.next (completeFrame_galley_same (k := .galleyClose) hcan rfl rfl
      ((handleGalleyClose_discard _ g).trans (discardGalley_refused { s with link := s.link.hunt } g hst)))

/-! ### Story at a released galley (R64 step 2, R75) -/

/-- A released galley's idle timer is not retriggered (R64). -/
theorem Galley.timerRetriggered_released {x : Galley} (h : x.released = true) : x.timerRetriggered = x := if_pos h

/-- Where the film has passed the galley, it halts with BEHIND, its released flag staying set. -/
theorem arrival_behind (c : Ctx) {high : Nat} (units : Nat) {x : Galley} (hr : x.released = true)
    (hst : x.state ∉ [.off, .closing, .halted]) (hlt : x.frontier + 1200 < high) :
    arrival c high units x = (Run.start x).halt c .behind := by
  have hhalted : x.state ≠ .halted := fun h => hst (by simp [h])
  have htest : unreleaseTest c high (Run.start x.retrigger) = (Run.start x).halt c .behind := by
    rw [Galley.retrigger_eq, Galley.timerRetriggered_released hr, unreleaseTest]
    exact (if_neg (by simp [hr])).trans ((if_pos ((aboveBand_iff _ _).2 hlt)).trans (if_neg hhalted))
  rw [arrival, htest]
  exact if_neg (by simp [Run.halt_eq, Galley.haltedWith])

/-- Where it has not, the released flag clears and the idle timer starts afresh. -/
theorem arrival_unreleases (c : Ctx) {high : Nat} (units : Nat) {x : Galley} (hr : x.released = true)
    (hst : x.state ∈ [.setting, .blocked, .draining]) (hband : high ≤ x.frontier + 1200) :
    arrival c high units x = Run.start { x.timerAfresh with released := false } := by
  have hstate : x.state = .setting ∨ x.state = .blocked ∨ x.state = .draining := by simpa using hst
  have htest : unreleaseTest c high (Run.start x.retrigger) = Run.start { x.timerAfresh with released := false } := by
    rw [Galley.retrigger_eq, Galley.timerRetriggered_released hr, unreleaseTest]
    refine (if_neg (by simp [hr])).trans ((if_neg ?_).trans (if_neg ?_))
    · rw [aboveBand_iff]
      exact Nat.not_lt.2 hband
    · obtain h | h | h := hstate <;> simp [h]
  rw [arrival, htest]
  refine if_neg fun ⟨_, hwait⟩ => ?_
  have hwait : x.state = .ready ∨ x.state = .starved := hwait
  obtain h | h | h := hstate <;> simp [h] at hwait

/-- Settles O19. -/
theorem storyAtAReleasedGalley : Obligations.StoryAtAReleasedGalley := by
  refine ⟨fun s g items hcan hwell hst hr hlt hroom => ?_, fun s g items hcan hwell hst hr hband hroom => ?_⟩
  · have hopen : (s.galley g).state ∉ [.off, .closing] := fun h => hst (by
      rw [List.mem_pair] at h
      obtain h | h := h <;> simp [h])
    have harrival := arrival_behind (s.ctx g false) (storyUnits items)
      (x := { s.galley g with story := (s.galley g).story ++ items }) hr hst hlt
    refine congrArg Host.Outcome.next (completeFrame_setGalley_raise (k := .story) hcan rfl rfl ?_)
    refine (handleStory_stored { s with link := s.link.hunt } g hopen (storyReadsBackItsItems items hwell) hroom harrival).trans ?_
    rw [Run.halt_eq, Galley.storyFree_of_story (x := s.galley g) rfl]
    rfl
  · have harrival := arrival_unreleases (s.ctx g false) (storyUnits items)
      (x := { s.galley g with story := (s.galley g).story ++ items }) hr hst hband
    refine congrArg Host.Outcome.next (completeFrame_setGalley (k := .story) hcan rfl rfl ?_)
    refine (handleStory_stored { s with link := s.link.hunt } g (not_mem_of_mem hst) (storyReadsBackItsItems items hwell) hroom
      harrival).trans ?_
    rw [Run.start_gal, Galley.storyFree_of_story (x := s.galley g) rfl]
    rfl

/-! ### The galley's other events (R63, R69, R76) -/

theorem tagMarkHalt_halts (s : State) (g : GalleyId) (hst : (s.galley g).state ∈ [.setting, .draining])
    (htag : (s.galley g).tagNames = true) (hstory : (s.galley g).story ≠ []) {r : Run}
    (hr : proceed (s.ctx g false) (Run.start (s.galley g)) = r) : tagMarkHalt s g = s.noting (s.commit g r) := by
  subst hr
  exact if_pos (by simpa [(s.galley g).proceeding_iff.2 (List.mem_pair.1 hst), htag] using hstory)

theorem queueEmpties_waits (s : State) (g : GalleyId) (hst : (s.galley g).state = .setting) (hstory : (s.galley g).story = [])
    {r : Run} (hr : proceed (s.ctx g false) (Run.start (s.galley g)) = r) : queueEmpties s g = s.noting (s.commit g r) := by
  subst hr
  exact if_pos ⟨hst, hstory⟩

theorem drainEnd_ends (s : State) (g : GalleyId) (hst : (s.galley g).state = .draining) (hstory : (s.galley g).story = [])
    {r : Run} (hr : proceed (s.ctx g false) (Run.start (s.galley g)) = r) : drainEnd s g = s.noting (s.commit g r) := by
  subst hr
  exact if_pos ⟨hst, hstory⟩

/-- The end of a drain closes a started line, which joins the queue, and the galley goes CLOSING behind it (R76, R77). -/
theorem proceed_closesLine (c : Ctx) {x : Galley} {d : Nat} {l : LineRecord} (hst : x.state = .draining) (hheld : x.held = none)
    (hd : x.builder.lineDepth = some d) (hstory : x.story = []) (hmark : x.mark.state = .disarmed)
    (hbody : dropTrailingSpaces (sealLine c.fonts x.builder.entries) ≠ []) (hl : l = x.lastLine c.fonts c.id c.pageWidth d)
    (hexc : l.exceptions = ExcSet.none) (hroom : x.output.length < 4) :
    proceed c (Run.start x)
      = { gal := { (x.lineDone d).atClosing with output := x.output ++ [l] }, events := [], stopped := true, consumed := 0 } := by
  have hs : x.started = true := by simp [Galley.started, hd]
  have hact : (Run.start x).gal.mark.acts [] = false := by simp [StopMark.acts, hmark]
  have hclose := closeLine_joins c (r := Run.start x) hd hbody hl hact hroom (Run.giveException_none c _ hexc)
  rw [proceed_ends c (.inr hst) hheld (x.hasCarry_of_started hs) hstory hst, endDrain]
  simp only [Run.start_gal, hs, if_true]
  rw [show closeLine c (Run.start x) x.builder.entries false false true [] [] = _ from hclose]
  exact Run.enterClosing_stays c (by simp)

/-- Settles O46. -/
theorem galleysStopAtMarksAndEnds : Obligations.GalleysStopAtMarksAndEnds := by
  refine ⟨fun s g hst hheld hcarry hstory hkind harmed hindex => ?_, fun s g hst hheld hcarry hstory => ?_,
    fun s g hst hheld hs hentries hstory hout => ?_, fun s g hst hheld hs hentries hstory hout => ?_,
    fun s g d l hst hheld hd hstory hmark hbody hl hexc hroom => ?_⟩
  · have htag := (s.galley g).tagNames_iff.2 ⟨hkind, harmed, hindex⟩
    exact congrArg Host.Outcome.next (tagMarkHalt_halts s g hst htag hstory
      (proceed_tagged (s.ctx g false) (List.mem_pair.1 hst) hheld hcarry hstory htag))
  · exact congrArg Host.Outcome.next (queueEmpties_waits s g hst hstory
      (proceed_waits (s.ctx g false) (.inl hst) hheld hcarry hstory (by simp [hst])))
  · exact congrArg Host.Outcome.next (drainEnd_ends s g hst hstory
      ((proceed_closes (s.ctx g false) hst hheld hs hentries hstory).trans (Run.enterClosing_stays _ hout)))
  · exact congrArg Host.Outcome.next (drainEnd_ends s g hst hstory
      ((proceed_closes (s.ctx g false) hst hheld hs hentries hstory).trans (Run.enterClosing_off _ hout)))
  · exact congrArg Host.Outcome.next (drainEnd_ends s g hst hstory
      (proceed_closesLine (s.ctx g false) hst hheld hd hstory hmark hbody hl hexc hroom))

/-! ### The head of the output queue retires (R61, R135, R138, R146) -/

theorem afterHeadLeaves_none (c : Ctx) {r : Run} (hheld : r.gal.held = none) : afterHeadLeaves c r = r.offWhenEmpty c := by
  simp only [afterHeadLeaves, hheld]

section Retiring

variable (c : Ctx) {x : Galley}

theorem retireHead_stays (hheld : x.held = none) (h : x.state ≠ .closing ∨ 2 ≤ x.output.length) :
    retireHead c x = Run.start { x with output := x.output.tail } := by
  refine (afterHeadLeaves_none c hheld).trans (Run.offWhenEmpty_stays c (h.imp id fun hlen hnil => ?_))
  have := congrArg List.length (show x.output.tail = [] from hnil)
  simp only [List.length_tail, List.length_nil] at this
  omega

theorem retireHead_off (hheld : x.held = none) (hst : x.state = .closing) (hlen : x.output.length ≤ 1) :
    retireHead c x
      = { gal := { x.atOff with output := [] }, events := [(.closed c.id, .closed x.lineNumber x.itemIndex)], stopped := false,
          consumed := 0 } := by
  have htail : x.output.tail = [] := List.eq_nil_of_length_eq_zero (by simp only [List.length_tail]; omega)
  rw [retireHead, htail, afterHeadLeaves_none c hheld]
  exact Run.offWhenEmpty_off c (r := Run.start { x with output := [] }) hst rfl

variable {h : HeldLine} (hheld : x.held = some h)

include hheld

/-- A galley that is not BLOCKED stays as it is while the line it held joins its queue. -/
theorem retireHead_joins (hst : x.state ≠ .blocked) :
    retireHead c x = Run.start { x with output := x.output.tail ++ [h.record], held := none } := by
  simp only [retireHead, afterHeadLeaves, Run.start_gal, hheld]
  exact if_neg hst

variable (hst : x.state = .blocked)

include hst

theorem retireHead_step (hdef : x.deferred = some .step) :
    retireHead c x = (Run.start { x with output := x.output.tail ++ [h.record], held := none }).halt c .step := by
  simp only [retireHead, afterHeadLeaves, Run.start_gal, hheld]
  refine (if_pos hst).trans ?_
  simp only [hdef]
  rfl

theorem retireHead_mark (hdef : x.deferred = some .mark) :
    retireHead c x = (Run.start { x with output := x.output.tail ++ [h.record], held := none }).halt c .mark := by
  simp only [retireHead, afterHeadLeaves, Run.start_gal, hheld]
  refine (if_pos hst).trans ?_
  simp only [hdef]
  rfl

/-- A BLOCKED galley without a deferred cause goes on (R61, R63). -/
theorem retireHead_goesOn (hdef : x.deferred = none) :
    retireHead c x
      = proceed c (Run.start { x with
          output := x.output.tail ++ [h.record], held := none, state := if x.drain then .draining else .setting
          cause := none }) := by
  simp only [retireHead, afterHeadLeaves, Run.start_gal, hheld]
  refine (if_pos hst).trans ?_
  simp only [hdef]
  rfl

end Retiring

theorem State.noting_raiseAll (s t : State) (es : List (Flag × EventData)) :
    s.noting (t.raiseAll es) = (s.noting t).raiseAll es := by
  induction es generalizing t with
  | nil => rfl
  | cons p es ih => rw [State.raiseAll_cons, ih, State.noting_raise, State.raiseAll_cons]

/-- An event that changes the unit view is a re-examination point (R134, R142). -/
theorem State.noting_of_view {s t : State} (h : t.unit.view ≠ s.unit.view) : s.noting t = { t with selectionDue := true } := by
  have hwatched : t.watched ≠ s.watched := fun he => h (congrArg (·.2.1) he)
  simp [State.noting, hwatched]

/-- A DONE of the outstanding line order retires the head of its galley's queue, and a selection comes to be due. -/
theorem takeDone_line {s : State} {n : Byte} {g : GalleyId} (ho : s.unit.view.outstanding = some { number := n, kind := .line g })
    {r : Run} (hr : retireHead (s.ctx g false) (s.galley g) = r) :
    s.exposureHunt.takeDone n
      = ({ s with selectionDue := true, unit := s.unit.without.hunting }.setGalley g r.gal).raiseAll r.events := by
  subst hr
  have ho' : s.exposureHunt.unit.view.outstanding = some { number := n, kind := .line g } := ho
  have hview : s.unit.without.view ≠ s.unit.view := fun h => by
    have := congrArg UnitView.outstanding h
    rw [ho] at this
    cases this
  simp only [State.takeDone, ho', if_true, State.commit_eq, State.noting_raiseAll]
  exact congrArg (State.raiseAll · _) (State.noting_of_view hview)

theorem takeDone_cut {s : State} {n : Byte} (ho : s.unit.view.outstanding = some { number := n, kind := .cut }) :
    s.exposureHunt.takeDone n
      = ({ s with
            selectionDue := true
            unit := s.unit.without.hunting
            page := { s.page with state := .noPage } } : State).raise .pageDone (.pageDone s.page.number) := by
  have ho' : s.exposureHunt.unit.view.outstanding = some { number := n, kind := .cut } := ho
  have hview : s.unit.without.view ≠ s.unit.view := fun h => by
    have := congrArg UnitView.outstanding h
    rw [ho] at this
    cases this
  simp only [State.takeDone, ho', if_true, State.pageDone, State.noting_raise]
  exact congrArg (State.raise · _ _) (State.noting_of_view hview)

theorem takeDone_other {s : State} {n : Byte} (h : ∀ o, s.unit.view.outstanding = some o → o.number ≠ n) :
    s.exposureHunt.takeDone n = { s with unit := s.unit.hunting } := by
  cases ho : s.unit.view.outstanding with
  | none => simp only [State.takeDone, show s.exposureHunt.unit.view.outstanding = none from ho]; rfl
  | some o => simp only [State.takeDone, show s.exposureHunt.unit.view.outstanding = some o from ho, h o ho, if_false]; rfl

/-! ### The order's frame is sent (R140, R148) -/

theorem ExposureFrame.isQuery_iff (f : ExposureFrame) : f.isQuery = true ↔ f = .query := by cases f <;> simp [ExposureFrame.isQuery]

theorem frameSent_order {s : State} {qs rest : List ExposureFrame} {f : ExposureFrame} (ht : s.unit.transmit = qs ++ f :: rest)
    (hqs : ∀ x ∈ qs, x = ExposureFrame.query) (hf : f ≠ .query) :
    s.frameSent
      = { s with unit := { s.unit with
            transmit := rest
            orderTimer :=
              if s.unit.view.outstanding.isSome = true ∧ (∀ x ∈ rest, x = ExposureFrame.query) then true
              else s.unit.orderTimer } } := by
  have hdrop : s.unit.transmit.dropWhile ExposureFrame.isQuery = f :: rest := by
    rw [ht, List.dropWhile_append_of_pos fun x hx => x.isQuery_iff.2 (hqs x hx),
      List.dropWhile_cons_of_neg (mt f.isQuery_iff.1 hf)]
  have hall : (s.unit.view.outstanding.isSome = true ∧ ∀ x ∈ rest, x = ExposureFrame.query)
      ↔ (s.unit.view.outstanding.isSome && rest.all ExposureFrame.isQuery) = true := by
    simp only [Bool.and_eq_true, List.all_eq_true, ExposureFrame.isQuery_iff]
  simp only [State.frameSent, hdrop]
  congr 2
  rw [if_congr hall rfl rfl]
  cases s.unit.view.outstanding.isSome && rest.all ExposureFrame.isQuery <;> simp

theorem frameSent_idle {s : State} (h : ∀ x ∈ s.unit.transmit, x = ExposureFrame.query) : s.frameSent = s := by
  have hdrop : s.unit.transmit.dropWhile ExposureFrame.isQuery = [] :=
    List.dropWhile_eq_nil_iff.2 fun x hx => x.isQuery_iff.2 (h x hx)
  simp only [State.frameSent, hdrop]

/-- Settles O49. -/
theorem doneRetiresTheLine : Obligations.DoneRetiresTheLine := by
  refine ⟨fun s qs rest f ht hqs hf => congrArg Host.Outcome.next (frameSent_order ht hqs hf),
    fun s h => congrArg Host.Outcome.next (frameSent_idle h), fun s n g ho hheld h => ?_, fun s n g h ho hheld hst => ?_,
    fun s n g h ho hheld hst hdef => ?_, fun s n g h ho hheld hst hdef => ?_,
    fun s n g h m rest ho hheld hst hdef hcarry hstory hmark => ?_, fun s n g h ho hheld hst hdef hcarry hstory hdrain => ?_,
    fun s n g ho hheld hst hlen => ?_, fun s n ho => congrArg Host.Outcome.next (takeDone_cut ho),
    fun s n h => congrArg Host.Outcome.next (takeDone_other h)⟩
  · exact congrArg Host.Outcome.next (takeDone_line ho (retireHead_stays _ hheld h))
  · exact congrArg Host.Outcome.next (takeDone_line ho (retireHead_joins _ hheld hst))
  · exact congrArg Host.Outcome.next (takeDone_line ho (retireHead_step _ hheld hst hdef))
  · exact congrArg Host.Outcome.next (takeDone_line ho (retireHead_mark _ hheld hst hdef))
  · have hgo : (if (s.galley g).drain then GalleyState.draining else .setting) = .setting ∨
        (if (s.galley g).drain then GalleyState.draining else .setting) = .draining := by
      cases (s.galley g).drain <;> simp
    have hpass := proceed_font (s.ctx g false)
      (x := { s.galley g with
        output := (s.galley g).output.tail ++ [h.record], held := none
        state := if (s.galley g).drain then .draining else .setting, cause := none })
      ⟨hgo, rfl, hcarry, hmark⟩ hstory
    exact congrArg Host.Outcome.next (takeDone_line ho ((retireHead_goesOn _ hheld hst hdef).trans hpass))
  · have hwait := proceed_waits (s.ctx g false)
      (x := { s.galley g with
        output := (s.galley g).output.tail ++ [h.record], held := none
        state := if (s.galley g).drain then .draining else .setting, cause := none })
      (.inl (by simp [hdrain])) rfl hcarry hstory (by simp [hdrain])
    exact congrArg Host.Outcome.next (takeDone_line ho ((retireHead_goesOn _ hheld hst hdef).trans hwait))
  · exact congrArg Host.Outcome.next (takeDone_line ho (retireHead_off _ hheld hst hlen))

end Sys2Proof.Machine
end

