-- ==== Sys2Proof/Proofs/HaltLaws.lean ====
section
/-! The laws of the halt causes, of the exception latch and of the idle timer (R56, R74, R79): each of them is kept without the others. What
the moves of a galley do to the fields these laws read is said once, as a chain of turns. -/

namespace Sys2Proof.Machine

/-! ### The turns of a galley -/

/-- The second galley differs from the first in fields that no law of halts or timers reads, and in its latch as R79 lets it. -/
structure Galley.Aside (x y : Galley) : Prop where
  state : y.state = x.state
  cause : y.cause = x.cause
  deferred : y.deferred = x.deferred
  released : y.released = x.released
  interval : y.interval = x.interval
  timer : y.idleTimer = x.idleTimer
  latch : x.LatchLaw → y.LatchLaw

/-- What those laws read of a galley. -/
def Galley.control (x : Galley) :
    (GalleyState × Option HaltCause × Option Deferred) × (Bool × Nat × Bool) × Option ExceptionRecord × Nat :=
  ((x.state, x.cause, x.deferred), (x.released, x.interval, x.idleTimer), x.latch, x.excCount)

theorem Galley.Aside.same {x y : Galley} (h : y.control = x.control := by rfl) : x.Aside y := by
  simp only [Galley.control, Prod.mk.injEq] at h
  obtain ⟨⟨hstate, hcause, hdeferred⟩, ⟨hreleased, hinterval, htimer⟩, hlatch, hcount⟩ := h
  refine ⟨hstate, hcause, hdeferred, hreleased, hinterval, htimer, fun hx => ?_⟩
  rwa [Galley.LatchLaw, hlatch, hcount]

theorem Galley.Aside.trans {x y z : Galley} (h : x.Aside y) (h' : y.Aside z) : x.Aside z where
  state := h'.state.trans h.state
  cause := h'.cause.trans h.cause
  deferred := h'.deferred.trans h.deferred
  released := h'.released.trans h.released
  interval := h'.interval.trans h.interval
  timer := h'.timer.trans h.timer
  latch hx := h'.latch (h.latch hx)

/-- What a galley's work does to its state, its halt causes, its released flag and its idle timer. No turn leads to OFF. -/
inductive Galley.Turn : Galley → Galley → Prop where
  | aside {x y : Galley} (h : x.Aside y) : Turn x y
  /-- HALTED, for BEHIND only where the galley is released (R65, R75). -/
  | halts (x : Galley) (cause : HaltCause) (h : cause = .behind → x.released = true) : Turn x (x.haltedWith cause)
  /-- BLOCKED with a closed line, perhaps with a deferred halt cause (R61, R68, R70). -/
  | blocks (x : Galley) (deferred : Option Deferred) : Turn x { x with state := .blocked, cause := none, deferred := deferred }
  /-- The idle timer retriggered (R61, R64). -/
  | retriggers (x : Galley) : Turn x x.retrigger
  /-- Another state of a galley that neither halts nor is BLOCKED (R63). -/
  | moves (x : Galley) (st : GalleyState) (h : x.state ≠ .halted ∧ x.state ≠ .blocked) (hst : st ≠ .halted ∧ st ≠ .off) :
      Turn x { x with state := st }
  /-- A galley brought to SETTING, DRAINING or CLOSING, whatever it was halted for (R61, R67, R77). -/
  | goes (x : Galley) (st : GalleyState) (hst : st ≠ .halted ∧ st ≠ .off) :
      Turn x { x with state := st, cause := none, deferred := none }
  /-- The released flag cleared and the timer started afresh, but not of a galley HALTED with cause BEHIND (R64, R67, R71). -/
  | unreleases (x : Galley) (h : ¬(x.state = .halted ∧ x.cause = some .behind)) :
      Turn x { x with released := false, idleTimer := x.timerStarted }
  /-- Cause BEHIND turned into REQUEST (R71). -/
  | excuses (x : Galley) : Turn x { x with cause := if x.cause = some .behind then some .request else x.cause }

/-- A chain of turns. -/
def Galley.Turns (x y : Galley) : Prop := Relation.ReflTransGen Galley.Turn x y

theorem Galley.Turns.refl {x : Galley} : x.Turns x := Relation.ReflTransGen.refl
theorem Galley.Turns.single {x y : Galley} (h : x.Turn y) : x.Turns y := Relation.ReflTransGen.single h
theorem Galley.Turns.tail {x y z : Galley} (h : x.Turns y) (h' : y.Turn z) : x.Turns z := Relation.ReflTransGen.tail h h'
theorem Galley.Turns.trans {x y z : Galley} (h : x.Turns y) (h' : y.Turns z) : x.Turns z := Relation.ReflTransGen.trans h h'
theorem Galley.Turns.aside {x y z : Galley} (h : x.Turns y) (h' : y.Aside z) : x.Turns z := h.tail (.aside h')

/-- The end of an event: the galley's turns, and OFF behind CLOSING (R77). -/
def Galley.Works (x y : Galley) : Prop := x.Turns y ∨ ∃ z, x.Turns z ∧ z.state = .closing ∧ y = z.atOff

theorem Galley.Works.after {x y z : Galley} (h' : y.Works z) (h : x.Turns y) : x.Works z := by
  obtain h' | ⟨w, hw, hst, rfl⟩ := h'
  · exact .inl (h.trans h')
  · exact .inr ⟨w, h.trans hw, hst, rfl⟩

/-! ### Line close and line start (R60, R61, R100) -/

/-- The second run's galley is reached by turns, and its state is as it was unless the run has stopped. -/
structure Run.TurnsTo (r t : Run) : Prop where
  turns : r.gal.Turns t.gal
  going : t.stopped = false → t.gal.state = r.gal.state

theorem Run.TurnsTo.refl (r : Run) : r.TurnsTo r := ⟨.refl, fun _ => rfl⟩

theorem Run.TurnsTo.trans {r t u : Run} (h : r.TurnsTo t) (hgo : t.stopped = false) (h' : t.TurnsTo u) : r.TurnsTo u :=
  ⟨h.turns.trans h'.turns, fun hs => (h'.going hs).trans (h.going hgo)⟩

theorem Run.TurnsTo.halt {r t : Run} (h : r.TurnsTo t) (c : Ctx) {cause : HaltCause} (hc : cause ≠ .behind) :
    r.TurnsTo (t.halt c cause) :=
  ⟨h.turns.tail (.halts _ _ fun hb => absurd hb hc), fun hs => by cases hs⟩

theorem startLine_aside {c : Ctx} {x y : Galley} {byPara : Bool} (h : startLine c x byPara = some y) : x.Aside y := by
  obtain ⟨_, _, rfl⟩ := startLine_eq_some h
  exact .same

theorem needLine_aside {c : Ctx} {x y : Galley} {byPara : Bool} (h : needLine c x byPara = some y) : x.Aside y := by
  obtain ⟨-, rfl⟩ | ⟨-, h⟩ := needLine_eq_some h
  · exact .same
  · exact startLine_aside h

theorem Run.giveException_aside (c : Ctx) (r : Run) (l : LineRecord) :
    r.gal.Aside (r.giveException c l).gal ∧ (r.giveException c l).stopped = r.stopped := by
  obtain ⟨latch, count, events, he, hlatch, -⟩ := r.giveException_eq c l
  rw [he]
  exact ⟨⟨rfl, rfl, rfl, rfl, rfl, rfl, hlatch⟩, rfl⟩

/-- A close advances the line and retriggers the idle timer (R61). -/
theorem Galley.afterClose_turns (x : Galley) (carry : List Entry) (opps : List Opp) (mark : StopMark) (clampPending : Bool) :
    x.Turns { x.afterClose carry opps with mark := mark, clampPending := clampPending } := by
  have hadvances : x.Aside { x with
      lineNumber := x.lineNumber + 1
      lastDepth := some (x.builder.lineDepth.getD x.nextDepth)
      builder := { Builder.empty with opps := opps }.withEntries carry } := .same
  exact ((Galley.Turns.single (.aside hadvances)).tail (.retriggers _)).aside .same

theorem closeLine_turnsTo (c : Ctx) (r : Run) (entries : List Entry) (forced wide last : Bool) (carry : List Entry) (opps : List Opp) :
    r.TurnsTo (closeLine c r entries forced wide last carry opps) := by
  have marked (acts : Bool) (t : Run) (ht : r.TurnsTo t) : r.TurnsTo (if acts then t.halt c .mark else t) := by
    split
    · exact ht.halt c (by simp)
    · exact ht
  unfold closeLine
  dsimp only
  generalize r.gal.mark.acts (r.gal.afterClose carry opps).builder.entries = acts
  obtain ⟨mark, hmark⟩ : ∃ mark,
      (if acts then
        { r.gal.afterClose carry opps with mark := { (r.gal.afterClose carry opps).mark with state := .disarmed } }
      else r.gal.afterClose carry opps) = { r.gal.afterClose carry opps with mark := mark } := by
    split
    · exact ⟨_, rfl⟩
    · exact ⟨_, rfl⟩
  rw [hmark]
  split
  · exact marked _ _ ⟨r.gal.afterClose_turns carry opps mark _, fun _ => rfl⟩
  · generalize closeRecord c.id r.gal.lineNumber _ = record
    obtain ⟨hgiven, -⟩ := Run.giveException_aside c { r with gal := { r.gal.afterClose carry opps with mark := mark } } record
    have hturns := (r.gal.afterClose_turns carry opps mark _).aside hgiven
    split
    · exact marked _ _ ⟨hturns.aside .same, fun _ => hgiven.state⟩
    · exact ⟨(hturns.tail (.blocks _ _)).aside .same, fun hs => by cases hs⟩

theorem closeFull_turnsTo (c : Ctx) (r : Run) (incoming : Nat) : r.TurnsTo (closeFull c r incoming) := by
  obtain ⟨k, forced, -, he⟩ | ⟨wide, he⟩ := closeFull_cases c r incoming <;> rw [he]
  · exact closeLine_turnsTo c r _ _ _ _ _ _
  · exact closeLine_turnsTo c r _ _ _ _ _ _

/-- A run whose galley is replaced by one that differs aside. -/
theorem Run.TurnsTo.aside {r t : Run} (h : r.TurnsTo t) {y : Galley} (hy : t.gal.Aside y) : r.TurnsTo { t with gal := y } :=
  ⟨h.turns.aside hy, fun hs => hy.state.trans (h.going hs)⟩

theorem fitChain_turnsTo (c : Ctx) (n : Nat) (r : Run) : r.TurnsTo (fitChain c n r) := by
  induction n generalizing r with
  | zero => exact .refl r
  | succ n ih =>
    have hclosed := closeFull_turnsTo c r 0
    unfold fitChain
    split
    · exact .refl r
    · dsimp only
      split
      · exact hclosed
      · rename_i hgo
        obtain ⟨hgo, -⟩ := Bool.or_eq_false_iff.1 (eq_false_of_ne_true hgo)
        split
        · exact hclosed.halt c (by simp)
        · rename_i hstart
          exact (hclosed.aside (startLine_aside hstart)).trans hgo (ih _)

theorem startCarry_turnsTo (c : Ctx) (r : Run) : r.TurnsTo (startCarry c r) := by
  unfold startCarry
  split
  · exact .refl r
  · rename_i hgo
    obtain ⟨hgo, -⟩ := Bool.or_eq_false_iff.1 (eq_false_of_ne_true hgo)
    split
    · exact (Run.TurnsTo.refl r).halt c (by simp)
    · rename_i hstart
      exact ((Run.TurnsTo.refl r).aside (startLine_aside hstart)).trans hgo (fitChain_turnsTo c _ _)

/-! ### The consumption of an item (R48) -/

theorem Galley.take_aside (x : Galley) : x.Aside x.take := .same

theorem Run.take_turns {x : Galley} {r : Run} (h : x.Turns r.gal) {y : Galley} (hy : r.gal.Aside y) : x.Turns (r.take y).gal :=
  h.aside (hy.trans y.take_aside)

theorem Run.halt_turns {x : Galley} {r : Run} (h : x.Turns r.gal) (c : Ctx) {cause : HaltCause} (hc : cause ≠ .behind) :
    x.Turns (r.halt c cause).gal := h.tail (.halts _ _ fun hb => absurd hb hc)

theorem endCourse_turns {x : Galley} {r : Run} (h : x.Turns r.gal) (c : Ctx) (limited : Bool) :
    x.Turns (endCourse c r limited).gal := by
  unfold endCourse
  split
  · exact h.trans (startCarry_turnsTo c r).turns
  · exact h.trans (fitChain_turnsTo c _ r).turns

theorem limitClose_turns (c : Ctx) (r : Run) (n : Nat) : r.gal.Turns (limitClose c r n).1.gal := by
  unfold limitClose
  split
  · exact (closeFull_turnsTo c r n).turns
  · exact .refl

/-- The course of an item behind its lookup (R84). -/
theorem course_turns {x y : Galley} (h : x.Aside y) (c : Ctx) (r : Run) (n : Nat) (b : Galley → Builder) (made : Galley → Bool) :
    x.Turns (endCourse c
      ((limitClose c { r with gal := y } n).1.take
        { (limitClose c { r with gal := y } n).1.gal with
          builder := b (limitClose c { r with gal := y } n).1.gal
          hasEntries := made (limitClose c { r with gal := y } n).1.gal })
      (limitClose c { r with gal := y } n).2).gal := by
  have hlimit : x.Turns (limitClose c { r with gal := y } n).1.gal :=
    (Galley.Turns.single (.aside h)).trans (limitClose_turns c { r with gal := y } n)
  exact endCourse_turns (Run.take_turns hlimit .same) c _

theorem consumeChar_turns (c : Ctx) (r : Run) (code : CodeUnit) : r.gal.Turns (consumeChar c r code).gal := by
  unfold consumeChar
  split
  · exact Run.halt_turns .refl c (by simp)
  · rename_i hit _
    split
    · exact Run.halt_turns .refl c (by simp)
    · exact course_turns (needLine_aside ‹_›) c r _ (fun z => z.builder.enter c.fonts (z.prepare code none hit))
        (fun z => z.hasEntries || !(z.prepare code none hit).dropped z.builder.entries)

theorem consumeSpace_turns (c : Ctx) (r : Run) : r.gal.Turns (consumeSpace c r).gal := by
  unfold consumeSpace
  split
  · exact Run.halt_turns .refl c (by simp)
  · rename_i hd _
    split
    · exact Run.halt_turns .refl c (by simp)
    · exact course_turns (needLine_aside ‹_›) c r 1
        (fun z => z.builder.addSpace c.fonts (z.plainEntry 0xF000 (hd.spaceBody z.size))) (fun _ => true)

theorem consumeFixed_turns (c : Ctx) (r : Run) : r.gal.Turns (consumeFixed c r).gal := by
  unfold consumeFixed
  split
  · exact Run.halt_turns .refl c (by simp)
  · rename_i hd _
    split
    · exact Run.halt_turns .refl c (by simp)
    · exact course_turns (needLine_aside ‹_›) c r 1
        (fun z => z.builder.addFixed c.fonts (z.plainEntry 0xF001 (hd.fixedBody z.size))) (fun _ => true)

theorem consumePara_turns (c : Ctx) (r : Run) : r.gal.Turns (consumePara c r).gal := by
  unfold consumePara
  split
  · exact Run.halt_turns .refl c (by simp)
  · rename_i y hy
    have htaken : r.gal.Turns (r.take y).gal := Run.take_turns .refl (needLine_aside hy)
    exact (htaken.trans (closeLine_turnsTo c (r.take y) y.builder.entries false false true [] []).turns).aside
      .same

theorem consumeDisc_turns (c : Ctx) (r : Run) (pre post noBreak : List CodeUnit) :
    r.gal.Turns (consumeDisc c r pre post noBreak).gal := by
  unfold consumeDisc
  dsimp only
  split
  case h_2 => exact Run.halt_turns .refl c (by simp)
  case h_1 pres posts texts _ _ _ _ =>
    split
    case h_1 => exact Run.halt_turns .refl c (by simp)
    case h_2 y hy =>
      have hline : r.gal.Aside y := by
        split at hy
        · obtain rfl := Option.some.inj hy
          exact .same
        · exact needLine_aside hy
      have hlimit : r.gal.Turns (limitClose c { r with gal := y } texts.length).1.gal :=
        (Galley.Turns.single (.aside hline)).trans (limitClose_turns c { r with gal := y } _)
      generalize limitClose c { r with gal := y } texts.length = ql at hlimit
      obtain ⟨q, limited⟩ := ql
      have htaken : ∀ b made, r.gal.Turns (q.take { q.gal with builder := b, hasEntries := made }).gal :=
        fun _ _ => Run.take_turns hlimit .same
      dsimp only
      split
      · exact endCourse_turns (htaken _ _) c limited
      · exact htaken _ _

/-- A galley with other current values differs aside (R50, R51, R53). -/
theorem Galley.Tuned.aside {x y : Galley} (h : x.Tuned y) : x.Aside y := by
  obtain ⟨⟩ := h
  exact .same

theorem consumeItem_turns (c : Ctx) (r : Run) : r.gal.Turns (consumeItem c r).gal := by
  unfold consumeItem
  split
  · exact .refl
  · exact consumeChar_turns c r _
  · exact consumeSpace_turns c r
  · exact consumeFixed_turns c r
  · exact consumePara_turns c r
  · exact Run.take_turns .refl .same
  · exact Run.take_turns .refl (Galley.tuned_setSize _ _).aside
  · exact Run.take_turns .refl (Galley.tuned_setTrack _ _).aside
  · exact Run.take_turns .refl (Galley.tuned_setShift _ _).aside
  · exact Run.take_turns .refl (Galley.tuned_setDirection _ _).aside
  · exact Run.take_turns .refl (Galley.tuned_setDirection _ _).aside
  · exact consumeDisc_turns c r _ _ _

/-! ### Proceeding, draining and closing (R63, R76, R77) -/

theorem Run.offWhenEmpty_works (c : Ctx) (r : Run) : r.gal.Works (r.offWhenEmpty c).gal := by
  by_cases h : r.gal.state = .closing ∧ r.gal.output = []
  · rw [Run.offWhenEmpty_off c h.1 h.2]
    exact .inr ⟨r.gal, .refl, h.1, rfl⟩
  · rw [Run.offWhenEmpty_stays c (not_and_or.1 h)]
    exact .inl .refl

theorem Run.enterClosing_works (c : Ctx) (r : Run) : r.gal.Works (r.enterClosing c).gal := by
  have hcloses : r.gal.Turns r.gal.atClosing :=
    ((Galley.Turns.single (.goes _ .closing (by simp)))).aside .same
  exact .after (Run.offWhenEmpty_works c { r with gal := r.gal.atClosing, stopped := true }) hcloses

theorem endDrain_works (c : Ctx) (r : Run) : r.gal.Works (endDrain c r).gal := by
  have hclosed : r.gal.Turns (if r.gal.started then closeLine c r r.gal.builder.entries false false true [] [] else r).gal := by
    split
    · exact (closeLine_turnsTo c r _ _ _ _ _ _).turns
    · exact .refl
  unfold endDrain
  generalize (if r.gal.started then closeLine c r r.gal.builder.entries false false true [] [] else r) = q at hclosed
  dsimp only
  split
  · exact .inl hclosed
  · exact .after (Run.enterClosing_works c q) hclosed

theorem Galley.not_halted_of_proceeding {x : Galley} (h : x.proceeding = true) : x.state ≠ .halted ∧ x.state ≠ .blocked := by
  obtain h | h := x.proceeding_iff.1 h <;> simp [h]

theorem proceedQueue_works (c : Ctx) (r : Run) (hp : r.gal.proceeding = true) : r.gal.Works (proceedQueue c r).gal := by
  unfold proceedQueue
  split
  · split
    · exact endDrain_works c r
    · refine .inl (.single (.moves _ _ (Galley.not_halted_of_proceeding hp) ?_))
      split <;> simp
  · split
    · exact .inl (Run.halt_turns (r := { r with gal := { r.gal with mark := { r.gal.mark with state := .disarmed } } })
        (.single (.aside .same)) c (by simp))
    · exact .inl (consumeItem_turns c r)

theorem proceed_works (c : Ctx) (r : Run) : r.gal.Works (proceed c r).gal := by
  unfold proceed
  split
  · exact .inl .refl
  · rename_i hp
    have hp : r.gal.proceeding = true := by simpa using hp
    split
    · exact .inl (.single (.moves _ _ (Galley.not_halted_of_proceeding hp) (by simp)))
    · have hcarry := startCarry_turnsTo c r
      dsimp only
      split
      · exact .inl hcarry.turns
      · rename_i hgo
        refine .after (proceedQueue_works c _ ?_) hcarry.turns
        rw [Galley.proceeding, hcarry.going (eq_false_of_ne_true hgo)]
        exact hp

theorem Run.goOn_works (c : Ctx) (r : Run) : r.gal.Works (r.goOn c).gal := by
  refine .after (proceed_works c _) (.single (.goes _ (if r.gal.drain then .draining else .setting) ?_))
  split <;> simp

theorem stepGalley_turns (c : Ctx) (x : Galley) : x.Turns (stepGalley c x).gal := by
  have hcarry : x.Turns (startCarry c (Run.start x)).gal := (startCarry_turnsTo c (Run.start x)).turns
  have hitem : x.Turns (if (startCarry c (Run.start x)).stopped then startCarry c (Run.start x)
      else consumeItem c (startCarry c (Run.start x))).gal := by
    split
    · exact hcarry
    · exact hcarry.trans (consumeItem_turns c _)
  unfold stepGalley
  dsimp only
  generalize (if (startCarry c (Run.start x)).stopped then startCarry c (Run.start x)
      else consumeItem c (startCarry c (Run.start x))) = q at hitem
  split
  · exact hitem
  · exact Run.halt_turns hitem c (by simp)

theorem unreleaseTest_turns (c : Ctx) (high : Nat) (r : Run) : r.gal.Turns (unreleaseTest c high r).gal := by
  unfold unreleaseTest
  dsimp only
  split
  · exact .refl
  · rename_i hr
    have hr : r.gal.released = true := by simpa using hr
    split
    · split
      · exact .refl
      · exact .single (.halts _ _ fun _ => hr)
    · split
      · exact .refl
      · exact .single (.unreleases _ ‹_›)

theorem arrival_works (c : Ctx) (high units : Nat) (x : Galley) : x.Works (arrival c high units x).gal := by
  have htest : x.Turns (unreleaseTest c high (Run.start x.retrigger)).gal :=
    (Galley.Turns.single (.retriggers x)).trans (unreleaseTest_turns c high (Run.start x.retrigger))
  unfold arrival
  dsimp only
  split
  · rename_i hwaits
    obtain ⟨-, hst⟩ := hwaits
    have hgoes : ∀ {s : GalleyState}, s = .ready ∨ s = .starved → s ≠ .halted ∧ s ≠ .blocked := by
      rintro _ (rfl | rfl) <;> decide
    exact .after (proceed_works c _) (htest.tail (.moves _ .setting (hgoes hst) (by simp)))
  · exact .inl htest

/-! ### Every move -/

/-- What the laws of halts, latches and timers see of a move: the work of a galley that is not OFF, or a change aside. -/
def Galley.Turned (x y : Galley) : Prop := (x.state ≠ .off ∧ x.Works y) ∨ x.Aside y

theorem Galley.Turned.after {x y z : Galley} (h : x.Aside y) (h' : y.Turned z) : x.Turned z := by
  obtain ⟨hst, hworks⟩ | h' := h'
  · exact .inl ⟨h.state ▸ hst, .after hworks (.single (.aside h))⟩
  · exact .inr (h.trans h')

theorem Galley.Turned.works {x y : Galley} {st : GalleyState} (hst : x.state = st) (h : x.Works y) (hne : st ≠ .off := by decide) :
    x.Turned y := .inl ⟨hst ▸ hne, h⟩

/-- The head of the queue leaves an OFF galley as it is, aside from the lines it would hold. -/
theorem afterHeadLeaves_turned (c : Ctx) (r : Run) : r.gal.Turned (afterHeadLeaves c r).gal := by
  cases hheld : r.gal.held with
  | none =>
    rw [afterHeadLeaves_none c hheld]
    by_cases hst : r.gal.state = .off
    · rw [Run.offWhenEmpty_stays c (.inl (by simp [hst]))]
      exact .inr .same
    · exact .inl ⟨hst, Run.offWhenEmpty_works c r⟩
  | some h =>
    have hjoins : r.gal.Aside { r.gal with held := none, output := r.gal.output ++ [h.record] } :=
      .same
    have hturns : r.gal.Turns { r.gal with held := none, output := r.gal.output ++ [h.record] } := .single (.aside hjoins)
    simp only [afterHeadLeaves, hheld]
    split
    · rename_i hst
      refine .works hst ?_
      split
      · exact .inl (hturns.tail (.halts _ _ fun hb => by cases hb))
      · exact .inl (hturns.tail (.halts _ _ fun hb => by cases hb))
      · exact .after (Run.goOn_works c _) hturns
    · exact .inr hjoins

theorem Galley.restarted_turns (x : Galley) (top : Nat) (column : Option (Nat × Nat)) : x.Turns (x.restarted top column) := by
  obtain ⟨staged, pending, he⟩ := x.restarted_eq top column
  rw [he]
  refine ((Galley.Turns.single (.excuses x)).tail (.unreleases _ ?_)).aside .same
  rintro ⟨-, hbehind⟩
  dsimp only at hbehind
  split at hbehind
  · cases hbehind
  · contradiction

/-- Everything a move does to what the laws of halts, latches and timers read. -/
theorem Galley.Move.turned {x y : Galley} (h : Galley.Move x y) :
    y = Galley.reset ∨ (∃ p top interval slot size track, y = x.opened p top interval slot size track) ∨
      (x.idleTimer = true ∧ y = { x with idleTimer := false, released := true }) ∨ x.Turned y := by
  cases h with
  | reset => exact .inl rfl
  | opened _ p top interval slot size track => exact .inr (.inl ⟨p, top, interval, slot, size, track, rfl⟩)
  | released _ h => exact .inr (.inr (.inl ⟨h, rfl⟩))
  | staged | activated | abandoned | flushed | marked | latched | drainNoted =>
    exact .inr (.inr (.inr (.inr .same)))
  | reported => exact .inr (.inr (.inr (.inr ⟨rfl, rfl, rfl, rfl, rfl, rfl, fun _ => ⟨Nat.zero_le _, fun _ => rfl⟩⟩)))
  | restarted _ top column hst => exact .inr (.inr (.inr (.works hst (.inl (x.restarted_turns top column)))))
  | halted c _ hst =>
    exact .inr (.inr (.inr (.inl ⟨fun hoff => hst (.inl hoff), .inl (.single (.halts _ _ fun hb => by cases hb))⟩)))
  | arrived c high units items _ hst =>
    refine .inr (.inr (.inr (.after (y := { x with story := x.story ++ items }) .same ?_)))
    exact .inl ⟨fun hoff => hst (.inl hoff), arrival_works c high units _⟩
  | resumed c _ hst =>
    have hgoes : x.Turns { x with
        state := if x.drain then .draining else .setting, cause := none, deferred := none } :=
      .single (.goes _ _ (by split <;> simp))
    refine .inr (.inr (.inr (.works hst (.after (proceed_works c _) (hgoes.tail (.unreleases _ ?_))))))
    simp
  | stepped c _ hst => exact .inr (.inr (.inr (.works hst (.inl (stepGalley_turns c x)))))
  | drained c _ hst =>
    have hne : x.state ≠ .off ∧ x.state ≠ .halted ∧ x.state ≠ .blocked := by
      obtain h | h | h := hst <;> simp [h]
    obtain ⟨hoff, hhalted⟩ := hne
    have hdrains : x.Turns { x with drain := true, state := .draining } :=
      (Galley.Turns.single (.moves x .draining hhalted (by simp))).aside .same
    exact .inr (.inr (.inr (.inl ⟨hoff, .after (proceed_works c _) hdrains⟩)))
  | discarded c _ hst =>
    refine .inr (.inr (.inr (.after (y := x.discarded) .same ?_)))
    exact .inl ⟨fun hoff => hst (.inl hoff), Run.enterClosing_works c (Run.start x.discarded)⟩
  | proceeded c =>
    by_cases hoff : x.state = .off
    · have hidle : proceed c (Run.start x) = Run.start x := by simp [proceed, Galley.proceeding, hoff]
      rw [hidle]
      exact .inr (.inr (.inr (.inr .same)))
    · exact .inr (.inr (.inr (.inl ⟨hoff, proceed_works c (Run.start x)⟩)))
  | retired c _ =>
    have hleaves := afterHeadLeaves_turned c (Run.start { x with output := x.output.tail })
    exact .inr (.inr (.inr (.after (y := { x with output := x.output.tail }) .same hleaves)))
  | spoiled c =>
    have hhead : x.Aside { x with output := x.output.tail } := .same
    refine .inr (.inr (.inr ?_))
    unfold spoilHead
    dsimp only
    split
    · exact .after hhead (afterHeadLeaves_turned c (Run.start _))
    · rename_i l _ _
      obtain ⟨hgiven, -⟩ := Run.giveException_aside c (Run.start { x with output := x.output.tail })
        { l with exceptions := { l.exceptions with spoiled := true } }
      exact .after (hhead.trans hgiven) (afterHeadLeaves_turned c _)

/-! ### Laws that every move keeps -/

/-- A law of one galley that each turn keeps, and the changes that are no turns. -/
structure Galley.KeptByTurns (P : Galley → Prop) : Prop where
  turn : ∀ {x y : Galley}, x.state ≠ .off → x.Turn y → P x → P y
  aside : ∀ {x y : Galley}, x.Aside y → P x → P y
  atOff : ∀ {x : Galley}, x.state = .closing → P x → P x.atOff
  reset : P Galley.reset
  opened : ∀ (x : Galley) (p : Params) (top interval : Nat) (slot : SlotId) (size : Nat) (track : Int),
    P (x.opened p top interval slot size track)
  released : ∀ {x : Galley}, P x → P { x with idleTimer := false, released := true }

theorem Galley.Turn.ne_off {x y : Galley} (h : x.Turn y) (hx : x.state ≠ .off) : y.state ≠ .off := by
  cases h with
  | aside h => rwa [h.state]
  | halts | blocks => simp [Galley.haltedWith]
  | moves _ _ hst | goes _ hst => exact hst.2
  | retriggers | unreleases | excuses => exact hx

section Keeping

variable {P : Galley → Prop} (hP : Galley.KeptByTurns P)

include hP

theorem Galley.KeptByTurns.turns {x y : Galley} (h : x.Turns y) (hx : x.state ≠ .off) (hp : P x) : y.state ≠ .off ∧ P y := by
  induction h with
  | refl => exact ⟨hx, hp⟩
  | tail _ hturn ih => exact ⟨hturn.ne_off ih.1, hP.turn ih.1 hturn ih.2⟩

theorem Galley.KeptByTurns.turned {x y : Galley} (h : x.Turned y) (hp : P x) : P y := by
  obtain ⟨hx, hturns | ⟨z, hturns, hclosing, rfl⟩⟩ | haside := h
  · exact (hP.turns hturns hx hp).2
  · exact hP.atOff hclosing (hP.turns hturns hx hp).2
  · exact hP.aside haside hp

theorem Galley.KeptByTurns.move {x y : Galley} (h : Galley.Move x y) (hp : P x) : P y := by
  obtain rfl | ⟨p, top, interval, slot, size, track, rfl⟩ | ⟨-, rfl⟩ | hturned := h.turned
  · exact hP.reset
  · exact hP.opened x p top interval slot size track
  · exact hP.released hp
  · exact hP.turned hturned hp

end Keeping

/-! ### The three laws (R56, R74, R79) -/

theorem Galley.HaltLaw.aside {x y : Galley} (h : x.Aside y) (hx : x.HaltLaw) : y.HaltLaw := by
  rwa [Galley.HaltLaw, h.cause, h.state, h.deferred, h.released]

theorem Galley.TimerLaw.aside {x y : Galley} (h : x.Aside y) (hx : x.TimerLaw) : y.TimerLaw := by
  rwa [Galley.TimerLaw, h.timer, h.interval, h.state, h.released]

/-- Outside HALTED and BLOCKED a galley has no halt cause and no deferred one (R56). -/
theorem Galley.HaltLaw.none_of_ne {x : Galley} (h : x.HaltLaw) (hst : x.state ≠ .halted ∧ x.state ≠ .blocked) :
    x.cause = none ∧ x.deferred = none := by
  obtain ⟨hcause, hdeferred, -⟩ := h
  refine ⟨?_, ?_⟩
  · simpa [hst.1] using hcause
  · simpa [hst.2] using hdeferred

theorem Galley.HaltLaw.turn {x y : Galley} (h : x.Turn y) (hx : x.HaltLaw) : y.HaltLaw := by
  have ⟨hcause, hdeferred, hbehind⟩ := hx
  cases h with
  | aside h => exact hx.aside h
  | halts cause hc => exact Galley.haltLaw_haltedWith x hc
  | blocks deferred => exact ⟨by simp, fun _ => rfl, fun hb => by cases hb⟩
  | retriggers => exact hx
  | moves st h hst =>
    obtain ⟨hnone, hnodeferred⟩ := hx.none_of_ne h
    exact Galley.haltLaw_of_none hst.1 hnone hnodeferred
  | goes st hst => exact Galley.haltLaw_of_none hst.1 rfl rfl
  | unreleases h =>
    refine ⟨hcause, hdeferred, fun hb => absurd ⟨hcause.1 ?_, hb⟩ h⟩
    rw [show x.cause = some .behind from hb]
    rfl
  | excuses =>
    refine ⟨?_, hdeferred, fun hb => ?_⟩
    · rw [← hcause]
      dsimp only
      split
      · rename_i hb
        simp [hb]
      · rfl
    · dsimp only at hb
      split at hb
      · cases hb
      · contradiction

theorem Galley.haltLaw_keptByTurns : Galley.KeptByTurns Galley.HaltLaw where
  turn _ h hx := hx.turn h
  aside h hx := hx.aside h
  atOff {x} hst hx := by
    obtain ⟨hnone, hnodeferred⟩ := hx.none_of_ne (by simp [hst])
    exact Galley.haltLaw_of_none (fun h => by cases h) hnone hnodeferred
  reset := Galley.haltLaw_of_none (fun h => by cases h) rfl rfl
  opened _ _ _ _ _ _ _ := Galley.haltLaw_of_none (fun h => by cases h) rfl rfl
  released hx := ⟨hx.1, hx.2.1, fun _ => rfl⟩

theorem Galley.latchLaw_keptByTurns : Galley.KeptByTurns Galley.LatchLaw where
  turn _ h hx := by
    cases h with
    | aside h => exact h.latch hx
    | halts | blocks | retriggers | moves | goes | unreleases | excuses => exact hx
  aside h hx := h.latch hx
  atOff _ hx := hx
  reset := ⟨Nat.zero_le _, fun _ => rfl⟩
  opened _ _ _ _ _ _ _ := ⟨Nat.zero_le _, fun _ => rfl⟩
  released hx := hx

/-- The timer started afresh of a galley that is not OFF and is not released (R74). -/
theorem Galley.TimerLaw.started {x : Galley} (hx : x.state ≠ .off) (hr : x.released = false) :
    ({ x with idleTimer := x.timerStarted } : Galley).TimerLaw :=
  fun hi => ⟨of_decide_eq_true hi, hx, hr⟩

theorem Galley.TimerLaw.turn {x y : Galley} (hoff : x.state ≠ .off) (h : x.Turn y) (hx : x.TimerLaw) : y.TimerLaw := by
  have hne := h.ne_off hoff
  cases h with
  | aside h => exact hx.aside h
  | retriggers =>
    cases hr : x.released with
    | true =>
      have hsame : x.retrigger = x := (Galley.retrigger_eq x).trans (Galley.timerRetriggered_released hr)
      exact hsame.symm ▸ hx
    | false =>
      have hstarted : x.retrigger = { x with idleTimer := x.timerStarted } :=
        congrArg (fun t => ({ x with idleTimer := t } : Galley)) (if_neg (ne_true_of_eq_false hr))
      exact hstarted ▸ Galley.TimerLaw.started hoff hr
  | unreleases => exact Galley.TimerLaw.started (x := { x with released := false }) hoff rfl
  | halts | blocks | moves | goes | excuses => exact fun hi => ⟨(hx hi).1, hne, (hx hi).2.2⟩

theorem Galley.timerLaw_keptByTurns : Galley.KeptByTurns Galley.TimerLaw where
  turn hoff h hx := hx.turn hoff h
  aside h hx := hx.aside h
  atOff _ _ := fun hi => by cases hi
  reset := fun hi => by cases hi
  opened _ _ _ _ _ _ _ := fun hi => ⟨of_decide_eq_true hi, (fun h => by cases h), rfl⟩
  released _ := fun hi => by cases hi

/-- Settles O55: each law by itself is kept by every turn of a galley, and so by every step. -/
theorem haltAndLatchLawsAreKept : Obligations.HaltAndLatchLawsAreKept :=
  ⟨step_keeps _ fun _ _ => Galley.haltLaw_keptByTurns.move, step_keeps _ fun _ _ => Galley.latchLaw_keptByTurns.move,
    step_keeps _ fun _ _ => Galley.timerLaw_keptByTurns.move⟩

end Sys2Proof.Machine
end


-- ==== Sys2Proof/Proofs/Overflow.lean ====
section
/-! A line that has no room closes at a break, and its carry starts the next line (R95, R96, R99, R102, R103, R122). -/

namespace Sys2Proof.Machine

/-! ### The galley past the close of a line at a break (R61) -/

theorem Galley.brokenAt_eq (x : Galley) (d : Nat) (k : Break) :
    x.brokenAt d k
      = { x with
          lineNumber := x.lineNumber + 1, lastDepth := some d
          builder := { Builder.empty with opps := k.opps }.withEntries k.carry
          idleTimer := if x.released then x.idleTimer else decide (x.interval ≠ 0) } := by
  cases h : x.released <;> simp [Galley.brokenAt, Galley.timerRetriggered, Galley.timerAfresh, h]

theorem Galley.afterClose_break {x : Galley} {d : Nat} (hd : x.builder.lineDepth = some d) (k : Break) :
    x.afterClose k.carry k.opps = x.brokenAt d k := by
  rw [Galley.afterClose, Galley.retrigger_eq, hd]
  rfl

theorem Galley.brokenAt_latch (x : Galley) (d : Nat) (k : Break) : (x.brokenAt d k).latch = x.latch := by rw [Galley.brokenAt_eq]

/-- A mark that is disarmed acts at no close (R70). -/
theorem StopMark.acts_disarmed {k : StopMark} (h : k.state = .disarmed) (left : List Entry) : k.acts left = false := by
  simp [StopMark.acts, h]

/-! ### The line given to its galley (R79) -/

/-- What giving a line to galley `x` raises. -/
def LineRecord.givenEvents (l : LineRecord) (g : GalleyId) (x : Galley) : List (Flag × EventData) :=
  if l.exceptions ≠ ExcSet.none ∧ x.latch = none then [(.exception g, .exception l.exception)] else []

theorem State.raiseAll_givenEvents (s : State) (g : GalleyId) (x : Galley) (l : LineRecord) :
    s.raiseAll (l.givenEvents g x) = s.raiseGiven g x l := by
  unfold LineRecord.givenEvents State.raiseGiven
  split <;> rfl

theorem LineRecord.givenEvents_latch (l : LineRecord) (g : GalleyId) {x y : Galley} (h : x.latch = y.latch) :
    l.givenEvents g x = l.givenEvents g y := by
  rw [givenEvents, givenEvents, h]

theorem Run.giveException_given (c : Ctx) (r : Run) (l : LineRecord) :
    r.giveException c l = { r with gal := r.gal.given l, events := r.events ++ l.givenEvents c.id r.gal } := by
  obtain ⟨hnone, h⟩ | ⟨hsome, hlatch, h⟩ | ⟨hsome, ⟨e, hlatch⟩, h⟩ := r.giveException_cases c l
  · simp [h, Galley.given, LineRecord.givenEvents, hnone]
  · simp [h, Galley.given, LineRecord.givenEvents, hsome, hlatch]
  · simp [h, Galley.given, LineRecord.givenEvents, hsome, hlatch]

/-- A line given to its galley touches the latch and its count alone (R79). -/
theorem Galley.given_eq (x : Galley) (l : LineRecord) :
    ∃ latch count, x.given l = { x with latch := latch, excCount := count } := by
  unfold Galley.given
  split
  · exact ⟨_, _, rfl⟩
  · split <;> exact ⟨_, _, rfl⟩

@[simp] theorem Galley.given_builder (x : Galley) (l : LineRecord) : (x.given l).builder = x.builder := by
  obtain ⟨latch, count, h⟩ := x.given_eq l
  rw [h]

theorem Galley.brokenAt_given_output (x : Galley) (d : Nat) (k : Break) (l : LineRecord) :
    ((x.brokenAt d k).given l).output = x.output := by
  obtain ⟨latch, count, h⟩ := (x.brokenAt d k).given_eq l
  rw [h, Galley.brokenAt_eq]

/-- No line is started behind a break until the carry starts one (R61). -/
theorem Galley.brokenAt_given_unstarted (x : Galley) (d : Nat) (k : Break) (l : LineRecord) :
    ((x.brokenAt d k).given l).started = false := by
  rw [Galley.started, Galley.given_builder, Galley.brokenAt_eq]
  rfl

theorem Galley.brokenAt_given_carries (x : Galley) (d : Nat) {k : Break} (l : LineRecord) (h : k.carry ≠ []) :
    ((x.brokenAt d k).given l).builder.entries ≠ [] := by
  rw [Galley.given_builder, Galley.brokenAt_eq, Builder.withEntries_entries, ← List.length_pos_iff, shape_length]
  exact List.length_pos_iff.2 h

/-! ### The close at a break (R96, R99, R100) -/

section Close

variable (c : Ctx) {r : Run} {d : Nat} {k : Break} {forced wide : Bool} {l : LineRecord}
  (hd : r.gal.builder.lineDepth = some d) (hmark : r.gal.mark.state = .disarmed)
  (hbody : dropTrailingSpaces (sealLine c.fonts k.line) ≠ [])
  (hl : l = r.gal.brokenLine c.fonts c.id c.pageWidth d k.line forced wide)

include hd hmark hbody hl

/-- The record is given to the galley and joins an output queue that has room (R61, R122). -/
theorem closeLine_break_joins (hroom : r.gal.output.length < 4) :
    closeLine c r k.line forced wide false k.carry k.opps
      = { r with
          gal := { (r.gal.brokenAt d k).given l with output := r.gal.output ++ [l] }
          events := r.events ++ l.givenEvents c.id r.gal } := by
  have hout := r.gal.brokenAt_given_output d k l
  subst hl
  simp only [closeLine, Galley.afterClose_break hd, StopMark.acts_disarmed hmark, hd, Option.getD_some,
    List.isEmpty_eq_false_iff.2 hbody, Bool.false_eq_true, if_false, Run.giveException_given]
  refine (if_pos (lt_of_eq_of_lt (congrArg List.length hout) hroom)).trans ?_
  simp only [LineRecord.givenEvents_latch _ _ (r.gal.brokenAt_latch d k)]
  exact congrArg (fun o => ({ r with gal := { (r.gal.brokenAt d k).given _ with output := o ++ [_] }, events := _ } : Run)) hout

/-- With a full output queue the galley holds the line, BLOCKED (R61). -/
theorem closeLine_break_holds (hfull : r.gal.output.length = 4) (hstep : c.stepping = false) :
    closeLine c r k.line forced wide false k.carry k.opps
      = { r with
          gal := { (r.gal.brokenAt d k).given l with
            state := .blocked, cause := none, deferred := none
            held := some { record := l, entries := (dropTrailingSpaces (sealLine c.fonts k.line)).length } }
          events := r.events ++ l.givenEvents c.id r.gal
          stopped := true } := by
  have hout := r.gal.brokenAt_given_output d k l
  subst hl
  simp only [closeLine, Galley.afterClose_break hd, StopMark.acts_disarmed hmark, hd, Option.getD_some,
    List.isEmpty_eq_false_iff.2 hbody, Bool.false_eq_true, if_false, Run.giveException_given, hstep]
  refine (if_neg ?_).trans ?_
  · rw [Nat.not_lt]
    exact (hfull.symm.trans (congrArg List.length hout.symm)).le
  · simp only [LineRecord.givenEvents_latch _ _ (r.gal.brokenAt_latch d k)]
    rfl

end Close

/-- A line without room closes at the break the trial close chooses, or is split with FORCED (R96, R99). -/
theorem closeFull_closesAt (c : Ctx) (r : Run) {incoming : Nat} {k : Break} {forced : Bool}
    (h : ClosesAt c.fonts r.gal.builder r.gal.active incoming k forced) :
    closeFull c r incoming = closeLine c r k.line forced false false k.carry k.opps := by
  obtain ⟨htrial, rfl⟩ | ⟨htrial, hsplit, rfl⟩ := h
  · simp only [closeFull, htrial]
  · simp only [closeFull, htrial, hsplit]

/-- A line that no split leaves anything of closes whole, with WIDE (R99). -/
theorem closeFull_whole (c : Ctx) (r : Run) {incoming : Nat}
    (htrial : trialClose c.fonts r.gal.builder.entries r.gal.active incoming r.gal.builder.opps = none)
    (hwhole : forcedClose c.fonts r.gal.builder.entries r.gal.builder.opps = .whole) :
    closeFull c r incoming = closeLine c r r.gal.builder.entries false true false [] [] := by
  simp only [closeFull, htrial, hwhole]

/-! ### The carry's line (R60, R95, R102) -/

section Chain

variable (c : Ctx) {r t : Run}

/-- A carry starts the next line, which stands (R60, R102). -/
theorem startCarry_starts (hgo : t.stopped = false) (hstarted : t.gal.started = false) (hcarry : t.gal.builder.entries ≠ [])
    (hdepth : t.gal.nextDepth ≤ c.pageDepth) (hfits : t.gal.withLine.fits = true) :
    startCarry c t = { t with gal := t.gal.withLine } := by
  have hhas : t.gal.hasCarry = true := by simp [Galley.hasCarry, hstarted, hcarry]
  simp only [startCarry, hgo, hhas, startLine_some c t.gal hdepth hstarted, Bool.not_true, Bool.or_self, Bool.false_eq_true, if_false]
  exact fitChain_fits c _ _ hfits

variable (hgo : r.stopped = false) (hover : r.gal.fits = false) (hclose : closeFull c r 0 = t)

include hgo hover hclose

/-- The chain ends where a close stops the galley or leaves no carry (R102). -/
theorem fitChain_rests (n : Nat) (h : t.stopped = true ∨ t.gal.builder.entries = []) : fitChain c (n + 1) r = t := by
  have hrests : (t.stopped || t.gal.builder.entries.isEmpty) = true := by
    rw [Bool.or_eq_true, List.isEmpty_iff]
    exact h
  simp only [fitChain, hgo, hover, hclose, hrests, Bool.or_self, Bool.false_eq_true, if_false, if_true]

variable (hgoes : t.stopped = false) (hcarry : t.gal.builder.entries ≠ [])

include hgoes hcarry

theorem fitChain_starts (n : Nat) (hstarted : t.gal.started = false) (hdepth : t.gal.nextDepth ≤ c.pageDepth)
    (hfits : t.gal.withLine.fits = true) : fitChain c (n + 1) r = { t with gal := t.gal.withLine } := by
  simp only [fitChain, hgo, hover, hclose, hgoes, List.isEmpty_eq_false_iff.2 hcarry, Bool.or_self, Bool.false_eq_true, if_false,
    startLine_some c t.gal hdepth hstarted]
  exact fitChain_fits c _ _ hfits

/-- A next line below the page halts the galley, the carry held (R60, R102). -/
theorem fitChain_overmatter (n : Nat) (hbelow : c.pageDepth < t.gal.nextDepth) :
    fitChain c (n + 1) r = t.halt c .overmatter := by
  simp only [fitChain, hgo, hover, hclose, hgoes, List.isEmpty_eq_false_iff.2 hcarry, Bool.or_self, Bool.false_eq_true, if_false,
    (startLine_none c t.gal false).2 hbelow]

end Chain

/-- Starting a line and queueing a record do not meet. -/
theorem Galley.withLine_output (x : Galley) (o : List LineRecord) :
    ({ x with output := o } : Galley).withLine = { x.withLine with output := o } := by
  unfold Galley.withLine Galley.started
  dsimp only
  split <;> rfl

/-- A line start leaves the width sums, so that the fit test may read them before it (R60, R81, R95). -/
theorem Galley.withLine_fits {x : Galley} (h : x.withLine.FitsWith x.builder) : x.withLine.fits = true := by
  have hsums : x.withLine.builder.sums = x.builder.sums := by
    unfold Galley.withLine
    split <;> rfl
  refine (Galley.fits_iff _).2 fun _ => ?_
  rw [hsums]
  exact h

theorem Galley.not_fits {x : Galley} {d : Nat} (hd : x.builder.lineDepth = some d) (h : ¬x.FitsWith x.builder) : x.fits = false := by
  have hstarted : x.started = true := by rw [Galley.started, hd]; rfl
  exact eq_false_of_ne_true fun hfits => h ((Galley.fits_iff x).1 hfits hstarted)

/-! ### The event of an item that overflows its line (R48, R84) -/

theorem Galley.past_disarmed {x : Galley} (rest : List Item) (h : x.mark.state = .disarmed) : (x.past rest).mark.state = .disarmed := by
  have hnamed : ¬(x.mark.state = .armed ∧ x.mark.index = x.itemIndex) := by simp [h]
  exact (congrArg StopMark.state (if_neg hnamed)).trans h

theorem Galley.withLine_mark (x : Galley) : x.withLine.mark = x.mark := by
  unfold Galley.withLine
  split <;> rfl

section Event

variable {s : State} {g : GalleyId} {want : Item → Bool} {i : Item} {rest : List Item} {y : Galley} {d : Nat} {k : Break}
  {forced : Bool} {l : LineRecord}
  (hready : (s.galley g).ReadyToConsume) (hs : (s.galley g).story = i :: rest) (hw : want i = true)

include hready hs hw

/-- The event whose course gives the run `t`, with the giving of a line first among what it raises (R134, R168). -/
theorem consumeEvent_gives {t : Run} (more : List (Flag × EventData))
    (hitem : consumeItem (s.ctx g false) (Run.start (s.galley g)) = t) (hevents : t.events = l.givenEvents g y ++ more) :
    consumeEvent s g want = s.noting (((s.setGalley g t.gal).raiseGiven g y l).raiseAll more) := by
  rw [consumeEvent_ready s g want i rest hready hs hw, hitem, State.commit, hevents, State.raiseAll_append,
    State.raiseAll_givenEvents]

variable (hitem : consumeItem (s.ctx g false) (Run.start (s.galley g)) = fitChain (s.ctx g false) chainFuel (Run.afterItem y))
  (hmark : y.mark.state = .disarmed) (hover : ¬y.FitsWith y.builder) (hd : y.builder.lineDepth = some d)

include hitem hmark hover hd

/-- A line that no split leaves anything of joins the output queue whole, and no line is started (R99). -/
theorem consumeEvent_closesWhole (hroom : y.output.length < 4)
    (htrial : trialClose s.fonts y.builder.entries y.active 0 y.builder.opps = none)
    (hwhole : forcedClose s.fonts y.builder.entries y.builder.opps = .whole)
    (hbody : dropTrailingSpaces (sealLine s.fonts y.builder.entries) ≠ [])
    (hl : l = y.brokenLine s.fonts g s.page.width d y.builder.entries false true) :
    consumeEvent s g want
      = s.noting ((s.setGalley g { (y.lineDone d).given l with output := y.output ++ [l] }).raiseGiven g y l) := by
  have hclose := (closeFull_whole (s.ctx g false) (Run.afterItem y) htrial hwhole).trans
    (closeLine_break_joins (s.ctx g false) (r := Run.afterItem y) (k := { line := y.builder.entries, carry := [], opps := [] })
      hd hmark hbody hl hroom)
  have hempty : ((y.lineDone d).given l).builder.entries = [] := by rw [Galley.given_builder, Galley.lineDone_entries]
  have hrests := fitChain_rests (s.ctx g false) rfl (Galley.not_fits hd hover) hclose (Config.outputCapacity + 1) (.inr hempty)
  exact consumeEvent_gives hready hs hw [] (hitem.trans hrests) (List.append_nil _).symm

variable (hat : ClosesAt s.fonts y.builder y.active 0 k forced)
  (hbody : dropTrailingSpaces (sealLine s.fonts k.line) ≠ [])
  (hl : l = y.brokenLine s.fonts g s.page.width d k.line forced false)

include hat hbody hl

/-- With a full output queue the galley is BLOCKED, holding the line and the carry (R61). -/
theorem consumeEvent_holdsBroken (hfull : y.output.length = 4) :
    consumeEvent s g want
      = s.noting ((s.setGalley g
          { (y.brokenAt d k).given l with
            state := .blocked, cause := none, deferred := none
            held := some { record := l, entries := (dropTrailingSpaces (sealLine s.fonts k.line)).length } }).raiseGiven g y l) := by
  have hclose := (closeFull_closesAt (s.ctx g false) (Run.afterItem y) hat).trans
    (closeLine_break_holds (s.ctx g false) (r := Run.afterItem y) hd hmark hbody hl hfull rfl)
  have hrests := fitChain_rests (s.ctx g false) rfl (Galley.not_fits hd hover) hclose (Config.outputCapacity + 1) (.inl rfl)
  exact consumeEvent_gives hready hs hw [] (hitem.trans hrests) (List.append_nil _).symm

variable (hcarry : k.carry ≠ []) (hroom : y.output.length < 4)

include hcarry hroom

/-- The record joins the output queue, and the carry starts the next line (R61, R102). -/
theorem consumeEvent_startsCarry (hdepth : ((y.brokenAt d k).given l).nextDepth ≤ s.page.depth)
    (hfits : ((y.brokenAt d k).given l).withLine.FitsWith ((y.brokenAt d k).given l).builder) :
    consumeEvent s g want
      = s.noting ((s.setGalley g { ((y.brokenAt d k).given l).withLine with output := y.output ++ [l] }).raiseGiven g y l) := by
  have hclose := (closeFull_closesAt (s.ctx g false) (Run.afterItem y) hat).trans
    (closeLine_break_joins (s.ctx g false) (r := Run.afterItem y) hd hmark hbody hl hroom)
  have hline := Galley.withLine_output ((y.brokenAt d k).given l) (y.output ++ [l])
  have hstarts := fitChain_starts (s.ctx g false) rfl (Galley.not_fits hd hover) hclose rfl
    (Galley.brokenAt_given_carries y d l hcarry) (Config.outputCapacity + 1) (Galley.brokenAt_given_unstarted y d k l) hdepth
    (by rw [hline]; exact Galley.withLine_fits hfits)
  rw [← hline]
  exact consumeEvent_gives hready hs hw [] (hitem.trans hstarts) (List.append_nil _).symm

/-- A next line below the page halts the galley, the carry held (R60). -/
theorem consumeEvent_carryBelow (hbelow : s.page.depth < ((y.brokenAt d k).given l).nextDepth) :
    consumeEvent s g want
      = s.noting (((s.setGalley g
          ({ (y.brokenAt d k).given l with output := y.output ++ [l] }.haltedWith .overmatter)).raiseGiven g y l).raise
            (.halted g) (.halted .overmatter)) := by
  have hclose := (closeFull_closesAt (s.ctx g false) (Run.afterItem y) hat).trans
    (closeLine_break_joins (s.ctx g false) (r := Run.afterItem y) hd hmark hbody hl hroom)
  have hhalts := fitChain_overmatter (s.ctx g false) rfl (Galley.not_fits hd hover) hclose rfl
    (Galley.brokenAt_given_carries y d l hcarry) (Config.outputCapacity + 1) hbelow
  exact consumeEvent_gives hready hs hw [(.halted g, .halted .overmatter)] (hitem.trans hhalts) rfl

end Event

/-! ### The courses of CHAR and FIXED up to the fit test (R84) -/

/-- An item that enters its line arms no mark (R69, R70). -/
theorem Galley.entered_disarmed {x y : Galley} {b : Builder} {made : Bool} {rest : List Item} (h : x.mark.state = .disarmed)
    (hy : y = ({ x.withLine with builder := b, hasEntries := made } : Galley).past rest) : y.mark.state = .disarmed := by
  rw [hy]
  refine Galley.past_disarmed rest ?_
  exact (congrArg StopMark.state x.withLine_mark).trans h

/-- A copy is prepared with values that neither a line start nor a close touches (R3). -/
theorem Galley.withLine_prepare (x : Galley) (u : CodeUnit) (disc : Option DiscMember) (hit : GlyphRecord × Byte × Bool) :
    x.withLine.prepare u disc hit = x.prepare u disc hit := by
  unfold Galley.withLine
  split <;> rfl

/-- The course of an item behind its entry: the fit test of the galley past the item (R84 step 5). -/
theorem endCourse_entered (c : Ctx) {x y : Galley} {i : Item} {rest : List Item} {b : Builder} {made : Bool} (hs : x.story = i :: rest)
    (hy : y = ({ x.withLine with builder := b, hasEntries := made } : Galley).past rest) :
    endCourse c ((Run.start x).take { x.withLine with builder := b, hasEntries := made }) false
      = fitChain c chainFuel (Run.afterItem y) := by
  obtain ⟨-, -, -, hstory⟩ := x.withLine_frame
  rw [Run.take_start (y := { x.withLine with builder := b, hasEntries := made }) x (hstory.trans hs), hy]
  rfl

section Courses

variable {s : State} {g : GalleyId} {rest : List Item} {h : Header} {y : Galley} (hstands : (s.galley g).LineStands s.page.depth)
  (hroom : (s.galley g).withLine.builder.entries.length < 160)

include hstands hroom

theorem consumeChar_fitTest {u : CodeUnit} {r : GlyphRecord} {sub : Bool} {p : Prepared} (hs : (s.galley g).story = .char u :: rest)
    (hfinds : (s.font (s.galley g).slot).Finds u h r sub) (hp : p = (s.galley g).prepare u none (r, h.matrix, sub))
    (hy : y = ({ (s.galley g).withLine with
      builder := (s.galley g).withLine.builder.enter s.fonts p
      hasEntries := (s.galley g).hasEntries || !p.dropped (s.galley g).builder.entries }.past rest)) :
    consumeItem (s.ctx g false) (Run.start (s.galley g)) = fitChain (s.ctx g false) chainFuel (Run.afterItem y) := by
  have hitem := consumeChar_room hs hfinds hstands (hp.trans ((s.galley g).withLine_prepare u none _).symm) (.inl hroom)
  have hentries : (s.galley g).withLine.builder.entries = (s.galley g).builder.entries := by unfold Galley.withLine; split <;> rfl
  have hhas : (s.galley g).withLine.hasEntries = (s.galley g).hasEntries := by unfold Galley.withLine; split <;> rfl
  rw [← hentries, ← hhas] at hy
  exact hitem.trans (endCourse_entered _ hs hy)

theorem consumeFixed_fitTest (hs : (s.galley g).story = .fixed :: rest) (hv : (s.font (s.galley g).slot).state = .valid)
    (hh : (s.font (s.galley g).slot).header = some h)
    (hy : y = ({ (s.galley g).withLine with
      builder := (s.galley g).withLine.builder.addFixed s.fonts
        ((s.galley g).withLine.plainEntry 0xF001 (h.fixedBody (s.galley g).withLine.size))
      hasEntries := true }.past rest)) :
    consumeItem (s.ctx g false) (Run.start (s.galley g)) = fitChain (s.ctx g false) chainFuel (Run.afterItem y) :=
  (consumeFixed_room s g rest h hv hh hstands hroom hs).trans (endCourse_entered _ hs hy)

end Courses

/-! ### A CHAR that finds 160 entries (R103) -/

/-- The course of a CHAR that finds its line full: the line closes first, and the CHAR's entry joins the carry (R84, R103). -/
theorem consumeChar_limited {s : State} {g : GalleyId} {u : CodeUnit} {rest : List Item} {h : Header} {r : GlyphRecord} {sub : Bool}
    (hs : (s.galley g).story = .char u :: rest) (hfinds : (s.font (s.galley g).slot).Finds u h r sub)
    (hstarted : (s.galley g).started = true) (hfull : (s.galley g).builder.entries.length = 160)
    (hmade : ((s.galley g).prepare u none (r, h.matrix, sub)).dropped (s.galley g).builder.entries = false) {t : Run}
    (hclose : closeFull (s.ctx g false) (Run.start (s.galley g)) 1 = t) :
    consumeItem (s.ctx g false) (Run.start (s.galley g))
      = startCarry (s.ctx g false)
          (t.take { t.gal with
            builder := t.gal.builder.enter s.fonts (t.gal.prepare u none (r, h.matrix, sub))
            hasEntries := t.gal.hasEntries || !(t.gal.prepare u none (r, h.matrix, sub)).dropped t.gal.builder.entries }) := by
  have hlookup : lookup (s.ctx g false).fonts (s.galley g).slot u = some (r, h.matrix, sub) := lookup_finds _ _ _ h r sub hfinds
  have hline : needLine (s.ctx g false) (s.galley g) false = some (s.galley g) := if_pos hstarted
  have hlimit : limitClose (s.ctx g false) (Run.start (s.galley g)) 1 = (t, true) := by
    rw [← hclose]
    refine if_pos ?_
    rw [Run.start_gal, hfull]
    decide
  have hrun : ({ Run.start (s.galley g) with gal := s.galley g } : Run) = Run.start (s.galley g) := rfl
  simp only [consumeItem, Run.start_gal, hs, consumeChar, hlookup, hline, hmade, hrun, Bool.false_eq_true, if_false, hlimit]
  rfl

theorem Galley.brokenAt_given_unread (x : Galley) (d : Nat) (k : Break) (l : LineRecord) :
    (∀ u disc hit, ((x.brokenAt d k).given l).prepare u disc hit = x.prepare u disc hit) ∧
      ((x.brokenAt d k).given l).hasEntries = x.hasEntries ∧ ((x.brokenAt d k).given l).story = x.story := by
  obtain ⟨latch, count, h⟩ := (x.brokenAt d k).given_eq l
  rw [h, Galley.brokenAt_eq]
  exact ⟨fun _ _ _ => rfl, rfl, rfl⟩

/-- The galley past a CHAR whose entry joined the carry that a close left, the record of the close being queued (R103). -/
theorem Galley.take_joined {x : Galley} {fonts : Vector Slot 16} {u : CodeUnit} {hit : GlyphRecord × Byte × Bool} {p : Prepared}
    {has : Bool} {i : Item} {rest : List Item} (hs : x.story = i :: rest) (hp : x.prepare u none hit = p) (hhas : x.hasEntries = has)
    (o : List LineRecord) :
    ({ x with
        output := o
        builder := x.builder.enter fonts (Galley.prepare { x with output := o } u none hit)
        hasEntries := x.hasEntries || !(Galley.prepare { x with output := o } u none hit).dropped x.builder.entries } : Galley).take
      = { ({ x with builder := x.builder.enter fonts p, hasEntries := has || !p.dropped x.builder.entries } : Galley).past rest with
          output := o } := by
  subst hp hhas
  exact Galley.take_eq_past _ i rest hs

/-- The event of a CHAR that finds 160 entries, its entry joining a carry that starts the next line (R61, R103). -/
theorem consumeEvent_limits {s : State} {g : GalleyId} {want : Item → Bool} {u : CodeUnit} {rest : List Item} {h : Header}
    {r : GlyphRecord} {sub : Bool} {y z : Galley} {p : Prepared} {d : Nat} {k : Break} {forced : Bool} {l : LineRecord}
    (hready : (s.galley g).ReadyToConsume) (hs : (s.galley g).story = .char u :: rest) (hw : want (.char u) = true)
    (hfinds : (s.font (s.galley g).slot).Finds u h r sub) (hmark : (s.galley g).mark.state = .disarmed)
    (hp : p = (s.galley g).prepare u none (r, h.matrix, sub)) (hy : y = s.galley g) (hd : y.builder.lineDepth = some d)
    (hfull : y.builder.entries.length = 160) (hmade : p.dropped y.builder.entries = false) (hroom : y.output.length < 4)
    (hat : ClosesAt s.fonts y.builder y.active 1 k forced) (hbody : dropTrailingSpaces (sealLine s.fonts k.line) ≠ [])
    (hl : l = y.brokenLine s.fonts g s.page.width d k.line forced false)
    (hz : z = ({ (y.brokenAt d k).given l with
      builder := (y.brokenAt d k).builder.enter s.fonts p
      hasEntries := y.hasEntries || !p.dropped (y.brokenAt d k).builder.entries }.past rest))
    (hcarry : z.builder.entries ≠ []) (hdepth : z.nextDepth ≤ s.page.depth) (hfits : z.withLine.FitsWith z.builder) :
    consumeEvent s g want = s.noting ((s.setGalley g { z.withLine with output := y.output ++ [l] }).raiseGiven g y l) := by
  subst hy
  have hstarted : (s.galley g).started = true := by rw [Galley.started, hd]; rfl
  have hclose := (closeFull_closesAt (s.ctx g false) (Run.start (s.galley g)) hat).trans
    (closeLine_break_joins (s.ctx g false) (r := Run.start (s.galley g)) hd hmark hbody hl hroom)
  have hitem := consumeChar_limited hs hfinds hstarted hfull (hp ▸ hmade) hclose
  have hunstarted : z.started = false := by
    rw [hz, Galley.brokenAt_eq]
    simp only [Galley.past, Galley.started, Builder.enter_lineDepth]
    rfl
  obtain ⟨hprepare, hhas, hstory⟩ := (s.galley g).brokenAt_given_unread d k l
  rw [← Galley.given_builder _ l] at hz
  have hjoins := Galley.take_joined (fonts := s.fonts) (hstory.trans hs) ((hprepare u none _).trans hp.symm) hhas
    ((s.galley g).output ++ [l])
  rw [← hz] at hjoins
  have hline := z.withLine_output ((s.galley g).output ++ [l])
  have hcarried := hitem.trans
    (congrArg (fun x => startCarry (s.ctx g false) ⟨x, l.givenEvents g (s.galley g), false, 1⟩) hjoins)
  have hfitsQueued := (congrArg Galley.fits hline).trans (Galley.withLine_fits hfits)
  have hstarts := startCarry_starts (s.ctx g false)
    (t := ⟨{ z with output := (s.galley g).output ++ [l] }, l.givenEvents g (s.galley g), false, 1⟩)
    rfl hunstarted hcarry hdepth hfitsQueued
  rw [← hline]
  exact consumeEvent_gives hready hs hw [] (hcarried.trans hstarts) (List.append_nil _).symm

/-- Settles O44: the outcomes of a CHAR that overflows its line, the line that closes whole, the full line, and the FIXED. -/
theorem overflowingLinesBreak : Obligations.OverflowingLinesBreak := by
  refine ⟨?_, ?_, ?_, ?_⟩
  · rintro s g u rest h r sub y z p d k forced l hready hs hfinds hstands hdisarmed hp hlength hy hover hd hat hcarry hbody hl rfl
    have hitem := consumeChar_fitTest hstands hlength hs hfinds hp hy
    have hmark := Galley.entered_disarmed hdisarmed hy
    exact ⟨fun hroom hdepth hfits => congrArg Host.Outcome.next
        (consumeEvent_startsCarry hready hs rfl hitem hmark hover hd hat hbody hl hcarry hroom hdepth hfits),
      fun hroom hbelow => congrArg Host.Outcome.next
        (consumeEvent_carryBelow hready hs rfl hitem hmark hover hd hat hbody hl hcarry hroom hbelow),
      fun hfull => congrArg Host.Outcome.next (consumeEvent_holdsBroken hready hs rfl hitem hmark hover hd hat hbody hl hfull)⟩
  · rintro s g u rest h r sub y z p d l hready hs hfinds hstands hdisarmed hp hlength hy hover hd hroom htrial hwhole hbody hl rfl
    exact congrArg Host.Outcome.next (consumeEvent_closesWhole hready hs rfl (consumeChar_fitTest hstands hlength hs hfinds hp hy)
      (Galley.entered_disarmed hdisarmed hy) hover hd hroom htrial hwhole hbody hl)
  · intro s g u rest h r sub y z p d k forced l hready hs hfinds hmark hp hy hd hfull hmade hroom hat hbody hl hz hcarry hdepth hfits
    exact congrArg Host.Outcome.next (consumeEvent_limits hready hs rfl hfinds hmark hp hy hd hfull hmade hroom hat hbody hl hz
      hcarry hdepth hfits)
  · rintro s g rest h e x y z d k forced l hready hs hv hh hstands hdisarmed rfl hlength rfl hy hover hd hat hcarry hbody hl rfl
      hroom hdepth hfits
    exact congrArg Host.Outcome.next (consumeEvent_startsCarry hready hs rfl (consumeFixed_fitTest hstands hlength hs hv hh hy)
      (Galley.entered_disarmed hdisarmed hy) hover hd hat hbody hl hcarry hroom hdepth hfits)

end Sys2Proof.Machine
end

