-- ==== Sys2Proof/Proofs/Entering.lean ====
section
/-! What a record copy becomes at the end of the entries: a GLYPH, an orphan, a MARK or a dropped mark (R82 to R84, R88 to R91). -/

namespace Sys2Proof.Machine

/-! ### Shaping a list with an entry put at its end (R85, R87) -/

/-- The entry put at the end is shaped by the classes before it and the list's end; the others stand before it, in their order. -/
theorem shape_append_singleton (isOpen : Bool) (es : List Entry) (e : Entry) :
    ∃ fs, shape isOpen (es ++ [e]) = fs ++ [e.shapedBy (classBehind .none es) (nextJoining isOpen [])] ∧
      fs.map Entry.bare = es.map Entry.bare := by
  have hlast : ∀ prev, ∃ fs, shapeFrom isOpen prev (es ++ [e])
      = fs ++ [e.shapedBy (classBehind prev es) (nextJoining isOpen [])] := by
    induction es with
    | nil => exact fun prev => ⟨[], shapeFrom_cons _ _ _ _⟩
    | cons a es ih =>
      intro prev
      obtain ⟨fs, hfs⟩ := ih (if a.isMark then prev else a.joiningClass)
      exact ⟨_ :: fs, by rw [List.cons_append, shapeFrom_cons, hfs]; rfl⟩
  obtain ⟨fs, hfs⟩ := hlast .none
  have hbare : (shape isOpen (es ++ [e])).map Entry.bare = (es ++ [e]).map Entry.bare := map_bare_shapeFrom _ _ _
  rw [shape, hfs, List.map_append, List.map_append] at hbare
  exact ⟨fs, hfs, List.append_inj_left' hbare rfl⟩

theorem nextJoining_append_mark (isOpen : Bool) (es : List Entry) {m : Entry} (hm : m.isMark = true) :
    nextJoining isOpen (es ++ [m]) = nextJoining isOpen es := by
  simp [nextJoining_eq, List.find?_append, hm]

/-- A mark put at the end changes no other entry: joining passes marks over (R85). -/
theorem shape_append_mark (isOpen : Bool) (es : List Entry) {m : Entry} (hm : m.isMark = true) :
    shape isOpen (es ++ [m]) = shape isOpen es ++ [m] := by
  have hmark : ∀ prev next, m.shapedBy prev next = m := by
    intro prev next
    cases hb : m.body <;> simp [Entry.shapedBy, Entry.isMark, hb] at hm ⊢
  unfold shape
  generalize Joining.none = prev
  induction es generalizing prev with
  | nil => simp [shapeFrom_cons, hmark, shapeFrom]
  | cons e es ih => rw [List.cons_append, shapeFrom_cons, shapeFrom_cons, nextJoining_append_mark isOpen es hm, ih]; rfl

/-! ### The base a mark stands on (R82, R88) -/

/-- A list that ends in a GLYPH is that GLYPH with its marks, behind the entries before it. -/
theorem endsInGlyph_split {es : List Entry} (h : endsInGlyph es = true) :
    ∃ (before marks : List Entry) (base : Entry) (q : GlyphPart), es = before ++ base :: marks ∧
      (∀ m ∈ marks, m.isMark = true) ∧ base.body = .glyph q := by
  have hparts := congrArg List.reverse (List.takeWhile_append_dropWhile (p := Entry.isMark) (l := es.reverse))
  rw [List.reverse_append, List.reverse_reverse] at hparts
  unfold endsInGlyph at h
  split at h
  · rename_i base rest hdrop
    rw [hdrop, List.reverse_cons, List.append_assoc, List.singleton_append] at hparts
    cases hb : base.body with
    | glyph q =>
      exact ⟨_, _, base, q, hparts.symm, fun m hm => List.mem_takeWhile_imp (List.mem_reverse.1 hm), hb⟩
    | space | fixed | mark => simp [Entry.isGlyph, hb] at h
  · cases h

/-! ### The three courses of a copy at the end of the entries (R84, R88 to R90) -/

/-- A copy that attaches nowhere is added as a base, an orphan where it is a mark (R84, R90). -/
theorem enterPrepared_base (fonts : Vector Slot 16) {es : List Entry} {p : Prepared} (h : p.attaches es = false) :
    enterPrepared fonts es p = addBase fonts es (p.entry (.glyph (p.glyph (p.record.direction == .m)))) := by
  simp [enterPrepared, Prepared.dropped, h]

/-- A mark joins a base that carries fewer than 3 (R88). -/
theorem enterPrepared_mark (fonts : Vector Slot 16) {es : List Entry} {p : Prepared} (h : p.attaches es = true)
    (hroom : trailingMarks es < 3) :
    enterPrepared fonts es p
      = es ++ [p.entry (.mark { matrix := p.matrix, record := p.record, substituted := p.substituted })] := by
  simp [enterPrepared, Prepared.dropped, h, Config.markLimit, Nat.not_le.2 hroom]

/-- A mark is dropped from a base that carries 3, which notes it (R89). -/
theorem enterPrepared_dropped (fonts : Vector Slot 16) {es : List Entry} {p : Prepared} (h : p.attaches es = true)
    (hfull : 3 ≤ trailingMarks es) :
    enterPrepared fonts es p = modifyLastGlyph (fun _ q => { q with marksDropped := true }) es := by
  simp [enterPrepared, Prepared.dropped, h, Config.markLimit, hfull]

theorem Builder.enter_entries (fonts : Vector Slot 16) (b : Builder) (p : Prepared) :
    (b.enter fonts p).entries = shape true (enterPrepared fonts b.entries p) := rfl

/-- Settles O39: a copy is put at the end as a base or as a mark, or is noted at the last base; kerning and
shaping leave every entry's bare part. -/
theorem enteringMakesTheEntry : Obligations.EnteringMakesTheEntry := by
  refine ⟨fun fonts b p hp => ?_, fun fonts b p hp hroom => ?_, fun fonts b p hp hfull => ?_⟩
  · have hentries := (Builder.enter_entries fonts b p).trans (congrArg (shape true) (enterPrepared_base fonts hp))
    obtain ⟨fs, hfs, hbare⟩ := shape_append_singleton true
      (kernWith fonts b.entries (some (p.entry (.glyph (p.glyph (p.record.direction == .m))))))
      (p.entry (.glyph (p.glyph (p.record.direction == .m))))
    exact ⟨fs, _, _, hentries.trans hfs, rfl, rfl, rfl, rfl, rfl, rfl, rfl, rfl, rfl, rfl, rfl, rfl, rfl, beq_iff_eq, rfl,
      hbare.trans (map_bare_kernWith _ _ _)⟩
  · have hentries := (Builder.enter_entries fonts b p).trans (congrArg (shape true) (enterPrepared_mark fonts hp hroom))
    exact ⟨_, _, hentries.trans (shape_append_mark true b.entries rfl), rfl, rfl, rfl, rfl, rfl, rfl, rfl, rfl, rfl,
      map_bare_shapeFrom _ _ _⟩
  · have hends : endsInGlyph b.entries = true := by
      rw [Prepared.attaches, Bool.and_eq_true] at hp
      exact hp.2
    obtain ⟨before, marks, base, q, hes, hmarks, hbase⟩ := endsInGlyph_split hends
    refine ⟨before, marks, base, q, hes, hmarks, hbase, ?_⟩
    rw [Builder.enter_entries, enterPrepared_dropped fonts hp hfull, hes, modifyLastGlyph_base _ before hbase hmarks]
    exact map_bare_shapeFrom _ _ _

end Sys2Proof.Machine
end

