-- ==== Sys2Proof/Proofs/Breaks.lean ====
section
/-! Where a line breaks: the trial close, and what the SPACE, the DISC and the forced break leave (R96 to R99). -/

namespace Sys2Proof.Machine

/-! ### The trial close (R96) -/

theorem Break.fits_iff (b : Break) (p : Params) (incoming : Nat) :
    b.fits p incoming = true ↔
      (∃ e ∈ b.line, e.isGlyph = true ∨ e.isFixed = true) ∧ b.line.length ≤ 160 ∧ b.carry.length + incoming ≤ 160 ∧
        fitWidth p.align (sumsOf b.line) ≤ p.measure * 384 := by
  simp only [Break.fits, Entry.isCore, Bool.and_eq_true, decide_eq_true_eq, List.any_eq_true, Bool.or_eq_true, and_assoc]
  rfl

/-- A place in a list is its head, with the tail behind it, or a place in its tail. -/
theorem exists_place_cons {α : Type} {Q : α → List α → Prop} {x : α} {xs : List α} :
    (∃ l1 y l2, x :: xs = l1 ++ y :: l2 ∧ Q y l2) ↔ Q x xs ∨ ∃ l1 y l2, xs = l1 ++ y :: l2 ∧ Q y l2 := by
  constructor
  · rintro ⟨l1, y, l2, hxs, hy⟩
    cases l1 with
    | nil =>
      obtain ⟨rfl, rfl⟩ := List.cons.inj hxs
      exact .inl hy
    | cons z l1 => exact .inr ⟨l1, y, l2, (List.cons.inj hxs).2, hy⟩
  · rintro (hx | ⟨l1, y, l2, rfl, hy⟩)
    · exact ⟨[], x, xs, rfl, hx⟩
    · exact ⟨x :: l1, y, l2, rfl, hy⟩

section Trial

variable (fonts : Vector Slot 16) (es : List Entry) (p : Params) (incoming : Nat)

theorem trialClose_cons (o : Opp) (later : List Opp) :
    trialClose fonts es p incoming (o :: later)
      = match trialClose fonts es p incoming later with
        | some k => some k
        | none => if (breakAt fonts es o later).fits p incoming then some (breakAt fonts es o later) else none := rfl

/-- A break is chosen exactly where an opportunity fits. -/
theorem trialClose_ne_none_iff (opps : List Opp) :
    trialClose fonts es p incoming opps ≠ none ↔
      ∃ l1 o l2, opps = l1 ++ o :: l2 ∧ (breakAt fonts es o l2).fits p incoming = true := by
  induction opps with
  | nil => simp [trialClose]
  | cons o later ih =>
    rw [trialClose_cons, exists_place_cons (Q := fun o l => (breakAt fonts es o l).fits p incoming = true), ← ih]
    cases trialClose fonts es p incoming later <;> simp

/-- The break chosen is taken at an opportunity that fits, behind which none is chosen. -/
theorem trialClose_eq_some_iff (opps : List Opp) (k : Break) :
    trialClose fonts es p incoming opps = some k ↔
      ∃ earlier o later, opps = earlier ++ o :: later ∧ k = breakAt fonts es o later ∧ k.fits p incoming = true ∧
        trialClose fonts es p incoming later = none := by
  induction opps with
  | nil => simp [trialClose]
  | cons o later ih =>
    rw [trialClose_cons, exists_place_cons (Q := fun o l =>
      k = breakAt fonts es o l ∧ k.fits p incoming = true ∧ trialClose fonts es p incoming l = none), ← ih]
    cases trialClose fonts es p incoming later with
    | some k' => simp
    | none =>
      simp only [and_true, reduceCtorEq, or_false, Option.ite_none_right_eq_some, Option.some.injEq]
      exact ⟨fun ⟨hfits, hk⟩ => ⟨hk.symm, hk ▸ hfits⟩, fun ⟨hk, hfits⟩ => ⟨hk ▸ hfits, hk.symm⟩⟩

theorem trialClose_eq_none_iff (opps : List Opp) :
    trialClose fonts es p incoming opps = none ↔
      ∀ l1 o l2, opps = l1 ++ o :: l2 → (breakAt fonts es o l2).fits p incoming = false := by
  simpa using not_congr (trialClose_ne_none_iff fonts es p incoming opps)

end Trial

/-! ### A run of entries before a list that begins otherwise -/

section Run

variable {f : Entry → Bool} {run c : List Entry} (hrun : ∀ e ∈ run, f e = true) (hc : ∀ e ∈ c.head?, f e = false)

include hrun hc

theorem dropWhile_run : (run ++ c).dropWhile f = c := by
  rw [List.dropWhile_append_of_pos hrun]
  cases c with
  | nil => rfl
  | cons e c => exact List.dropWhile_cons_of_neg (by simp [hc e rfl])

theorem takeWhile_run : (run ++ c).takeWhile f = run := by
  rw [List.takeWhile_append_of_pos hrun]
  cases c with
  | nil => exact List.append_nil _
  | cons e c => rw [List.takeWhile_cons_of_neg (by simp [hc e rfl]), List.append_nil]

end Run

theorem dropTrailingSpaces_run {a run : List Entry} (ha : ∀ e ∈ a.getLast?, e.isSpace = false)
    (hrun : ∀ e ∈ run, e.isSpace = true) : dropTrailingSpaces (a ++ run) = a := by
  rw [dropTrailingSpaces, List.reverse_append, dropWhile_run (fun e he => hrun e (List.mem_reverse.1 he)), List.reverse_reverse]
  rwa [List.head?_reverse]

/-! ### The SPACE break (R97) -/

/-- The records behind a dropped run move with the carry, which begins where the run ended. -/
theorem breakAtSpace_run (fonts : Vector Slot 16) {a run c : List Entry} {place : Nat} (later : List Opp)
    (ha : ∀ e ∈ a.getLast?, e.isSpace = false) (hrun : ∀ e ∈ run, e.isSpace = true) (hc : ∀ e ∈ c.head?, e.isSpace = false)
    (hlow : a.length ≤ place) (hhigh : place < a.length + run.length) :
    breakAtSpace fonts (a ++ run ++ c) place later
      = { line := sealLine fonts a
          carry := shape true c
          opps := moveOpps (a.length + run.length) 0
            (later.filter (fun o => decide (a.length + run.length ≤ o.place))) } := by
  obtain ⟨i, rfl⟩ := Nat.exists_eq_add_of_le hlow
  have htake : (a ++ run ++ c).take (a.length + i) = a ++ run.take i := by
    rw [List.append_assoc, List.take_length_add_append, List.take_append_of_le_length (by omega)]
  have hdrop : (a ++ run ++ c).drop (a.length + i) = run.drop i ++ c := by
    rw [List.append_assoc, List.drop_length_add_append, List.drop_append_of_le_length (by omega)]
  have hline : dropTrailingSpaces ((a ++ run ++ c).take (a.length + i)) = a := by
    rw [htake]
    exact dropTrailingSpaces_run ha fun e he => hrun e (List.mem_of_mem_take he)
  have hafter : ((a ++ run ++ c).drop (a.length + i)).dropWhile Entry.isSpace = c := by
    rw [hdrop]
    exact dropWhile_run (fun e he => hrun e (List.mem_of_mem_drop he)) hc
  have hstart : (a ++ run ++ c).length - c.length = a.length + run.length := by
    simp only [List.length_append]
    omega
  simp only [breakAtSpace, hline, hafter, hstart]

/-! ### The DISC break (R98) -/

theorem Opp.liesAfter_eq (point : Nat) (o : Opp) :
    o.liesAfter point
      = (decide (point < o.place) || (decide (o.kind = .space) && decide (o.place = point))) := by
  unfold Opp.liesAfter
  split
  · rename_i hk
    rw [hk, Bool.eq_iff_iff]
    simp only [decide_true, Bool.true_and, Bool.or_eq_true, decide_eq_true_eq]
    omega
  · rename_i hk
    simp [hk]

/-- A DISC's no-break text leaves with its marks; without one, the marks behind the point stay with the base before it. -/
theorem breakAtDisc_point (fonts : Vector Slot 16) {a nb ms c : List Entry} {number : StoryIndex} (pre post : List Prepared)
    (later : List Opp) (hnb : ∀ e ∈ nb, e.disc = some { number := number, role := .noBreak })
    (hms : ∀ e ∈ ms, e.isMark = true) (hc : ∀ e ∈ c.head?, e.isMark = false) :
    breakAtDisc fonts (a ++ nb ++ ms ++ c) a.length number pre post nb.length later
      = { line := sealLine fonts
            (enterAll fonts (kernWith fonts (if nb.any Entry.isGlyph then a else a ++ ms) none) pre)
          carry := shape true (joinEntries fonts (enterAll fonts [] post) c)
          opps := moveOpps (a.length + nb.length + ms.length) (enterAll fonts [] post).length
            (later.filter (Opp.liesAfter a.length)) } := by
  have hbefore : (a ++ nb ++ ms ++ c).take a.length = a := by simp
  have hdrop : (a ++ nb ++ ms ++ c).drop a.length = nb ++ (ms ++ c) := by simp
  have hremoved : (((a ++ nb ++ ms ++ c).drop a.length).take nb.length).takeWhile (Entry.isNoBreakOf number) = nb := by
    rw [hdrop, List.take_left, List.takeWhile_eq_self_iff]
    exact fun e he => beq_iff_eq.2 (hnb e he)
  have hrest : (a ++ nb ++ ms ++ c).drop (a.length + nb.length) = ms ++ c := by
    rw [← List.drop_drop, hdrop, List.drop_left]
  have hstart : (a ++ nb ++ ms ++ c).length - c.length = a.length + nb.length + ms.length := by
    simp only [List.length_append]
    omega
  simp only [breakAtDisc, hbefore, hremoved, hrest, takeWhile_run hms hc, dropWhile_run hms hc, hstart]

/-! ### The forced break (R99) -/

theorem lastCore_eq_none {es : List Entry} (h : ∀ e ∈ es, e.isCore = false) : lastCore es = none := by
  have hnone : es.reverse.findIdx? Entry.isCore = none := by simpa using h
  rw [lastCore, hnone]

theorem lastCore_split (a : List Entry) {e : Entry} {c : List Entry} (he : e.isCore = true)
    (hc : ∀ x ∈ c, x.isCore = false) : lastCore (a ++ e :: c) = some a.length := by
  have hfind : (a ++ e :: c).reverse.findIdx? Entry.isCore = some c.length := by
    have hnone : c.reverse.findIdx? Entry.isCore = none := by simpa using hc
    simp [List.findIdx?_append, hnone, List.findIdx?_cons, he]
  rw [lastCore, hfind]
  simp

/-- Settles O43: the trial close by the order of the opportunities, and each break by the parts of the list it is taken in. -/
theorem breaksAreTakenWhereTheRulesSay : Obligations.BreaksAreTakenWhereTheRulesSay := by
  refine ⟨Break.fits_iff, ?_, ?_, ?_, ?_, ?_⟩
  · intro fonts es p incoming opps k
    simp only [← trialClose_eq_none_iff]
    exact trialClose_eq_some_iff fonts es p incoming opps k
  · intro fonts a run c place later ha hrun hc hlow hhigh
    exact breakAtSpace_run fonts later ha hrun hc hlow hhigh
  · intro fonts a nb ms c number pre post later hnb hms hc
    simp only [← Opp.liesAfter_eq]
    exact breakAtDisc_point fonts pre post later hnb hms hc
  · intro fonts a c e opps he hc
    have hcore := lastCore_split a he hc
    simp only [forcedClose, hcore, List.take_left, List.drop_left, ← Opp.liesAfter_eq]
    rfl
  · intro fonts es opps h
    rw [forcedClose, lastCore_eq_none h]

end Sys2Proof.Machine
end

