-- ==== Sys2Proof/Proofs/VisualOrder.lean ====
section
/-! The directions the bases of a line resolve to (R105, R106), and the order its runs stand in on the film (R107, R108). -/

namespace Sys2Proof.Machine

/-! ### Direction resolution (R105, R106) -/

theorem firstStrong_of_strong {c : Cluster} {d : Dir} (para : Dir) (rest : List Cluster)
    (h : c.base.direction.strong = some d) : firstStrong para (c :: rest) = d := by
  simp only [firstStrong, h]

theorem firstStrong_neutrals_append {ns : List Cluster} (para : Dir) (rest : List Cluster)
    (hns : ∀ c ∈ ns, c.base.direction.strong = none) : firstStrong para (ns ++ rest) = firstStrong para rest := by
  induction ns with
  | nil => rfl
  | cons c ns ih =>
    obtain ⟨hc, hns⟩ := List.forall_mem_cons.1 hns
    simpa only [List.cons_append, firstStrong, hc] using ih hns

theorem resolveFrom_of_strong {c : Cluster} {d : Dir} (para before : Dir) (rest : List Cluster)
    (h : c.base.direction.strong = some d) : resolveFrom para before (c :: rest) = (d, c) :: resolveFrom para d rest := by
  simp only [resolveFrom, h]

theorem resolveFrom_of_neutral {c : Cluster} (para before : Dir) (rest : List Cluster)
    (h : c.base.direction.strong = none) :
    resolveFrom para before (c :: rest)
      = (if before = firstStrong para rest then before else para, c) :: resolveFrom para before rest := by
  simp only [resolveFrom, h]

/-- The neutrals of a row all have the same neighbours, the strong base before the row and the one behind it, so that they
resolve alike (R106). -/
theorem resolveFrom_neutrals_append {ns : List Cluster} (para before : Dir) (rest : List Cluster)
    (hns : ∀ c ∈ ns, c.base.direction.strong = none) :
    resolveFrom para before (ns ++ rest)
      = ns.map (fun c => (if before = firstStrong para rest then before else para, c)) ++ resolveFrom para before rest := by
  induction ns with
  | nil => rfl
  | cons c ns ih =>
    obtain ⟨hc, hns⟩ := List.forall_mem_cons.1 hns
    rw [List.cons_append, resolveFrom_of_neutral para before _ hc, firstStrong_neutrals_append para rest hns, ih hns]
    rfl

theorem resolve_strong_neutrals_strong {c1 c2 : Cluster} {d e : Dir} {ns : List Cluster} (para : Dir)
    (h1 : c1.base.direction.strong = some d) (h2 : c2.base.direction.strong = some e)
    (hns : ∀ c ∈ ns, c.base.direction.strong = none) :
    resolve para (c1 :: ns ++ [c2]) = (d, c1) :: ns.map (fun c => (if d = e then d else para, c)) ++ [(e, c2)] := by
  rw [resolve, List.cons_append, resolveFrom_of_strong para para _ h1, resolveFrom_neutrals_append para d _ hns,
    firstStrong_of_strong para [] h2, resolveFrom_of_strong para d [] h2]
  rfl

theorem resolve_of_neutrals {cs : List Cluster} (para : Dir) (hcs : ∀ c ∈ cs, c.base.direction.strong = none) :
    resolve para cs = cs.map (fun c => (para, c)) := by
  simpa [resolve, resolveFrom] using resolveFrom_neutrals_append para para [] hcs

theorem map_snd_resolveFrom (para before : Dir) (cs : List Cluster) :
    (resolveFrom para before cs).map (fun x => x.2) = cs := by
  induction cs generalizing before with
  | nil => rfl
  | cons c rest ih =>
    cases h : c.base.direction.strong with
    | some d => rw [resolveFrom_of_strong para before rest h, List.map_cons, ih]
    | none => rw [resolveFrom_of_neutral para before rest h, List.map_cons, ih]

theorem fst_of_mem_resolveFrom {x : Dir × Cluster} {d : Dir} (para before : Dir) (cs : List Cluster)
    (hx : x ∈ resolveFrom para before cs) (hd : x.2.base.direction.strong = some d) : x.1 = d := by
  induction cs generalizing before with
  | nil => cases hx
  | cons c rest ih =>
    cases h : c.base.direction.strong with
    | some e =>
      rw [resolveFrom_of_strong para before rest h] at hx
      obtain rfl | hx := List.mem_cons.1 hx
      · exact Option.some.inj (h.symm.trans hd)
      · exact ih e hx
    | none =>
      rw [resolveFrom_of_neutral para before rest h] at hx
      obtain rfl | hx := List.mem_cons.1 hx
      · cases h.symm.trans hd
      · exact ih before hx

/-! ### Runs (R107) -/

/-- The first run of a list begins with the list's first base. -/
theorem runsOf_cons (x : Dir × Cluster) (xs : List (Dir × Cluster)) : ∃ ys rs, runsOf (x :: xs) = (x :: ys) :: rs := by
  rw [runsOf]
  split
  · exact ⟨_, _, rfl⟩
  · exact ⟨_, _, rfl⟩
  · split <;> exact ⟨_, _, rfl⟩

theorem runsOf_cons_of_eq {x y : Dir × Cluster} {ys xs : List (Dir × Cluster)} {rs : List (List (Dir × Cluster))}
    (hruns : runsOf xs = (y :: ys) :: rs) (h : x.1 = y.1) : runsOf (x :: xs) = (x :: y :: ys) :: rs := by
  simp only [runsOf, hruns, h, if_true]

theorem runsOf_cons_of_ne {x : Dir × Cluster} {xs : List (Dir × Cluster)} (h : ∀ y ∈ xs.head?, y.1 ≠ x.1) :
    runsOf (x :: xs) = [x] :: runsOf xs := by
  cases xs with
  | nil => rfl
  | cons y xs =>
    obtain ⟨ys, rs, hruns⟩ := runsOf_cons y xs
    have hne : ¬ x.1 = y.1 := fun e => h y rfl e.symm
    rw [runsOf, hruns]
    simp only [hne, if_false]

theorem runsOf_flatten (xs : List (Dir × Cluster)) : (runsOf xs).flatten = xs := by
  induction xs with
  | nil => rfl
  | cons x xs ih =>
    cases xs with
    | nil => rfl
    | cons y xs =>
      by_cases h : x.1 = y.1
      · obtain ⟨ys, rs, hruns⟩ := runsOf_cons y xs
        rw [hruns] at ih
        simpa [runsOf_cons_of_eq hruns h] using ih
      · have hhead : ∀ z ∈ (y :: xs).head?, z.1 ≠ x.1 := by simpa using Ne.symm h
        rw [runsOf_cons_of_ne hhead, List.flatten_cons, ih, List.singleton_append]

/-- A run is maximal: bases of one direction, with a base of another behind them or none, are the first run. -/
theorem runsOf_append {run rest : List (Dir × Cluster)} {d : Dir} (hne : run ≠ []) (hrun : ∀ x ∈ run, x.1 = d)
    (hrest : ∀ y ∈ rest.head?, y.1 ≠ d) : runsOf (run ++ rest) = run :: runsOf rest := by
  induction run with
  | nil => exact absurd rfl hne
  | cons x run ih =>
    obtain ⟨hx, hrun⟩ := List.forall_mem_cons.1 hrun
    cases run with
    | nil => exact runsOf_cons_of_ne (hx ▸ hrest)
    | cons y run => exact runsOf_cons_of_eq (ih (List.cons_ne_nil y run) hrun) (hx.trans (hrun y List.mem_cons_self).symm)

/-! ### Visual order (R107, R108) -/

theorem visualRun_of_ltr {run : List (Dir × Cluster)} (h : ∀ x ∈ run, x.1 = .ltr) : visualRun run = run := by
  cases run with
  | nil => rfl
  | cons x run => simp [visualRun, h x List.mem_cons_self]

theorem visualRun_of_rtl {run : List (Dir × Cluster)} (h : ∀ x ∈ run, x.1 = .rtl) : visualRun run = run.reverse := by
  cases run with
  | nil => rfl
  | cons x run => simp only [visualRun, h x List.mem_cons_self, if_true]

theorem visualRun_perm (run : List (Dir × Cluster)) : (visualRun run).Perm run := by
  cases run with
  | nil => exact .nil
  | cons x run =>
    rw [visualRun]
    split
    · exact List.reverse_perm _
    · exact .refl _

theorem visualOrder_perm (para : Dir) (xs : List (Dir × Cluster)) : (visualOrder para xs).Perm xs := by
  have hruns : ((runsOf xs).map visualRun).flatten.Perm xs := by
    have h := List.Perm.flatMap_left (runsOf xs) (fun run _ => visualRun_perm run)
    rwa [List.flatMap_id', runsOf_flatten] at h
  cases para with
  | ltr => exact hruns
  | rtl => exact (List.reverse_perm _).flatten.trans hruns

section Append

variable {run rest : List (Dir × Cluster)} {d : Dir} (hrun : ∀ x ∈ run, x.1 = d) (hrest : ∀ y ∈ rest.head?, y.1 ≠ d)

include hrun hrest

theorem visualOrder_ltr_append : visualOrder .ltr (run ++ rest) = visualRun run ++ visualOrder .ltr rest := by
  by_cases hne : run = []
  · subst hne; rfl
  · simp [visualOrder, runsOf_append hne hrun hrest]

theorem visualOrder_rtl_append : visualOrder .rtl (run ++ rest) = visualOrder .rtl rest ++ visualRun run := by
  by_cases hne : run = []
  · subst hne; simp [visualRun]
  · simp [visualOrder, runsOf_append hne hrun hrest]

end Append

theorem visualOrder_ltr_of_ltr {xs : List (Dir × Cluster)} (h : ∀ x ∈ xs, x.1 = .ltr) : visualOrder .ltr xs = xs := by
  simpa [visualRun_of_ltr h, visualOrder, runsOf] using visualOrder_ltr_append (rest := []) h (by simp)

theorem visualOrder_rtl_of_rtl {xs : List (Dir × Cluster)} (h : ∀ x ∈ xs, x.1 = .rtl) :
    visualOrder .rtl xs = xs.reverse := by
  simpa [visualRun_of_rtl h, visualOrder, runsOf] using visualOrder_rtl_append (rest := []) h (by simp)

/-- An opposite run parts the bases around it into three runs; without it they are one run. -/
theorem visualOrder_ltr_around_rtl {a b c : List (Dir × Cluster)} (hac : ∀ x ∈ a ++ c, x.1 = .ltr)
    (hb : ∀ x ∈ b, x.1 = .rtl) : visualOrder .ltr (a ++ b ++ c) = a ++ b.reverse ++ c := by
  obtain ⟨ha, hc⟩ := List.forall_mem_append.1 hac
  cases b with
  | nil => simpa using visualOrder_ltr_of_ltr hac
  | cons x b =>
    have hparts : ∀ y ∈ (x :: b ++ c).head?, y.1 ≠ .ltr := by simp [hb x List.mem_cons_self]
    have hends : ∀ y ∈ c.head?, y.1 ≠ .rtl := fun y hy => by simp [hc y (List.mem_of_mem_head? hy)]
    rw [List.append_assoc, visualOrder_ltr_append ha hparts, visualOrder_ltr_append hb hends,
      visualRun_of_ltr ha, visualRun_of_rtl hb, visualOrder_ltr_of_ltr hc, List.append_assoc]

theorem visualOrder_rtl_around_ltr {a b c : List (Dir × Cluster)} (hac : ∀ x ∈ a ++ c, x.1 = .rtl)
    (hb : ∀ x ∈ b, x.1 = .ltr) : visualOrder .rtl (a ++ b ++ c) = c.reverse ++ b ++ a.reverse := by
  obtain ⟨ha, hc⟩ := List.forall_mem_append.1 hac
  cases b with
  | nil => simpa using visualOrder_rtl_of_rtl hac
  | cons x b =>
    have hparts : ∀ y ∈ (x :: b ++ c).head?, y.1 ≠ .rtl := by simp [hb x List.mem_cons_self]
    have hends : ∀ y ∈ c.head?, y.1 ≠ .ltr := fun y hy => by simp [hc y (List.mem_of_mem_head? hy)]
    rw [List.append_assoc, visualOrder_rtl_append ha hparts, visualOrder_rtl_append hb hends,
      visualRun_of_rtl ha, visualRun_of_ltr hb, visualOrder_rtl_of_rtl hc]

/-- Settles O54: resolution along the bases of the line, a row of neutrals at a time, and the visual order along its runs. -/
theorem visualOrderFollowsTheRuns : Obligations.VisualOrderFollowsTheRuns := by
  refine ⟨fun para cs => ⟨map_snd_resolveFrom para para cs, ?_, ?_⟩, ?_, ?_, visualOrder_perm,
    fun _ _ _ => visualOrder_ltr_around_rtl, fun _ _ _ => visualOrder_rtl_around_ltr⟩
  · exact fun x hx d hd => fst_of_mem_resolveFrom para para cs hx hd
  · intro hcs x hx
    rw [resolve_of_neutrals para hcs] at hx
    obtain ⟨c, -, rfl⟩ := List.mem_map.1 hx
    rfl
  · intro para d c1 c2 ns h1 h2 hns
    simpa using resolve_strong_neutrals_strong para h1 h2 hns
  · intro para d e c1 c2 ns h1 h2 hde hns
    simpa [hde] using resolve_strong_neutrals_strong para h1 h2 hns

end Sys2Proof.Machine
end

