-- ==== Sys2Proof/Proofs/OutputQueue.lean ====
section
/-! The law of the output queue (R127, R128) by itself: what each move of a galley does to its closed lines, its last line depth and the
depth of its started line keeps it, whatever the galley's other fields hold. -/

namespace Sys2Proof.Machine

/-! ### What the law reads -/

/-- What the law of the output queue reads of a galley. -/
def Galley.lineDepths (x : Galley) : List LineRecord × Option HeldLine × Option Nat × Nat × Option Nat :=
  (x.output, x.held, x.lastDepth, x.topDepth, x.builder.lineDepth)

theorem Galley.QueueLaw.congr {x y : Galley} (hx : x.QueueLaw) (h : y.lineDepths = x.lineDepths := by rfl) : y.QueueLaw := by
  simp only [Galley.lineDepths, Prod.mk.injEq] at h
  obtain ⟨houtput, hheld, hlast, htop, hline⟩ := h
  rwa [Galley.QueueLaw, Galley.closedLines, houtput, hheld, hlast, htop, hline]

/-- Without a closed line there is nothing to keep in order. -/
theorem Galley.queueLaw_of_empty {x : Galley} (hout : x.output = []) (hheld : x.held = none) : x.QueueLaw := by
  have hnone : x.closedLines = [] := by simp [Galley.closedLines, hout, hheld]
  rw [Galley.QueueLaw, hnone]
  exact ⟨by simp [hout], .nil, fun l hl => by cases hl⟩

theorem Galley.QueueLaw.length_le {x : Galley} (h : x.QueueLaw) : x.output.length ≤ 4 := h.1

/-- The next line lies no higher than a line that is closed (R128). -/
theorem Galley.QueueLaw.depth_le_last {x : Galley} (h : x.QueueLaw) {l : LineRecord} (hl : l ∈ x.closedLines) :
    l.depth ≤ x.lastDepth.getD x.topDepth := (h.2.2 l hl).1

/-- No line that is closed lies below the depth at which the galley closes its next one (R60, R61). -/
theorem Galley.QueueLaw.depth_le_close {x : Galley} (h : x.QueueLaw) {l : LineRecord} (hl : l ∈ x.closedLines) :
    l.depth ≤ x.builder.lineDepth.getD x.nextDepth := by
  obtain ⟨-, -, hlines⟩ := h
  obtain ⟨hlast, hline⟩ := hlines l hl
  cases hd : x.builder.lineDepth with
  | none => exact hlast.trans x.lastDepth_le_nextDepth
  | some d => exact hline d hd

/-- The galley without a started line, its last line at the depth given or where it was (R61, R72). -/
theorem Galley.QueueLaw.unstarted {x y : Galley} (h : x.QueueLaw) (hout : y.output = x.output) (hheld : y.held = x.held)
    (hlast : ∀ l ∈ x.closedLines, l.depth ≤ y.lastDepth.getD y.topDepth) (hline : y.builder.lineDepth = none) : y.QueueLaw := by
  have hclosed : y.closedLines = x.closedLines := by rw [Galley.closedLines, hout, hheld, Galley.closedLines]
  obtain ⟨hlen, hsorted, -⟩ := h
  rw [Galley.QueueLaw, hclosed, hout, hline]
  exact ⟨hlen, hsorted, fun l hl => ⟨hlast l hl, fun d hd => by cases hd⟩⟩

theorem Galley.Tuned.lineDepths {x y : Galley} (h : x.Tuned y) : y.lineDepths = x.lineDepths := by
  obtain ⟨_, _, _, _, _, _, _, _, _, builder, hline, -⟩ := h
  simp [Galley.lineDepths, hline]

/-! ### Line start and line close (R60, R61, R100) -/

/-- A line starts no higher than a line that is closed (R60). -/
theorem Galley.QueueLaw.starts {c : Ctx} {x y : Galley} {byPara : Bool} (h : x.QueueLaw) (hy : startLine c x byPara = some y) :
    y.QueueLaw := by
  obtain ⟨clampPending, clampMark, rfl⟩ := startLine_eq_some hy
  obtain ⟨hlen, hsorted, hlines⟩ := h
  refine ⟨hlen, hsorted, fun l hl => ⟨(hlines l hl).1, fun d hd => ?_⟩⟩
  rw [← Option.mem_some_iff.1 hd]
  exact (hlines l hl).1.trans x.lastDepth_le_nextDepth

/-- A galley within an event: its queue has its law, and while it goes on it holds no closed line. -/
structure Run.Queued (r : Run) : Prop where
  law : r.gal.QueueLaw
  free : r.stopped = false → r.gal.held = none

section Work

variable {c : Ctx} {r : Run}

theorem Run.Queued.halt (h : r.Queued) (c : Ctx) (cause : HaltCause) : (r.halt c cause).Queued :=
  ⟨h.law.congr, fun hgo => by cases hgo⟩

/-- Another galley whose closed lines and depths are the same. -/
theorem Run.Queued.congr (h : r.Queued) {y : Galley} (hy : y.lineDepths = r.gal.lineDepths := by rfl) :
    ({ r with gal := y } : Run).Queued :=
  ⟨h.law.congr hy, fun hgo => (congrArg (·.2.1) hy).trans (h.free hgo)⟩

theorem Run.Queued.starts (h : r.Queued) {y : Galley} {byPara : Bool} (hy : startLine c r.gal byPara = some y) :
    ({ r with gal := y } : Run).Queued := by
  refine ⟨h.law.starts hy, fun hgo => ?_⟩
  obtain ⟨_, _, rfl⟩ := startLine_eq_some hy
  exact h.free hgo

theorem Run.Queued.needsLine (h : r.Queued) {y : Galley} {byPara : Bool} (hy : needLine c r.gal byPara = some y) :
    ({ r with gal := y } : Run).Queued := by
  obtain ⟨-, rfl⟩ | ⟨-, hy⟩ := needLine_eq_some hy
  · exact h
  · exact h.starts hy

theorem Run.Queued.takes (h : r.Queued) {y : Galley} (hy : y.lineDepths = r.gal.lineDepths := by rfl) : (r.take y).Queued :=
  ⟨h.law.congr hy, (h.congr hy).free⟩

/-- A line close advances the last line depth to the depth of its line (R61). -/
theorem closeLine_lastDepth (c : Ctx) (r : Run) (entries : List Entry) (forced wide last : Bool) (carry : List Entry)
    (opps : List Opp) :
    (closeLine c r entries forced wide last carry opps).gal.lastDepth = some (r.gal.builder.lineDepth.getD r.gal.nextDepth) := by
  have given (q : Run) (l : LineRecord) : (q.giveException c l).gal.lastDepth = q.gal.lastDepth := by
    obtain ⟨latch, count, events, he, -, -⟩ := q.giveException_eq c l
    rw [he]
  unfold closeLine
  dsimp only
  cases r.gal.mark.acts (r.gal.afterClose carry opps).builder.entries <;>
  · simp only [Bool.false_eq_true, if_false, if_true]
    split
    · rfl
    · split
      · exact given _ _
      · exact given _ _

/-- A line closed at the galley's close depth stands behind the lines closed before it (R61, R127). -/
theorem Galley.QueueLaw.closes {x y : Galley} {l : LineRecord} (h : x.QueueLaw) (hclosed : y.closedLines = x.closedLines ++ [l])
    (hdepth : l.depth = x.builder.lineDepth.getD x.nextDepth) (hlast : y.lastDepth = some l.depth)
    (hline : y.builder.lineDepth = none) (hlen : y.output.length ≤ Config.outputCapacity) : y.QueueLaw := by
  have hle : ∀ l' ∈ x.closedLines, l'.depth ≤ l.depth := fun l' hl' => (h.depth_le_close hl').trans_eq hdepth.symm
  rw [Galley.QueueLaw, hclosed, hlast, hline]
  refine ⟨hlen, ?_, fun l' hl' => ⟨?_, fun d hd => by cases hd⟩⟩
  · obtain ⟨-, hsorted, -⟩ := h
    rw [List.map_append, List.pairwise_append]
    exact ⟨hsorted, List.pairwise_singleton _ _, by simpa using hle⟩
  · obtain hl' | hl' := List.mem_append.1 hl'
    · exact hle l' hl'
    · rw [List.mem_singleton.1 hl']
      exact Nat.le_refl _

theorem Run.Queued.closes (h : r.Queued) (hgo : r.stopped = false) (entries : List Entry) (forced wide last : Bool)
    (carry : List Entry) (opps : List Opp) : (closeLine c r entries forced wide last carry opps).Queued := by
  have hheld := h.free hgo
  have hlines : r.gal.closedLines = r.gal.output := by simp [Galley.closedLines, hheld]
  have hlast := closeLine_lastDepth c r entries forced wide last carry opps
  have hline := congrArg Builder.lineDepth (closeLine_builder c r entries forced wide last carry opps)
  obtain ⟨-, hout, hsame⟩ | ⟨-, hroom, ⟨l, hout, -, -, hdepth⟩, hsame⟩ | ⟨-, -, hout, hstop, -, held, hheld', -, -, -, hdepth⟩ :=
    closeLine_cases c r entries forced wide last carry opps
  · refine ⟨h.law.unstarted hout hsame (fun l hl => ?_) hline, fun _ => hsame.trans hheld⟩
    rw [hlast]
    exact h.law.depth_le_close hl
  · refine ⟨h.law.closes (l := l) ?_ hdepth (hlast.trans (congrArg some hdepth.symm)) hline ?_, fun _ => hsame.trans hheld⟩
    · rw [Galley.closedLines, hsame, hheld, hout, hlines]
      simp
    · rw [hout, List.length_append]
      exact hroom
  · refine ⟨h.law.closes (l := held.record) ?_ hdepth (hlast.trans (congrArg some hdepth.symm)) hline ?_, fun hgo' => ?_⟩
    · rw [Galley.closedLines, hheld', hout, hlines]
      rfl
    · exact hout ▸ h.law.length_le
    · exact absurd hstop (by simp [hgo'])

theorem Run.Queued.closesFull (h : r.Queued) (hgo : r.stopped = false) (incoming : Nat) : (closeFull c r incoming).Queued := by
  obtain ⟨k, forced, -, he⟩ | ⟨wide, he⟩ := closeFull_cases c r incoming <;> rw [he]
  · exact h.closes hgo _ _ _ _ _ _
  · exact h.closes hgo _ _ _ _ _ _

/-! ### The chain of closes and starts (R95, R102) -/

theorem Run.Queued.fitChain (h : r.Queued) (n : Nat) : (Machine.fitChain c n r).Queued := by
  induction n generalizing r with
  | zero => exact h
  | succ n ih =>
    unfold Machine.fitChain
    split
    · exact h
    · rename_i hgo
      obtain ⟨hgo, -⟩ := Bool.or_eq_false_iff.1 (eq_false_of_ne_true hgo)
      have hclosed : (closeFull c r 0).Queued := h.closesFull hgo 0
      dsimp only
      split
      · exact hclosed
      · split
        · exact hclosed.halt c _
        · exact ih (hclosed.starts ‹_›)

theorem Run.Queued.startCarry (h : r.Queued) : (Machine.startCarry c r).Queued := by
  unfold Machine.startCarry
  split
  · exact h
  · split
    · exact h.halt c _
    · exact (h.starts ‹_›).fitChain _

theorem Run.Queued.endCourse (h : r.Queued) (limited : Bool) : (Machine.endCourse c r limited).Queued := by
  unfold Machine.endCourse
  split
  · exact h.startCarry
  · exact h.fitChain _

theorem Run.Queued.limitClose (h : r.Queued) (hgo : r.stopped = false) (n : Nat) : (Machine.limitClose c r n).1.Queued := by
  unfold Machine.limitClose
  split
  · exact h.closesFull hgo n
  · exact h

/-! ### The consumption of an item (R48) -/

/-- The course of an item behind its lookup (R84). -/
theorem Run.Queued.enters (h : r.Queued) (hgo : r.stopped = false) {y : Galley} (hy : needLine c r.gal false = some y) (n : Nat)
    (b : Galley → Builder) (made : Galley → Bool) (hb : ∀ z, (b z).lineDepth = z.builder.lineDepth) :
    (Machine.endCourse c
      ((Machine.limitClose c { r with gal := y } n).1.take
        { (Machine.limitClose c { r with gal := y } n).1.gal with
          builder := b (Machine.limitClose c { r with gal := y } n).1.gal
          hasEntries := made (Machine.limitClose c { r with gal := y } n).1.gal })
      (Machine.limitClose c { r with gal := y } n).2).Queued :=
  (((h.needsLine hy).limitClose hgo n).takes (Galley.Tuned.builds _ _ (hb _)).lineDepths).endCourse _

theorem Run.Queued.char (h : r.Queued) (hgo : r.stopped = false) (code : CodeUnit) : (consumeChar c r code).Queued := by
  unfold consumeChar
  split
  · exact h.halt c _
  · rename_i hit _
    split
    · exact h.halt c _
    · exact h.enters hgo ‹_› _ (fun z => z.builder.enter c.fonts (z.prepare code none hit))
        (fun z => z.hasEntries || !(z.prepare code none hit).dropped z.builder.entries) fun _ => rfl

theorem Run.Queued.space (h : r.Queued) (hgo : r.stopped = false) : (consumeSpace c r).Queued := by
  unfold consumeSpace
  split
  · exact h.halt c _
  · rename_i hd _
    split
    · exact h.halt c _
    · exact h.enters hgo ‹_› 1 (fun z => z.builder.addSpace c.fonts (z.plainEntry 0xF000 (hd.spaceBody z.size)))
        (fun _ => true) fun _ => rfl

theorem Run.Queued.fixed (h : r.Queued) (hgo : r.stopped = false) : (consumeFixed c r).Queued := by
  unfold consumeFixed
  split
  · exact h.halt c _
  · rename_i hd _
    split
    · exact h.halt c _
    · exact h.enters hgo ‹_› 1 (fun z => z.builder.addFixed c.fonts (z.plainEntry 0xF001 (hd.fixedBody z.size)))
        (fun _ => true) fun _ => rfl

theorem Run.Queued.para (h : r.Queued) (hgo : r.stopped = false) : (consumePara c r).Queued := by
  unfold consumePara
  split
  · exact h.halt c _
  · rename_i y hy
    have htaken : (r.take y).Queued := (h.needsLine hy).takes
    exact (htaken.closes hgo y.builder.entries false false true [] []).congr

theorem Run.Queued.disc (h : r.Queued) (hgo : r.stopped = false) (pre post noBreak : List CodeUnit) :
    (consumeDisc c r pre post noBreak).Queued := by
  unfold consumeDisc
  dsimp only
  split
  case h_2 => exact h.halt c _
  case h_1 pres posts texts _ _ _ _ =>
    split
    case h_1 => exact h.halt c _
    case h_2 y hy =>
      have hfound : ({ r with gal := y } : Run).Queued := by
        split at hy
        · obtain rfl := Option.some.inj hy
          exact h
        · exact h.needsLine hy
      have hlimit : (Machine.limitClose c { r with gal := y } texts.length).1.Queued := hfound.limitClose hgo texts.length
      generalize Machine.limitClose c { r with gal := y } texts.length = ql at hlimit
      obtain ⟨q, limited⟩ := ql
      have built (record : Bool) (o : Opp) :
          (if record then { texts.foldl (Builder.enter c.fonts) q.gal.builder with
              opps := pushOpp (texts.foldl (Builder.enter c.fonts) q.gal.builder).opps o }
            else texts.foldl (Builder.enter c.fonts) q.gal.builder).lineDepth = q.gal.builder.lineDepth := by
        split <;> simp
      have htaken := fun made record o => hlimit.takes (Galley.Tuned.builds q.gal made (built record o)).lineDepths
      dsimp only
      split
      · exact (htaken _ _ _).endCourse limited
      · exact htaken _ _ _

theorem Run.Queued.consumes (h : r.Queued) (hgo : r.stopped = false) : (consumeItem c r).Queued := by
  unfold consumeItem
  split
  · exact h
  · exact h.char hgo _
  · exact h.space hgo
  · exact h.fixed hgo
  · exact h.para hgo
  · exact h.takes
  · exact h.takes (Galley.tuned_setSize _ _).lineDepths
  · exact h.takes (Galley.tuned_setTrack _ _).lineDepths
  · exact h.takes (Galley.tuned_setShift _ _).lineDepths
  · exact h.takes (Galley.tuned_setDirection _ _).lineDepths
  · exact h.takes (Galley.tuned_setDirection _ _).lineDepths
  · exact h.disc hgo _ _ _

/-! ### Proceeding, draining and closing (R63, R76, R77) -/

theorem Galley.QueueLaw.offWhenEmpty (h : r.gal.QueueLaw) : (r.offWhenEmpty c).gal.QueueLaw := by
  unfold Run.offWhenEmpty
  split
  · exact h.congr
  · exact h

theorem Galley.QueueLaw.enterClosing (h : r.gal.QueueLaw) : (r.enterClosing c).gal.QueueLaw :=
  (h.congr (y := r.gal.atClosing)).offWhenEmpty (r := { r with gal := r.gal.atClosing, stopped := true })

theorem Run.Queued.endsDrain (h : r.Queued) (hgo : r.stopped = false) : (endDrain c r).gal.QueueLaw := by
  have hclosed : (if r.gal.started then closeLine c r r.gal.builder.entries false false true [] [] else r).Queued := by
    split
    · exact h.closes hgo _ _ _ _ _ _
    · exact h
  unfold endDrain
  generalize (if r.gal.started then closeLine c r r.gal.builder.entries false false true [] [] else r) = q at hclosed
  dsimp only
  split
  · exact hclosed.law
  · exact hclosed.law.enterClosing

theorem Run.Queued.proceedsQueue (h : r.Queued) (hgo : r.stopped = false) : (proceedQueue c r).gal.QueueLaw := by
  unfold proceedQueue
  split
  · split
    · exact h.endsDrain hgo
    · exact h.law.congr
  · split
    · exact h.law.congr
    · exact (h.consumes hgo).law

/-- A galley that holds a closed line does not proceed (R63 step 1). -/
theorem Galley.QueueLaw.proceeds (h : r.gal.QueueLaw) : (proceed c r).gal.QueueLaw := by
  unfold proceed
  split
  · exact h
  · split
    · exact h.congr
    · rename_i hheld
      have hcarry : (startCarry c r).Queued := Run.Queued.startCarry ⟨h, fun _ => by simpa using hheld⟩
      dsimp only
      split
      · exact hcarry.law
      · exact hcarry.proceedsQueue (eq_false_of_ne_true ‹_›)

theorem Galley.QueueLaw.goesOn (h : r.gal.QueueLaw) : (r.goOn c).gal.QueueLaw :=
  Galley.QueueLaw.proceeds (r := { r with gal := { r.gal with
    state := if r.gal.drain then .draining else .setting, cause := none, deferred := none } }) h.congr

/-- A STEP of a galley that holds no closed line (R68). -/
theorem Galley.QueueLaw.steps {x : Galley} (h : x.QueueLaw) (hheld : x.held = none) : (stepGalley c x).gal.QueueLaw := by
  have hcarry : (startCarry c (Run.start x)).Queued := Run.Queued.startCarry ⟨h, fun _ => hheld⟩
  have hitem : (if (startCarry c (Run.start x)).stopped then startCarry c (Run.start x)
      else consumeItem c (startCarry c (Run.start x))).Queued := by
    split
    · exact hcarry
    · exact hcarry.consumes (eq_false_of_ne_true ‹_›)
  unfold stepGalley
  dsimp only
  generalize (if (startCarry c (Run.start x)).stopped then startCarry c (Run.start x)
      else consumeItem c (startCarry c (Run.start x))) = q at hitem
  split
  · exact hitem.law
  · exact hitem.law.congr

theorem unreleaseTest_lineDepths (c : Ctx) (high : Nat) (r : Run) : (unreleaseTest c high r).gal.lineDepths = r.gal.lineDepths := by
  unfold unreleaseTest
  dsimp only
  split
  · rfl
  · split
    · split <;> rfl
    · split <;> rfl

theorem Galley.QueueLaw.arrives {x : Galley} (h : x.QueueLaw) (high units : Nat) : (arrival c high units x).gal.QueueLaw := by
  have htest : (unreleaseTest c high (Run.start x.retrigger)).gal.QueueLaw :=
    (h.congr (y := x.retrigger)).congr (unreleaseTest_lineDepths c high _)
  unfold arrival
  dsimp only
  split
  · exact Galley.QueueLaw.proceeds htest.congr
  · exact htest

/-! ### The head of the queue leaves (R135, R136) -/

/-- The queue without its head, which leaves room in it. -/
theorem Galley.QueueLaw.pops {x : Galley} (h : x.QueueLaw) :
    ({ x with output := x.output.tail } : Galley).QueueLaw ∧ x.output.tail.length < Config.outputCapacity := by
  have hroom : x.output.tail.length < Config.outputCapacity := by
    have hlen := h.length_le
    rw [List.length_tail, Config.outputCapacity]
    omega
  refine ⟨h.of_sublist (Nat.le_of_lt hroom) ?_ rfl rfl rfl, hroom⟩
  exact (List.tail_sublist _).append (List.Sublist.refl _)

/-- A held line that joins the queue keeps its place among the closed lines (R61). -/
theorem Galley.QueueLaw.joins {x : Galley} {l : HeldLine} (h : x.QueueLaw) (hheld : x.held = some l)
    (hroom : x.output.length < Config.outputCapacity) :
    ({ x with held := none, output := x.output ++ [l.record] } : Galley).QueueLaw := by
  refine h.of_sublist ?_ (by simp [Galley.closedLines, hheld]) rfl rfl rfl
  rw [List.length_append]
  exact hroom

theorem Galley.QueueLaw.headLeaves (h : r.gal.QueueLaw) (hroom : r.gal.output.length < Config.outputCapacity) :
    (afterHeadLeaves c r).gal.QueueLaw := by
  unfold afterHeadLeaves
  split
  · exact h.offWhenEmpty
  · rename_i l hheld
    have hjoined := h.joins hheld hroom
    dsimp only
    split
    · split
      · exact hjoined.congr
      · exact hjoined.congr
      · exact Galley.QueueLaw.goesOn hjoined
    · exact hjoined

theorem Galley.QueueLaw.retires {x : Galley} (h : x.QueueLaw) : (retireHead c x).gal.QueueLaw :=
  Galley.QueueLaw.headLeaves h.pops.1 h.pops.2

/-- The spoiled head is given to its galley's latch, which the queue does not read (R136). -/
theorem Galley.QueueLaw.spoils {x : Galley} (h : x.QueueLaw) : (spoilHead c x).gal.QueueLaw := by
  unfold spoilHead
  dsimp only
  split
  · exact Galley.QueueLaw.headLeaves h.pops.1 h.pops.2
  · rename_i l _ _
    obtain ⟨latch, count, events, he, -, -⟩ := Run.giveException_eq c (Run.start { x with output := x.output.tail })
      { l with exceptions := { l.exceptions with spoiled := true } }
    rw [he]
    exact Galley.QueueLaw.headLeaves h.pops.1.congr h.pops.2

end Work

/-! ### Every move -/

/-- A restart's top depth lies no higher than a line that waits (R128). -/
theorem Galley.QueueLaw.restarts {x : Galley} (h : x.QueueLaw) {top : Nat} (column : Option (Nat × Nat))
    (htop : x.topAboveQueued top = false) : (x.restarted top column).QueueLaw := by
  obtain ⟨staged, pending, he⟩ := x.restarted_eq top column
  obtain ⟨hlen, hsorted, hlines⟩ := h
  rw [he]
  exact ⟨hlen, hsorted, fun l hl => ⟨(x.topAboveQueued_eq_false_iff top).1 htop l hl, (hlines l hl).2⟩⟩

/-- GALLEY CLOSE DISCARD drops the held line and the started one (R77). -/
theorem Galley.QueueLaw.discards {x : Galley} (h : x.QueueLaw) : x.discarded.QueueLaw := by
  have hreleased : ({ x with held := none } : Galley).QueueLaw :=
    h.of_sublist h.length_le (by simp [Galley.closedLines]) rfl rfl rfl
  exact hreleased.unstarted rfl rfl (fun _ => hreleased.depth_le_last) rfl

theorem Galley.Move.queueLaw {x y : Galley} (h : Galley.Move x y) (hx : x.QueueLaw) : y.QueueLaw := by
  cases h with
  | reset | opened => exact Galley.queueLaw_of_empty rfl rfl
  | restarted _ top column _ _ htop => exact hx.restarts column htop
  | abandoned => exact hx.unstarted rfl rfl (fun _ => hx.depth_le_last) rfl
  | halted => exact hx.congr
  | arrived c high units => exact Galley.QueueLaw.arrives hx.congr high units
  | resumed c => exact Galley.QueueLaw.goesOn hx.congr
  | stepped c _ _ hheld => exact hx.steps (Option.isNone_iff_eq_none.1 (by simpa using hheld))
  | drained c => exact Galley.QueueLaw.proceeds hx.congr
  | discarded c => exact hx.discards.enterClosing
  | proceeded c => exact Galley.QueueLaw.proceeds hx
  | retired c => exact hx.retires
  | spoiled c => exact hx.spoils
  | staged | activated | flushed | marked | latched | reported | released | drainNoted => exact hx.congr

/-- Settles O56: each move of a galley keeps the law of its output queue, and so does every step. -/
theorem queueLawIsKept : Obligations.QueueLawIsKept :=
  step_keeps Galley.QueueLaw fun _ _ hmove => hmove.queueLaw

end Sys2Proof.Machine
end

