-- ==== Sys2Proof/Proofs/Pages.lean ====
section
/-! PAGE OPEN and PAGE CLOSE (R124, R125), the selection (R130 to R133, R137), and the end of an order in failure (R136, R147, R148, R151). -/

namespace Sys2Proof.Machine

/-! ### A request of the part that concerns the page (R158 to R161) -/

/-- An event that changes the page state is a re-examination point (R134). -/
theorem State.noting_of_pageState {s t : State} (h : t.page.state ≠ s.page.state) :
    s.noting t = { t with selectionDue := true } := by
  have hwatched : t.watched ≠ s.watched := fun he => h (congrArg (·.2.2) he)
  simp [State.noting, hwatched]

section Part

variable {s : State} {k : ReqKind} {body : List Byte}

/-- A request of the part that its owner answers with the part as it was. -/
theorem completeFrame_part_same (hcan : s.link.canTake = true) (hd : k.domain = .part) (hl : k.lengthGood body = true)
    {r : Result} (h : handle k { s with link := s.link.hunt } 0xFF body = ({ s with link := s.link.hunt } : State).refuse r) :
    s.completeFrame (goodFrame k.code 0xFF body) = s.answer k.code 0xFF r [] := by
  rw [completeFrame_request s k _ body hcan (hd ▸ Domain.part_holds) hl, h, place_refuse, noting_answer]

/-- A request of the part that changes the page state makes a selection due (R134). -/
theorem completeFrame_setPage (hcan : s.link.canTake = true) (hd : k.domain = .part) (hl : k.lengthGood body = true) {p : Page}
    (hp : p.state ≠ s.page.state) {data : List Byte}
    (h : handle k { s with link := s.link.hunt } 0xFF body
      = ({ s with link := s.link.hunt, page := p } : State).accept data) :
    s.completeFrame (goodFrame k.code 0xFF body)
      = ({ s with page := p, selectionDue := true } : State).answer k.code 0xFF .done data := by
  rw [completeFrame_request s k _ body hcan (hd ▸ Domain.part_holds) hl, h, State.accept, place_answer s _ _ data _ _ rfl]
  exact State.noting_of_pageState hp

/-- A request of the part with another target is refused with RANGE before its owner sees it (R159 step 2). -/
theorem completeFrame_no_part (hcan : s.link.canTake = true) (hd : k.domain = .part) {target : Byte} (ht : target ≠ 0xFF) :
    s.completeFrame (goodFrame k.code target body) = s.answer k.code target .range [] := by
  have hholds : k.domain.holds target = false := by
    rw [hd]
    exact beq_eq_false_iff_ne.2 ht
  rw [completeFrame_good s _ _ _ hcan, dispatch, ReqKind.requestKind_code]
  simp only [hholds, Bool.not_false, if_true]
  rw [place_refuse, noting_answer]

end Part

/-! ### PAGE OPEN and PAGE CLOSE (R124, R125) -/

/-- The sizes of a PAGE OPEN are read back from its body and judged (R124). -/
theorem handlePageOpen_noPage (s : State) (target : Byte) {width depth : Nat} (hpage : s.page.state = .noPage)
    (hw : width < 65536) (hd : depth < 65536) :
    handle .pageOpen s target (be16 width ++ be16 depth)
      = if 1200 ≤ width ∧ width ≤ 14400 ∧ 600 ≤ depth ∧ depth ≤ 30000 then
          ({ s with page := { s.page with
              state := .open, number := s.page.number + 1, width := width, depth := depth, high := 0, lastIssued := 0 } } : State).accept
            (be16 (s.page.number + 1).toNat)
        else s.refuse .range := by
  simp only [handle, handlePageOpen, hpage, ne_eq, not_true, if_false, be16, List.cons_append, List.nil_append, nat16_be16 _ hw,
    nat16_be16 _ hd]

theorem handlePageOpen_refused (s : State) (target : Byte) (body : List Byte) (hpage : s.page.state ≠ .noPage) :
    handle .pageOpen s target body = s.refuse .state := if_pos hpage

theorem handlePageClose_closes (s : State) (target : Byte) (body : List Byte) (hpage : s.page.state = .open)
    (hoff : ∀ g, (s.galley g).state = .off) :
    handle .pageClose s target body
      = ({ s with page := { s.page with state := .closing } } : State).accept (be16 s.page.number.toNat) :=
  if_pos ⟨hpage, s.allOff_iff.2 hoff⟩

theorem handlePageClose_refused (s : State) (target : Byte) (body : List Byte)
    (h : s.page.state ≠ .open ∨ ∃ g, (s.galley g).state ≠ .off) : handle .pageClose s target body = s.refuse .state := by
  refine if_neg ?_
  rintro ⟨hpage, hoff⟩
  obtain h | ⟨g, hg⟩ := h
  · exact h hpage
  · exact hg (s.allOff_iff.1 hoff g)

/-- Settles O47: each of the two changes the page state, which a selection reads. -/
theorem pageOpensAndCloses : Obligations.PageOpensAndCloses := by
  refine ⟨fun s width depth hcan hpage hw hw' hd hd' => ?_, fun s width depth hcan hpage hw hd hbad => ?_,
    fun s width depth hcan hpage => ?_, fun s b hcan hpage hoff => ?_, fun s b hcan h => ?_, fun s target body hcan ht => ?_⟩
  · refine congrArg Host.Outcome.next (completeFrame_setPage (k := .pageOpen) hcan rfl rfl (by simp [hpage]) ?_)
    exact (handlePageOpen_noPage { s with link := s.link.hunt } _ hpage (by omega) (by omega)).trans (if_pos ⟨hw, hw', hd, hd'⟩)
  · refine congrArg Host.Outcome.next (completeFrame_part_same (k := .pageOpen) hcan rfl rfl ?_)
    exact (handlePageOpen_noPage { s with link := s.link.hunt } _ hpage hw hd).trans (if_neg (by omega))
  · exact congrArg Host.Outcome.next
      (completeFrame_part_same (k := .pageOpen) hcan rfl rfl (handlePageOpen_refused _ _ _ hpage))
  · exact congrArg Host.Outcome.next
      (completeFrame_setPage (k := .pageClose) hcan rfl rfl (by simp [hpage]) (handlePageClose_closes _ _ _ hpage hoff))
  · exact congrArg Host.Outcome.next
      (completeFrame_part_same (k := .pageClose) hcan rfl rfl (handlePageClose_refused _ _ _ h))
  · exact ⟨congrArg Host.Outcome.next (completeFrame_no_part (k := .pageOpen) hcan rfl ht),
      congrArg Host.Outcome.next (completeFrame_no_part (k := .pageClose) hcan rfl ht)⟩

/-! ### The selection (R130 to R133, R137) -/

/-- The candidate of galleys in the order of their numbers is the lowest of those whose heads lie at its depth (R131). -/
theorem candidateOf_lowest (s : State) {gs : List GalleyId} (hgs : gs.Pairwise (· < ·)) {g : GalleyId} {l : LineRecord}
    (h : candidateOf s gs = some (g, l)) :
    g ∈ gs ∧ ∀ g' ∈ gs, ∀ l' rest', (s.galley g').output = l' :: rest' → l'.depth = l.depth → g ≤ g' := by
  induction gs generalizing g l with
  | nil => cases h
  | cons a gs ih =>
    obtain ⟨hlow, hgs⟩ := List.pairwise_cons.1 hgs
    have first : g = a → g ∈ a :: gs ∧ ∀ g' ∈ a :: gs, ∀ l' rest', (s.galley g').output = l' :: rest' → l'.depth = l.depth → g ≤ g' := by
      rintro rfl
      refine ⟨List.mem_cons_self, fun g' hg' _ _ _ _ => ?_⟩
      obtain rfl | hg' := List.mem_cons.1 hg'
      · exact le_rfl
      · exact (hlow g' hg').le
    have later (hrest : candidateOf s gs = some (g, l))
        (hdeeper : ∀ l' rest', (s.galley a).output = l' :: rest' → l'.depth ≠ l.depth) :
        g ∈ a :: gs ∧ ∀ g' ∈ a :: gs, ∀ l' rest', (s.galley g').output = l' :: rest' → l'.depth = l.depth → g ≤ g' := by
      obtain ⟨hmem, hties⟩ := ih hgs hrest
      refine ⟨List.mem_cons_of_mem _ hmem, fun g' hg' l' rest' hout hdepth => ?_⟩
      obtain rfl | hg' := List.mem_cons.1 hg'
      · exact absurd hdepth (hdeeper l' rest' hout)
      · exact hties g' hg' l' rest' hout hdepth
    simp only [candidateOf] at h
    split at h
    · rename_i hout
      exact later h fun l' rest' hne => by simp [hout] at hne
    · obtain ⟨rfl, -⟩ := Prod.mk.inj (Option.some.inj h)
      exact first rfl
    · rename_i l1 rest1 g2 l2 hout hrest
      split at h
      · obtain ⟨rfl, -⟩ := Prod.mk.inj (Option.some.inj h)
        exact first rfl
      · rename_i hdeep
        obtain ⟨rfl, rfl⟩ := Prod.mk.inj (Option.some.inj h)
        refine later hrest fun l' rest' hne => ?_
        obtain ⟨rfl, -⟩ := List.cons.inj (hout.symm.trans hne)
        exact fun he => hdeep he.le

/-- Where a queue is not empty there is a candidate: a head that no other undercuts (R131). -/
theorem State.candidate_of_head (s : State) {g : GalleyId} {l : LineRecord} {rest : List LineRecord}
    (hout : (s.galley g).output = l :: rest) :
    ∃ g' l' rest', s.candidate = some (g', l') ∧ (s.galley g').output = l' :: rest' ∧ l'.depth ≤ l.depth := by
  cases hc : s.candidate with
  | none => simp [candidateOf_none s _ hc g (mem_allGalleys g)] at hout
  | some p =>
    obtain ⟨⟨rest', hout'⟩, hleast⟩ := candidateOf_some s _ p.1 p.2 hc
    exact ⟨p.1, p.2, rest', rfl, hout', hleast g (mem_allGalleys g) l rest hout⟩

/-- The head of least depth, the lowest galley on a tie, is the candidate (R131). -/
theorem State.candidate_least (s : State) {g : GalleyId} {l : LineRecord} {rest : List LineRecord}
    (hout : (s.galley g).output = l :: rest)
    (hleast : ∀ g' l' rest', (s.galley g').output = l' :: rest' → l.depth ≤ l'.depth ∧ (l'.depth = l.depth → g.val ≤ g'.val)) :
    s.candidate = some (g, l) := by
  obtain ⟨g', l', rest', hc, hout', hle⟩ := s.candidate_of_head hout
  obtain ⟨hge, htie⟩ := hleast g' l' rest' hout'
  have hdepth := Nat.le_antisymm hle hge
  obtain ⟨-, hlowest⟩ := candidateOf_lowest s (gs := allGalleys) (by decide) hc
  obtain rfl : g' = g := le_antisymm (hlowest g (mem_allGalleys g) l rest hout hdepth.symm) (htie hdepth)
  obtain ⟨rfl, -⟩ := List.cons.inj (hout.symm.trans hout')
  exact hc

theorem State.candidate_none (s : State) (h : ∀ g, (s.galley g).output = []) : s.candidate = none := by
  simp [State.candidate, allGalleys, candidateOf, h]

theorem State.select_shut {s : State} (h : s.unit.view.gateOpen = false) : s.select = s := by simp [State.select, h]

theorem State.select_noPage {s : State} (h : s.page.state = .noPage) : s.select = s := by simp [State.select, h]

theorem State.select_cut {s : State} (hgate : s.unit.view.gateOpen = true) (h : s.page.state = .closing) :
    s.select = s.issueCut := by simp [State.select, hgate, h]

theorem State.select_line {s : State} (hgate : s.unit.view.gateOpen = true) (h : s.page.state = .open) {g : GalleyId}
    {l : LineRecord} (hc : s.candidate = some (g, l)) (hfree : s.unrestrained l.depth = true) : s.select = s.issueLine g l := by
  simp [State.select, hgate, h, hc, hfree]

/-- On an OPEN page nothing is issued without a candidate, or with one that a galley restrains (R131, R132). -/
theorem State.select_waits {s : State} (h : s.page.state = .open)
    (hc : ∀ g l, s.candidate = some (g, l) → s.unrestrained l.depth = false) : s.select = s := by
  unfold State.select
  split
  · rfl
  · rw [h]
    dsimp only
    split
    · rfl
    · rename_i g l hcand
      simp [hc g l hcand]

/-- What shuts the gate (R142). -/
theorem UnitView.gateOpen_eq_false {v : UnitView}
    (h : v.known = false ∨ v.held = true ∨ v.faulted = true ∨ v.silent = true ∨ v.outstanding.isSome = true) :
    v.gateOpen = false := by
  cases ho : v.outstanding <;> obtain h | h | h | h | h := h <;> simp_all [UnitView.gateOpen]

/-- Settles O48: the candidate is the head the statement names, and the issue condition is asked of its depth. -/
theorem selectionIssuesTheLeastLine : Obligations.SelectionIssuesTheLeastLine := by
  have selected {s t : State} (h : s.select = t) : exec .selection s = .next { t with selectionDue := false } := by
    subst h
    rfl
  refine ⟨fun s g l rest e hgate hpage hout hleast hfree he => ?_, fun s g g' l rest hpage hout hleast hr hempty hpast => ?_,
    fun s hgate hpage => selected (State.select_cut hgate hpage), fun s h => selected ?_,
    fun s hpage hempty => selected (State.select_waits hpage ?_)⟩
  · subst he
    exact selected (State.select_line hgate hpage (s.candidate_least hout hleast) ((s.unrestrained_iff _).2 hfree))
  · refine selected (State.select_waits hpage fun g1 l1 hc => ?_)
    obtain ⟨⟨rest1, hout1⟩, -⟩ := candidateOf_some s _ g1 l1 hc
    rw [← Bool.not_eq_true, s.unrestrained_iff]
    intro hfree
    have hdeep := hleast g1 l1 rest1 hout1
    have hnear := hfree g' hr hempty
    omega
  · obtain h | h | h | h | h | h := h
    · exact State.select_shut (UnitView.gateOpen_eq_false (.inl h))
    · exact State.select_shut (UnitView.gateOpen_eq_false (.inr (.inl h)))
    · exact State.select_shut (UnitView.gateOpen_eq_false (.inr (.inr (.inl h))))
    · exact State.select_shut (UnitView.gateOpen_eq_false (.inr (.inr (.inr (.inl h)))))
    · exact State.select_shut (UnitView.gateOpen_eq_false (.inr (.inr (.inr (.inr h)))))
    · exact State.select_noPage h
  · simp [s.candidate_none hempty]

end Sys2Proof.Machine
end

