-- ==== Sys2Proof/Proofs/Failures.lean ====
section
/-! The end of an order in failure (R136, R138, R147, R148, R151). -/

namespace Sys2Proof.Machine

/-! ### Raises beside other changes (R168) -/

/-- A raise reads and changes nothing of a galley. -/
theorem State.raise_setGalley (s : State) (g : GalleyId) (x : Galley) (f : Flag) (d : EventData) :
    (s.raise f d).setGalley g x = (s.setGalley g x).raise f d := by
  unfold State.raise
  rw [State.setGalley_events]
  split
  · rfl
  · dsimp only
    split <;> rfl

/-- What a raise does to the events and the link depends on these alone. -/
theorem State.raise_congr {s t : State} (h : s.events = t.events ∧ s.link = t.link) (f : Flag) (d : EventData) :
    (s.raise f d).events = (t.raise f d).events ∧ (s.raise f d).link = (t.raise f d).link := by
  obtain ⟨hevents, hlink⟩ := h
  unfold State.raise
  rw [hevents]
  cases t.events.flag f <;> cases t.events.masked f <;> simp [State.notify, hevents, hlink]

theorem State.raiseAll_congr {s t : State} (h : s.events = t.events ∧ s.link = t.link) (es : List (Flag × EventData)) :
    (s.raiseAll es).events = (t.raiseAll es).events ∧ (s.raiseAll es).link = (t.raiseAll es).link := by
  induction es generalizing s t with
  | nil => exact h
  | cons e es ih => exact ih (State.raise_congr h e.1 e.2)

/-! ### The spoiled head (R136) -/

section Spoiling

variable (c : Ctx) {x : Galley} {l : LineRecord} {rest : List LineRecord} {e : ExceptionRecord} (hout : x.output = l :: rest)
  (hheld : x.held = none) (hst : x.state ≠ .closing)

include hout hheld hst

/-- The head of a galley that holds no line leaves its queue, given to the galley as SPOILED. -/
theorem spoilHead_gives :
    spoilHead c x
      = (Run.start { x with output := rest }).giveException c { l with exceptions := { l.exceptions with spoiled := true } } := by
  obtain ⟨latch, count, events, he, -, -⟩ := Run.giveException_eq c (Run.start { x with output := rest })
    { l with exceptions := { l.exceptions with spoiled := true } }
  simp only [spoilHead, hout, List.tail_cons]
  rw [he, afterHeadLeaves_none c hheld]
  exact Run.offWhenEmpty_stays c (.inl hst)

/-- An empty latch takes the record of the spoiled line, which raises EXCEPTION (R79). -/
theorem spoilHead_latches (hlatch : x.latch = none)
    (he : e = { number := l.number, exceptions := { l.exceptions with spoiled := true }, first := l.first, amount := l.amount }) :
    spoilHead c x
      = { gal := { x with output := rest, latch := some e }, events := [(.exception c.id, .exception e)], stopped := false,
          consumed := 0 } := by
  subst he
  rw [spoilHead_gives c hout hheld hst]
  simp [Run.giveException, ExcSet.isEmpty, ExcSet.none, hlatch, Run.emit, Run.start]

/-- A full latch counts the spoiled line (R79). -/
theorem spoilHead_counts (hlatch : x.latch = some e) :
    spoilHead c x = Run.start { x with output := rest, excCount := min (x.excCount + 1) 255 } := by
  rw [spoilHead_gives c hout hheld hst]
  simp [Run.giveException, ExcSet.isEmpty, ExcSet.none, hlatch, Run.start]

end Spoiling

/-! ### The failure (R147, R148, R151) -/

/-- The notices of a failure: UNIT_FAULT's stands before or behind those that the spoiling raises (R151). -/
def faultNotices (lf : LastFault) (es : List (Flag × EventData)) : List (List (Flag × EventData)) :=
  [(.unitFault, .unitFault lf) :: es, es ++ [(.unitFault, .unitFault lf)]]

theorem UnitLink.failed_view_ne {u : UnitLink} {o : Order} (ho : u.view.outstanding = some o) (fault : FaultCode) :
    (u.failed o fault).view ≠ u.view := fun h => by
  have hnone : none = u.view.outstanding := congrArg UnitView.outstanding h
  rw [ho] at hnone
  cases hnone

/-- A failed line order: the unit link is behind the failure, the galley has spoiled its head, and the notices follow in one of two orders. -/
theorem State.failOrder_line {s : State} {n : Byte} {g : GalleyId} (ho : s.unit.view.outstanding = some { number := n, kind := .line g })
    (fault : FaultCode) {r : Run} (hr : spoilHead (s.ctx g false) (s.galley g) = r) :
    ∃ es ∈ faultNotices { number := n, cut := false, fault := fault } r.events,
      s.failOrder { number := n, kind := .line g } fault
        = ({ s with
              unit := s.unit.failed { number := n, kind := .line g } fault
              free := s.free + 1
              selectionDue := true }.setGalley g r.gal).raiseAll es := by
  subst hr
  have noted (es : List (Flag × EventData)) :
      s.noting ((({ s with unit := s.unit.failed { number := n, kind := .line g } fault, free := s.free + 1 } : State).setGalley g
          (spoilHead (s.ctx g false) (s.galley g)).gal).raiseAll es)
        = ({ s with
              unit := s.unit.failed { number := n, kind := .line g } fault
              free := s.free + 1
              selectionDue := true }.setGalley g (spoilHead (s.ctx g false) (s.galley g)).gal).raiseAll es := by
    rw [State.noting_raiseAll]
    exact congrArg (State.raiseAll · es) (State.noting_of_view (UnitLink.failed_view_ne ho fault))
  unfold State.failOrder
  dsimp only
  split
  · refine ⟨_, List.mem_cons_self, Eq.trans ?_ (noted _)⟩
    simp only [State.spoil, State.commit_eq, State.ctx, State.raise_fonts, State.raise_page, State.raise_galley, State.raise_setGalley]
    rfl
  · refine ⟨_, List.mem_cons_of_mem _ List.mem_cons_self, Eq.trans ?_ (noted _)⟩
    rw [State.raiseAll_append]
    rfl

/-- What a failed line order leaves of the galleys, the events and the link; `State.failOrder_frame` says what it leaves of the rest. -/
theorem State.failOrder_line_leaves {s : State} {n : Byte} {g : GalleyId}
    (ho : s.unit.view.outstanding = some { number := n, kind := .line g }) (fault : FaultCode) {r : Run}
    (hr : spoilHead (s.ctx g false) (s.galley g) = r) {t : State} (ht : s.failOrder { number := n, kind := .line g } fault = t) :
    t.galleys = (s.setGalley g r.gal).galleys ∧
      (∃ es ∈ faultNotices { number := n, cut := false, fault := fault } r.events,
        t.events = (s.raiseAll es).events ∧ t.link = (s.raiseAll es).link) ∧
      t.selectionDue = true := by
  obtain ⟨es, hes, he⟩ := State.failOrder_line ho fault hr
  rw [← ht, he]
  refine ⟨State.raiseAll_galleys _ es, ⟨es, hes, State.raiseAll_congr (t := s) (by exact ⟨rfl, rfl⟩) es⟩, ?_⟩
  rw [State.raiseAll_selectionDue]
  rfl

/-- A failed cut leaves the page CLOSING: UNIT_FAULT is all that it raises (R138). -/
theorem State.failOrder_cut {s : State} {n : Byte} (ho : s.unit.view.outstanding = some { number := n, kind := .cut })
    (fault : FaultCode) :
    s.failOrder { number := n, kind := .cut } fault
      = ({ s with
            unit := s.unit.failed { number := n, kind := .cut } fault
            free := s.free + 1
            selectionDue := true } : State).raise .unitFault (.unitFault { number := n, cut := true, fault := fault }) := by
  simp only [State.failOrder, State.spoil_cut, ite_self, State.noting_raise]
  exact congrArg (State.raise · _ _) (State.noting_of_view (UnitLink.failed_view_ne ho fault))

theorem State.takeFault_outstanding {s : State} {o : Order} (ho : s.unit.view.outstanding = some o) (code : Byte) :
    s.takeFault o.number code = s.failOrder o (.code code) := by
  simp [State.takeFault, ho]

theorem State.takeFault_other {s : State} {n : Byte} (h : ∀ o, s.unit.view.outstanding = some o → o.number ≠ n) (code : Byte) :
    s.takeFault n code = s := by
  unfold State.takeFault
  split
  · rfl
  · exact if_neg (h _ ‹_›)

theorem State.orderExpiry_running {s : State} {o : Order} (ho : s.unit.view.outstanding = some o) (ht : s.unit.orderTimer = true) :
    s.orderExpiry = s.failOrder o .timeout := by
  simp [State.orderExpiry, ho, ht]

theorem State.orderExpiry_idle {s : State} (h : s.unit.orderTimer = false ∨ s.unit.view.outstanding = none) : s.orderExpiry = s := by
  unfold State.orderExpiry
  split
  · rfl
  · rename_i ho
    exact if_neg (by simpa [ho] using h)

/-- Settles O50. -/
theorem failureSpoilsTheLine : Obligations.FailureSpoilsTheLine := by
  refine ⟨fun s n code g l rest lf e ho hout hheld hst hlatch hlf he => ?_,
    fun s n g l rest lf x ho htimer hout hheld hst hlatch hlf => ?_, fun s n code lf ho hlf => ?_, fun s n code h => ?_,
    fun s h => congrArg Host.Outcome.next (State.orderExpiry_idle h)⟩
  · have ho' : s.exposureHunt.unit.view.outstanding = some { number := n, kind := .line g } := ho
    obtain ⟨hunit, hpage, hfonts, hfree, hpending⟩ := s.exposureHunt.failOrder_frame { number := n, kind := .line g } (.code code)
    obtain ⟨hgalleys, ⟨es, hes, hnotices⟩, hdue⟩ := State.failOrder_line_leaves ho' (.code code)
      (spoilHead_latches (s.exposureHunt.ctx g false) (x := s.galley g) hout hheld hst hlatch he) rfl
    subst hlf
    refine ⟨_, congrArg Host.Outcome.next (State.takeFault_outstanding ho' code), ?_, hgalleys, ?_, hfonts, hpage, hdue, hfree,
      hpending⟩
    · rw [hunit]
      simp [UnitLink.without, UnitLink.hunting, FaultCode.isTimeout]
    · obtain ⟨hevents, hlink⟩ := State.raiseAll_congr (s := s.exposureHunt) (t := s) ⟨rfl, rfl⟩ es
      refine ⟨s.raiseAll es, ?_, hnotices.1.trans hevents, hnotices.2.trans hlink⟩
      obtain rfl | rfl := List.mem_pair.1 hes
      · exact List.mem_cons_self
      · exact List.mem_cons_of_mem _ List.mem_cons_self
  · obtain ⟨hunit, hpage, hfonts, hfree, hpending⟩ := s.failOrder_frame { number := n, kind := .line g } .timeout
    obtain ⟨hgalleys, ⟨es, hes, hevents, hlink⟩, hdue⟩ := State.failOrder_line_leaves ho .timeout
      (spoilHead_counts (s.ctx g false) (x := s.galley g) hout hheld hst hlatch) rfl
    have hone : es = [(.unitFault, .unitFault lf)] := by simpa [faultNotices, hlf] using hes
    subst hone hlf
    refine ⟨_, congrArg Host.Outcome.next (State.orderExpiry_running ho htimer), ?_, hgalleys, hevents, hlink, hfonts, hpage, hdue,
      hfree, hpending⟩
    rw [hunit]
    simp [UnitLink.without, FaultCode.isTimeout]
  · subst hlf
    have ho' : s.exposureHunt.unit.view.outstanding = some { number := n, kind := .cut } := ho
    refine congrArg Host.Outcome.next (((State.takeFault_outstanding ho' code).trans (State.failOrder_cut ho' _)).trans ?_)
    simp [UnitLink.failed, UnitLink.without, UnitLink.hunting, FaultCode.isTimeout, State.exposureHunt]
  · exact congrArg Host.Outcome.next (State.takeFault_other (s := s.exposureHunt) h code)

end Sys2Proof.Machine
end

