-- ==== Sys2Proof/Proofs/WaitingCommands.lean ====
section
/-! The queue of commands that wait, which no command changes (log entries 2 and 15). -/

namespace Sys2Proof.Machine

theorem State.Act.pending {s t : State} (h : s.Act t) : t.pending = s.pending := by
  cases h with
  | raised => exact State.raise_pending _ _ _
  | works => exact State.commit_pending _ _ _
  | selected => exact s.selectDue_pending
  | notified | cleared | masked | resetTaken | sets | loads | pageOpened | pageClosed | changes | lineEnded | cutEnded | failed | due => rfl

theorem State.Acts.pending {s t : State} (h : s.Acts t) : t.pending = s.pending := by
  induction h with
  | refl => rfl
  | tail _ hact ih => exact hact.pending.trans ih

theorem State.takeFrame_pending (s : State) (f : LinkFrame) : (s.takeFrame f).pending = s.pending := by
  unfold State.takeFrame
  rw [State.noting_pending]
  split
  · rfl
  · split
    · exact (dispatch_acts s _ _ _).pending
    · rfl

theorem State.completeFrame_pending (s : State) (f : LinkFrame) : (s.completeFrame f).pending = s.pending := by
  unfold State.completeFrame
  dsimp only
  split
  · exact State.takeFrame_pending _ f
  · rfl

theorem State.takeHeldFrame_pending (s : State) : s.takeHeldFrame.pending = s.pending := by
  unfold State.takeHeldFrame
  split
  · rfl
  · split
    · exact State.takeFrame_pending _ _
    · rfl

theorem State.linkByte_pending (s : State) (b : Byte) : (s.linkByte b).pending = s.pending := by
  unfold State.linkByte
  split
  · rfl
  · exact State.completeFrame_pending _ _

theorem State.transmit_pending (s : State) : s.transmit.pending = s.pending := by
  unfold State.transmit
  split
  · rfl
  · split
    · rfl
    · exact State.takeHeldFrame_pending _

theorem State.resetEffect_pending (s : State) : s.resetEffect.pending = s.pending := by
  unfold State.resetEffect
  split <;> rfl

theorem exec_pending {c : Instr} {s t : State} (h : exec c s = .next t) : t.pending = s.pending := by
  obtain h | ⟨f, rfl⟩ | ⟨b, rfl⟩ | rfl | rfl | ⟨early, rfl⟩ | rfl | rfl := exec_acts c s t h
  · exact h.pending
  · exact s.completeFrame_pending f
  · exact s.linkByte_pending b
  · exact s.transmit_pending
  · exact s.resetEffect_pending
  · exact State.takeHeldFrame_pending _
  · rfl
  · rfl

/-- Settles O1. -/
theorem stepRunsTheFrontCommand : Obligations.StepRunsTheFrontCommand := by
  refine ⟨fun s c rest h => ?_, fun s h hdue => ?_, fun s h hdue => ?_, fun c s t => exec_pending⟩
  · simp only [step, h]
  · simp only [step, h, hdue, if_true]
  · simp only [step, h, hdue, Bool.false_eq_true, if_false]

end Sys2Proof.Machine
end

