-- ==== Sys2Proof/Proofs/Receivers.lean ====
section
/-! The receivers of the two links, byte by byte, and the frames and parts of frames that only return them to HUNT (R141, R154 to R157). -/

namespace Sys2Proof.Machine

/-! ### The composing link (R154, R157) -/

/-- Bytes of a frame whose length is in range are no frame before kind, target, body and check stand behind the length (R154). -/
theorem composingComplete_short {l1 l0 : Byte} {rest : List Byte} (hlo : 1 ≤ nat16 l1 l0) (hhi : nat16 l1 l0 ≤ 1100)
    (hshort : rest.length < 3 + nat16 l1 l0) : composingComplete (l1 :: l0 :: rest) = none := by
  match rest with
  | [] =>
    have hrange : ¬(nat16 l1 l0 = 0 ∨ Config.maxBody < nat16 l1 l0) := by
      simp only [Config.maxBody]
      omega
    exact if_neg hrange
  | [_] => rfl
  | _ :: _ :: rest =>
    simp only [List.length_cons] at hshort
    exact if_neg (by omega)

theorem composingComplete_badLength {l1 l0 : Byte} (h : nat16 l1 l0 = 0 ∨ 1100 < nat16 l1 l0) :
    composingComplete [l1, l0] = some .badLength := if_pos h

theorem State.linkByte_hunt {s : State} (b : Byte) (h : s.link.receiver = .hunt) :
    s.linkByte b
      = if b = 0xA5 then { s with link := { s.link with receiver := .frame [], gapTimer := true } } else s := by
  simp only [State.linkByte, ComposingLink.collect, h, Config.composingStart]
  by_cases hb : b = 0xA5
  · simp only [hb, if_true]
  · simp only [hb, if_false]

theorem State.linkByte_joins {s : State} {bs : List Byte} {b : Byte} (h : s.link.receiver = .frame bs)
    (hc : composingComplete (bs ++ [b]) = none) :
    s.linkByte b = { s with link := { s.link with receiver := .frame (bs ++ [b]), gapTimer := true } } := by
  simp only [State.linkByte, ComposingLink.collect, h, hc]

/-- The byte that completes a frame: the frame completes at the receiver (R154). -/
theorem State.linkByte_completes {s : State} {bs : List Byte} {b : Byte} {f : LinkFrame} (h : s.link.receiver = .frame bs)
    (hc : composingComplete (bs ++ [b]) = some f) : s.linkByte b = s.completeFrame f := by
  simp only [State.linkByte, ComposingLink.collect, h, hc]
  rfl

/-! ### The exposure link (R140, R141) -/

theorem exposureComplete_iff {l1 l0 : Byte} {rest : List Byte} :
    exposureComplete (l1 :: l0 :: rest) = true ↔ rest.length = 2 + nat16 l1 l0 := by
  simp only [exposureComplete, List.length_cons, beq_iff_eq]
  omega

theorem State.exposureByte_hunt {s : State} (b : Byte) (h : s.unit.receiver = .hunt) :
    s.exposureByte b
      = if b = 0x5A then { s with unit := { s.unit with receiver := .frame [], gapTimer := true } } else s := by
  simp only [State.exposureByte, h]
  rfl

theorem State.exposureByte_joins {s : State} {bs : List Byte} {b : Byte} (h : s.unit.receiver = .frame bs)
    (hc : exposureComplete (bs ++ [b]) = false) :
    s.exposureByte b = { s with unit := { s.unit with receiver := .frame (bs ++ [b]), gapTimer := true } } := by
  simp only [State.exposureByte, h, hc, Bool.false_eq_true, if_false]

theorem State.exposureByte_completes {s : State} {bs : List Byte} {b : Byte} (h : s.unit.receiver = .frame bs)
    (hc : exposureComplete (bs ++ [b]) = true) : s.exposureByte b = s.exposureFrameDone (bs ++ [b]) := by
  simp only [State.exposureByte, h, hc, if_true]

/-! ### Reports (R141, 8.2) -/

/-- With a right check, kind and length make a DONE report, whatever its number. -/
theorem readReport_done {n check : Byte} (h : byteSum [0, 1, 0x41, n, check] = 0) :
    readReport [0, 1, 0x41, n, check] = some (.done n) := by
  rw [readReport, if_neg (not_not.2 h)]
  exact (if_pos (by decide)).trans (if_pos rfl)

theorem readReport_fault {n code check : Byte} (h : byteSum [0, 2, 0x42, n, code, check] = 0) :
    readReport [0, 2, 0x42, n, code, check] = some (.fault n code) := by
  rw [readReport, if_neg (not_not.2 h)]
  exact if_pos ⟨by decide, rfl⟩

theorem readReport_ready {check : Byte} (h : byteSum [0, 1, 0x43, 0x00, check] = 0) :
    readReport [0, 1, 0x43, 0x00, check] = some .ready := by
  rw [readReport, if_neg (not_not.2 h)]
  exact (if_pos (by decide)).trans ((if_neg (by decide)).trans ((if_pos rfl).trans (if_pos rfl)))

theorem readReport_held {check : Byte} (h : byteSum [0, 1, 0x43, 0x01, check] = 0) :
    readReport [0, 1, 0x43, 0x01, check] = some .held := by
  rw [readReport, if_neg (not_not.2 h)]
  exact (if_pos (by decide)).trans ((if_neg (by decide)).trans ((if_pos rfl).trans ((if_neg (by decide)).trans (if_pos rfl))))

theorem readReport_wrongCheck {bs : List Byte} (h : byteSum bs ≠ 0) : readReport bs = none := if_pos h

/-- A frame whose kind, length and value are no report's is none, whatever its check (R141). -/
theorem readReport_noReport {l1 l0 k : Byte} {body : List Byte} (check : Byte) (hlen : body.length = nat16 l1 l0)
    (hno : ¬((k = 0x41 ∧ body.length = 1) ∨ (k = 0x42 ∧ body.length = 2) ∨
      (k = 0x43 ∧ (body = [0x00] ∨ body = [0x01])))) :
    readReport (l1 :: l0 :: k :: (body ++ [check])) = none := by
  unfold readReport
  split
  · rfl
  match body with
  | [] => rfl
  | [a] =>
    simp only [List.length_singleton, and_true, List.cons.injEq, not_or, not_and] at hno
    obtain ⟨hdone, -, hstate⟩ := hno
    by_cases hk : k = 0x43
    · obtain ⟨hready, hheld⟩ := hstate hk
      exact (if_pos hlen.symm).trans ((if_neg hdone).trans ((if_pos hk).trans ((if_neg hready).trans (if_neg hheld))))
    · exact (if_pos hlen.symm).trans ((if_neg hdone).trans (if_neg hk))
  | [_, _] => exact if_neg fun ⟨_, hk⟩ => hno (.inr (.inl ⟨hk, rfl⟩))
  | [_, _, _] => rfl
  | _ :: _ :: _ :: _ :: _ => rfl

theorem State.exposureFrameDone_report {s : State} {bytes : List Byte} {r : Report} (h : readReport bytes = some r) :
    s.exposureFrameDone bytes = s.exposureHunt.takeReport r := by
  simp only [State.exposureFrameDone, h]

theorem State.exposureFrameDone_discards {s : State} {bytes : List Byte} (h : readReport bytes = none) :
    s.exposureFrameDone bytes = s.exposureHunt := by
  simp only [State.exposureFrameDone, h]

/-- Settles O3: each receiver by its state, and by whether the byte completes what it has collected. -/
theorem bytesAtTheReceivers : Obligations.BytesAtTheReceivers := by
  refine ⟨fun s b h => congrArg Host.Outcome.next (State.linkByte_hunt b h), fun s bs b h hmore => ?_, fun s l1 l0 h hbad => ?_,
    fun s b h => congrArg Host.Outcome.next (State.exposureByte_hunt b h), fun s bs b h hmore => ?_,
    fun s bs b l1 l0 rest h hbytes hwhole => ?_, fun s n code => ⟨?_, ?_, ?_, ?_⟩⟩
  · refine congrArg Host.Outcome.next (State.linkByte_joins h ?_)
    obtain rfl | ⟨l1, l0, rest, hbytes, hlo, hhi, hshort⟩ := hmore
    · rfl
    · rw [hbytes]
      exact composingComplete_short hlo hhi hshort
  · exact congrArg Host.Outcome.next (State.linkByte_completes h (composingComplete_badLength hbad))
  · refine congrArg Host.Outcome.next (State.exposureByte_joins h ?_)
    obtain rfl | ⟨l1, l0, rest, hbytes, hshort⟩ := hmore
    · rfl
    · rw [hbytes]
      exact Bool.eq_false_iff.2 fun hwhole => hshort.ne (exposureComplete_iff.1 hwhole)
  · refine congrArg Host.Outcome.next (State.exposureByte_completes h ?_)
    rw [hbytes]
    exact exposureComplete_iff.2 hwhole
  · exact congrArg Host.Outcome.next (State.exposureFrameDone_report (readReport_done (byteSum_checkOf [0, 1, 0x41, n])))
  · exact congrArg Host.Outcome.next (State.exposureFrameDone_report (readReport_fault (byteSum_checkOf [0, 2, 0x42, n, code])))
  · exact congrArg Host.Outcome.next (State.exposureFrameDone_report (readReport_ready (byteSum_checkOf [0, 1, 0x43, 0x00])))
  · exact congrArg Host.Outcome.next (State.exposureFrameDone_report (readReport_held (byteSum_checkOf [0, 1, 0x43, 0x01])))

/-- Settles O4: a frame from the photo unit is discarded for its check, or for its kind, length and value. -/
theorem partialFramesAreDiscarded : Obligations.PartialFramesAreDiscarded := by
  refine ⟨fun s h => ?_, fun s => rfl, fun s h => congrArg Host.Outcome.next (if_pos h),
    fun s l1 l0 k body check hlen hbad => congrArg Host.Outcome.next (State.exposureFrameDone_discards ?_)⟩
  · exact congrArg (fun l => Host.Outcome.next { s with link := l }) (gapExpiry_running s.link h)
  · obtain hsum | hno := hbad
    · exact readReport_wrongCheck hsum
    · exact readReport_noReport check hlen hno

end Sys2Proof.Machine
end

