-- ==== Sys2Proof/Proofs/UnitStates.lean ====
section
/-! STATE reports, UNIT RESUME, and the QUERY that the query timer and the end of the pause after a reset send (R145, R149, R150, R152,
R177). -/

namespace Sys2Proof.Machine

/-! ### STATE reports (R149) -/

/-- The whole frame of a report leaves the receiver in HUNT, which no selection reads. -/
theorem State.exposureHunt_noting (s t : State) : s.exposureHunt.noting t = s.noting t := State.noting_congr _ _ t rfl rfl

theorem State.exposureHunt_takeReady (s : State) :
    s.exposureHunt.takeReady
      = s.noting { s with unit := { s.unit.hunting with
          view := { s.unit.view with known := true, held := false }, queryTimer := false } } :=
  s.exposureHunt_noting _

theorem State.exposureHunt_takeHeld (s : State) :
    s.exposureHunt.takeHeld
      = s.noting ({ s with unit := { s.unit.hunting with
          view := { s.unit.view with known := true, held := true }, queryTimer := false } }.raise .unitHeld .unitHeld) :=
  s.exposureHunt_noting _

/-! ### UNIT RESUME (R150, R177) -/

/-- The unit view that UNIT RESUME leaves: no fault, no silence, and the unit unknown (R150). -/
def UnitView.resumed (v : UnitView) : UnitView :=
  { v with faulted := false, silent := false, lastFault := none, known := false }

theorem UnitView.resumed_ne {v : UnitView} (h : v.faulted = true ∨ v.silent = true) : v.resumed ≠ v := by
  intro he
  obtain h | h := h
  · have : v.resumed.faulted = true := by rw [he, h]
    cases this
  · have : v.resumed.silent = true := by rw [he, h]
    cases this

theorem handleUnitResume_resumes (s : State) (target : Byte) (body : List Byte)
    (h : s.unit.view.faulted = true ∨ s.unit.view.silent = true) :
    handle .unitResume s target body
      = ({ s with unit := { s.unit with view := s.unit.view.resumed }.ask } : State).accept [] :=
  if_pos (Bool.or_eq_true_iff.2 h)

theorem handleUnitResume_refused (s : State) (target : Byte) (body : List Byte) (hf : s.unit.view.faulted = false)
    (hs : s.unit.view.silent = false) : handle .unitResume s target body = s.refuse .state :=
  if_neg (by simp [hf, hs])

/-- A UNIT RESUME that is accepted: the view is cleared and the unit asked, and a selection comes to be due (R134, R150). -/
theorem completeFrame_unitResume {s : State} (b : Byte) (hcan : s.link.canTake = true)
    (h : s.unit.view.faulted = true ∨ s.unit.view.silent = true) {u : UnitLink}
    (hu : ({ s.unit with view := s.unit.view.resumed } : UnitLink).ask = u) :
    s.completeFrame (goodFrame ReqKind.unitResume.code 0xFF [b])
      = ({ s with selectionDue := true, unit := u } : State).answer 0x32 0xFF .done [] := by
  have hview : u.view ≠ s.unit.view := by
    rw [← hu, UnitLink.ask_view]
    exact UnitView.resumed_ne h
  subst hu
  rw [completeFrame_request s .unitResume _ [b] hcan Domain.part_holds rfl,
    handleUnitResume_resumes { s with link := s.link.hunt } _ _ h, State.accept, place_answer s _ _ _ _ _ rfl]
  exact State.noting_of_view hview

/-! ### The query timer and the pause after a reset (R145, R152, R177) -/

theorem State.queryExpiry_unknown {s : State} (ht : s.unit.queryTimer = true) (hk : s.unit.view.known = false) :
    s.queryExpiry = { s with unit := s.unit.query } := by
  simp only [State.queryExpiry, ht, hk, if_true, Bool.false_eq_true, if_false]

theorem State.queryExpiry_known {s : State} (ht : s.unit.queryTimer = true) (hk : s.unit.view.known = true) :
    s.queryExpiry = { s with unit := { s.unit with queryTimer := false } } := by
  simp only [State.queryExpiry, ht, hk, if_true]

theorem State.queryExpiry_stopped {s : State} (ht : s.unit.queryTimer = false) : s.queryExpiry = s := by
  simp only [State.queryExpiry, ht, Bool.false_eq_true, if_false]

theorem State.pauseEnds_over {s : State} (h : s.unit.resetPause = false) : s.pauseEnds = s := by
  simp only [State.pauseEnds, h, Bool.false_eq_true, if_false]

theorem State.pauseEnds_asks {s : State} (h : s.unit.resetPause = true) :
    s.pauseEnds = { s with unit := { s.unit with resetPause := false }.query } := if_pos h

/-- Settles O51. -/
theorem unitStateIsAskedAndTaken : Obligations.UnitStateIsAskedAndTaken := by
  refine ⟨fun s => congrArg Host.Outcome.next s.exposureHunt_takeReady, fun s => congrArg Host.Outcome.next s.exposureHunt_takeHeld,
    fun s b hcan h hpause => ?_, fun s b hcan h hpause => ?_, fun s b hcan hf hs => ?_,
    fun s ht hk => congrArg Host.Outcome.next (State.queryExpiry_unknown ht hk),
    fun s ht hk => congrArg Host.Outcome.next (State.queryExpiry_known ht hk),
    fun s ht => congrArg Host.Outcome.next (State.queryExpiry_stopped ht),
    fun s h => congrArg Host.Outcome.next (State.pauseEnds_over h), fun s h => congrArg Host.Outcome.next (State.pauseEnds_asks h)⟩
  · exact congrArg Host.Outcome.next (completeFrame_unitResume b hcan h (UnitLink.ask_in_pause hpause))
  · exact congrArg Host.Outcome.next (completeFrame_unitResume b hcan h (UnitLink.ask_past_pause hpause))
  · exact congrArg Host.Outcome.next
      (completeFrame_part_same (k := .unitResume) hcan rfl rfl (handleUnitResume_refused _ _ _ hf hs))

end Sys2Proof.Machine
end

