-- ==== Sys2Proof/Proofs/Frames.lean ====
section
/-! Frames at the composing link receiver: collected from their bytes (R154), held behind a reply (R158), and answered without an owner
(R157, R159). -/

namespace Sys2Proof.Machine

/-! ### A frame from its bytes (R154) -/

/-- The part with its composing receiver inside a frame of which these bytes are collected (R154). -/
def State.collecting (s : State) (bs : List Byte) : State :=
  { s with link := { s.link with receiver := .frame bs, gapTimer := true } }

/-- What the receiver held before a frame completes at it does not matter: it returns to HUNT. -/
theorem State.completeFrame_collecting (s : State) (bs : List Byte) (f : LinkFrame) :
    (s.collecting bs).completeFrame f = s.completeFrame f := rfl

theorem State.linkByte_starts {s : State} (h : s.link.receiver = .hunt) : s.linkByte 0xA5 = s.collecting [] :=
  (State.linkByte_hunt 0xA5 h).trans (if_pos rfl)

theorem State.linkByte_collecting (s : State) {bs : List Byte} {b : Byte} (h : composingComplete (bs ++ [b]) = none) :
    (s.collecting bs).linkByte b = s.collecting (bs ++ [b]) :=
  State.linkByte_joins rfl h

/-- One byte more at the composing receiver, of a part that has not stopped. -/
def collectByte (o : Host.Outcome State Fault Refusal) (b : Byte) : Host.Outcome State Fault Refusal :=
  match o with
  | .next u => exec (.byteCollected b) u
  | stop => stop

theorem collectByte_next (s : State) (b : Byte) : collectByte (.next s) b = .next (s.linkByte b) := rfl

/-- Bytes none of which completes a frame join those collected before. -/
theorem foldl_collectByte (s : State) (bs more : List Byte)
    (h : ∀ p, p <+: more → p ≠ [] → composingComplete (bs ++ p) = none) :
    more.foldl collectByte (.next (s.collecting bs)) = .next (s.collecting (bs ++ more)) := by
  induction more generalizing bs with
  | nil => simp only [List.foldl_nil, List.append_nil]
  | cons b more ih =>
    have hb : composingComplete (bs ++ [b]) = none := h [b] (by simp) (by simp)
    rw [List.foldl_cons, collectByte_next, State.linkByte_collecting s hb, ih, List.append_assoc, List.singleton_append]
    intro p hp _
    rw [List.append_assoc, List.singleton_append]
    exact h (b :: p) (by simpa using hp) (by simp)

/-- The bytes of a frame after its start byte, the last one left out, complete no frame at any point (R154). -/
theorem composingComplete_part {kind target : Byte} {body p : List Byte} (hlo : 1 ≤ body.length) (hhi : body.length ≤ 1100)
    (hp : p <+: be16 body.length ++ [kind, target] ++ body) : composingComplete p = none := by
  have hlength : nat16 (byteOf (body.length / 256)) (byteOf body.length) = body.length := nat16_be16 _ (by omega)
  obtain ⟨rest, hp⟩ := hp
  match p with
  | [] => rfl
  | [_] => rfl
  | l1 :: l0 :: p =>
    obtain ⟨rfl, rfl, hrest⟩ : l1 = byteOf (body.length / 256) ∧ l0 = byteOf body.length ∧ p ++ rest = kind :: target :: body := by
      simpa [be16] using hp
    have hlen := congrArg List.length hrest
    simp only [List.length_append, List.length_cons] at hlen
    exact composingComplete_short (by omega) (by omega) (by omega)

/-- The bytes of a frame after its start byte complete it (R154). -/
theorem composingComplete_whole {kind target check : Byte} {body : List Byte} (hhi : body.length ≤ 1100) :
    composingComplete (be16 body.length ++ [kind, target] ++ body ++ [check]) = some (.whole kind target body check) := by
  have hlength : nat16 (byteOf (body.length / 256)) (byteOf body.length) = body.length := nat16_be16 _ (by omega)
  simp [be16, composingComplete, hlength]

/-- Settles O2: the start byte, the bytes that complete nothing, and the check byte, which completes the frame. -/
theorem receiverCollectsAFrame : Obligations.ReceiverCollectsAFrame := by
  intro s kind target body hhunt hlo hhi
  have hcollects : (be16 body.length ++ [kind, target] ++ body).foldl collectByte (.next (s.collecting []))
      = .next (s.collecting (be16 body.length ++ [kind, target] ++ body)) :=
    foldl_collectByte s [] _ fun p hp _ => composingComplete_part hlo hhi hp
  change (composingFrame kind target body).foldl collectByte (.next s) = .next (s.completeFrame (goodFrame kind target body))
  rw [composingFrame, List.cons_append, List.foldl_cons, collectByte_next]
  rw [show s.linkByte Config.composingStart = s.collecting [] from State.linkByte_starts hhunt, List.foldl_append, hcollects]
  exact congrArg Host.Outcome.next
    ((State.linkByte_completes rfl (composingComplete_whole hhi)).trans (s.completeFrame_collecting _ _))

/-! ### A frame that may not be taken (R158) -/

/-- A reply that waits, or PART RESET under way, keeps a frame from being taken. -/
theorem ComposingLink.canTake_eq_false {l : ComposingLink}
    (h : (∃ k t r d, TxFrame.reply k t r d ∈ l.sendQueue) ∨ l.resetPending = true) : l.canTake = false := by
  rw [ComposingLink.canTake_eq_false_iff]
  refine h.imp_left ?_
  rintro ⟨k, t, r, d, hmem⟩
  exact List.ne_nil_of_mem (List.mem_filter.2 ⟨hmem, rfl⟩)

/-- Settles O5. -/
theorem frameHeldBehindAReply : Obligations.FrameHeldBehindAReply := by
  intro s f h
  refine congrArg Host.Outcome.next ((completeFrame_held s f (ComposingLink.canTake_eq_false h)).trans ?_)
  cases s.link.heldFrame <;> rfl

/-! ### Frames answered without an owner (R157, R159) -/

theorem completeFrame_badLength {s : State} (hcan : s.link.canTake = true) :
    s.completeFrame .badLength = s.answer 0x00 0xFF .badFrame [] := by
  rw [State.completeFrame, if_pos hcan]
  exact (congrArg (State.noting _) (place_refuse s .badFrame 0x00 0xFF)).trans (noting_answer s _ _ _ _)

theorem completeFrame_wrongCheck {s : State} {kind target check : Byte} {body : List Byte} (hcan : s.link.canTake = true)
    (hcheck : checkGood kind target body check = false) :
    s.completeFrame (.whole kind target body check) = s.answer kind target .badFrame [] := by
  rw [State.completeFrame, if_pos hcan]
  simp only [State.takeFrame, hcheck, Bool.false_eq_true, if_false]
  exact (congrArg (State.noting _) (place_refuse s .badFrame kind target)).trans (noting_answer s _ _ _ _)

/-- A good frame that the dispatch refuses is answered with the refusal, and nothing else changes (R159, R160). -/
theorem completeFrame_refused {s : State} {kind target : Byte} {body : List Byte} {r : Result} (hcan : s.link.canTake = true)
    (h : dispatch { s with link := s.link.hunt } kind target body = ({ s with link := s.link.hunt } : State).refuse r) :
    s.completeFrame (goodFrame kind target body) = s.answer kind target r [] := by
  rw [completeFrame_good s _ _ _ hcan, h, place_refuse, noting_answer]

/-- A byte read as a request kind is that kind's code (9.7). -/
theorem code_of_requestKind {b : Byte} {k : ReqKind} (h : requestKind b = some k) : k.code = b := by
  unfold requestKind at h
  split at h <;> cases h
  all_goals
    rename_i hcode
    exact BitVec.eq_of_toNat_eq hcode.symm

theorem dispatch_unknown (s : State) {kind : Byte} (target : Byte) (body : List Byte) (h : ∀ k : ReqKind, k.code ≠ kind) :
    dispatch s kind target body = s.refuse .unknown := by
  have hkind : requestKind kind = none := Option.eq_none_iff_forall_ne_some.2 fun k hk => h k (code_of_requestKind hk)
  simp only [dispatch, hkind]

/-- Settles O6. -/
theorem badAndUnknownFramesReachNoOwner : Obligations.BadAndUnknownFramesReachNoOwner := by
  refine ⟨fun s hcan => congrArg Host.Outcome.next (completeFrame_badLength hcan), fun s kind target body check hcan hsum => ?_,
    fun s kind target body hcan hunknown =>
      congrArg Host.Outcome.next (completeFrame_refused hcan (dispatch_unknown _ target body hunknown))⟩
  exact congrArg Host.Outcome.next (completeFrame_wrongCheck hcan (beq_eq_false_iff_ne.2 hsum))

/-- The target is judged before the length, and both before the owner sees the request (R159 steps 2 and 3). -/
theorem dispatch_misaddressed (s : State) (k : ReqKind) {target : Byte} {body : List Byte}
    (h : k.domain.holds target = false ∨ k.lengthGood body = false) : dispatch s k.code target body = s.refuse .range := by
  simp only [dispatch, ReqKind.requestKind_code]
  cases htarget : k.domain.holds target with
  | false => rfl
  | true =>
    have hlength : k.lengthGood body = false := h.resolve_left (by simp [htarget])
    simp only [hlength, Bool.not_false, if_true, ite_self]

theorem Domain.holds_eq_false {d : Domain} {target : Byte}
    (h : (d = .galley ∧ 4 ≤ target.toNat) ∨ (d = .slot ∧ 16 ≤ target.toNat) ∨ (d = .part ∧ target ≠ 0xFF)) :
    d.holds target = false := by
  obtain ⟨rfl, h⟩ | ⟨rfl, h⟩ | ⟨rfl, h⟩ := h
  · exact decide_eq_false (Nat.not_lt.2 h)
  · exact decide_eq_false (Nat.not_lt.2 h)
  · exact beq_eq_false_iff_ne.2 h

theorem ReqKind.lengthGood_eq_false {k : ReqKind} {body : List Byte} {n : Nat} (hn : k.fixedLength = some n)
    (h : body.length ≠ n) : k.lengthGood body = false := by
  simp only [ReqKind.lengthGood, hn, beq_eq_false_iff_ne.2 h]

/-- Settles O7. -/
theorem misaddressedRequestsChangeNothing : Obligations.MisaddressedRequestsChangeNothing := by
  intro s k target body hcan h
  refine congrArg Host.Outcome.next (completeFrame_refused hcan (dispatch_misaddressed _ k ?_))
  obtain h | h | h | ⟨n, hn, h⟩ := h
  · exact .inl (Domain.holds_eq_false (.inl h))
  · exact .inl (Domain.holds_eq_false (.inr (.inl h)))
  · exact .inl (Domain.holds_eq_false (.inr (.inr h)))
  · exact .inr (ReqKind.lengthGood_eq_false hn h)

end Sys2Proof.Machine
end

