-- ==== Sys2Proof/Proofs/PartReset.lean ====
section
/-! PART RESET: its answer, and the reset behind it (R163). -/

namespace Sys2Proof.Machine

/-- A PART RESET that may be taken: its reply waits, and so does the reset (R163). -/
theorem completeFrame_partReset {s : State} (b : Byte) (hcan : s.link.canTake = true) :
    s.completeFrame (goodFrame ReqKind.partReset.code 0xFF [b])
      = ({ s with link := { s.link with resetPending := true } } : State).answer 0x08 0xFF .done [] := by
  rw [completeFrame_request s .partReset _ _ hcan Domain.part_holds rfl]
  exact (congrArg s.noting (Answer.place_quiet { s with link := { s.link.hunt with resetPending := true } } .done [] _ _)).trans
    (State.noting_same _ _ rfl rfl)

theorem ComposingLink.sendingReset_eq_true {l : ComposingLink} {target : Byte} {data : List Byte} (hpending : l.resetPending = true)
    (hsending : l.sending = some (.reply 0x08 target .done data)) : l.sendingReset = true := by
  simp only [ComposingLink.sendingReset, hpending, hsending, ReqKind.code, BEq.rfl, Bool.and_self]

theorem State.partReset_font (s : State) (n : SlotId) : s.partReset.font n = (s.font n).partReset :=
  Vector.getElem_map _ n.isLt

theorem State.partReset_galley (s : State) (g : GalleyId) : s.partReset.galley g = Galley.reset :=
  Vector.getElem_replicate g.isLt

theorem EventUnit.reset_flag (f : Flag) : EventUnit.reset.flag f = none := Vector.getElem_replicate f.place.isLt

theorem EventUnit.reset_masked (f : Flag) : EventUnit.reset.masked f = false := Vector.getElem_replicate f.kind.isLt

/-- Settles O10. -/
theorem partResetTakesEffectAfterItsReply : Obligations.PartResetTakesEffectAfterItsReply := by
  refine ⟨fun s b hcan => congrArg Host.Outcome.next (completeFrame_partReset b hcan), fun s hpending hsending => ?_⟩
  have heffect : s.resetEffect = s.partReset := if_pos (ComposingLink.sendingReset_eq_true hpending hsending)
  exact ⟨s.partReset, congrArg Host.Outcome.next heffect, rfl, s.partReset_font, s.partReset_galley, rfl, rfl,
    fun f => ⟨EventUnit.reset_flag f, EventUnit.reset_masked f⟩, rfl, rfl, rfl⟩

end Sys2Proof.Machine
end

