-- ==== Sys2Proof/Proofs/Transmitter.lean ====
section
/-! The transmitter's first bytes (R158, R161, R163). A held frame is taken while the receiver may be in the middle of a further one: what a
taken frame does, it does whatever the receiver holds, and it leaves what the receiver holds. -/

namespace Sys2Proof.Machine

/-! ### The receiver apart from the rest of the part -/

/-- The part with its composing receiver and the receiver's gap timer replaced. -/
def State.receiving (s : State) (r : Receiver) (gap : Bool) : State :=
  { s with link := { s.link with receiver := r, gapTimer := gap } }

/-- The answer with the composing receiver of its state replaced. -/
def Answer.receiving (a : Answer) (r : Receiver) (gap : Bool) : Answer := { a with state := a.state.receiving r gap }

section Receiving

variable (s : State) (r : Receiver) (gap : Bool)

/-! ### What is read of the part does not concern the receiver -/

theorem State.receiving_galley (g : GalleyId) : (s.receiving r gap).galley g = s.galley g := rfl
theorem State.receiving_font (n : SlotId) : (s.receiving r gap).font n = s.font n := rfl
theorem State.receiving_fonts : (s.receiving r gap).fonts = s.fonts := rfl
theorem State.receiving_page : (s.receiving r gap).page = s.page := rfl
theorem State.receiving_unit : (s.receiving r gap).unit = s.unit := rfl
theorem State.receiving_events : (s.receiving r gap).events = s.events := rfl
theorem State.receiving_allOff : (s.receiving r gap).allOff = s.allOff := rfl
theorem State.receiving_latches (set : Byte) (g : GalleyId) : (s.receiving r gap).latches set g = s.latches set g := rfl
theorem State.receiving_ctx (g : GalleyId) (stepping : Bool) : (s.receiving r gap).ctx g stepping = s.ctx g stepping := rfl
theorem State.receiving_levelData (f : Flag) : (s.receiving r gap).levelData f = s.levelData f := by
  cases f <;> rfl
theorem State.receiving_refusedBehind (x y : Galley) : refusedBehind (s.receiving r gap) x y = refusedBehind s x y := rfl

/-! ### What is done to the part leaves the receiver -/

theorem State.accept_receiving (data : List Byte) : (s.receiving r gap).accept data = (s.accept data).receiving r gap := rfl

theorem State.setFont_receiving (n : SlotId) (x : Slot) : (s.receiving r gap).setFont n x = (s.setFont n x).receiving r gap := rfl

theorem State.raise_receiving (f : Flag) (d : EventData) : (s.receiving r gap).raise f d = (s.raise f d).receiving r gap := by
  unfold State.raise
  rw [State.receiving_events]
  cases s.events.flag f with
  | some _ => rfl
  | none => cases s.events.masked f <;> rfl

theorem State.raiseAll_receiving (events : List (Flag × EventData)) :
    (s.receiving r gap).raiseAll events = (s.raiseAll events).receiving r gap := by
  induction events generalizing s with
  | nil => rfl
  | cons e events ih => rw [State.raiseAll, State.raiseAll, State.raise_receiving, ih]

theorem State.commit_receiving (g : GalleyId) (run : Run) :
    (s.receiving r gap).commit g run = (s.commit g run).receiving r gap :=
  State.raiseAll_receiving (s.setGalley g run.gal) r gap run.events

theorem State.clearFlag_receiving (f : Flag) : (s.receiving r gap).clearFlag f = (s.clearFlag f).receiving r gap := by
  unfold State.clearFlag
  rw [State.receiving_events, State.receiving_levelData]
  cases s.events.flag f with
  | none => rfl
  | some _ =>
    cases s.levelData f with
    | none => rfl
    | some d => exact State.raise_receiving { s with events := s.events.setFlag f none } r gap f d

theorem State.unmaskNotice_receiving (old : Vector Bool 9) (f : Flag) :
    State.unmaskNotice old (s.receiving r gap) f = (State.unmaskNotice old s f).receiving r gap := by
  unfold State.unmaskNotice
  rw [State.receiving_events]
  split
  · rfl
  · split <;> rfl

theorem State.latch_receiving (set : Byte) (g : GalleyId) :
    State.latch set (s.receiving r gap) g = (State.latch set s g).receiving r gap := by
  unfold State.latch
  rw [State.receiving_latches]
  split <;> rfl

/-- A succession of what leaves the receiver leaves it. -/
theorem State.foldl_receiving {α : Type} {step : State → α → State}
    (h : ∀ (s : State) (x : α), step (s.receiving r gap) x = (step s x).receiving r gap) (xs : List α) :
    xs.foldl step (s.receiving r gap) = (xs.foldl step s).receiving r gap := by
  induction xs generalizing s with
  | nil => rfl
  | cons x xs ih => rw [List.foldl_cons, List.foldl_cons, h, ih]

theorem State.clearFlags_receiving (names : List Flag) :
    (s.receiving r gap).clearFlags names = (s.clearFlags names).receiving r gap :=
  State.foldl_receiving s r gap (fun s => s.clearFlag_receiving r gap) _

theorem State.setMask_receiving (m : Vector Bool 9) : (s.receiving r gap).setMask m = (s.setMask m).receiving r gap :=
  State.foldl_receiving { s with events := { s.events with mask := m } } r gap
    (fun t => t.unmaskNotice_receiving r gap s.events.mask) allFlags

/-! ### A request's owner, whatever the receiver holds (R159 step 4) -/

theorem handleSnapshot_receiving (target : Byte) (body : List Byte) :
    handleSnapshot (s.receiving r gap) target body = (handleSnapshot s target body).receiving r gap :=
  congrArg (fun t => t.accept (handleSnapshot s target body).data)
    (State.foldl_receiving s r gap (fun t => t.latch_receiving r gap (body.headD 0)) [0, 1, 2, 3])

theorem handleEventClear_receiving (target : Byte) (body : List Byte) :
    handleEventClear (s.receiving r gap) target body = (handleEventClear s target body).receiving r gap := by
  unfold handleEventClear
  split
  · rfl
  · split
    · rfl
    · dsimp only
      rw [State.clearFlags_receiving, State.receiving_events, State.accept_receiving]

theorem handleEventMask_receiving (target : Byte) (body : List Byte) :
    handleEventMask (s.receiving r gap) target body = (handleEventMask s target body).receiving r gap := by
  unfold handleEventMask
  split
  · dsimp only
    rw [State.setMask_receiving, State.receiving_events, State.accept_receiving]
  · rfl

theorem drainGalley_receiving (g : GalleyId) : drainGalley (s.receiving r gap) g = (drainGalley s g).receiving r gap := by
  dsimp +instances only [drainGalley, State.receiving_galley, State.receiving_ctx]
  split
  · rfl
  · rw [State.commit_receiving, State.accept_receiving]

theorem discardGalley_receiving (g : GalleyId) : discardGalley (s.receiving r gap) g = (discardGalley s g).receiving r gap := by
  dsimp +instances only [discardGalley, State.receiving_galley, State.receiving_ctx]
  split
  · rfl
  · rw [State.commit_receiving, State.accept_receiving]

theorem handleGalleyClose_receiving (target : Byte) (body : List Byte) :
    handleGalleyClose (s.receiving r gap) target body = (handleGalleyClose s target body).receiving r gap := by
  unfold handleGalleyClose
  split
  · exact drainGalley_receiving s r gap _
  · exact discardGalley_receiving s r gap _
  · rfl

theorem handleFontEnd_receiving (target : Byte) (body : List Byte) :
    handleFontEnd (s.receiving r gap) target body = (handleFontEnd s target body).receiving r gap := by
  dsimp +instances only [handleFontEnd, State.receiving_font]
  split
  · rfl
  · rw [State.setFont_receiving, State.raise_receiving, State.accept_receiving]

/-- Every request, by its kind: its owner judges what is read of the part, and what it then does leaves the receiver. -/
theorem handle_receiving (k : ReqKind) (target : Byte) (body : List Byte) :
    handle k (s.receiving r gap) target body = (handle k s target body).receiving r gap := by
  cases k with
  | status | partReset | galleyReport | fontDrop | fontQuery => rfl
  | snapshot => exact handleSnapshot_receiving s r gap target body
  | eventClear => exact handleEventClear_receiving s r gap target body
  | eventMask => exact handleEventMask_receiving s r gap target body
  | galleyClose => exact handleGalleyClose_receiving s r gap target body
  | fontEnd => exact handleFontEnd_receiving s r gap target body
  -- A galley is replaced, or read.
  | position | param | paramNow | markSet | markClear | galleyOpen | restart | abandon | flush | peek =>
    dsimp +instances only [handle, handlePosition, handleParam, handleParamNow, handleMarkSet, handleMarkClear, handleGalleyOpen,
      handleRestart, handleAbandon, handleFlush, handlePeek, State.receiving_galley, State.receiving_page, State.receiving_refusedBehind]
    repeat' split
    all_goals rfl
  -- A galley's controller works.
  | story | halt | resume | step =>
    dsimp +instances only [handle, handleStory, handleHalt, handleResume, handleStep, State.receiving_galley, State.receiving_page,
      State.receiving_ctx]
    simp only [State.commit_receiving, State.accept_receiving]
    repeat' split
    all_goals rfl
  -- A slot is replaced.
  | fontBegin | fontGlyphs | fontKern =>
    dsimp +instances only [handle, handleFontBegin, handleFontGlyphs, handleFontKern, State.receiving_font, State.receiving_fonts]
    repeat' split
    all_goals rfl
  -- The page record or the unit link controller is replaced.
  | pageOpen | pageClose | unitResume =>
    dsimp +instances only [handle, handlePageOpen, handlePageClose, handleUnitResume, State.receiving_page, State.receiving_unit,
      State.receiving_allOff]
    repeat' split
    all_goals rfl

theorem dispatch_receiving (kind target : Byte) (body : List Byte) :
    dispatch (s.receiving r gap) kind target body = (dispatch s kind target body).receiving r gap := by
  unfold dispatch
  split
  · rfl
  · split
    · rfl
    · split
      · rfl
      · exact handle_receiving s r gap _ target body

/-! ### A taken frame -/

theorem Answer.place_receiving (a : Answer) (queued : Nat) (kind target : Byte) :
    (a.receiving r gap).place queued kind target = (a.place queued kind target).receiving r gap := rfl

theorem State.noting_receiving (t : State) : (s.receiving r gap).noting (t.receiving r gap) = (s.noting t).receiving r gap := rfl

/-- A frame does what it does whatever the receiver holds, and leaves what it holds (R158). -/
theorem State.takeFrame_receiving (f : LinkFrame) : (s.receiving r gap).takeFrame f = (s.takeFrame f).receiving r gap := by
  cases f with
  | badLength => rfl
  | whole kind target body check =>
    simp only [State.takeFrame]
    split
    · rw [dispatch_receiving, Answer.place_receiving, State.noting_receiving]
      rfl
    · rfl

end Receiving

/-! ### The first byte of the next frame (R158, R161, R163) -/

/-- The part with the first byte of the front frame sent. -/
def State.sent (s : State) (f : TxFrame) (rest : List TxFrame) : State :=
  { s with link := { s.link with sending := some f, sendQueue := rest } }

theorem State.transmit_cons {s : State} {f : TxFrame} {rest : List TxFrame} (hreset : s.link.sendingReset = false)
    (hq : s.link.sendQueue = f :: rest) : s.transmit = (s.sent f rest).takeHeldFrame := by
  simp only [State.transmit, hreset, hq, Bool.false_eq_true, if_false, State.sent]

theorem State.takeHeldFrame_none {s : State} (h : s.link.heldFrame = none) : s.takeHeldFrame = s := by
  simp only [State.takeHeldFrame, h]

theorem State.takeHeldFrame_waits {s : State} (h : s.link.canTake = false) : s.takeHeldFrame = s := by
  unfold State.takeHeldFrame
  split
  · rfl
  · simp only [h, Bool.false_eq_true, if_false]

/-- A held frame that may be taken is taken as when it completes, but that what the receiver holds stays (R158). -/
theorem State.takeHeldFrame_takes {s : State} {h : LinkFrame} (hheld : s.link.heldFrame = some h) (hcan : s.link.canTake = true) :
    s.takeHeldFrame
      = (({ s with link := { s.link with heldFrame := none } } : State).completeFrame h).receiving s.link.receiver s.link.gapTimer := by
  simp only [State.takeHeldFrame, hheld, hcan, if_true]
  rw [State.completeFrame, if_pos (show ({ s with link := { s.link with heldFrame := none } } : State).link.canTake = true from hcan),
    ← State.takeFrame_receiving]
  rfl

theorem ComposingLink.sendingReset_of_not_pending {l : ComposingLink} (h : l.resetPending = false) : l.sendingReset = false := by
  simp only [ComposingLink.sendingReset, h, Bool.false_and]

theorem ComposingLink.sendingReset_of_other {l : ComposingLink} (h : ∀ target data, l.sending ≠ some (.reply 0x08 target .done data)) :
    l.sendingReset = false := by
  unfold ComposingLink.sendingReset
  split
  · rename_i kind target data hsending
    have hkind : kind ≠ ReqKind.partReset.code := by
      rintro rfl
      exact h target data hsending
    rw [beq_eq_false_iff_ne.2 hkind, Bool.and_false]
  · exact Bool.and_false _

theorem State.transmit_empty {s : State} (h : s.link.sendQueue = []) : s.transmit = s := by
  simp only [State.transmit, h, ite_self]

theorem ComposingLink.canTake_of_no_reply {l : ComposingLink} (h : ∀ x ∈ l.sendQueue, x.isReply = false)
    (hreset : l.resetPending = false) : l.canTake = true := by
  have hnone : l.sendQueue.any TxFrame.isReply = false := List.any_eq_false.2 fun x hx => by simp [h x hx]
  simp only [ComposingLink.canTake, hreset, hnone, Bool.not_false, Bool.and_self]

/-- Settles O8. -/
theorem transmitStartTakesTheHeldFrame : Obligations.TransmitStartTakesTheHeldFrame := by
  refine ⟨fun s f rest hq hreset hstays => ?_, fun s f rest h hq hreset hno hheld => ?_, fun s f rest hq hreset hother => ?_,
    fun s target data hreset hsending => ?_, fun s hq => congrArg Host.Outcome.next (State.transmit_empty hq)⟩
  · refine congrArg Host.Outcome.next ((State.transmit_cons (ComposingLink.sendingReset_of_not_pending hreset) hq).trans ?_)
    obtain hnone | ⟨x, hx, hreply⟩ := hstays
    · exact State.takeHeldFrame_none hnone
    · refine State.takeHeldFrame_waits ((ComposingLink.canTake_eq_false_iff _).2 (.inl ?_))
      exact List.ne_nil_of_mem (List.mem_filter.2 ⟨hx, hreply⟩)
  · refine ⟨_, rfl, congrArg Host.Outcome.next ?_⟩
    rw [State.transmit_cons (ComposingLink.sendingReset_of_not_pending hreset) hq]
    exact State.takeHeldFrame_takes (s := s.sent f rest) hheld (ComposingLink.canTake_of_no_reply hno hreset)
  · refine congrArg Host.Outcome.next ((State.transmit_cons (ComposingLink.sendingReset_of_other hother) hq).trans ?_)
    exact State.takeHeldFrame_waits ((ComposingLink.canTake_eq_false_iff _).2 (.inr hreset))
  · exact congrArg Host.Outcome.next (if_pos (ComposingLink.sendingReset_eq_true hreset hsending))

end Sys2Proof.Machine
end

