-- ==== Sys2Proof/Proofs/Status.lean ====
section
/-! STATUS (R162): the record in blocks, and what stands in each. -/

namespace Sys2Proof.Machine

/-! ### Sets written as bits (9.7) -/

/-- The number with bit `i` for each place `i` of a list whose element is in the set (9.7). -/
def setBits {α : Type} (p : α → Bool) (l : List α) (first : Nat) : Nat :=
  ((l.zipIdx first).map (fun x => if p x.1 then 2 ^ x.2 else 0)).sum

theorem EventUnit.pendingBits_eq (e : EventUnit) : e.pendingBits = setBits Option.isSome e.flags.toList 0 := rfl

theorem EventUnit.maskBytes_eq (e : EventUnit) : e.maskBytes = be16 (setBits id e.mask.toList 0) := rfl

theorem setBits_cons {α : Type} (p : α → Bool) (x : α) (l : List α) (first : Nat) :
    setBits p (x :: l) first = (if p x then 2 ^ first else 0) + setBits p l (first + 1) := rfl

theorem setBits_succ {α : Type} (p : α → Bool) (l : List α) (first : Nat) :
    setBits p l (first + 1) = 2 * setBits p l first := by
  induction l generalizing first with
  | nil => rfl
  | cons x l ih =>
    rw [setBits_cons, setBits_cons, ih (first + 1)]
    split <;> omega

/-- Each place's bit tells whether its element is in the set. -/
theorem testBit_setBits {α : Type} (p : α → Bool) (l : List α) (i : Nat) : (setBits p l 0).testBit i = l[i]?.any p := by
  induction l generalizing i with
  | nil => simp [setBits]
  | cons x l ih =>
    rw [setBits_cons, setBits_succ]
    cases i with
    | zero => cases hx : p x <;> simp [hx, Nat.testBit_zero]
    | succ i =>
      have hhalf : ((if p x then 2 ^ 0 else 0) + 2 * setBits p l 0) / 2 = setBits p l 0 := by
        split <;> omega
      rw [Nat.testBit_succ, hhalf, ih, List.getElem?_cons_succ]

/-- A bit of a byte of a number, the byte `q` places from the lowest. -/
theorem getLsbD_byteOf_div (n q j : Nat) (hj : j < 8) : (byteOf (n / 2 ^ (8 * q))).getLsbD j = n.testBit (8 * q + j) := by
  simp only [byteOf, BitVec.getLsbD_ofNat, hj, decide_true, Bool.true_and, Nat.testBit_div_two_pow, Nat.add_comm j]

theorem getElem?_be16 (n q : Nat) (hq : q < 2) : (be16 n)[1 - q]? = some (byteOf (n / 2 ^ (8 * q))) := by
  match q with
  | 0 => simp [be16]
  | 1 => simp [be16]

/-- The pending flags stand in their order, the lowest places in the last byte (9.7). -/
theorem EventUnit.pendingBytes_flag (e : EventUnit) (f : Flag) :
    ∃ b ∈ e.pendingBytes[2 - f.place.val / 8]?, b.getLsbD (f.place.val % 8) = (e.flag f).isSome := by
  have hlt := f.place.isLt
  refine ⟨byteOf (e.pendingBits / 2 ^ (8 * (f.place.val / 8))), ?_, ?_⟩
  · have hq : f.place.val / 8 < 3 := by omega
    generalize f.place.val / 8 = q at hq
    match q with
    | 0 => simp [EventUnit.pendingBytes, be16]
    | 1 => simp [EventUnit.pendingBytes, be16]
    | 2 => simp [EventUnit.pendingBytes, be16]
  · rw [getLsbD_byteOf_div _ _ _ (Nat.mod_lt _ (by decide)), Nat.div_add_mod, EventUnit.pendingBits_eq, testBit_setBits]
    simp [EventUnit.flag]

/-- The mask's kinds stand in their order, the lowest places in the last byte (9.7). -/
theorem EventUnit.maskBytes_kind (e : EventUnit) (i : Fin 9) :
    ∃ b ∈ e.maskBytes[1 - i.val / 8]?, b.getLsbD (i.val % 8) = e.mask[i] := by
  rw [EventUnit.maskBytes_eq]
  refine ⟨_, getElem?_be16 _ _ (by omega), ?_⟩
  rw [getLsbD_byteOf_div _ _ _ (Nat.mod_lt _ (by decide)), Nat.div_add_mod, testBit_setBits]
  simp

/-! ### The unit view's bytes (9.7) -/

/-- The outstanding order's four bytes (9.7). -/
def orderBytes (o : Option Order) : List Byte :=
  match o with
  | none => [0, 0, 0, 0xFF]
  | some o => match o.kind with | .line g => [1, o.number, 0, galleyByte g] | .cut => [1, o.number, 1, 0xFF]

/-- The last fault's five bytes (9.7). -/
def faultBytes (f : Option LastFault) : List Byte :=
  match f with
  | none => [0, 0, 0, 0, 0]
  | some f => [1, f.number, flagByte f.cut] ++ match f.fault with | .code c => [0, c] | .timeout => [1, 0]

@[simp] theorem orderBytes_length (o : Option Order) : (orderBytes o).length = 4 := by
  match o with
  | none => rfl
  | some { number := _, kind := .line _ } => rfl
  | some { number := _, kind := .cut } => rfl

@[simp] theorem faultBytes_length (f : Option LastFault) : (faultBytes f).length = 5 := by
  match f with
  | none => rfl
  | some { number := _, cut := _, fault := .code _ } => rfl
  | some { number := _, cut := _, fault := .timeout } => rfl

/-- A unit fault code is one byte below an indication byte of 0, the order timer's an indication byte of 1 (9.7). -/
theorem FaultCode.be16_value (c : FaultCode) : be16 c.value = match c with | .code c => [0, c] | .timeout => [1, 0] := by
  cases c with
  | code c =>
    have hhi : byteOf (c.toNat / 256) = 0 := by rw [Nat.div_eq_of_lt c.isLt]; rfl
    have hlo : byteOf c.toNat = c := BitVec.ofNat_toNat 8 c |>.trans (BitVec.setWidth_eq c)
    simp only [FaultCode.value, be16, hhi, hlo]
  | timeout => rfl

/-- The byte of the unit view's four values (9.7). -/
def UnitView.flagsByte (v : UnitView) : Byte :=
  byteOf (v.known.toNat + 2 * v.held.toNat + 4 * v.faulted.toNat + 8 * v.silent.toNat)

theorem UnitView.flagsByte_bits (v : UnitView) :
    v.flagsByte.toNat < 16 ∧ v.flagsByte.getLsbD 0 = v.known ∧ v.flagsByte.getLsbD 1 = v.held ∧
      v.flagsByte.getLsbD 2 = v.faulted ∧ v.flagsByte.getLsbD 3 = v.silent := by
  unfold UnitView.flagsByte
  generalize v.known = known, v.held = held, v.faulted = faulted, v.silent = silent
  revert known held faulted silent
  decide

theorem UnitView.statusBytes_eq (v : UnitView) :
    v.statusBytes = v.flagsByte :: (orderBytes v.outstanding ++ faultBytes v.lastFault) := by
  unfold UnitView.statusBytes orderBytes faultBytes
  dsimp only
  rcases v.outstanding with _ | ⟨n, _ | _⟩ <;> rcases v.lastFault with _ | f <;> simp [FaultCode.be16_value, UnitView.flagsByte]

/-! ### The record's blocks (9.7) -/

/-- The page's eleven bytes of the record. -/
def Page.statusBytes (p : Page) : List Byte :=
  [byteOf p.state.code] ++ be16 p.number.toNat ++ be16 p.width ++ be16 p.depth ++ be16 p.high ++ be16 p.lastIssued

/-- The galleys' bytes of the record, two for each. -/
def galleyBytes (xs : List Galley) : List Byte := (xs.map (fun x => [byteOf x.state.code, causeByte x.cause])).flatten

/-- The slots' bytes of the record, one for each. -/
def slotBytes (fs : List Slot) : List Byte := fs.map (fun f => byteOf f.state.code)

theorem State.statusRecord_eq (s : State) :
    s.statusRecord = s.page.statusBytes ++ (s.unit.view.statusBytes ++ (galleyBytes s.galleys.toList ++
      (slotBytes s.fonts.toList ++ (be16 (poolUse s.fonts) ++ (s.events.pendingBytes ++ s.events.maskBytes))))) := by
  simp only [State.statusRecord, Page.statusBytes, galleyBytes, slotBytes, List.append_assoc]

@[simp] theorem Page.statusBytes_length (p : Page) : p.statusBytes.length = 11 := rfl

@[simp] theorem UnitView.statusBytes_length (v : UnitView) : v.statusBytes.length = 10 := by
  rw [UnitView.statusBytes_eq, List.length_cons, List.length_append, orderBytes_length, faultBytes_length]

@[simp] theorem galleyBytes_length (xs : List Galley) : (galleyBytes xs).length = 2 * xs.length := by
  induction xs with
  | nil => rfl
  | cons x xs ih =>
    change (galleyBytes xs).length + 2 = _
    rw [ih, List.length_cons]
    omega

/-- The two bytes of the galley at place `i`. -/
theorem galleyBytes_getElem? (xs : List Galley) (i : Nat) :
    (galleyBytes xs)[2 * i]? = xs[i]?.map (fun x => byteOf x.state.code) ∧
      (galleyBytes xs)[2 * i + 1]? = xs[i]?.map (fun x => causeByte x.cause) := by
  induction xs generalizing i with
  | nil => exact ⟨rfl, rfl⟩
  | cons x xs ih =>
    cases i with
    | zero => exact ⟨rfl, rfl⟩
    | succ i => exact ih i

@[simp] theorem slotBytes_length (fs : List Slot) : (slotBytes fs).length = fs.length := List.length_map _

@[simp] theorem EventUnit.pendingBytes_length (e : EventUnit) : e.pendingBytes.length = 3 := rfl

@[simp] theorem EventUnit.maskBytes_length (e : EventUnit) : e.maskBytes.length = 2 := rfl

theorem State.statusRecord_length (s : State) : s.statusRecord.length = 52 := by
  simp [State.statusRecord_eq]

section Block

variable {r pre block post : List Byte} {n : Nat}

/-- A block of a record, by where it begins and how long it is. -/
theorem take_drop_block {m : Nat} (hr : r = pre ++ (block ++ post)) (hpre : pre.length = n) (hblock : block.length = m) :
    (r.drop n).take m = block := by
  rw [hr, List.drop_left' hpre, List.take_left' hblock]

/-- A byte of a block of a record, by where the block begins. -/
theorem getElem?_block {i : Nat} (hr : r = pre ++ (block ++ post)) (hpre : pre.length = n) (hi : i < block.length) :
    r[n + i]? = block[i]? := by
  rw [hr, ← hpre, List.getElem?_append_right (Nat.le_add_right _ _), Nat.add_sub_cancel_left, List.getElem?_append_left hi]

end Block

/-! ### Where 9.7 puts each block -/

theorem State.statusRecord_page (s : State) : s.statusRecord.take 11 = s.page.statusBytes := by
  rw [s.statusRecord_eq, List.take_left' s.page.statusBytes_length]

theorem State.statusRecord_flags (s : State) : s.statusRecord[11]? = some s.unit.view.flagsByte := by
  refine (getElem?_block (i := 0) s.statusRecord_eq s.page.statusBytes_length (by simp)).trans ?_
  rw [UnitView.statusBytes_eq, List.getElem?_cons_zero]

/-- The record around the two parts of the unit view that are of several bytes. -/
theorem State.statusRecord_view (s : State) :
    s.statusRecord = (s.page.statusBytes ++ [s.unit.view.flagsByte]) ++ (orderBytes s.unit.view.outstanding ++
      (faultBytes s.unit.view.lastFault ++ (galleyBytes s.galleys.toList ++ (slotBytes s.fonts.toList ++
        (be16 (poolUse s.fonts) ++ (s.events.pendingBytes ++ s.events.maskBytes)))))) := by
  simp only [State.statusRecord_eq, UnitView.statusBytes_eq, List.append_assoc, List.cons_append, List.nil_append]

theorem State.statusRecord_order (s : State) : (s.statusRecord.drop 12).take 4 = orderBytes s.unit.view.outstanding :=
  take_drop_block s.statusRecord_view rfl (orderBytes_length _)

theorem State.statusRecord_fault (s : State) : (s.statusRecord.drop 16).take 5 = faultBytes s.unit.view.lastFault :=
  take_drop_block (s.statusRecord_view.trans (List.append_assoc _ _ _).symm) (by simp) (faultBytes_length _)

/-- The record with what stands before the galleys' bytes in one. -/
theorem State.statusRecord_galleys (s : State) :
    s.statusRecord = (s.page.statusBytes ++ s.unit.view.statusBytes) ++ (galleyBytes s.galleys.toList ++
      (slotBytes s.fonts.toList ++ (be16 (poolUse s.fonts) ++ (s.events.pendingBytes ++ s.events.maskBytes)))) := by
  simp only [State.statusRecord_eq, List.append_assoc]

theorem State.statusRecord_galley (s : State) (g : GalleyId) :
    s.statusRecord[21 + 2 * g.val]? = some (byteOf (s.galley g).state.code) ∧
      s.statusRecord[22 + 2 * g.val]? = some (causeByte (s.galley g).cause) := by
  have hg : s.galleys.toList[g.val]? = some (s.galley g) := by simp [State.galley]
  obtain ⟨hstate, hcause⟩ := galleyBytes_getElem? s.galleys.toList g.val
  have hbyte {i : Nat} (hi : i < 8) : s.statusRecord[21 + i]? = (galleyBytes s.galleys.toList)[i]? :=
    getElem?_block s.statusRecord_galleys (by simp) (by simpa using hi)
  have hlt := g.isLt
  rw [show 22 + 2 * g.val = 21 + (2 * g.val + 1) by omega, hbyte (by omega), hbyte (by omega), hstate, hcause, hg]
  exact ⟨rfl, rfl⟩

/-- The record with what stands before the slots' bytes in one. -/
theorem State.statusRecord_slots (s : State) :
    s.statusRecord = (s.page.statusBytes ++ s.unit.view.statusBytes ++ galleyBytes s.galleys.toList) ++ (slotBytes s.fonts.toList ++
      (be16 (poolUse s.fonts) ++ (s.events.pendingBytes ++ s.events.maskBytes))) := by
  simp only [State.statusRecord_eq, List.append_assoc]

theorem State.statusRecord_slot (s : State) (n : SlotId) : s.statusRecord[29 + n.val]? = some (byteOf (s.font n).state.code) := by
  refine (getElem?_block s.statusRecord_slots (by simp) (by simp)).trans ?_
  simp [slotBytes, State.font]

theorem State.statusRecord_pool (s : State) : (s.statusRecord.drop 45).take 2 = be16 (poolUse s.fonts) :=
  take_drop_block (s.statusRecord_slots.trans (List.append_assoc _ _ _).symm) (by simp) rfl

/-- The record with what stands before the event unit's bytes in one. -/
theorem State.statusRecord_events (s : State) :
    s.statusRecord = (s.page.statusBytes ++ s.unit.view.statusBytes ++ galleyBytes s.galleys.toList ++ slotBytes s.fonts.toList ++
      be16 (poolUse s.fonts)) ++ (s.events.pendingBytes ++ s.events.maskBytes) := by
  simp only [State.statusRecord_eq, List.append_assoc]

theorem State.statusRecord_pending (s : State) {i : Nat} (hi : i < 3) : s.statusRecord[47 + i]? = s.events.pendingBytes[i]? :=
  getElem?_block s.statusRecord_events (by simp) hi

theorem State.statusRecord_mask (s : State) {i : Nat} (hi : i < 2) : s.statusRecord[50 + i]? = s.events.maskBytes[i]? :=
  getElem?_block (s.statusRecord_events.trans (by rw [← List.append_assoc, List.append_nil])) (by simp) hi

/-! ### The request (R162) -/

theorem completeFrame_status {s : State} (b : Byte) (hcan : s.link.canTake = true) :
    s.completeFrame (goodFrame ReqKind.status.code 0xFF [b]) = s.answer 0x01 0xFF .done s.statusRecord := by
  rw [completeFrame_request s .status _ _ hcan Domain.part_holds rfl]
  exact (congrArg s.noting (place_answer s _ .done s.statusRecord _ _ rfl)).trans (noting_answer s _ _ _ _)

/-- Settles O9. -/
theorem statusReportsTheStateOfOneMoment : Obligations.StatusReportsTheStateOfOneMoment := by
  intro s b hcan
  refine ⟨s.statusRecord, congrArg Host.Outcome.next (completeFrame_status b hcan), s.statusRecord_length, s.statusRecord_page,
    ⟨_, s.statusRecord_flags, s.unit.view.flagsByte_bits⟩, s.statusRecord_order, s.statusRecord_fault, s.statusRecord_galley,
    s.statusRecord_slot, s.statusRecord_pool, fun f _ => ?_, fun i => ?_⟩
  · have hlt := f.place.isLt
    rw [show 49 - f.place.val / 8 = 47 + (2 - f.place.val / 8) by omega, s.statusRecord_pending (by omega)]
    exact s.events.pendingBytes_flag f
  · rw [show 51 - i.val / 8 = 50 + (1 - i.val / 8) by omega, s.statusRecord_mask (by omega)]
    exact s.events.maskBytes_kind i

end Sys2Proof.Machine
end

