-- ==== Sys2Proof/Proofs/EventRequests.lean ====
section
/-! A raise (R168, R169), EVENT CLEAR (R171, R172) and EVENT MASK (R170). -/

namespace Sys2Proof.Machine

/-! ### A raise (R168, R169) -/

theorem State.raise_of_set {s : State} {f : Flag} {e : EventData} (h : s.events.flag f = some e) (d : EventData) :
    s.raise f d = s := by
  simp [State.raise, h]

theorem State.raise_of_masked {s : State} {f : Flag} (h : s.events.flag f = none) (hm : s.events.masked f = true) (d : EventData) :
    s.raise f d = { s with events := s.events.setFlag f (some d) } := by
  simp [State.raise, h, hm]

theorem State.raise_of_unmasked {s : State} {f : Flag} (h : s.events.flag f = none) (hm : s.events.masked f = false) (d : EventData) :
    s.raise f d = ({ s with events := s.events.setFlag f (some d) } : State).notify f d := by
  simp [State.raise, h, hm]

/-- Whatever becomes of its notice, a raise into a clear flag sets that flag (R168). -/
theorem State.raise_events {s : State} {f : Flag} (h : s.events.flag f = none) (d : EventData) :
    (s.raise f d).events = s.events.setFlag f (some d) := by
  cases hm : s.events.masked f with
  | true => rw [State.raise_of_masked h hm]
  | false => rw [State.raise_of_unmasked h hm, State.notify_events]

theorem isNoticeOf_eq_false_of_absent {f : Flag} {q : List TxFrame} (h : ∀ e, TxFrame.notice f e ∉ q) :
    ∀ x ∈ q, x.isNoticeOf f = false := by
  intro x hx
  refine eq_false_of_ne_true fun hf => ?_
  obtain ⟨e, rfl⟩ := TxFrame.eq_notice_of_isNoticeOf hf
  exact h e hx

/-- Settles O13: a set flag absorbs the raise; a clear one is set, and its notice is placed by where a notice of it waits. -/
theorem raiseSetsTheFlagAndNotifies : Obligations.RaiseSetsTheFlagAndNotifies := by
  refine ⟨fun s f d e h => State.raise_of_set h d, fun s f d h => ⟨?_, fun f' hne => ?_, s.raise_mask f d, fun hm => ?_,
    fun hm habsent => ?_, fun hm q1 e q2 hq habsent => ?_, s.raise_fonts f d, s.raise_galleys f d, s.raise_page f d,
    s.raise_unit f d, s.raise_selectionDue f d, s.raise_free f d, s.raise_pending f d⟩⟩
  · rw [State.raise_events h, EventUnit.flag_setFlag_self]
  · rw [State.raise_events h, EventUnit.flag_setFlag_ne _ _ hne]
  · rw [State.raise_of_masked h hm]
  · rw [State.raise_of_unmasked h hm, State.notify, placeNotice_of_absent _ _ _ (isNoticeOf_eq_false_of_absent habsent)]
  · rw [State.raise_of_unmasked h hm, State.notify, hq,
      placeNotice_of_waiting _ _ _ _ _ (isNoticeOf_eq_false_of_absent habsent)]

/-! ### What the event unit's requests leave of the part -/

/-- The parts `s` and `t` differ at most in the composing link and the event unit. -/
def State.EventChange (s t : State) : Prop := t = { s with link := t.link, events := t.events }

theorem State.EventChange.refl (s : State) : s.EventChange s := rfl

theorem State.EventChange.trans {s t u : State} (h : s.EventChange t) (h' : t.EventChange u) : s.EventChange u := by
  unfold State.EventChange at h'
  rw [h] at h'
  exact h'

theorem State.EventChange.blocks {s t : State} (h : s.EventChange t) :
    t.fonts = s.fonts ∧ t.galleys = s.galleys ∧ t.page = s.page ∧ t.unit = s.unit ∧ t.selectionDue = s.selectionDue ∧
      t.free = s.free ∧ t.pending = s.pending := by
  unfold State.EventChange at h
  rw [h]
  exact ⟨rfl, rfl, rfl, rfl, rfl, rfl, rfl⟩

theorem State.EventChange.noting {s t : State} (h : s.EventChange t) : s.noting t = t := by
  obtain ⟨-, hgalleys, hpage, hunit, hdue, -, -⟩ := h.blocks
  exact State.noting_same s t (by simp only [State.watched, hgalleys, hpage, hunit]) hdue

/-- The level conditions stand in the unit view (R172). -/
theorem State.EventChange.levelData {s t : State} (h : s.EventChange t) (f : Flag) : t.levelData f = s.levelData f := by
  obtain ⟨-, -, -, hunit, -⟩ := h.blocks
  cases f <;> simp [State.levelData, hunit]

theorem State.raise_eventChange (s : State) (f : Flag) (d : EventData) : s.EventChange (s.raise f d) := by
  obtain ⟨_, _, h⟩ | ⟨_, _, h⟩ | ⟨_, _, h⟩ := s.raise_cases f d <;> rw [h] <;> rfl

/-- A pass over the flags, each of which is treated within the link and the event unit. -/
theorem State.foldl_eventChange {act : State → Flag → State} (h : ∀ s f, State.EventChange s (act s f)) (fs : List Flag) (s : State) :
    s.EventChange (fs.foldl act s) := by
  induction fs generalizing s with
  | nil => exact .refl s
  | cons f fs ih => exact (h s f).trans (ih _)

theorem Answer.mem_place (a : Answer) (queued : Nat) (kind target : Byte) (x : TxFrame) :
    x ∈ (a.place queued kind target).link.sendQueue ↔ x = .reply kind target a.result a.data ∨ x ∈ a.state.link.sendQueue := by
  have hsplit : x ∈ a.state.link.sendQueue ↔ x ∈ a.state.link.sendQueue.take queued ∨ x ∈ a.state.link.sendQueue.drop queued := by
    rw [← List.mem_append, List.take_append_drop]
  simp only [Answer.place, List.mem_append, List.mem_cons, hsplit]
  exact or_left_comm

/-- The reply of an owner that placed no notice (R161). -/
theorem Answer.place_link {s u : State} (h : u.link = s.link.hunt) (data : List Byte) (kind target : Byte) :
    ((u.accept data).place s.link.sendQueue.length kind target).link = (s.answer kind target .done data).link := by
  rw [State.accept, place_answer s u _ _ _ _ h]

/-- A request of the part that its owner answers with `u` and `data`, where `u` differs in the link and the event unit alone: the reply
is placed beside the notices, and no selection comes to be due (R134, R161). -/
theorem completeFrame_eventChange {s u : State} {k : ReqKind} {body data : List Byte} (hcan : s.link.canTake = true)
    (hd : k.domain = .part) (hl : k.lengthGood body = true) (hu : ({ s with link := s.link.hunt } : State).EventChange u)
    (h : handle k { s with link := s.link.hunt } 0xFF body = u.accept data) :
    ∃ t, s.completeFrame (goodFrame k.code 0xFF body) = t ∧ s.EventChange t ∧ t.events = u.events ∧
      (∀ x, x ∈ t.link.sendQueue ↔ x = .reply k.code 0xFF .done data ∨ x ∈ u.link.sendQueue) ∧
      (u.link = s.link.hunt → t.link = (s.answer k.code 0xFF .done data).link) := by
  have hhunt : s.EventChange { s with link := s.link.hunt } := rfl
  have hplace : s.EventChange ((u.accept data).place s.link.sendQueue.length k.code 0xFF) := (hhunt.trans hu).trans rfl
  refine ⟨_, ?_, hplace, rfl, Answer.mem_place (u.accept data) _ _ _, fun hlink => Answer.place_link hlink _ _ _⟩
  rw [completeFrame_request s k _ body hcan (hd ▸ Domain.part_holds) hl, h]
  exact hplace.noting

/-! ### The names of an EVENT CLEAR (R171) -/

theorem readFlagName_name (f : Flag) : ∃ code who, f.name = [code, who] ∧ readFlagName code who = some f := by
  refine ⟨_, _, rfl, ?_⟩
  cases f with
  | halted g | exception g | released g | closed g =>
    simp [readFlagName, Flag.kind, byteOf, galleyByte_toNat_lt, galleyOf_galleyByte]
  | unitHeld | unitFault | pageDone | fontDone | fontAbandoned => decide

theorem readFlagNames_names (names : List Flag) : readFlagNames (names.map Flag.name).flatten = some names := by
  induction names with
  | nil => rfl
  | cons f names ih =>
    obtain ⟨code, who, hname, hread⟩ := readFlagName_name f
    rw [List.map_cons, List.flatten_cons, hname, List.cons_append, List.cons_append, List.nil_append, readFlagNames, hread, ih]

theorem handleEventClear_names (s : State) (target : Byte) {names : List Flag} (hlo : 1 ≤ names.length) (hhi : names.length ≤ 21) :
    handleEventClear s target (names.map Flag.name).flatten = (s.clearFlags names).accept (s.clearFlags names).events.pendingBytes := by
  have hempty : names.isEmpty = false := by
    rw [List.isEmpty_eq_false_iff, ← List.length_pos_iff]
    exact hlo
  simp only [handleEventClear, readFlagNames_names, hempty, Nat.not_lt.2 hhi, Bool.false_eq_true, or_self, if_false]

/-! ### One flag cleared (R171, R172) -/

theorem State.clearFlag_of_clear {s : State} {f : Flag} (h : s.events.flag f = none) : s.clearFlag f = s := by
  simp [State.clearFlag, h]

theorem State.clearFlag_of_noLevel {s : State} {f : Flag} {e : EventData} (h : s.events.flag f = some e) (hl : s.levelData f = none) :
    s.clearFlag f = { s with events := s.events.setFlag f none } := by
  simp [State.clearFlag, h, hl]

theorem State.clearFlag_of_level {s : State} {f : Flag} {e d : EventData} (h : s.events.flag f = some e)
    (hl : s.levelData f = some d) :
    s.clearFlag f = ({ s with events := s.events.setFlag f none } : State).raise f d := by
  simp [State.clearFlag, h, hl]

theorem State.clearFlag_eventChange (s : State) (f : Flag) : s.EventChange (s.clearFlag f) := by
  cases h : s.events.flag f with
  | none => rw [State.clearFlag_of_clear h]; exact .refl s
  | some e =>
    cases hl : s.levelData f with
    | none => rw [State.clearFlag_of_noLevel h hl]; rfl
    | some d =>
      rw [State.clearFlag_of_level h hl]
      exact State.EventChange.trans (t := { s with events := s.events.setFlag f none }) rfl (State.raise_eventChange _ f d)

theorem State.clearFlag_mask (s : State) (f : Flag) : (s.clearFlag f).events.mask = s.events.mask := by
  cases h : s.events.flag f with
  | none => rw [State.clearFlag_of_clear h]
  | some e =>
    cases hl : s.levelData f with
    | none => rw [State.clearFlag_of_noLevel h hl]; rfl
    | some d => rw [State.clearFlag_of_level h hl, State.raise_mask]; rfl

/-- Clearing leaves a set flag with the data its level condition gives, and every other flag as it was. -/
theorem State.clearFlag_flag (s : State) (f f' : Flag) :
    (s.clearFlag f).events.flag f'
      = if f' = f then (s.events.flag f).bind (fun _ => s.levelData f) else s.events.flag f' := by
  cases h : s.events.flag f with
  | none =>
    rw [State.clearFlag_of_clear h]
    split
    · rename_i he
      rw [he, h]
      rfl
    · rfl
  | some e =>
    have hevents : (s.clearFlag f).events = (s.events.setFlag f none).setFlag f (s.levelData f) := by
      cases hl : s.levelData f with
      | none => rw [State.clearFlag_of_noLevel h hl]; simp [EventUnit.setFlag]
      | some d => rw [State.clearFlag_of_level h hl, State.raise_events (EventUnit.flag_setFlag_self _ _ _)]
    rw [hevents]
    split
    · subst f'
      exact EventUnit.flag_setFlag_self _ _ _
    · rename_i hne
      rw [EventUnit.flag_setFlag_ne _ _ hne, EventUnit.flag_setFlag_ne _ _ hne]

theorem State.clearFlag_link {s : State} {f : Flag} (h : s.levelData f = none) : (s.clearFlag f).link = s.link := by
  cases hf : s.events.flag f with
  | none => rw [State.clearFlag_of_clear hf]
  | some e => rw [State.clearFlag_of_noLevel hf h]

/-! ### The named flags cleared (R171) -/

theorem State.foldl_clearFlag_mask (fs : List Flag) (s : State) : (fs.foldl State.clearFlag s).events.mask = s.events.mask := by
  induction fs generalizing s with
  | nil => rfl
  | cons f fs ih => exact (ih _).trans (s.clearFlag_mask f)

theorem State.foldl_clearFlag_flag (fs : List Flag) (s : State) (f : Flag) :
    (fs.foldl State.clearFlag s).events.flag f
      = if f ∈ fs then (s.events.flag f).bind (fun _ => s.levelData f) else s.events.flag f := by
  induction fs generalizing s with
  | nil => rfl
  | cons x fs ih =>
    rw [List.foldl_cons, ih, (s.clearFlag_eventChange x).levelData, s.clearFlag_flag]
    by_cases hx : f = x
    · subst hx
      cases s.events.flag f <;> cases s.levelData f <;> simp
    · simp [hx]

theorem State.foldl_clearFlag_link (fs : List Flag) (s : State) (h : ∀ f, s.levelData f = none) :
    (fs.foldl State.clearFlag s).link = s.link := by
  induction fs generalizing s with
  | nil => rfl
  | cons f fs ih =>
    have hlevel : ∀ f', (s.clearFlag f).levelData f' = none := fun f' => ((s.clearFlag_eventChange f).levelData f').trans (h f')
    exact (ih _ hlevel).trans (State.clearFlag_link (h f))

theorem State.clearFlags_flag (s : State) (names : List Flag) (f : Flag) :
    (s.clearFlags names).events.flag f
      = if f ∈ names then (s.events.flag f).bind (fun _ => s.levelData f) else s.events.flag f := by
  simp [State.clearFlags, State.foldl_clearFlag_flag, mem_allFlags]

theorem State.levelData_of_fit {s : State} (h : s.unit.view.held = false ∧ s.unit.view.faulted = false ∧ s.unit.view.silent = false)
    (f : Flag) : s.levelData f = none := by
  cases f <;> simp [State.levelData, h]

/-- Settles O14: the names are read back, each named flag is cleared, and the reply stands among the notices of those that came back. -/
theorem eventClearClearsTheNamedFlags : Obligations.EventClearClearsTheNamedFlags := by
  intro s names hcan hlo hhi
  have hchange : ({ s with link := s.link.hunt } : State).EventChange (({ s with link := s.link.hunt } : State).clearFlags names) :=
    State.foldl_eventChange State.clearFlag_eventChange _ _
  obtain ⟨t, ht, hframe, hevents, hqueue, hlink⟩ :=
    completeFrame_eventChange (k := .eventClear) hcan rfl rfl hchange (handleEventClear_names _ 0xFF hlo hhi)
  rw [← hevents] at hqueue hlink
  refine ⟨t, congrArg Host.Outcome.next ht, fun f => ?_, ?_, (hqueue _).2 (.inl rfl), fun hfit => hlink ?_, hframe.blocks⟩
  · rw [hevents, State.clearFlags_flag]
    cases s.events.flag f with
    | none => simp
    | some e => cases f <;> rfl
  · rw [hevents]
    exact State.foldl_clearFlag_mask _ _
  · exact State.foldl_clearFlag_link _ _ (State.levelData_of_fit hfit)

/-! ### The mask (R170) -/

theorem EventUnit.masked_readMask (e : EventUnit) (hi lo : Byte) (f : Flag) :
    ({ e with mask := readMask hi lo } : EventUnit).masked f = (hi.toNat * 256 + lo.toNat).testBit f.kind.val := by
  simp [EventUnit.masked, readMask, nat16]

/-- The reply gives the mask's nine bits back, and 0 above them (log entry 24). -/
theorem EventUnit.maskBytes_readMask {e : EventUnit} {hi lo : Byte} (h : e.mask = readMask hi lo) :
    e.maskBytes = be16 ((hi.toNat * 256 + lo.toNat) % 512) := by
  rw [EventUnit.maskBytes_eq, h]
  refine congrArg be16 (Nat.eq_of_testBit_eq fun i => ?_)
  rw [testBit_setBits, show 512 = 2 ^ 9 from rfl, Nat.testBit_mod_two_pow]
  by_cases hi9 : i < 9
  · simp [readMask, nat16, hi9]
  · simp [readMask, hi9]

/-! ### One flag's notice at an unmasking (R170) -/

section Unmasking

variable {old : Vector Bool 9} {s : State} {f : Flag}

theorem State.unmaskNotice_of_unmasked {d : EventData} (h : s.events.flag f = some d) (hold : old[f.kind] = true)
    (hnew : s.events.masked f = false) : State.unmaskNotice old s f = s.notify f d := by
  simp [State.unmaskNotice, h, hold, hnew]

theorem State.unmaskNotice_of_not (h : s.events.flag f = none ∨ old[f.kind] = false ∨ s.events.masked f = true) :
    State.unmaskNotice old s f = s := by
  unfold State.unmaskNotice
  split
  · rfl
  · rename_i d hf
    obtain h | h | h := h
    · simp [h] at hf
    · simp [h]
    · simp [h]

/-- At an unmasking a flag's notice is placed with the data the flag holds, or nothing is done. -/
theorem State.unmaskNotice_cases (old : Vector Bool 9) (s : State) (f : Flag) :
    State.unmaskNotice old s f = s ∨ ∃ d, s.events.flag f = some d ∧ State.unmaskNotice old s f = s.notify f d := by
  cases hf : s.events.flag f with
  | none => exact .inl (State.unmaskNotice_of_not (.inl hf))
  | some d =>
    cases hold : old[f.kind] with
    | false => exact .inl (State.unmaskNotice_of_not (.inr (.inl hold)))
    | true =>
      cases hnew : s.events.masked f with
      | true => exact .inl (State.unmaskNotice_of_not (.inr (.inr hnew)))
      | false => exact .inr ⟨d, rfl, State.unmaskNotice_of_unmasked hf hold hnew⟩

theorem State.unmaskNotice_eventChange (old : Vector Bool 9) (s : State) (f : Flag) : s.EventChange (State.unmaskNotice old s f) := by
  obtain h | ⟨d, -, h⟩ := State.unmaskNotice_cases old s f <;> (rw [h]; rfl)

theorem State.unmaskNotice_events (old : Vector Bool 9) (s : State) (f : Flag) : (State.unmaskNotice old s f).events = s.events := by
  obtain h | ⟨d, -, h⟩ := State.unmaskNotice_cases old s f
  · rw [h]
  · rw [h, State.notify_events]

theorem mem_placeNotice_self (f : Flag) (d : EventData) (q : List TxFrame) : TxFrame.notice f d ∈ placeNotice f d q := by
  induction q with
  | nil => exact List.mem_singleton.2 rfl
  | cons x q ih =>
    unfold placeNotice
    split
    · exact List.mem_cons_self
    · exact List.mem_cons_of_mem _ ih

/-- A frame that is no notice of the flag stays in the queue. -/
theorem mem_placeNotice_of_mem {d : EventData} {q : List TxFrame} {x : TxFrame} (hx : x.isNoticeOf f = false) (h : x ∈ q) :
    x ∈ placeNotice f d q := by
  induction q with
  | nil => cases h
  | cons y q ih =>
    unfold placeNotice
    split
    · rename_i hy
      obtain rfl | h := List.mem_cons.1 h
      · simp [hx] at hy
      · exact List.mem_cons_of_mem _ h
    · exact (List.mem_cons.1 h).elim (· ▸ List.mem_cons_self) fun h => List.mem_cons_of_mem _ (ih h)

/-- A waiting notice with the data its flag holds stays, whichever flag's notice is placed. -/
theorem State.unmaskNotice_keeps {f' : Flag} {d : EventData} (hf : s.events.flag f = some d)
    (h : TxFrame.notice f d ∈ s.link.sendQueue) : TxFrame.notice f d ∈ (State.unmaskNotice old s f').link.sendQueue := by
  obtain he | ⟨d', hf', he⟩ := State.unmaskNotice_cases old s f' <;> rw [he]
  · exact h
  · by_cases hne : f = f'
    · subst hne
      obtain rfl := Option.some.inj (hf.symm.trans hf')
      exact mem_placeNotice_self _ _ _
    · exact mem_placeNotice_of_mem (beq_eq_false_iff_ne.2 hne) h

/-! ### The pass over the flags (R170) -/

theorem State.foldl_unmaskNotice_events (old : Vector Bool 9) (fs : List Flag) (s : State) :
    (fs.foldl (State.unmaskNotice old) s).events = s.events := by
  induction fs generalizing s with
  | nil => rfl
  | cons f fs ih => exact (ih _).trans (State.unmaskNotice_events old s f)

theorem State.foldl_unmaskNotice_keeps {fs : List Flag} {d : EventData} (hf : s.events.flag f = some d)
    (h : TxFrame.notice f d ∈ s.link.sendQueue) : TxFrame.notice f d ∈ (fs.foldl (State.unmaskNotice old) s).link.sendQueue := by
  induction fs generalizing s with
  | nil => exact h
  | cons x fs ih => exact ih ((State.unmaskNotice_events old s x).symm ▸ hf) (State.unmaskNotice_keeps hf h)

/-- The notice of a set flag that the pass reaches and that becomes unmasked waits behind the pass. -/
theorem State.foldl_unmaskNotice_places {fs : List Flag} {d : EventData} (hmem : f ∈ fs) (hf : s.events.flag f = some d)
    (hold : old[f.kind] = true) (hnew : s.events.masked f = false) :
    TxFrame.notice f d ∈ (fs.foldl (State.unmaskNotice old) s).link.sendQueue := by
  induction fs generalizing s with
  | nil => cases hmem
  | cons x fs ih =>
    have hevents := State.unmaskNotice_events old s x
    obtain rfl | hmem := List.mem_cons.1 hmem
    · refine State.foldl_unmaskNotice_keeps (s := State.unmaskNotice old s f) (hevents.symm ▸ hf) ?_
      rw [State.unmaskNotice_of_unmasked hf hold hnew]
      exact mem_placeNotice_self _ _ _
    · exact ih hmem (hevents.symm ▸ hf) (hevents.symm ▸ hnew)

theorem State.foldl_unmaskNotice_of_not (fs : List Flag)
    (h : ∀ f, s.events.flag f = none ∨ old[f.kind] = false ∨ s.events.masked f = true) :
    fs.foldl (State.unmaskNotice old) s = s := by
  induction fs with
  | nil => rfl
  | cons f fs ih => rw [List.foldl_cons, State.unmaskNotice_of_not (h f), ih]

end Unmasking

/-! ### EVENT MASK (R170) -/

theorem State.setMask_events (s : State) (m : Vector Bool 9) : (s.setMask m).events = { s.events with mask := m } :=
  State.foldl_unmaskNotice_events _ _ _

theorem State.setMask_eventChange (s : State) (m : Vector Bool 9) : s.EventChange (s.setMask m) :=
  State.EventChange.trans (t := { s with events := { s.events with mask := m } }) rfl
    (State.foldl_eventChange (State.unmaskNotice_eventChange _) _ _)

theorem handle_eventMask (s : State) (target hi lo : Byte) :
    handle .eventMask s target [hi, lo]
      = (s.setMask (readMask hi lo)).accept (s.setMask (readMask hi lo)).events.maskBytes := rfl

/-- A set flag's notice waits behind the mask's change, where the change unmasks its kind. -/
theorem State.setMask_places {s : State} {m : Vector Bool 9} {f : Flag} {d : EventData} (hf : s.events.flag f = some d)
    (hold : s.events.masked f = true) (hnew : ({ s.events with mask := m } : EventUnit).masked f = false) :
    TxFrame.notice f d ∈ (s.setMask m).link.sendQueue := by
  rw [State.setMask]
  exact State.foldl_unmaskNotice_places (mem_allFlags f) hf hold hnew

theorem State.setMask_link_of_not {s : State} {m : Vector Bool 9}
    (h : ∀ f, s.events.flag f = none ∨ s.events.masked f = false ∨ ({ s.events with mask := m } : EventUnit).masked f = true) :
    (s.setMask m).link = s.link := by
  rw [State.setMask, State.foldl_unmaskNotice_of_not allFlags h]

/-- Settles O15: the mask is the body's low nine bits, and the pass over the flags places the notices of those that become unmasked. -/
theorem eventMaskReplacesTheMask : Obligations.EventMaskReplacesTheMask := by
  intro s hi lo hcan
  obtain ⟨t, ht, hframe, hevents, hqueue, hlink⟩ := completeFrame_eventChange (s := s) (k := .eventMask) (body := [hi, lo]) hcan rfl rfl
    (State.setMask_eventChange { s with link := s.link.hunt } (readMask hi lo)) (handle_eventMask _ _ _ _)
  rw [← hevents] at hqueue hlink
  rw [State.setMask_events] at hevents
  rw [EventUnit.maskBytes_readMask (congrArg EventUnit.mask hevents)] at hqueue hlink
  refine ⟨t, congrArg Host.Outcome.next ht, fun f => ?_, fun f => ?_, (hqueue _).2 (.inl rfl), fun f d hf hold hnew => ?_,
    fun hnot => hlink ?_, hframe.blocks⟩
  · rw [hevents, EventUnit.masked_readMask]
  · rw [hevents]
    rfl
  · rw [hevents] at hnew
    exact (hqueue _).2 (.inr (State.setMask_places hf hold hnew))
  · rw [hevents] at hnot
    exact State.setMask_link_of_not hnot

end Sys2Proof.Machine
end

