-- ==== Sys2Proof/Proofs/PowerOn.lean ====
section
/-! Power-on: the power-on values, and a frame collected before READY is placed (R175, R176). -/

namespace Sys2Proof.Machine

/-! ### A frame from its bytes, before READY (R154, R176) -/

/-- The link with its receiver inside a frame of which these bytes are collected (R154). -/
def ComposingLink.collecting (l : ComposingLink) (bs : List Byte) : ComposingLink :=
  { l with receiver := .frame bs, gapTimer := true }

theorem ComposingLink.early_starts {l : ComposingLink} (h : l.receiver = .hunt) :
    l.early (.byte 0xA5) = l.collecting [] := by
  simp only [ComposingLink.early, ComposingLink.collect, h, Config.composingStart, if_true, ComposingLink.collecting]

theorem ComposingLink.early_joins (l : ComposingLink) {bs : List Byte} {b : Byte} (h : composingComplete (bs ++ [b]) = none) :
    (l.collecting bs).early (.byte b) = l.collecting (bs ++ [b]) := by
  simp only [ComposingLink.early, ComposingLink.collect, ComposingLink.collecting, h]

/-- The byte that completes a frame before READY: the frame is held, and the receiver returns to HUNT (R176). -/
theorem ComposingLink.early_completes (l : ComposingLink) {bs : List Byte} {b : Byte} {f : LinkFrame}
    (h : composingComplete (bs ++ [b]) = some f) : (l.collecting bs).early (.byte b) = l.hunt.hold f := by
  simp only [ComposingLink.early, ComposingLink.collect, ComposingLink.collecting, h]
  rfl

/-- Bytes none of which completes a frame are collected one after another. -/
theorem ComposingLink.foldl_early_collecting (l : ComposingLink) {bs : List Byte}
    (h : ∀ p, p <+: bs → composingComplete p = none) :
    (bs.map PowerUpEvent.byte).foldl ComposingLink.early (l.collecting []) = l.collecting bs := by
  induction bs using List.reverseRecOn with
  | nil => rfl
  | append_singleton bs b ih =>
    have hbefore := ih fun p hp => h p (hp.trans (List.prefix_append bs [b]))
    rw [List.map_append, List.foldl_append, hbefore]
    exact l.early_joins (h _ List.prefix_rfl)

/-- The bytes of a good frame, collected from HUNT before READY, leave that frame held (R154, R176). -/
theorem ComposingLink.foldl_early_composingFrame {l : ComposingLink} {kind target : Byte} {body : List Byte}
    (hhunt : l.receiver = .hunt) (hlo : 1 ≤ body.length) (hhi : body.length ≤ 1100) :
    ((composingFrame kind target body).map PowerUpEvent.byte).foldl ComposingLink.early l
      = l.hunt.hold (goodFrame kind target body) := by
  have hstart : l.early (.byte Config.composingStart) = l.collecting [] := ComposingLink.early_starts hhunt
  have hcollects := l.foldl_early_collecting fun p hp => composingComplete_part (kind := kind) (target := target) hlo hhi hp
  rw [composingFrame, List.map_append, List.foldl_append, List.map_cons, List.foldl_cons, hstart, hcollects]
  exact l.early_completes (composingComplete_whole hhi)

/-! ### The part after power-on (R175) -/

/-- The part at its power-on values, READY placed; what is the model's own stays (R175, log entry 15). -/
def State.poweredOn (s : State) : State := { State.reset with free := s.free, pending := s.pending }

theorem State.poweredOn_canTake (s : State) : s.poweredOn.link.canTake = true := rfl

/-- With nothing collected before READY, no frame is taken behind it. -/
theorem State.powerOn_nil (s : State) : s.powerOn [] = s.poweredOn :=
  State.takeHeldFrame_none (s := s.poweredOn) rfl

/-- A frame held before READY is taken behind it, as one that completes at the part after power-on (R176). -/
theorem State.powerOn_takes {s : State} {early : List PowerUpEvent} {f : LinkFrame}
    (h : early.foldl ComposingLink.early { ComposingLink.reset .power with sendQueue := [] }
      = ({ ComposingLink.reset .power with sendQueue := [] } : ComposingLink).hunt.hold f) :
    s.powerOn early = s.poweredOn.completeFrame f := by
  rw [State.completeFrame, if_pos s.poweredOn_canTake]
  simp only [State.powerOn, h]
  rfl

/-- Settles O11: the bytes collected before READY leave their frame held, and the held frame is taken behind READY. -/
theorem powerOnAnswersAFrameBehindReady : Obligations.PowerOnAnswersAFrameBehindReady := by
  refine ⟨fun s => congrArg Host.Outcome.next s.powerOn_nil, fun s kind target body hlo hhi => ?_⟩
  exact congrArg Host.Outcome.next (State.powerOn_takes (ComposingLink.foldl_early_composingFrame rfl hlo hhi))

end Sys2Proof.Machine
end
